-- ==== Sys2Proof/Word.lean ====
section
/-! DEFINITION. The word types: bytes and 64-bit words, and the plainest arithmetic on naturals and lists. -/
namespace Sys2Proof

/-- A byte. -/
abbrev Byte := BitVec 8

/-- A 64-bit word, as registers and operand words are. -/
abbrev Word := BitVec 64

/-- Bits `[lo + w - 1 : lo]` of a number. -/
def bitsOf (v lo w : Nat) : Nat := (v >>> lo) % 2 ^ w

/-- One bit of a number. -/
def bitOf (v i : Nat) : Bool := (v >>> i) % 2 == 1

/-- Ceiling division. -/
def cdiv (a b : Nat) : Nat := (a + b - 1) / b

/-- Ceiling of the base-2 logarithm; 0 for 0 and 1. -/
def clog2 (n : Nat) : Nat := if n ≤ 1 then 0 else Nat.log2 (n - 1) + 1

/-- A Bool as 0 or 1. -/
def b2n (b : Bool) : Nat := if b then 1 else 0

/-- Replace element `i` of a list. -/
def setAt {α : Type} : List α → Nat → α → List α
  | [], _, _ => []
  | _ :: t, 0, v => v :: t
  | a :: t, n + 1, v => a :: setAt t n v

/-- Signed value of the low `w` bits of a number. -/
def sgn (v w : Nat) : Int :=
  let x := v % 2 ^ w
  if 2 * x < 2 ^ w then (x : Int) else (x : Int) - (2 ^ w : Nat)

/-- Two's complement of an integer in `w` bits. -/
def toTwos (i : Int) (w : Nat) : Nat := (i % ((2 ^ w : Nat) : Int)).toNat

end Sys2Proof
end

