-- ==== Sys2Proof/Machine/Sparse.lean ====
section
/-! DEFINITION. Sparse tables: sorted (key, value) lists in one canonical form, and byte memory on top of them.
A table lists keys in strictly rising order and never lists a key whose value is the table's default. -/
namespace Sys2Proof

/-- A table from natural keys to values: sorted, without default entries. -/
abbrev SMap (α : Type) := List (Nat × α)

/-- The value listed for a key, if any. -/
def SMap.find {α : Type} : SMap α → Nat → Option α
  | [], _ => none
  | (a, v) :: t, k => if a = k then some v else SMap.find t k

/-- The value of a key, `dflt` where the table lists none. -/
def SMap.get {α : Type} (dflt : α) (m : SMap α) (k : Nat) : α := (SMap.find m k).getD dflt

/-- Insert a pair in its place, replacing an entry of the same key. -/
def SMap.insert {α : Type} (k : Nat) (v : α) : SMap α → SMap α
  | [] => [(k, v)]
  | (a, w) :: t =>
    if k < a then (k, v) :: (a, w) :: t
    else if a = k then (k, v) :: t
    else (a, w) :: SMap.insert k v t

/-- Remove a key. -/
def SMap.erase {α : Type} (m : SMap α) (k : Nat) : SMap α := m.filter (fun p => p.1 != k)

/-- Give a key a value; the default value is not listed. -/
def SMap.put {α : Type} [DecidableEq α] (dflt : α) (m : SMap α) (k : Nat) (v : α) : SMap α :=
  if v = dflt then SMap.erase m k else SMap.insert k v m

/-- The canonical form of a table. -/
def SMap.wf {α : Type} [DecidableEq α] (dflt : α) : SMap α → Bool
  | [] => true
  | (_, v) :: [] => decide (v ≠ dflt)
  | (a, v) :: (b, w) :: t => decide (v ≠ dflt) && decide (a < b) && SMap.wf dflt ((b, w) :: t)

/-- Keep only the keys outside `[a, a+n)`. -/
def SMap.clearRange {α : Type} (m : SMap α) (a n : Nat) : SMap α :=
  m.filter (fun p => decide (p.1 < a) || decide (a + n ≤ p.1))

/-- A set of naturals as a sorted list. -/
abbrev NSet := List Nat

def NSet.has (s : NSet) (k : Nat) : Bool := s.contains k

def NSet.add (s : NSet) (k : Nat) : NSet :=
  match s with
  | [] => [k]
  | a :: t => if k < a then k :: a :: t else if a = k then a :: t else a :: NSet.add t k

def NSet.del (s : NSet) (k : Nat) : NSet := s.filter (fun a => a != k)

/-- Byte memory: an unlisted address reads 0 (the reset contents; log entry 4). -/
abbrev Mem := SMap (BitVec 8)

/-- The canonical form of memory: addresses strictly rising, no byte listed that is 0. -/
def Memory.wf (m : Mem) : Bool := SMap.wf 0 m

/-- One byte of memory. -/
def Mem.byte (m : Mem) (a : Nat) : BitVec 8 := SMap.get 0 m a

/-- The cells that hold a run of bytes from an address up, zero bytes not listed. -/
def Mem.cells : Nat → List (BitVec 8) → Mem
  | _, [] => []
  | a, b :: bs => if b = 0 then Mem.cells (a + 1) bs else (a, b) :: Mem.cells (a + 1) bs

/-- Write a run of bytes. -/
def Mem.write (m : Mem) (a : Nat) (bs : List (BitVec 8)) : Mem :=
  m.filter (fun p => decide (p.1 < a)) ++ Mem.cells a bs ++
    m.filter (fun p => decide (a + bs.length ≤ p.1))

/-- Read on, in a table whose entries below `a` are dropped. -/
def Mem.readFrom : Nat → Mem → Nat → List (BitVec 8)
  | 0, _, _ => []
  | n + 1, [], a => 0 :: Mem.readFrom n [] (a + 1)
  | n + 1, (k, v) :: t, a =>
    if k = a then v :: Mem.readFrom n t (a + 1) else 0 :: Mem.readFrom n ((k, v) :: t) (a + 1)

/-- Read `n` bytes from an address up. -/
def Mem.read (m : Mem) (a n : Nat) : List (BitVec 8) :=
  Mem.readFrom n (m.dropWhile (fun p => decide (p.1 < a))) a

/-- Little-endian value of a list of bytes (spec R26, R53, R150). -/
def leNat : List (BitVec 8) → Nat
  | [] => 0
  | b :: t => b.toNat + 256 * leNat t

/-- The `n` little-endian bytes of a number. -/
def leBytes : Nat → Nat → List (BitVec 8)
  | 0, _ => []
  | n + 1, v => BitVec.ofNat 8 (v % 256) :: leBytes n (v / 256)

/-- A little-endian number in memory. -/
def Mem.le (m : Mem) (a n : Nat) : Nat := leNat (Mem.read m a n)

end Sys2Proof
end

