-- ==== Sys2Proof/Machine/Types.lean ====
section
/-! DEFINITION. Plain data types that commands carry and the state holds: requesters, descriptors, fabric commands,
tokens, firmware slots, readings (spec 03 R53, 13 R276, R278, 19 R389, 17 R340). -/
namespace Sys2Proof

/-- Who accesses the device from outside its engines (R19): the host over PCIe, JTAG, or a management core. -/
inductive Who
  | host | jtag | mgmt
deriving DecidableEq, Repr

/-- REQ code of the global log (Table 18.14). -/
def Who.req : Who → Nat
  | .host => 0 | .jtag => 1 | .mgmt => 2

/-- A descriptor (Table 3.1). -/
structure Desc where
  op : Nat
  ctrl : Nat
  tag : Nat
  wait : Word
  sig : Word
  w0 : Word
  w1 : Word
  w2 : Word
  w3 : Word
  w4 : Word
deriving DecidableEq, Repr

/-- The zero descriptor. -/
def Desc.zero : Desc := ⟨0, 0, 0, 0, 0, 0, 0, 0, 0, 0⟩

/-- A descriptor from its 64 little-endian bytes (R53). -/
def Desc.ofBytes (b : List Byte) : Desc :=
  let n (o l : Nat) : Nat := leNat ((b.drop o).take l)
  let w (o : Nat) : Word := BitVec.ofNat 64 (n o 8)
  ⟨n 0 2, n 2 2, n 4 4, w 8, w 0x10, w 0x18, w 0x20, w 0x28, w 0x30, w 0x38⟩

/-- The 64 bytes of a descriptor. -/
def Desc.bytes (d : Desc) : List Byte :=
  leBytes 2 d.op ++ leBytes 2 d.ctrl ++ leBytes 4 d.tag ++ leBytes 8 d.wait.toNat ++ leBytes 8 d.sig.toNat ++
  leBytes 8 d.w0.toNat ++ leBytes 8 d.w1.toNat ++ leBytes 8 d.w2.toNat ++ leBytes 8 d.w3.toNat ++
  leBytes 8 d.w4.toNat

/-- A library routine (Table 3.7): identifier, version, contract entry bytes, body. -/
structure Routine where
  id : Nat
  ver : Nat
  contract : List Byte
  body : List Desc
deriving DecidableEq, Repr

/-- A fabric command header (Table 13.4). -/
structure Cmd where
  op : Nat
  hops : Nat
  src : Nat
  dst : Nat
  flags : Nat
  addr : Nat
  bytes : Nat
  rcounter : Nat
  afmt : Nat
  aop : Nat
  tag : Nat
  jobId : Nat
  xid : Nat
  step : Nat
  ts : Nat
  anchor : Nat
deriving DecidableEq, Repr

def Cmd.zero : Cmd := ⟨0, 0, 0, 0, 0, 0, 0, 0, 0, 0, 0, 0, 0, 0, 0, 0⟩

/-- A TOKEN command (Table 13.4a) with the header fields it keeps; `rsvd` says whether a reserved byte is non-zero, and `req1` whether it travels on
REQ1, which its flit's link header says (R281, Table 13.3). -/
structure Tok where
  hops : Nat
  src : Nat
  dst : Nat
  kind : Nat
  bits : Nat
  cause : Nat
  origin : Nat
  step : Nat
  jk : Nat
  time : Nat
  jobId : Nat
  gen0 : Nat
  rsvd : Bool
  req1 : Bool
deriving DecidableEq, Repr

/-- A parity or memory upset that a consumer meets: none; errors that rereads cured, at most three a word, with what the consumer's
counter counts of them: every reread in a matrix array (R127), those that succeed elsewhere (R352); one that persists, with the address of the word, 0 for a word that has none, an accumulator's
or a register's (R353; the 0 is a DESIGN CHOICE, log entry 85); or an uncorrectable HBM word (R299). -/
inductive Upset
  | none
  | replays (n : Nat)
  | persistent (addr : Nat)
  | uncorrectable
deriving DecidableEq, Repr

/-- An upset of a consumer that reads no HBM, whose words have parity alone. -/
def Upset.onChip : Upset → Upset
  | .uncorrectable => .persistent 0
  | u => u

/-- A firmware slot in flash as the boot ROM sees it (R389): version, whether its signature verifies, whether its key
matches an OTP hash that is not revoked, its library ROM contents, and its image bytes for measurement. -/
structure FwSlot where
  ver : Nat
  sigOk : Bool
  keyOk : Bool
  lib : List Routine
  image : List Byte
deriving DecidableEq, Repr

/-- One converter pair's raw reading in a tally sample (R340): voltage in units of 2^-23 of 2.5 V full scale, current in
units of 2^-23 of its full scale, sense-element temperature in °C. -/
structure Reading where
  v : Int
  i : Int
  temp : Int
deriving DecidableEq, Repr

/-- What leaves the device, or answers a requester, while a command runs (the model's own record, cleared when the next
command runs). -/
inductive Out
  | ok                                                     -- normal response to an access
  | err                                                    -- error response; a read then gives zero (R20)
  | data (bytes : List Byte)                               -- data of a read
  | value (v : Word)                                       -- value of a register read
  | msi (vector : Nat)                                     -- MSI-X message (R385)
  | cmd (port : Nat) (c : Cmd) (data : List Byte)          -- fabric command leaving by a port
  | tok (port : Nat) (t : Tok)                             -- TOKEN leaving by a port
  | rsp (dst xid status : Nat) (data : List Byte)          -- RESPONSE to another device
  | echoRsp (dst xid stamp y hops : Nat) (lists : Bool)    -- RESPONSE to an ECHO, with whether this device lists its sender in its yoke (R262, R284)
  | nak (port seq : Nat)                                   -- NAK naming the last good SEQ (R275)
  | replay (port seq : Nat)                                -- replay of the flits after SEQ (R275)
  | tbReq (port t1 : Nat)                                  -- TB_REQ (R286)
  | tbReply (port t2 t3 : Nat)                             -- reply to TB_REQ
  | invalidate (dev line xid : Nat)                        -- yoke invalidation sent to a sharer (R263)
  | invalidated (dev line : Nat)                           -- answer to a yoke invalidation
  | tlyToken (tb value kind : Nat)                         -- token frame sent to the tally (R347)
  | mirror (bytes : List Byte)                             -- frame of the tally's mirror link (R350)
  | mctp (bytes : List Byte)                               -- MCTP or PLDM answer (R391)
  | spdm (code : Nat) (bytes : List Byte)                  -- SPDM answer (R390)
  | jtag (bits : List Byte)                                -- bits shifted out of TDO (R392)
  | nack                                                   -- I2C NACK (R349)
  | i2c (bytes : List Byte)                                -- I2C data with PEC (R348)
deriving DecidableEq, Repr

end Sys2Proof
end

