-- ==== Sys2Proof/Syntax.lean ====
section
/-! DEFINITION. The commands of the block: one constructor per row of the spec's table of operations and events. -/
namespace Sys2Proof

/-- A command: an access of a requester, a descriptor's operation at a furrow, a team instruction at a core and slot, a
command of the fabric, an event of a pin, a clock or a sensor, each as its row of the table names it. Requesters are
`who`, furrows `f` (in the order of Table 2.5), physical cores `c`, slots `j`. -/
inductive Instr
  /-- REGISTER_WRITE (R416) -/
  | registerWrite (who : Who) (off : Nat) (size : Nat) (v : Word)
  /-- RC_READ (R8) -/
  | rcRead (who : Who) (off : Nat) (size : Nat)
  /-- HOST_READ (R253) -/
  | hostRead (bar : Nat) (off : Nat) (len : Nat) (u : Upset)
  /-- HOST_WRITE (R253) -/
  | hostWrite (bar : Nat) (off : Nat) (bytes : List Byte)
  /-- ELOG_CLEAR (R129) -/
  | elogClear (who : Who) (off : Nat) (v : Word)
  /-- SUBMIT (R45) -/
  | submit (who : Who)
  /-- ADMISSION_COMPLETE (R45) -/
  | admissionComplete (image : List Byte) (fail : Option Nat)
  /-- SHEAF_COPY_COMPLETE (R386) -/
  | sheafCopyComplete
  /-- START (R312) -/
  | start (who : Who)
  /-- FINISH (R32) -/
  | finish (who : Who)
  /-- LOADER_APPEND (R64) -/
  | loaderAppend (f : Nat)
  /-- FETCH_BURST_ARRIVAL (R63) -/
  | fetchBurstArrival (f : Nat)
  /-- DESCRIPTOR_BEGIN (R55) -/
  | descriptorBegin (f : Nat) (u : Upset)
  /-- DESCRIPTOR_COMPLETE (R59) -/
  | descriptorComplete (f : Nat)
  /-- FRW_HOLD (R75) -/
  | frwHold (who : Who) (f : Nat) (hold : Bool)
  /-- NOP (R84) -/
  | nop (f : Nat)
  /-- WAIT (R84) -/
  | waitOp (f : Nat)
  /-- WAIT_DELAY_EXPIRY (R84) -/
  | waitDelayExpiry (f : Nat)
  /-- SIGNAL (R84) -/
  | signal (f : Nat)
  /-- CALL (R66) -/
  | call (f : Nat)
  /-- RET (R67) -/
  | ret (f : Nat)
  /-- TRC_MARK (R84) -/
  | trcMark (f : Nat)
  /-- FILL (R85) -/
  | fill (f : Nat)
  /-- MM_F (R87) -/
  | mmF (f : Nat) (u : Upset)
  /-- MM_BD (R87) -/
  | mmBd (f : Nat) (u : Upset)
  /-- MM_BW (R87) -/
  | mmBw (f : Nat) (u : Upset)
  /-- MM_BX (R170) -/
  | mmBx (f : Nat) (u : Upset)
  /-- ELT (R195) -/
  | elt (f : Nat) (u : Upset)
  /-- RED1 (R196) -/
  | red1 (f : Nat) (u : Upset)
  /-- RED2 (R196) -/
  | red2 (f : Nat) (u : Upset)
  /-- NRM_B (R182) -/
  | nrmB (f : Nat) (u : Upset)
  /-- SMX_B (R183) -/
  | smxB (f : Nat) (u : Upset)
  /-- CVT (R158) -/
  | cvt (f : Nat) (u : Upset)
  /-- CVT_24 (R123) -/
  | cvt24 (f : Nat) (u : Upset)
  /-- RNG_DROP (R178) -/
  | rngDrop (f : Nat) (u : Upset)
  /-- MOV (R95) -/
  | mov (f : Nat) (u : Upset)
  /-- HDL_PUT (R285) -/
  | hdlPut (f : Nat) (u : Upset)
  /-- HDL_GET (R285) -/
  | hdlGet (f : Nat) (u : Upset)
  /-- HDL_ACC (R285) -/
  | hdlAcc (f : Nat) (u : Upset)
  /-- UPD (R215) -/
  | upd (f : Nat) (u : Upset)
  /-- SEAL (R210) -/
  | seal (f : Nat) (u : Upset)
  /-- LAUNCH (R225) -/
  | launch (f : Nat) (u : Upset)
  /-- TEAM_RESIDENT (R225) -/
  | teamResident (c : Nat)
  /-- LAUNCH_OVERRUN (R99) -/
  | launchOverrun (c : Nat)
  /-- INT_ADD (R231) -/
  | intAdd (c : Nat) (j : Nat) (u : Upset)
  /-- INT_SUB (R231) -/
  | intSub (c : Nat) (j : Nat) (u : Upset)
  /-- INT_MUL (R231) -/
  | intMul (c : Nat) (j : Nat) (u : Upset)
  /-- INT_MULHI (R231) -/
  | intMulhi (c : Nat) (j : Nat) (u : Upset)
  /-- INT_MAD (R231) -/
  | intMad (c : Nat) (j : Nat) (u : Upset)
  /-- INT_DIV (R231) -/
  | intDiv (c : Nat) (j : Nat) (u : Upset)
  /-- INT_REM (R231) -/
  | intRem (c : Nat) (j : Nat) (u : Upset)
  /-- INT_MIN (R231) -/
  | intMin (c : Nat) (j : Nat) (u : Upset)
  /-- INT_MAX (R231) -/
  | intMax (c : Nat) (j : Nat) (u : Upset)
  /-- INT_AND (R231) -/
  | intAnd (c : Nat) (j : Nat) (u : Upset)
  /-- INT_OR (R231) -/
  | intOr (c : Nat) (j : Nat) (u : Upset)
  /-- INT_XOR (R231) -/
  | intXor (c : Nat) (j : Nat) (u : Upset)
  /-- INT_SHL (R231) -/
  | intShl (c : Nat) (j : Nat) (u : Upset)
  /-- INT_SHR (R231) -/
  | intShr (c : Nat) (j : Nat) (u : Upset)
  /-- INT_CMP (R231) -/
  | intCmp (c : Nat) (j : Nat) (u : Upset)
  /-- INT_BIT (R231) -/
  | intBit (c : Nat) (j : Nat) (u : Upset)
  /-- FP_ADD (R231) -/
  | fpAdd (c : Nat) (j : Nat) (u : Upset)
  /-- FP_SUB (R231) -/
  | fpSub (c : Nat) (j : Nat) (u : Upset)
  /-- FP_MUL (R231) -/
  | fpMul (c : Nat) (j : Nat) (u : Upset)
  /-- FP_FMA (R231) -/
  | fpFma (c : Nat) (j : Nat) (u : Upset)
  /-- FP_MIN (R231) -/
  | fpMin (c : Nat) (j : Nat) (u : Upset)
  /-- FP_MAX (R231) -/
  | fpMax (c : Nat) (j : Nat) (u : Upset)
  /-- FP_RCP (R231) -/
  | fpRcp (c : Nat) (j : Nat) (u : Upset)
  /-- FP_RSQRT (R231) -/
  | fpRsqrt (c : Nat) (j : Nat) (u : Upset)
  /-- FP_SQRT (R231) -/
  | fpSqrt (c : Nat) (j : Nat) (u : Upset)
  /-- FP_EXP2 (R231) -/
  | fpExp2 (c : Nat) (j : Nat) (u : Upset)
  /-- FP_LOG2 (R231) -/
  | fpLog2 (c : Nat) (j : Nat) (u : Upset)
  /-- FP_SIN (R231) -/
  | fpSin (c : Nat) (j : Nat) (u : Upset)
  /-- FP_COS (R231) -/
  | fpCos (c : Nat) (j : Nat) (u : Upset)
  /-- FP_NEG (R231) -/
  | fpNeg (c : Nat) (j : Nat) (u : Upset)
  /-- FP_CMP (R231) -/
  | fpCmp (c : Nat) (j : Nat) (u : Upset)
  /-- FP_ABS (R231) -/
  | fpAbs (c : Nat) (j : Nat) (u : Upset)
  /-- TEAM_MOV (R231) -/
  | teamMov (c : Nat) (j : Nat) (u : Upset)
  /-- MOV_S (R232) -/
  | movS (c : Nat) (j : Nat) (u : Upset)
  /-- TEAM_CVT (R242) -/
  | teamCvt (c : Nat) (j : Nat) (u : Upset)
  /-- SEL (R231) -/
  | sel (c : Nat) (j : Nat) (u : Upset)
  /-- POLL_ANY (R231) -/
  | pollAny (c : Nat) (j : Nat) (u : Upset)
  /-- POLL_ALL (R231) -/
  | pollAll (c : Nat) (j : Nat) (u : Upset)
  /-- POLL_LOW (R231) -/
  | pollLow (c : Nat) (j : Nat) (u : Upset)
  /-- POLL_MASK (R231) -/
  | pollMask (c : Nat) (j : Nat) (u : Upset)
  /-- XCH_LANE (R231) -/
  | xchLane (c : Nat) (j : Nat) (u : Upset)
  /-- PRD (R231) -/
  | prd (c : Nat) (j : Nat) (u : Upset)
  /-- JMP (R237) -/
  | jmp (c : Nat) (j : Nat) (u : Upset)
  /-- RCV_SET (R237) -/
  | rcvSet (c : Nat) (j : Nat) (u : Upset)
  /-- EXIT (R225) -/
  | exit (c : Nat) (j : Nat) (u : Upset)
  /-- BRK (R243) -/
  | brk (c : Nat) (j : Nat) (u : Upset)
  /-- STAT_NF (R241) -/
  | statNf (c : Nat) (j : Nat) (u : Upset)
  /-- TEAM_NOP (R231) -/
  | teamNop (c : Nat) (j : Nat) (u : Upset)
  /-- LD (R233) -/
  | ld (c : Nat) (j : Nat) (u : Upset)
  /-- ST (R233) -/
  | st (c : Nat) (j : Nat) (u : Upset)
  /-- TEAM_ACCESS_COMPLETE (R235) -/
  | teamAccessComplete (c : Nat) (j : Nat)
  /-- RMW_ADD (R236) -/
  | rmwAdd (c : Nat) (j : Nat) (u : Upset)
  /-- RMW_MIN (R236) -/
  | rmwMin (c : Nat) (j : Nat) (u : Upset)
  /-- RMW_MAX (R236) -/
  | rmwMax (c : Nat) (j : Nat) (u : Upset)
  /-- RMW_AND (R236) -/
  | rmwAnd (c : Nat) (j : Nat) (u : Upset)
  /-- RMW_OR (R236) -/
  | rmwOr (c : Nat) (j : Nat) (u : Upset)
  /-- RMW_XOR (R236) -/
  | rmwXor (c : Nat) (j : Nat) (u : Upset)
  /-- RMW_EXCH (R236) -/
  | rmwExch (c : Nat) (j : Nat) (u : Upset)
  /-- RMW_CAS (R236) -/
  | rmwCas (c : Nat) (j : Nat) (u : Upset)
  /-- FLG_SET (R240) -/
  | flgSet (c : Nat) (j : Nat) (u : Upset)
  /-- FLG_WAIT (R240) -/
  | flgWait (c : Nat) (j : Nat) (u : Upset)
  /-- CTR_ADD (R240) -/
  | ctrAdd (c : Nat) (j : Nat) (u : Upset)
  /-- CTR_WAIT (R240) -/
  | ctrWait (c : Nat) (j : Nat) (u : Upset)
  /-- FENCE (R256) -/
  | fence (c : Nat) (j : Nat) (u : Upset)
  /-- FLAG_COUNTER_STORE (R251) -/
  | flagCounterStore (who : Who) (ctr : Bool) (idx : Nat) (op : Nat) (size : Nat) (v : Word) (v2 : Word)
  /-- NO_PROGRESS (R239) -/
  | noProgress (c : Nat) (j : Nat)
  /-- REPLAY (R244) -/
  | replay (who : Who) (c : Nat)
  /-- SKIP (R244) -/
  | skip (who : Who) (c : Nat)
  /-- STEP (R244) -/
  | stepTeam (who : Who) (c : Nat)
  /-- KILL (R244) -/
  | kill (who : Who) (c : Nat)
  /-- TME_REG_DATA (R244) -/
  | tmeRegData (who : Who) (c : Nat) (v : Word)
  /-- DEADLINE_LATE (R49) -/
  | deadlineLate (id : Nat) (k : Nat)
  /-- DEADLINE (R51) -/
  | deadline (id : Nat) (k : Nat)
  /-- AUTO_JOB (R360) -/
  | autoJob
  /-- GOVERNOR_TICK (R306) -/
  | governorTick (rails : List (Nat × Nat)) (temps : List Nat)
  /-- ENVELOPE_WRITE (R314) -/
  | envelopeWrite (who : Who) (which : Nat) (v : Word)
  /-- ENVELOPE_RECHECK (R314) -/
  | envelopeRecheck
  /-- THERMAL_TRIP (R311) -/
  | thermalTrip (src : Nat) (temp : Nat)
  /-- TRIP_RECORD (R311) -/
  | tripRecord
  /-- REQ_RUN (R316) -/
  | reqRun (who : Who)
  /-- REQ_SLEEP (R316) -/
  | reqSleep (who : Who)
  /-- REQ_DEEP (R316) -/
  | reqDeep (who : Who)
  /-- XO_SETTLE (R321) -/
  | xoSettle
  /-- CLK_LOSS (R331) -/
  | clkLoss
  /-- RELOCK (R333) -/
  | relock (who : Who)
  /-- LOOP_SETTING_WRITE (R325) -/
  | loopSettingWrite (who : Who) (off : Nat) (v : Word)
  /-- LOOP_LOCK (R325) -/
  | loopLock (loop : Nat) (trainFail : Nat) (repaired : Nat)
  /-- SPREAD_WRITE (R329) -/
  | spreadWrite (who : Who) (die : Nat) (v : Word)
  /-- PCIE_LOSS (R323) -/
  | pcieLoss
  /-- TB_EXCHANGE (R286) -/
  | tbExchange
  /-- TB_REQ (R286) -/
  | tbReq (port : Nat) (t1 : Nat)
  /-- TB_REPLY (R286) -/
  | tbReply (t2 : Nat) (t3 : Nat) (depth : Nat)
  /-- PPS_IN (R288) -/
  | ppsIn
  /-- PPS_LOST (R288) -/
  | ppsLost
  /-- PORT_ENABLE (R270) -/
  | portEnable (who : Who) (port : Nat)
  /-- TRAINING_TIMEOUT (R270) -/
  | trainingTimeout (port : Nat) (step : Nat)
  /-- LOST_FEC (R271) -/
  | lostFec (port : Nat)
  /-- NAK (R275) -/
  | nak (port : Nat) (seq : Nat)
  /-- PUT (R285) -/
  | put (port : Nat) (h : Cmd) (data : List Byte)
  /-- GET (R285) -/
  | get (port : Nat) (h : Cmd) (comb : Bool) (u : Upset)
  /-- ACC (R207) -/
  | acc (port : Nat) (h : Cmd) (data : List Byte) (u : Upset)
  /-- HEADER_CLOSE_TIMEOUT (R209) -/
  | headerCloseTimeout (st : Nat) (g : Nat) (k : Nat)
  /-- SIGNAL_SET (R60) -/
  | signalSet (port : Nat) (h : Cmd)
  /-- SIGNAL_ADD (R60) -/
  | signalAdd (port : Nat) (h : Cmd)
  /-- LOAD (R248) -/
  | load (port : Nat) (h : Cmd) (data : List Byte) (comb : Bool) (u : Upset)
  /-- STORE (R248) -/
  | store (port : Nat) (h : Cmd) (data : List Byte)
  /-- ATOMIC (R285) -/
  | atomic (port : Nat) (h : Cmd) (data : List Byte) (comb : Bool) (u : Upset)
  /-- ECHO (R284) -/
  | echo (port : Nat) (h : Cmd)
  /-- SEAL_TOKEN (R212) -/
  | sealToken (port : Nat) (t : Tok)
  /-- DONE_TOKEN (R214) -/
  | doneToken (port : Nat) (t : Tok)
  /-- FAULT_TOKEN (R362) -/
  | faultToken (port : Nat) (t : Tok)
  /-- SEAL_TOKEN_SEND (R211) -/
  | sealTokenSend (k : Nat)
  /-- RESPONSE (R277) -/
  | response (port : Nat) (dst : Nat) (xid : Nat) (status : Nat) (data : List Byte)
  /-- QUIESCE (R283) -/
  | quiesce (who : Who)
  /-- SWAP (R283) -/
  | swap (who : Who)
  /-- RESUME (R283) -/
  | resume (who : Who)
  /-- YOKE_INVALIDATE (R263) -/
  | yokeInvalidate (dev : Nat) (line : Nat)
  /-- RETRAIN (R296) -/
  | retrain (who : Who) (st : Nat)
  /-- REFRESH (R297) -/
  | refresh (st : Nat) (flips : List Nat) (rfm : Nat)
  /-- SCRUB (R300) -/
  | scrub (st : Nat) (addr : Nat) (u : Upset)
  /-- IST_DUE (R368) -/
  | istDue (unit : Nat)
  /-- IST_SLICE_COMPLETE (R369) -/
  | istSliceComplete (unit : Nat) (pass : Bool)
  /-- IST_LINK_CHECK (R369) -/
  | istLinkCheck (fec : List (Nat × Nat))
  /-- RUN_ALL (R370) -/
  | runAll (who : Who) (fails : List Nat)
  /-- CORE (R373) -/
  | resetCore (who : Who) (die : Nat) (phys : Nat)
  /-- JOB (R372) -/
  | resetJob (who : Who)
  /-- DEV (R374) -/
  | resetDev (who : Who)
  /-- BRD (R375) -/
  | resetBrd (lowNs : Nat)
  /-- POR (R405) -/
  | resetPor (good : Bool)
  /-- FLR (R384) -/
  | flr
  /-- D3HOT_ENTRY (R384) -/
  | d3hotEntry
  /-- D0_RETURN (R384) -/
  | d0Return
  /-- FORCE_COMMIT (R221) -/
  | forceCommit (who : Who)
  /-- SNAP_ARM (R222) -/
  | snapArm (who : Who) (v : Word)
  /-- DOORBELL (R383) -/
  | doorbell (v : Word)
  /-- RETRY (R389) -/
  | retry (who : Who) (img : Option FwSlot)
  /-- MCTP_CONTROL (R391) -/
  | mctpControl (cmd : Nat) (arg : Nat)
  /-- PLDM_MONITORING (R391) -/
  | pldmMonitoring (sensor : Nat)
  /-- PLDM_FIRMWARE_UPDATE (R391) -/
  | pldmFirmwareUpdate (img : FwSlot)
  /-- PLDM_ACTIVATION (R389) -/
  | pldmActivation
  /-- GET_VERSION (R390) -/
  | getVersion
  /-- GET_CAPABILITIES (R390) -/
  | getCapabilities
  /-- NEGOTIATE_ALGORITHMS (R390) -/
  | negotiateAlgorithms
  /-- GET_DIGESTS (R390) -/
  | getDigests
  /-- GET_CERTIFICATE (R390) -/
  | getCertificate (slot : Nat)
  /-- CHALLENGE (R390) -/
  | challenge (slot : Nat) (nonce : List Byte)
  /-- GET_MEASUREMENTS (R390) -/
  | getMeasurements (idx : Nat) (nonce : List Byte)
  /-- KEY_EXCHANGE (R390) -/
  | keyExchange (share : List Byte)
  /-- SPDM_FINISH (R390) -/
  | spdmFinish (good : Bool)
  /-- END_SESSION (R390) -/
  | endSession
  /-- BYPASS (R392) -/
  | bypass
  /-- IDCODE (R392) -/
  | idcode
  /-- SAMPLE_PRELOAD (R392) -/
  | samplePreload (pins : List Byte)
  /-- EXTEST (R392) -/
  | extest (pins : List Byte)
  /-- CLAMP (R392) -/
  | clamp
  /-- HIGHZ (R392) -/
  | highz
  /-- EXTEST_PULSE (R392) -/
  | extestPulse
  /-- EXTEST_TRAIN (R392) -/
  | extestTrain
  /-- REGACC (R392) -/
  | regacc (addr : Nat) (write : Bool) (v : Word)
  /-- HUB_TLY_TOKEN (R347) -/
  | hubTlyToken (who : Who) (v : Word)
  /-- TOKEN_FRAME (R347) -/
  | tokenFrame (frame : List Byte)
  /-- MIRROR_FRAME (R350) -/
  | mirrorFrame (good : Bool)
  /-- TALLY_SAMPLE (R340) -/
  | tallySample (rs : List Reading)
  /-- PULSE_END (R342) -/
  | pulseEnd
  /-- NV_COPY (R343) -/
  | nvCopy
  /-- POWER_DOWN (R343) -/
  | powerDown
  /-- POWER_UP (R343) -/
  | powerUp (romOk : Bool) (badNv : List Nat) (badConv : List Nat) (addrHigh : Bool)
  /-- SELFTEST (R344) -/
  | selftest (romOk : Bool) (badNv : List Nat) (badConv : List Nat)
  /-- XTAL_LOST (R341) -/
  | xtalLost
  /-- XTAL_BACK (R346) -/
  | xtalBack
  /-- I2C_READ (R348) -/
  | i2cRead (addr : Nat) (off : Nat) (len : Nat)
  /-- I2C_WRITE (R349) -/
  | i2cWrite (addr : Nat) (off : Nat) (bytes : List Byte) (pec : Byte) (calen : Bool)
  /-- TLY_SEAL_CMD (R345) -/
  | tlySealCmd (key : Word) (calen : Bool)
  /-- SEAL_KEY_TIMEOUT (R345) -/
  | sealKeyTimeout
  /-- LOST_CLOCK (R271) -/
  | lostClock (port : Nat)
  /-- XIN0_RETURN (R333) -/
  | xin0Return
  /-- FLIT_REJECT (R275) -/
  | flitReject (port : Nat) (hdr : Nat) (crc : Nat) (payload : List Byte)
  /-- TRANSIT (R274) -/
  | transit (port : Nat) (h : Cmd) (data : List Byte)
  /-- HELLO (R270) -/
  | hello (port : Nat) (dev : Nat) (peer : Nat) (rtt : Nat)
  /-- TOKEN (R278) -/
  | token (port : Nat) (t : Tok)
  /-- PCIE_REFCLK_RETURN (R323) -/
  | pcieRefclkReturn
deriving DecidableEq, Repr

end Sys2Proof
end

