-- ==== Sys2Proof/Config.lean ====
section
/-! DEFINITION. What an implementation fixes and the spec leaves open: opaque constants without bodies, so that no
proof can rest on a value of theirs (log entry 1). Each is applied to the free-value counter of the state, to an index, or to the
operands it depends on. -/
namespace Sys2Proof

/-- A free natural number: the counter of the state and an index within the command (log entry 1). -/
opaque Config.freeNat : Nat → Nat → Nat

/-- A free choice between two candidates (log entry 1). -/
opaque Config.freeBool : Nat → Nat → Bool

/-- A free 64-bit word (log entry 1). -/
opaque Config.freeWord : Nat → Nat → BitVec 64

/-- Free bytes, for instance of a certificate or a signature (log entry 1). -/
opaque Config.freeBytes : Nat → Nat → List (BitVec 8)

/-- The SHA-384 digest of a byte string; the spec names the function and does not define it (log entry 7). -/
opaque Config.sha384 : List (BitVec 8) → List (BitVec 8)

/-- Contents of masks and fuses that the spec does not give: 0 the boot ROM, 1 the OTP key hashes and revocations (log entry 7). -/
opaque Config.fuseBytes : Nat → List (BitVec 8)

/-- The certificate chain of slot 0, whose alias key derives from the fused secret and measurement 2 (R390; log entry 7). -/
opaque Config.certChain : List (BitVec 8) → List (BitVec 8)

/-- The last place of a function of the team engine or the tilth unit for which only an enclosure is decided:
function code and operand bits (log entry 8). -/
opaque Config.roundUp : Nat → Nat → Bool

/-- The reference temperature of the tally's sense-element coefficients, in °C; the spec states none (log entry 10). -/
opaque Config.tlyTref : Int

/-- The set of a cache plot in which a 256-byte line lies; the spec gives 16 ways and no set function (log entry 11). -/
opaque Config.cacheSet : Nat → Nat

/-- The hash of a source device and a 256-byte granule that selects an egress port; the spec gives no function
(log entry 12). -/
opaque Config.routeHash : Nat → Nat → Nat

end Sys2Proof
end

