-- ==== Sys2Proof/Machine/Regs.lean ====
section
/-! DEFINITION. The device's control registers: every register of the spec's register tables, its place in the
control window (Tables 1.4, 1.5, 1.6, 3.10) and its fields with position, type, Reset value and Kept by (R8, R9). -/
namespace Sys2Proof

/-- Field types of R8. The tally's SEAL type is in the tally's own part. -/
inductive FTy
  | ro | rw | rw1c | wo | rc | rwl
deriving DecidableEq, Repr

/-- Deepest reset that a field survives (R9). -/
inductive Keep
  | none | core | job | dev | brd | por
deriving DecidableEq, Repr

/-- Depth of a reset or of a Kept by entry: CORE 1, JOB 2, DEV 3, BRD 4, POR 5 (R9). -/
def Keep.level : Keep → Nat
  | .none => 0 | .core => 1 | .job => 2 | .dev => 3 | .brd => 4 | .por => 5

/-- The blocks of the control window. -/
inductive Blk
  | hub | mirror | die | core | plot | mover | port | stack | furrow
deriving DecidableEq, Repr

/-- One field: low bit, width, type, Reset value, Kept by, and the Reset values by index where they differ. -/
structure FldDef where
  lo : Nat
  w : Nat
  ty : FTy
  rst : Nat
  kept : Keep
  rsts : List Nat
deriving DecidableEq, Repr

/-- One register or indexed run of registers: block, offset in the block, count, stride, 32-bit or 64-bit, fields. -/
structure RegDef where
  blk : Blk
  off : Nat
  count : Nat
  stride : Nat
  w32 : Bool
  flds : List FldDef
deriving DecidableEq, Repr

/-- Control-window offset of a block of unit `u` (Tables 1.4 to 1.6). For furrow blocks `u` is the block's offset
itself (Table 3.10), since the mapping of R5 places them. -/
def Blk.base : Blk → Nat → Nat
  | .hub, _ => 0
  | .mirror, _ => 0x100_0000
  | .die, d => 0x1000_0000 + d * 0x100_0000
  | .core, i => 0x1000_0000 + i / 14 * 0x100_0000 + 0x10_0000 + i % 14 * 0x1_0000
  | .plot, i => 0x1000_0000 + i / 16 * 0x100_0000 + 0x40_0000 + i % 16 * 0x1000
  | .mover, i => 0x1000_0000 + i / 4 * 0x100_0000 + 0x50_0000 + i % 4 * 0x1_0000
  | .port, i => 0x1000_0000 + i / 6 * 0x100_0000 + 0x60_0000 + i % 6 * 0x1_0000
  | .stack, i => 0x1000_0000 + i / 2 * 0x100_0000 + 0x70_0000 + i % 2 * 0x1_0000
  | .furrow, b => b

/-- Control-window offset of register `r` of unit `u`, index `i`. -/
def RegDef.addr (r : RegDef) (u i : Nat) : Nat := r.blk.base u + r.off + r.stride * i

/-- Reset value of a field at index `i`. -/
def FldDef.reset (f : FldDef) (i : Nat) : Nat := (f.rsts[i]?).getD f.rst

/-- Reset value of a whole register at index `i`. -/
def RegDef.reset (r : RegDef) (i : Nat) : Nat :=
  r.flds.foldl (fun a f => a ||| (f.reset i % 2 ^ f.w) <<< f.lo) 0

/-- HUB_PART, 01 R22 Table 1.7. -/
def HUB_PART_FAMILY : FldDef := ⟨16, 16, .ro, 0xa51, .none, []⟩
def HUB_PART_MEMBER : FldDef := ⟨4, 12, .ro, 0x128, .none, []⟩
def HUB_PART_STEP : FldDef := ⟨0, 4, .ro, 1, .none, []⟩
def HUB_PART : RegDef := ⟨.hub, 0x0, 1, 8, false, [HUB_PART_FAMILY, HUB_PART_MEMBER, HUB_PART_STEP]⟩
/-- HUB_FAMILY, 01 R22 Table 1.7. -/
def HUB_FAMILY_MOVERS : FldDef := ⟨29, 3, .ro, 4, .none, []⟩
def HUB_FAMILY_PORTS : FldDef := ⟨26, 3, .ro, 6, .none, []⟩
def HUB_FAMILY_STACK_GIB : FldDef := ⟨19, 7, .ro, 0x40, .none, []⟩
def HUB_FAMILY_STACKS : FldDef := ⟨17, 2, .ro, 2, .none, []⟩
def HUB_FAMILY_PLOTS : FldDef := ⟨12, 5, .ro, 0x10, .none, []⟩
def HUB_FAMILY_CORES_EN : FldDef := ⟨8, 4, .ro, 0xc, .none, []⟩
def HUB_FAMILY_CORES_PHYS : FldDef := ⟨4, 4, .ro, 0xe, .none, []⟩
def HUB_FAMILY_DIES : FldDef := ⟨0, 4, .ro, 0xa, .none, []⟩
def HUB_FAMILY : RegDef := ⟨.hub, 0x8, 1, 8, false, [HUB_FAMILY_MOVERS, HUB_FAMILY_PORTS, HUB_FAMILY_STACK_GIB, HUB_FAMILY_STACKS, HUB_FAMILY_PLOTS, HUB_FAMILY_CORES_EN, HUB_FAMILY_CORES_PHYS, HUB_FAMILY_DIES]⟩
/-- ADM_CTRL, 02 R46 Table 2.10. -/
def ADM_CTRL_SUBMIT : FldDef := ⟨0, 1, .wo, 0, .none, []⟩
def ADM_CTRL_START : FldDef := ⟨1, 1, .wo, 0, .none, []⟩
def ADM_CTRL_FINISH : FldDef := ⟨2, 1, .wo, 0, .none, []⟩
def ADM_CTRL : RegDef := ⟨.hub, 0x100000, 1, 8, false, [ADM_CTRL_SUBMIT, ADM_CTRL_START, ADM_CTRL_FINISH]⟩
/-- ADM_STATUS, 02 R46 Table 2.10. -/
def ADM_STATUS_CHECKING : FldDef := ⟨0, 1, .ro, 0, .core, []⟩
def ADM_STATUS_ADMITTED : FldDef := ⟨1, 1, .ro, 0, .core, []⟩
def ADM_STATUS_RUNNING : FldDef := ⟨2, 1, .ro, 0, .core, []⟩
def ADM_STATUS_CODE : FldDef := ⟨8, 8, .ro, 0, .core, []⟩
def ADM_STATUS_JOB_ID : FldDef := ⟨32, 32, .ro, 0, .core, []⟩
def ADM_STATUS : RegDef := ⟨.hub, 0x100008, 1, 8, false, [ADM_STATUS_CHECKING, ADM_STATUS_ADMITTED, ADM_STATUS_RUNNING, ADM_STATUS_CODE, ADM_STATUS_JOB_ID]⟩
/-- ADM_DETAIL0, 02 R46 Table 2.10. -/
def ADM_DETAIL0_DETAIL0 : FldDef := ⟨0, 32, .ro, 0, .core, []⟩
def ADM_DETAIL0 : RegDef := ⟨.hub, 0x100010, 1, 8, false, [ADM_DETAIL0_DETAIL0]⟩
/-- ADM_DETAIL1, 02 R46 Table 2.10. -/
def ADM_DETAIL1_DETAIL1 : FldDef := ⟨0, 64, .ro, 0, .core, []⟩
def ADM_DETAIL1 : RegDef := ⟨.hub, 0x100018, 1, 8, false, [ADM_DETAIL1_DETAIL1]⟩
/-- ADM_SOW, 02 R46 Table 2.10. -/
def ADM_SOW_DELAY_US : FldDef := ⟨0, 32, .ro, 0, .core, []⟩
def ADM_SOW : RegDef := ⟨.hub, 0x100020, 1, 8, false, [ADM_SOW_DELAY_US]⟩
/-- ADM_WDOG, 02 R46 Table 2.10. -/
def ADM_WDOG_GRACE_US : FldDef := ⟨0, 20, .rw, 0x3e8, .dev, []⟩
def ADM_WDOG : RegDef := ⟨.hub, 0x100028, 1, 8, false, [ADM_WDOG_GRACE_US]⟩
/-- ADM_BREACH, 02 R46 Table 2.10. -/
def ADM_BREACH_COUNT : FldDef := ⟨0, 32, .rc, 0, .dev, []⟩
def ADM_BREACH : RegDef := ⟨.hub, 0x100030, 1, 8, false, [ADM_BREACH_COUNT]⟩
/-- ADM_BREACH_LAST, 02 R46 Table 2.10. -/
def ADM_BREACH_LAST_CAUSE : FldDef := ⟨0, 4, .ro, 0, .dev, []⟩
def ADM_BREACH_LAST_WHERE : FldDef := ⟨16, 16, .ro, 0, .dev, []⟩
def ADM_BREACH_LAST_TAG : FldDef := ⟨32, 32, .ro, 0, .dev, []⟩
def ADM_BREACH_LAST : RegDef := ⟨.hub, 0x100038, 1, 8, false, [ADM_BREACH_LAST_CAUSE, ADM_BREACH_LAST_WHERE, ADM_BREACH_LAST_TAG]⟩
/-- ADM_ROUTE_LAT, 02 R46 Table 2.10. -/
def ADM_ROUTE_LAT_LAT_NS : FldDef := ⟨0, 24, .ro, 0, .dev, []⟩
def ADM_ROUTE_LAT_VALID : FldDef := ⟨31, 1, .ro, 0, .dev, []⟩
def ADM_ROUTE_LAT : RegDef := ⟨.hub, 0x140000, 65536, 4, true, [ADM_ROUTE_LAT_LAT_NS, ADM_ROUTE_LAT_VALID]⟩
/-- FRW_RING_BASE, 03 R78 Table 3.11. -/
def FRW_RING_BASE_BASE : FldDef := ⟨12, 36, .ro, 0, .core, []⟩
def FRW_RING_BASE : RegDef := ⟨.furrow, 0x0, 1, 8, false, [FRW_RING_BASE_BASE]⟩
/-- FRW_RING_CFG, 03 R78 Table 3.11. -/
def FRW_RING_CFG_LOG2_SIZE : FldDef := ⟨0, 5, .ro, 0, .core, []⟩
def FRW_RING_CFG : RegDef := ⟨.furrow, 0x8, 1, 8, false, [FRW_RING_CFG_LOG2_SIZE]⟩
/-- FRW_HEAD, 03 R78 Table 3.11. -/
def FRW_HEAD_HEAD : FldDef := ⟨0, 64, .ro, 0, .core, []⟩
def FRW_HEAD : RegDef := ⟨.furrow, 0x10, 1, 8, false, [FRW_HEAD_HEAD]⟩
/-- FRW_TAIL, 03 R78 Table 3.11. -/
def FRW_TAIL_TAIL : FldDef := ⟨0, 64, .ro, 0, .core, []⟩
def FRW_TAIL : RegDef := ⟨.furrow, 0x18, 1, 8, false, [FRW_TAIL_TAIL]⟩
/-- FRW_STATUS, 03 R78 Table 3.11. -/
def FRW_STATUS_HELD : FldDef := ⟨0, 10, .ro, 0, .core, []⟩
def FRW_STATUS_IDLE : FldDef := ⟨10, 1, .ro, 1, .core, []⟩
def FRW_STATUS_WAITING : FldDef := ⟨11, 1, .ro, 0, .core, []⟩
def FRW_STATUS_EXECUTING : FldDef := ⟨12, 1, .ro, 0, .core, []⟩
def FRW_STATUS_FETCH_STALL : FldDef := ⟨13, 1, .ro, 0, .core, []⟩
def FRW_STATUS_HELD_BY_HOST : FldDef := ⟨14, 1, .ro, 0, .core, []⟩
def FRW_STATUS_ERROR : FldDef := ⟨15, 1, .ro, 0, .core, []⟩
def FRW_STATUS_DEPTH : FldDef := ⟨16, 3, .ro, 0, .core, []⟩
def FRW_STATUS_INSERTED : FldDef := ⟨19, 1, .ro, 0, .core, []⟩
def FRW_STATUS_VERDICT_WAIT : FldDef := ⟨20, 1, .ro, 0, .core, []⟩
def FRW_STATUS : RegDef := ⟨.furrow, 0x20, 1, 8, false, [FRW_STATUS_HELD, FRW_STATUS_IDLE, FRW_STATUS_WAITING, FRW_STATUS_EXECUTING, FRW_STATUS_FETCH_STALL, FRW_STATUS_HELD_BY_HOST, FRW_STATUS_ERROR, FRW_STATUS_DEPTH, FRW_STATUS_INSERTED, FRW_STATUS_VERDICT_WAIT]⟩
/-- FRW_CUR, 03 R78 Table 3.11. -/
def FRW_CUR_TAG : FldDef := ⟨0, 32, .ro, 0, .core, []⟩
def FRW_CUR_STEP : FldDef := ⟨32, 32, .ro, 0, .core, []⟩
def FRW_CUR : RegDef := ⟨.furrow, 0x28, 1, 8, false, [FRW_CUR_TAG, FRW_CUR_STEP]⟩
/-- FRW_CUR_POS, 03 R78 Table 3.11. -/
def FRW_CUR_POS_ROUTINE : FldDef := ⟨0, 16, .ro, 0xffff, .core, []⟩
def FRW_CUR_POS_POS : FldDef := ⟨16, 16, .ro, 0, .core, []⟩
def FRW_CUR_POS : RegDef := ⟨.furrow, 0x30, 1, 8, false, [FRW_CUR_POS_ROUTINE, FRW_CUR_POS_POS]⟩
/-- FRW_WAITING, 03 R78 Table 3.11. -/
def FRW_WAITING_WAIT : FldDef := ⟨0, 64, .ro, 0, .core, []⟩
def FRW_WAITING : RegDef := ⟨.furrow, 0x38, 1, 8, false, [FRW_WAITING_WAIT]⟩
/-- FRW_ERR, 03 R78 Table 3.11. -/
def FRW_ERR_CODE : FldDef := ⟨0, 8, .ro, 0, .core, []⟩
def FRW_ERR_TAG : FldDef := ⟨32, 32, .ro, 0, .core, []⟩
def FRW_ERR : RegDef := ⟨.furrow, 0x40, 1, 8, false, [FRW_ERR_CODE, FRW_ERR_TAG]⟩
/-- FRW_STALL, 03 R78 Table 3.11. -/
def FRW_STALL_CYCLES : FldDef := ⟨0, 32, .rc, 0, .core, []⟩
def FRW_STALL : RegDef := ⟨.furrow, 0x48, 1, 8, false, [FRW_STALL_CYCLES]⟩
/-- FRW_CTRL, 03 R78 Table 3.11. -/
def FRW_CTRL_HOLD : FldDef := ⟨0, 1, .rw, 0, .core, []⟩
def FRW_CTRL_IRQ_EN : FldDef := ⟨1, 1, .rw, 0, .core, []⟩
def FRW_CTRL : RegDef := ⟨.furrow, 0x50, 1, 8, false, [FRW_CTRL_HOLD, FRW_CTRL_IRQ_EN]⟩
/-- MXA_STATUS, 05 R128 Table 5.6. -/
def MXA_STATUS_BUSY : FldDef := ⟨0, 1, .ro, 0, .none, []⟩
def MXA_STATUS_INSERTED : FldDef := ⟨1, 1, .ro, 0, .none, []⟩
def MXA_STATUS_ACC0 : FldDef := ⟨2, 2, .ro, 0, .none, []⟩
def MXA_STATUS_ACC1 : FldDef := ⟨4, 2, .ro, 0, .none, []⟩
def MXA_STATUS_HERITAGE : FldDef := ⟨6, 1, .ro, 0, .none, []⟩
def MXA_STATUS_TAG : FldDef := ⟨32, 32, .ro, 0, .none, []⟩
def MXA_STATUS : RegDef := ⟨.core, 0x0, 1, 8, false, [MXA_STATUS_BUSY, MXA_STATUS_INSERTED, MXA_STATUS_ACC0, MXA_STATUS_ACC1, MXA_STATUS_HERITAGE, MXA_STATUS_TAG]⟩
/-- MXA_CHAIN0, 05 R128 Table 5.6. -/
def MXA_CHAIN0_M : FldDef := ⟨0, 10, .ro, 0, .none, []⟩
def MXA_CHAIN0_N : FldDef := ⟨10, 8, .ro, 0, .none, []⟩
def MXA_CHAIN0_SHAPE : FldDef := ⟨18, 2, .ro, 0, .none, []⟩
def MXA_CHAIN0_K_SUM : FldDef := ⟨20, 32, .ro, 0, .none, []⟩
def MXA_CHAIN0 : RegDef := ⟨.core, 0x8, 1, 8, false, [MXA_CHAIN0_M, MXA_CHAIN0_N, MXA_CHAIN0_SHAPE, MXA_CHAIN0_K_SUM]⟩
/-- MXA_CHAIN1, 05 R128 Table 5.6. -/
def MXA_CHAIN1_M : FldDef := ⟨0, 10, .ro, 0, .none, []⟩
def MXA_CHAIN1_N : FldDef := ⟨10, 8, .ro, 0, .none, []⟩
def MXA_CHAIN1_SHAPE : FldDef := ⟨18, 2, .ro, 0, .none, []⟩
def MXA_CHAIN1_K_SUM : FldDef := ⟨20, 32, .ro, 0, .none, []⟩
def MXA_CHAIN1 : RegDef := ⟨.core, 0x10, 1, 8, false, [MXA_CHAIN1_M, MXA_CHAIN1_N, MXA_CHAIN1_SHAPE, MXA_CHAIN1_K_SUM]⟩
/-- MXA_SAT_ACC, 05 R128 Table 5.6. -/
def MXA_SAT_ACC_COUNT : FldDef := ⟨0, 32, .rc, 0, .none, []⟩
def MXA_SAT_ACC_MAX : FldDef := ⟨63, 1, .rw1c, 0, .none, []⟩
def MXA_SAT_ACC : RegDef := ⟨.core, 0x18, 1, 8, false, [MXA_SAT_ACC_COUNT, MXA_SAT_ACC_MAX]⟩
/-- MXA_SAT_OUT, 05 R128 Table 5.6. -/
def MXA_SAT_OUT_COUNT : FldDef := ⟨0, 32, .rc, 0, .none, []⟩
def MXA_SAT_OUT_MAX : FldDef := ⟨63, 1, .rw1c, 0, .none, []⟩
def MXA_SAT_OUT : RegDef := ⟨.core, 0x20, 1, 8, false, [MXA_SAT_OUT_COUNT, MXA_SAT_OUT_MAX]⟩
/-- MXA_NONFIN, 05 R128 Table 5.6. -/
def MXA_NONFIN_COUNT : FldDef := ⟨0, 32, .rc, 0, .none, []⟩
def MXA_NONFIN_FLAG : FldDef := ⟨62, 1, .rw1c, 0, .none, []⟩
def MXA_NONFIN_MAX : FldDef := ⟨63, 1, .rw1c, 0, .none, []⟩
def MXA_NONFIN : RegDef := ⟨.core, 0x28, 1, 8, false, [MXA_NONFIN_COUNT, MXA_NONFIN_FLAG, MXA_NONFIN_MAX]⟩
/-- MXA_ACT, 05 R128 Table 5.6. -/
def MXA_ACT_CYCLES : FldDef := ⟨0, 48, .rc, 0, .none, []⟩
def MXA_ACT : RegDef := ⟨.core, 0x30, 1, 8, false, [MXA_ACT_CYCLES]⟩
/-- MXA_SAVED, 05 R128 Table 5.6. -/
def MXA_SAVED_CYCLES : FldDef := ⟨0, 48, .rc, 0, .none, []⟩
def MXA_SAVED : RegDef := ⟨.core, 0x38, 1, 8, false, [MXA_SAVED_CYCLES]⟩
/-- MXA_INSERT, 05 R128 Table 5.6. -/
def MXA_INSERT_CYCLES : FldDef := ⟨0, 48, .rc, 0, .none, []⟩
def MXA_INSERT : RegDef := ⟨.core, 0x40, 1, 8, false, [MXA_INSERT_CYCLES]⟩
/-- MXA_REPLAY, 05 R128 Table 5.6. -/
def MXA_REPLAY_COUNT : FldDef := ⟨0, 32, .rc, 0, .none, []⟩
def MXA_REPLAY : RegDef := ⟨.core, 0x48, 1, 8, false, [MXA_REPLAY_COUNT]⟩
/-- MXA_ELOG_CNT, 05 R128 Table 5.6. -/
def MXA_ELOG_CNT_COUNT : FldDef := ⟨0, 5, .ro, 0, .job, []⟩
def MXA_ELOG_CNT_OVERFLOW : FldDef := ⟨8, 1, .rw1c, 0, .job, []⟩
def MXA_ELOG_CNT_CLEAR : FldDef := ⟨16, 1, .wo, 0, .none, []⟩
def MXA_ELOG_CNT : RegDef := ⟨.core, 0x80, 1, 8, false, [MXA_ELOG_CNT_COUNT, MXA_ELOG_CNT_OVERFLOW, MXA_ELOG_CNT_CLEAR]⟩
/-- MXA_ELOG_A, 05 R128 Table 5.6. -/
def MXA_ELOG_A_ADDR : FldDef := ⟨0, 48, .ro, 0, .job, []⟩
def MXA_ELOG_A_CAUSE : FldDef := ⟨48, 8, .ro, 0, .job, []⟩
def MXA_ELOG_A : RegDef := ⟨.core, 0x100, 16, 16, false, [MXA_ELOG_A_ADDR, MXA_ELOG_A_CAUSE]⟩
/-- MXA_ELOG_B, 05 R128 Table 5.6. -/
def MXA_ELOG_B_TAG : FldDef := ⟨0, 32, .ro, 0, .job, []⟩
def MXA_ELOG_B_STEP : FldDef := ⟨32, 32, .ro, 0, .job, []⟩
def MXA_ELOG_B : RegDef := ⟨.core, 0x108, 16, 16, false, [MXA_ELOG_B_TAG, MXA_ELOG_B_STEP]⟩
/-- MXA_FMAP_FALLOW, 06 R146 Table 6.8. -/
def MXA_FMAP_FALLOW_COUNT : FldDef := ⟨0, 32, .rc, 0, .none, []⟩
def MXA_FMAP_FALLOW : RegDef := ⟨.core, 0x400, 1, 8, false, [MXA_FMAP_FALLOW_COUNT]⟩
/-- MXA_FMAP_DENSE, 06 R146 Table 6.8. -/
def MXA_FMAP_DENSE_COUNT : FldDef := ⟨0, 32, .rc, 0, .none, []⟩
def MXA_FMAP_DENSE : RegDef := ⟨.core, 0x408, 1, 8, false, [MXA_FMAP_DENSE_COUNT]⟩
/-- MXA_GLEAN_SKIP, 06 R146 Table 6.8. -/
def MXA_GLEAN_SKIP_PAIRS : FldDef := ⟨0, 48, .rc, 0, .none, []⟩
def MXA_GLEAN_SKIP : RegDef := ⟨.core, 0x410, 1, 8, false, [MXA_GLEAN_SKIP_PAIRS]⟩
/-- MXA_HDR_ADDR, 06 R146 Table 6.8. -/
def MXA_HDR_ADDR_BLOCK : FldDef := ⟨0, 13, .rw, 0, .none, []⟩
def MXA_HDR_ADDR : RegDef := ⟨.core, 0x418, 1, 8, false, [MXA_HDR_ADDR_BLOCK]⟩
/-- MXA_HDR, 06 R146 Table 6.8. -/
def MXA_HDR_FORM : FldDef := ⟨0, 2, .ro, 0, .none, []⟩
def MXA_HDR : RegDef := ⟨.core, 0x420, 1, 8, false, [MXA_HDR_FORM]⟩
/-- HUB_LS_STATE, 07 R168 Table 7.7. -/
def HUB_LS_STATE_EXP : FldDef := ⟨0, 8, .ro, 0, .core, []⟩
def HUB_LS_STATE_CLEAN : FldDef := ⟨32, 32, .ro, 0, .core, []⟩
def HUB_LS_STATE : RegDef := ⟨.hub, 0x1000, 1, 8, false, [HUB_LS_STATE_EXP, HUB_LS_STATE_CLEAN]⟩
/-- HUB_LS_COMMIT, 07 R168 Table 7.7. -/
def HUB_LS_COMMIT_EXP : FldDef := ⟨0, 8, .rw, 0, .job, []⟩
def HUB_LS_COMMIT_VALID : FldDef := ⟨8, 1, .rw, 0, .job, []⟩
def HUB_LS_COMMIT_CLEAN : FldDef := ⟨32, 32, .rw, 0, .job, []⟩
def HUB_LS_COMMIT : RegDef := ⟨.hub, 0x1008, 1, 8, false, [HUB_LS_COMMIT_EXP, HUB_LS_COMMIT_VALID, HUB_LS_COMMIT_CLEAN]⟩
/-- HUB_LS_CTRL, 07 R168 Table 7.7. -/
def HUB_LS_CTRL_RESUME : FldDef := ⟨0, 1, .rw, 0, .dev, []⟩
def HUB_LS_CTRL_SRC_ACC : FldDef := ⟨1, 1, .rw, 1, .dev, []⟩
def HUB_LS_CTRL_SRC_OUT : FldDef := ⟨2, 1, .rw, 1, .dev, []⟩
def HUB_LS_CTRL_SRC_CVT : FldDef := ⟨3, 1, .rw, 1, .dev, []⟩
def HUB_LS_CTRL_SRC_LAND : FldDef := ⟨4, 1, .rw, 1, .dev, []⟩
def HUB_LS_CTRL : RegDef := ⟨.hub, 0x1010, 1, 8, false, [HUB_LS_CTRL_RESUME, HUB_LS_CTRL_SRC_ACC, HUB_LS_CTRL_SRC_OUT, HUB_LS_CTRL_SRC_CVT, HUB_LS_CTRL_SRC_LAND]⟩
/-- HUB_LS_EVT, 07 R168 Table 7.7. -/
def HUB_LS_EVT_HALVED : FldDef := ⟨0, 16, .rc, 0, .dev, []⟩
def HUB_LS_EVT_DOUBLED : FldDef := ⟨16, 16, .rc, 0, .dev, []⟩
def HUB_LS_EVT_FLOOR : FldDef := ⟨32, 1, .rw1c, 0, .dev, []⟩
def HUB_LS_EVT_CEIL : FldDef := ⟨33, 1, .rw1c, 0, .dev, []⟩
def HUB_LS_EVT : RegDef := ⟨.hub, 0x1018, 1, 8, false, [HUB_LS_EVT_HALVED, HUB_LS_EVT_DOUBLED, HUB_LS_EVT_FLOOR, HUB_LS_EVT_CEIL]⟩
/-- HUB_STEP_EVT, 07 R168 Table 7.7. -/
def HUB_STEP_EVT_STEP : FldDef := ⟨0, 32, .ro, 0, .core, []⟩
def HUB_STEP_EVT_OVF : FldDef := ⟨32, 1, .ro, 0, .core, []⟩
def HUB_STEP_EVT_NF : FldDef := ⟨33, 1, .ro, 0, .core, []⟩
def HUB_STEP_EVT_VALID : FldDef := ⟨34, 1, .ro, 0, .core, []⟩
def HUB_STEP_EVT_LATE : FldDef := ⟨35, 1, .ro, 0, .core, []⟩
def HUB_STEP_EVT : RegDef := ⟨.hub, 0x1020, 4, 8, false, [HUB_STEP_EVT_STEP, HUB_STEP_EVT_OVF, HUB_STEP_EVT_NF, HUB_STEP_EVT_VALID, HUB_STEP_EVT_LATE]⟩
/-- TLT_CFG, 09 R199 Table 9.4. -/
def TLT_CFG_RETAIN : FldDef := ⟨0, 1, .rw, 0, .dev, []⟩
def TLT_CFG : RegDef := ⟨.plot, 0x0, 1, 8, false, [TLT_CFG_RETAIN]⟩
/-- TLT_MARK, 09 R199 Table 9.4. -/
def TLT_MARK_RESERVED : FldDef := ⟨0, 1, .ro, 0, .core, []⟩
def TLT_MARK_MARK : FldDef := ⟨1, 2, .ro, 0, .core, []⟩
def TLT_MARK_KEPT : FldDef := ⟨3, 1, .ro, 0, .job, []⟩
def TLT_MARK : RegDef := ⟨.plot, 0x8, 1, 8, false, [TLT_MARK_RESERVED, TLT_MARK_MARK, TLT_MARK_KEPT]⟩
/-- TLT_STATUS, 09 R199 Table 9.4. -/
def TLT_STATUS_BUSY : FldDef := ⟨0, 1, .ro, 0, .none, []⟩
def TLT_STATUS_LANDING : FldDef := ⟨1, 1, .ro, 0, .none, []⟩
def TLT_STATUS_BACKPRESS : FldDef := ⟨2, 1, .ro, 0, .none, []⟩
def TLT_STATUS_INSERTED : FldDef := ⟨3, 1, .ro, 0, .none, []⟩
def TLT_STATUS : RegDef := ⟨.plot, 0x10, 1, 8, false, [TLT_STATUS_BUSY, TLT_STATUS_LANDING, TLT_STATUS_BACKPRESS, TLT_STATUS_INSERTED]⟩
/-- TLT_SAT, 09 R199 Table 9.4. -/
def TLT_SAT_COUNT : FldDef := ⟨0, 32, .rc, 0, .none, []⟩
def TLT_SAT_MAX : FldDef := ⟨63, 1, .rw1c, 0, .none, []⟩
def TLT_SAT : RegDef := ⟨.plot, 0x18, 1, 8, false, [TLT_SAT_COUNT, TLT_SAT_MAX]⟩
/-- TLT_NONFIN, 09 R199 Table 9.4. -/
def TLT_NONFIN_COUNT : FldDef := ⟨0, 32, .rc, 0, .none, []⟩
def TLT_NONFIN_FLAG : FldDef := ⟨62, 1, .rw1c, 0, .none, []⟩
def TLT_NONFIN_MAX : FldDef := ⟨63, 1, .rw1c, 0, .none, []⟩
def TLT_NONFIN : RegDef := ⟨.plot, 0x20, 1, 8, false, [TLT_NONFIN_COUNT, TLT_NONFIN_FLAG, TLT_NONFIN_MAX]⟩
/-- TLT_DROP24, 09 R199 Table 9.4. -/
def TLT_DROP24_COUNT : FldDef := ⟨0, 32, .rc, 0, .none, []⟩
def TLT_DROP24_MAX : FldDef := ⟨63, 1, .rw1c, 0, .none, []⟩
def TLT_DROP24 : RegDef := ⟨.plot, 0x28, 1, 8, false, [TLT_DROP24_COUNT, TLT_DROP24_MAX]⟩
/-- TLT_LAND, 09 R199 Table 9.4. -/
def TLT_LAND_BYTES : FldDef := ⟨0, 48, .rc, 0, .none, []⟩
def TLT_LAND : RegDef := ⟨.plot, 0x30, 1, 8, false, [TLT_LAND_BYTES]⟩
/-- TLT_BP, 09 R199 Table 9.4. -/
def TLT_BP_CYCLES : FldDef := ⟨0, 48, .rc, 0, .none, []⟩
def TLT_BP : RegDef := ⟨.plot, 0x38, 1, 8, false, [TLT_BP_CYCLES]⟩
/-- TLT_OVERSUB, 09 R199 Table 9.4. -/
def TLT_OVERSUB_CYCLES : FldDef := ⟨0, 48, .rc, 0, .none, []⟩
def TLT_OVERSUB : RegDef := ⟨.plot, 0x40, 1, 8, false, [TLT_OVERSUB_CYCLES]⟩
/-- TLT_CACHE, 09 R199 Table 9.4. -/
def TLT_CACHE_HITS : FldDef := ⟨0, 32, .rc, 0, .none, []⟩
def TLT_CACHE_MISSES : FldDef := ⟨32, 32, .rc, 0, .none, []⟩
def TLT_CACHE : RegDef := ⟨.plot, 0x48, 1, 8, false, [TLT_CACHE_HITS, TLT_CACHE_MISSES]⟩
/-- TLT_HDR_ADDR, 09 R199 Table 9.4. -/
def TLT_HDR_ADDR_BLOCK : FldDef := ⟨0, 17, .rw, 0, .none, []⟩
def TLT_HDR_ADDR : RegDef := ⟨.plot, 0x50, 1, 8, false, [TLT_HDR_ADDR_BLOCK]⟩
/-- TLT_HDR, 09 R199 Table 9.4. -/
def TLT_HDR_FORM : FldDef := ⟨0, 2, .ro, 0, .none, []⟩
def TLT_HDR : RegDef := ⟨.plot, 0x58, 1, 8, false, [TLT_HDR_FORM]⟩
/-- TLT_ELOG_CNT, 09 R199 Table 9.4. -/
def TLT_ELOG_CNT_COUNT : FldDef := ⟨0, 5, .ro, 0, .job, []⟩
def TLT_ELOG_CNT_OVERFLOW : FldDef := ⟨8, 1, .rw1c, 0, .job, []⟩
def TLT_ELOG_CNT_CLEAR : FldDef := ⟨16, 1, .wo, 0, .none, []⟩
def TLT_ELOG_CNT : RegDef := ⟨.plot, 0x80, 1, 8, false, [TLT_ELOG_CNT_COUNT, TLT_ELOG_CNT_OVERFLOW, TLT_ELOG_CNT_CLEAR]⟩
/-- TLT_ELOG_A, 09 R199 Table 9.4. -/
def TLT_ELOG_A_ADDR : FldDef := ⟨0, 48, .ro, 0, .job, []⟩
def TLT_ELOG_A_CAUSE : FldDef := ⟨48, 8, .ro, 0, .job, []⟩
def TLT_ELOG_A : RegDef := ⟨.plot, 0x100, 16, 16, false, [TLT_ELOG_A_ADDR, TLT_ELOG_A_CAUSE]⟩
/-- TLT_ELOG_B, 09 R199 Table 9.4. -/
def TLT_ELOG_B_TAG : FldDef := ⟨0, 32, .ro, 0, .job, []⟩
def TLT_ELOG_B_STEP : FldDef := ⟨32, 32, .ro, 0, .job, []⟩
def TLT_ELOG_B : RegDef := ⟨.plot, 0x108, 16, 16, false, [TLT_ELOG_B_TAG, TLT_ELOG_B_STEP]⟩
/-- HRW_STATUS, 10 R223 Table 10.7. -/
def HRW_STATUS_BUSY : FldDef := ⟨0, 1, .ro, 0, .none, []⟩
def HRW_STATUS_LANDING : FldDef := ⟨1, 1, .ro, 0, .none, []⟩
def HRW_STATUS_BACKPRESS : FldDef := ⟨2, 1, .ro, 0, .none, []⟩
def HRW_STATUS_CAPTURE : FldDef := ⟨3, 1, .ro, 0, .none, []⟩
def HRW_STATUS_GROUPS : FldDef := ⟨4, 13, .ro, 0, .job, []⟩
def HRW_STATUS : RegDef := ⟨.stack, 0x0, 1, 8, false, [HRW_STATUS_BUSY, HRW_STATUS_LANDING, HRW_STATUS_BACKPRESS, HRW_STATUS_CAPTURE, HRW_STATUS_GROUPS]⟩
/-- HRW_SAT, 10 R223 Table 10.7. -/
def HRW_SAT_COUNT : FldDef := ⟨0, 32, .rc, 0, .none, []⟩
def HRW_SAT_MAX : FldDef := ⟨63, 1, .rw1c, 0, .none, []⟩
def HRW_SAT : RegDef := ⟨.stack, 0x8, 1, 8, false, [HRW_SAT_COUNT, HRW_SAT_MAX]⟩
/-- HRW_NONFIN, 10 R223 Table 10.7. -/
def HRW_NONFIN_COUNT : FldDef := ⟨0, 32, .rc, 0, .none, []⟩
def HRW_NONFIN_FLAG : FldDef := ⟨62, 1, .rw1c, 0, .none, []⟩
def HRW_NONFIN_MAX : FldDef := ⟨63, 1, .rw1c, 0, .none, []⟩
def HRW_NONFIN : RegDef := ⟨.stack, 0x10, 1, 8, false, [HRW_NONFIN_COUNT, HRW_NONFIN_FLAG, HRW_NONFIN_MAX]⟩
/-- HRW_LAND, 10 R223 Table 10.7. -/
def HRW_LAND_BYTES : FldDef := ⟨0, 48, .rc, 0, .none, []⟩
def HRW_LAND : RegDef := ⟨.stack, 0x18, 1, 8, false, [HRW_LAND_BYTES]⟩
/-- HRW_BP, 10 R223 Table 10.7. -/
def HRW_BP_CYCLES : FldDef := ⟨0, 48, .rc, 0, .none, []⟩
def HRW_BP : RegDef := ⟨.stack, 0x20, 1, 8, false, [HRW_BP_CYCLES]⟩
/-- HRW_LATE, 10 R223 Table 10.7. -/
def HRW_LATE_COUNT : FldDef := ⟨0, 32, .rc, 0, .none, []⟩
def HRW_LATE : RegDef := ⟨.stack, 0x28, 1, 8, false, [HRW_LATE_COUNT]⟩
/-- HRW_DROPPED, 10 R223 Table 10.7. -/
def HRW_DROPPED_COUNT : FldDef := ⟨0, 32, .rc, 0, .none, []⟩
def HRW_DROPPED : RegDef := ⟨.stack, 0x30, 1, 8, false, [HRW_DROPPED_COUNT]⟩
/-- HRW_VERD_SEL, 10 R223 Table 10.7. -/
def HRW_VERD_SEL_GROUP : FldDef := ⟨0, 12, .rw, 0, .none, []⟩
def HRW_VERD_SEL : RegDef := ⟨.stack, 0x38, 1, 8, false, [HRW_VERD_SEL_GROUP]⟩
/-- HRW_VERD, 10 R223 Table 10.7. -/
def HRW_VERD_STEP : FldDef := ⟨0, 32, .ro, 0, .job, []⟩
def HRW_VERD_STATE : FldDef := ⟨32, 3, .ro, 0, .job, []⟩
def HRW_VERD_APPLIED : FldDef := ⟨35, 1, .ro, 0, .job, []⟩
def HRW_VERD_D : FldDef := ⟨36, 12, .ro, 0, .job, []⟩
def HRW_VERD : RegDef := ⟨.stack, 0x40, 1, 8, false, [HRW_VERD_STEP, HRW_VERD_STATE, HRW_VERD_APPLIED, HRW_VERD_D]⟩
/-- HRW_ELOG_CNT, 10 R223 Table 10.7. -/
def HRW_ELOG_CNT_COUNT : FldDef := ⟨0, 5, .ro, 0, .job, []⟩
def HRW_ELOG_CNT_OVERFLOW : FldDef := ⟨8, 1, .rw1c, 0, .job, []⟩
def HRW_ELOG_CNT_CLEAR : FldDef := ⟨16, 1, .wo, 0, .none, []⟩
def HRW_ELOG_CNT : RegDef := ⟨.stack, 0x80, 1, 8, false, [HRW_ELOG_CNT_COUNT, HRW_ELOG_CNT_OVERFLOW, HRW_ELOG_CNT_CLEAR]⟩
/-- HRW_ELOG_A, 10 R223 Table 10.7. -/
def HRW_ELOG_A_ADDR : FldDef := ⟨0, 48, .ro, 0, .job, []⟩
def HRW_ELOG_A_CAUSE : FldDef := ⟨48, 8, .ro, 0, .job, []⟩
def HRW_ELOG_A : RegDef := ⟨.stack, 0x100, 16, 16, false, [HRW_ELOG_A_ADDR, HRW_ELOG_A_CAUSE]⟩
/-- HRW_ELOG_B, 10 R223 Table 10.7. -/
def HRW_ELOG_B_TAG : FldDef := ⟨0, 32, .ro, 0, .job, []⟩
def HRW_ELOG_B_STEP : FldDef := ⟨32, 32, .ro, 0, .job, []⟩
def HRW_ELOG_B : RegDef := ⟨.stack, 0x108, 16, 16, false, [HRW_ELOG_B_TAG, HRW_ELOG_B_STEP]⟩
/-- HUB_GEN, 10 R224 Table 10.9. -/
def HUB_GEN_GEN : FldDef := ⟨0, 32, .rw, 0, .job, []⟩
def HUB_GEN : RegDef := ⟨.hub, 0x2000, 1, 8, false, [HUB_GEN_GEN]⟩
/-- HUB_SEAL, 10 R224 Table 10.9. -/
def HUB_SEAL_STEP : FldDef := ⟨0, 32, .ro, 0, .job, []⟩
def HUB_SEAL_VERDICT : FldDef := ⟨32, 3, .ro, 0, .job, []⟩
def HUB_SEAL_PEND : FldDef := ⟨35, 1, .ro, 0, .job, []⟩
def HUB_SEAL_FORCE_COMMIT : FldDef := ⟨36, 1, .wo, 0, .none, []⟩
def HUB_SEAL : RegDef := ⟨.hub, 0x2008, 1, 8, false, [HUB_SEAL_STEP, HUB_SEAL_VERDICT, HUB_SEAL_PEND, HUB_SEAL_FORCE_COMMIT]⟩
/-- HUB_SEALTIME, 10 R224 Table 10.9. -/
def HUB_SEALTIME_TIME : FldDef := ⟨0, 64, .ro, 0, .job, []⟩
def HUB_SEALTIME : RegDef := ⟨.hub, 0x2010, 1, 8, false, [HUB_SEALTIME_TIME]⟩
/-- HUB_SNAP, 10 R224 Table 10.9. -/
def HUB_SNAP_ENABLE : FldDef := ⟨0, 1, .rw, 0, .dev, []⟩
def HUB_SNAP_DONE : FldDef := ⟨1, 1, .ro, 0, .job, []⟩
def HUB_SNAP_STEP : FldDef := ⟨32, 32, .rw, 0xffffffff, .job, []⟩
def HUB_SNAP : RegDef := ⟨.hub, 0x2018, 1, 8, false, [HUB_SNAP_ENABLE, HUB_SNAP_DONE, HUB_SNAP_STEP]⟩
/-- HUB_SNAP_GEN, 10 R224 Table 10.9. -/
def HUB_SNAP_GEN_GEN : FldDef := ⟨0, 32, .ro, 0, .job, []⟩
def HUB_SNAP_GEN : RegDef := ⟨.hub, 0x2020, 1, 8, false, [HUB_SNAP_GEN_GEN]⟩
/-- TME_STATUS, 11 R246 Table 11.10. -/
def TME_STATUS_RESIDENT : FldDef := ⟨0, 7, .ro, 0, .none, []⟩
def TME_STATUS_PARKED : FldDef := ⟨8, 7, .ro, 0, .none, []⟩
def TME_STATUS_ACTIVE : FldDef := ⟨15, 1, .ro, 0, .none, []⟩
def TME_STATUS_TAG : FldDef := ⟨32, 32, .ro, 0, .none, []⟩
def TME_STATUS : RegDef := ⟨.core, 0x2000, 1, 8, false, [TME_STATUS_RESIDENT, TME_STATUS_PARKED, TME_STATUS_ACTIVE, TME_STATUS_TAG]⟩
/-- TME_LAUNCH, 11 R246 Table 11.10. -/
def TME_LAUNCH_STARTED : FldDef := ⟨0, 16, .ro, 0, .none, []⟩
def TME_LAUNCH_ENDED : FldDef := ⟨16, 16, .ro, 0, .none, []⟩
def TME_LAUNCH_REGS : FldDef := ⟨32, 6, .ro, 0, .none, []⟩
def TME_LAUNCH : RegDef := ⟨.core, 0x2008, 1, 8, false, [TME_LAUNCH_STARTED, TME_LAUNCH_ENDED, TME_LAUNCH_REGS]⟩
/-- TME_WDOG, 11 R246 Table 11.10. -/
def TME_WDOG_LIMIT_LOG2 : FldDef := ⟨0, 5, .rw, 0x18, .dev, []⟩
def TME_WDOG : RegDef := ⟨.core, 0x2010, 1, 8, false, [TME_WDOG_LIMIT_LOG2]⟩
/-- TME_PARK_MASK, 11 R246 Table 11.10. -/
def TME_PARK_MASK_SLOTS : FldDef := ⟨0, 64, .ro, 0, .none, []⟩
def TME_PARK_MASK : RegDef := ⟨.core, 0x2018, 1, 8, false, [TME_PARK_MASK_SLOTS]⟩
/-- TME_PARK_SEL, 11 R246 Table 11.10. -/
def TME_PARK_SEL_SLOT : FldDef := ⟨0, 6, .rw, 0, .none, []⟩
def TME_PARK_SEL : RegDef := ⟨.core, 0x2020, 1, 8, false, [TME_PARK_SEL_SLOT]⟩
/-- TME_PARK_CAUSE, 11 R246 Table 11.10. -/
def TME_PARK_CAUSE_CAUSE : FldDef := ⟨0, 8, .ro, 0, .none, []⟩
def TME_PARK_CAUSE_DEPTH : FldDef := ⟨8, 6, .ro, 0, .none, []⟩
def TME_PARK_CAUSE_TEAM : FldDef := ⟨16, 16, .ro, 0, .none, []⟩
def TME_PARK_CAUSE_TAG : FldDef := ⟨32, 32, .ro, 0, .none, []⟩
def TME_PARK_CAUSE : RegDef := ⟨.core, 0x2028, 1, 8, false, [TME_PARK_CAUSE_CAUSE, TME_PARK_CAUSE_DEPTH, TME_PARK_CAUSE_TEAM, TME_PARK_CAUSE_TAG]⟩
/-- TME_PARK_PC, 11 R246 Table 11.10. -/
def TME_PARK_PC_PC : FldDef := ⟨3, 45, .rw, 0, .none, []⟩
def TME_PARK_PC : RegDef := ⟨.core, 0x2030, 1, 8, false, [TME_PARK_PC_PC]⟩
/-- TME_PARK_ADDR, 11 R246 Table 11.10. -/
def TME_PARK_ADDR_ADDR : FldDef := ⟨0, 64, .ro, 0, .none, []⟩
def TME_PARK_ADDR : RegDef := ⟨.core, 0x2038, 1, 8, false, [TME_PARK_ADDR_ADDR]⟩
/-- TME_PARK_LANES, 11 R246 Table 11.10. -/
def TME_PARK_LANES_ACTIVE : FldDef := ⟨0, 32, .ro, 0, .none, []⟩
def TME_PARK_LANES_FAULT : FldDef := ⟨32, 32, .ro, 0, .none, []⟩
def TME_PARK_LANES : RegDef := ⟨.core, 0x2040, 1, 8, false, [TME_PARK_LANES_ACTIVE, TME_PARK_LANES_FAULT]⟩
/-- TME_PARK_CTRL, 11 R246 Table 11.10. -/
def TME_PARK_CTRL_ACTION : FldDef := ⟨0, 2, .wo, 0, .none, []⟩
def TME_PARK_CTRL_STEP : FldDef := ⟨2, 1, .wo, 0, .none, []⟩
def TME_PARK_CTRL : RegDef := ⟨.core, 0x2048, 1, 8, false, [TME_PARK_CTRL_ACTION, TME_PARK_CTRL_STEP]⟩
/-- TME_REG_SEL, 11 R246 Table 11.10. -/
def TME_REG_SEL_REG : FldDef := ⟨0, 8, .rw, 0, .none, []⟩
def TME_REG_SEL_LANE : FldDef := ⟨8, 5, .rw, 0, .none, []⟩
def TME_REG_SEL_FILE : FldDef := ⟨13, 2, .rw, 0, .none, []⟩
def TME_REG_SEL : RegDef := ⟨.core, 0x2050, 1, 8, false, [TME_REG_SEL_REG, TME_REG_SEL_LANE, TME_REG_SEL_FILE]⟩
/-- TME_REG_DATA, 11 R246 Table 11.10. -/
def TME_REG_DATA_DATA : FldDef := ⟨0, 32, .rw, 0, .none, []⟩
def TME_REG_DATA : RegDef := ⟨.core, 0x2058, 1, 8, false, [TME_REG_DATA_DATA]⟩
/-- TME_ISSUE, 11 R246 Table 11.10. -/
def TME_ISSUE_COUNT : FldDef := ⟨0, 48, .rc, 0, .none, []⟩
def TME_ISSUE : RegDef := ⟨.core, 0x2060, 1, 8, false, [TME_ISSUE_COUNT]⟩
/-- TME_SECT, 11 R246 Table 11.10. -/
def TME_SECT_COUNT : FldDef := ⟨0, 48, .rc, 0, .none, []⟩
def TME_SECT : RegDef := ⟨.core, 0x2068, 1, 8, false, [TME_SECT_COUNT]⟩
/-- TME_NOPROG, 11 R246 Table 11.10. -/
def TME_NOPROG_COUNT : FldDef := ⟨0, 32, .rc, 0, .none, []⟩
def TME_NOPROG : RegDef := ⟨.core, 0x2070, 1, 8, false, [TME_NOPROG_COUNT]⟩
/-- HUB_YOKE, 12 R267 Table 12.8. -/
def HUB_YOKE_ENABLE : FldDef := ⟨0, 1, .rw, 0, .dev, []⟩
def HUB_YOKE_PEERS : FldDef := ⟨1, 2, .rw, 0, .dev, []⟩
def HUB_YOKE_MEMBER0 : FldDef := ⟨16, 16, .rw, 0, .dev, []⟩
def HUB_YOKE_MEMBER1 : FldDef := ⟨32, 16, .rw, 0, .dev, []⟩
def HUB_YOKE_MEMBER2 : FldDef := ⟨48, 16, .rw, 0, .dev, []⟩
def HUB_YOKE : RegDef := ⟨.hub, 0x3000, 1, 8, false, [HUB_YOKE_ENABLE, HUB_YOKE_PEERS, HUB_YOKE_MEMBER0, HUB_YOKE_MEMBER1, HUB_YOKE_MEMBER2]⟩
/-- HUB_YOKE_STATE, 12 R267 Table 12.8. -/
def HUB_YOKE_STATE_AGREED : FldDef := ⟨0, 3, .ro, 0, .job, []⟩
def HUB_YOKE_STATE_Y_NS : FldDef := ⟨32, 32, .ro, 0, .job, []⟩
def HUB_YOKE_STATE : RegDef := ⟨.hub, 0x3008, 1, 8, false, [HUB_YOKE_STATE_AGREED, HUB_YOKE_STATE_Y_NS]⟩
/-- HUB_DIR_STAT, 12 R267 Table 12.8. -/
def HUB_DIR_STAT_ENTRIES : FldDef := ⟨0, 21, .ro, 0, .none, []⟩
def HUB_DIR_STAT : RegDef := ⟨.hub, 0x3010, 1, 8, false, [HUB_DIR_STAT_ENTRIES]⟩
/-- HUB_DIR_BACKINV, 12 R267 Table 12.8. -/
def HUB_DIR_BACKINV_COUNT : FldDef := ⟨0, 32, .rc, 0, .none, []⟩
def HUB_DIR_BACKINV : RegDef := ⟨.hub, 0x3018, 1, 8, false, [HUB_DIR_BACKINV_COUNT]⟩
/-- HUB_DIR_INV, 12 R267 Table 12.8. -/
def HUB_DIR_INV_COUNT : FldDef := ⟨0, 48, .rc, 0, .none, []⟩
def HUB_DIR_INV : RegDef := ⟨.hub, 0x3020, 1, 8, false, [HUB_DIR_INV_COUNT]⟩
/-- HDL_CFG, 13 R290 Table 13.10. -/
def HDL_CFG_ENABLE : FldDef := ⟨0, 1, .rw, 0, .dev, []⟩
def HDL_CFG_AUTO_RETRAIN : FldDef := ⟨1, 1, .rw, 1, .dev, []⟩
def HDL_CFG_PMD : FldDef := ⟨2, 2, .rw, 0, .dev, []⟩
def HDL_CFG_RETRIES : FldDef := ⟨4, 4, .rw, 3, .dev, []⟩
def HDL_CFG_C2M_EQ : FldDef := ⟨8, 16, .rw, 0, .dev, []⟩
def HDL_CFG : RegDef := ⟨.port, 0x0, 1, 8, false, [HDL_CFG_ENABLE, HDL_CFG_AUTO_RETRAIN, HDL_CFG_PMD, HDL_CFG_RETRIES, HDL_CFG_C2M_EQ]⟩
/-- HDL_STATUS, 13 R290 Table 13.10. -/
def HDL_STATUS_STATE : FldDef := ⟨0, 3, .ro, 0, .job, []⟩
def HDL_STATUS_CAUSE : FldDef := ⟨8, 8, .ro, 0, .job, []⟩
def HDL_STATUS_FEC_LOCK : FldDef := ⟨16, 1, .ro, 0, .job, []⟩
def HDL_STATUS : RegDef := ⟨.port, 0x8, 1, 8, false, [HDL_STATUS_STATE, HDL_STATUS_CAUSE, HDL_STATUS_FEC_LOCK]⟩
/-- HDL_PEER, 13 R290 Table 13.10. -/
def HDL_PEER_DEVID : FldDef := ⟨0, 16, .ro, 0, .job, []⟩
def HDL_PEER_PORT : FldDef := ⟨16, 6, .ro, 0, .job, []⟩
def HDL_PEER_VALID : FldDef := ⟨31, 1, .ro, 0, .job, []⟩
def HDL_PEER : RegDef := ⟨.port, 0x10, 1, 8, false, [HDL_PEER_DEVID, HDL_PEER_PORT, HDL_PEER_VALID]⟩
/-- HDL_RTT, 13 R290 Table 13.10. -/
def HDL_RTT_RTT_NS : FldDef := ⟨0, 16, .ro, 0, .job, []⟩
def HDL_RTT_DELAY_NS : FldDef := ⟨16, 16, .ro, 0, .job, []⟩
def HDL_RTT : RegDef := ⟨.port, 0x18, 1, 8, false, [HDL_RTT_RTT_NS, HDL_RTT_DELAY_NS]⟩
/-- HDL_FEC, 13 R290 Table 13.10. -/
def HDL_FEC_CORRECTED : FldDef := ⟨0, 32, .rc, 0, .none, []⟩
def HDL_FEC_UNCORRECTED : FldDef := ⟨32, 32, .rc, 0, .none, []⟩
def HDL_FEC : RegDef := ⟨.port, 0x20, 1, 8, false, [HDL_FEC_CORRECTED, HDL_FEC_UNCORRECTED]⟩
/-- HDL_REPLAY, 13 R290 Table 13.10. -/
def HDL_REPLAY_COUNT : FldDef := ⟨0, 32, .rc, 0, .none, []⟩
def HDL_REPLAY_CRC_ERR : FldDef := ⟨32, 32, .rc, 0, .none, []⟩
def HDL_REPLAY : RegDef := ⟨.port, 0x28, 1, 8, false, [HDL_REPLAY_COUNT, HDL_REPLAY_CRC_ERR]⟩
/-- HDL_TX, 13 R290 Table 13.10. -/
def HDL_TX_FLITS : FldDef := ⟨0, 48, .rc, 0, .none, []⟩
def HDL_TX : RegDef := ⟨.port, 0x30, 1, 8, false, [HDL_TX_FLITS]⟩
/-- HDL_RX, 13 R290 Table 13.10. -/
def HDL_RX_FLITS : FldDef := ⟨0, 48, .rc, 0, .none, []⟩
def HDL_RX : RegDef := ⟨.port, 0x38, 1, 8, false, [HDL_RX_FLITS]⟩
/-- HDL_STALL, 13 R290 Table 13.10. -/
def HDL_STALL_CYCLES : FldDef := ⟨0, 48, .rc, 0, .none, []⟩
def HDL_STALL : RegDef := ⟨.port, 0x40, 1, 8, false, [HDL_STALL_CYCLES]⟩
/-- HDL_ELOG_CNT, 13 R290 Table 13.10. -/
def HDL_ELOG_CNT_COUNT : FldDef := ⟨0, 5, .ro, 0, .job, []⟩
def HDL_ELOG_CNT_OVERFLOW : FldDef := ⟨8, 1, .rw1c, 0, .job, []⟩
def HDL_ELOG_CNT_CLEAR : FldDef := ⟨16, 1, .wo, 0, .none, []⟩
def HDL_ELOG_CNT : RegDef := ⟨.port, 0x80, 1, 8, false, [HDL_ELOG_CNT_COUNT, HDL_ELOG_CNT_OVERFLOW, HDL_ELOG_CNT_CLEAR]⟩
/-- HDL_ELOG_A, 13 R290 Table 13.10. -/
def HDL_ELOG_A_ADDR : FldDef := ⟨0, 48, .ro, 0, .job, []⟩
def HDL_ELOG_A_CAUSE : FldDef := ⟨48, 8, .ro, 0, .job, []⟩
def HDL_ELOG_A : RegDef := ⟨.port, 0x100, 16, 16, false, [HDL_ELOG_A_ADDR, HDL_ELOG_A_CAUSE]⟩
/-- HDL_ELOG_B, 13 R290 Table 13.10. -/
def HDL_ELOG_B_TAG : FldDef := ⟨0, 32, .ro, 0, .job, []⟩
def HDL_ELOG_B_STEP : FldDef := ⟨32, 32, .ro, 0, .job, []⟩
def HDL_ELOG_B : RegDef := ⟨.port, 0x108, 16, 16, false, [HDL_ELOG_B_TAG, HDL_ELOG_B_STEP]⟩
/-- HUB_DEVID, 13 R291 Table 13.12. -/
def HUB_DEVID_ID : FldDef := ⟨0, 16, .rw, 0, .dev, []⟩
def HUB_DEVID : RegDef := ⟨.hub, 0x4000, 1, 8, false, [HUB_DEVID_ID]⟩
/-- HUB_FAB_CFG, 13 R291 Table 13.12. -/
def HUB_FAB_CFG_HOP_LIMIT : FldDef := ⟨0, 8, .rw, 0x40, .dev, []⟩
def HUB_FAB_CFG : RegDef := ⟨.hub, 0x4008, 1, 8, false, [HUB_FAB_CFG_HOP_LIMIT]⟩
/-- HUB_EPOCH, 13 R291 Table 13.12. -/
def HUB_EPOCH_QUIESCE : FldDef := ⟨0, 1, .wo, 0, .none, []⟩
def HUB_EPOCH_SWAP : FldDef := ⟨1, 1, .wo, 0, .none, []⟩
def HUB_EPOCH_RESUME : FldDef := ⟨2, 1, .wo, 0, .none, []⟩
def HUB_EPOCH_QUIESCED : FldDef := ⟨8, 1, .ro, 0, .job, []⟩
def HUB_EPOCH_DRAINED : FldDef := ⟨9, 1, .ro, 0, .job, []⟩
def HUB_EPOCH_MEASURED : FldDef := ⟨10, 1, .ro, 0, .job, []⟩
def HUB_EPOCH_EPOCH : FldDef := ⟨32, 32, .ro, 0, .dev, []⟩
def HUB_EPOCH : RegDef := ⟨.hub, 0x4010, 1, 8, false, [HUB_EPOCH_QUIESCE, HUB_EPOCH_SWAP, HUB_EPOCH_RESUME, HUB_EPOCH_QUIESCED, HUB_EPOCH_DRAINED, HUB_EPOCH_MEASURED, HUB_EPOCH_EPOCH]⟩
/-- HUB_COMB, 13 R291 Table 13.12. -/
def HUB_COMB_READS : FldDef := ⟨0, 32, .rc, 0, .none, []⟩
def HUB_COMB_ATOMICS : FldDef := ⟨32, 32, .rc, 0, .none, []⟩
def HUB_COMB : RegDef := ⟨.hub, 0x4018, 1, 8, false, [HUB_COMB_READS, HUB_COMB_ATOMICS]⟩
/-- HUB_ROUTE, 13 R291 Table 13.12. -/
def HUB_ROUTE_ENTRY : FldDef := ⟨0, 32, .ro, 0, .dev, []⟩
def HUB_ROUTE : RegDef := ⟨.hub, 0x80000, 65536, 4, true, [HUB_ROUTE_ENTRY]⟩
/-- HUB_ROUTE_NEXT, 13 R291 Table 13.12. -/
def HUB_ROUTE_NEXT_ENTRY : FldDef := ⟨0, 32, .rw, 0, .dev, []⟩
def HUB_ROUTE_NEXT : RegDef := ⟨.hub, 0xc0000, 65536, 4, true, [HUB_ROUTE_NEXT_ENTRY]⟩
/-- CLK_TB_CFG, 13 R291 Table 13.12. -/
def CLK_TB_CFG_ROOT : FldDef := ⟨0, 1, .rw, 0, .dev, []⟩
def CLK_TB_CFG_DISCIPLINE : FldDef := ⟨1, 1, .rw, 0, .dev, []⟩
def CLK_TB_CFG_PARENT : FldDef := ⟨8, 6, .rw, 0, .dev, []⟩
def CLK_TB_CFG : RegDef := ⟨.hub, 0x308000, 1, 8, false, [CLK_TB_CFG_ROOT, CLK_TB_CFG_DISCIPLINE, CLK_TB_CFG_PARENT]⟩
/-- CLK_TB_STATUS, 13 R291 Table 13.12. -/
def CLK_TB_STATUS_LOCKED : FldDef := ⟨0, 1, .ro, 0, .job, []⟩
def CLK_TB_STATUS_PPS_LOST : FldDef := ⟨1, 1, .ro, 0, .job, []⟩
def CLK_TB_STATUS_DRIFT : FldDef := ⟨2, 1, .rw1c, 0, .job, []⟩
def CLK_TB_STATUS_DEPTH : FldDef := ⟨8, 8, .ro, 0, .job, []⟩
def CLK_TB_STATUS : RegDef := ⟨.hub, 0x308008, 1, 8, false, [CLK_TB_STATUS_LOCKED, CLK_TB_STATUS_PPS_LOST, CLK_TB_STATUS_DRIFT, CLK_TB_STATUS_DEPTH]⟩
/-- CLK_TB_OFFSET, 13 R291 Table 13.12. -/
def CLK_TB_OFFSET_OFFSET_NS : FldDef := ⟨0, 32, .ro, 0, .job, []⟩
def CLK_TB_OFFSET : RegDef := ⟨.hub, 0x308010, 1, 8, false, [CLK_TB_OFFSET_OFFSET_NS]⟩
/-- CLK_TB_RATE, 13 R291 Table 13.12. -/
def CLK_TB_RATE_PPB : FldDef := ⟨0, 32, .ro, 0, .job, []⟩
def CLK_TB_RATE : RegDef := ⟨.hub, 0x308018, 1, 8, false, [CLK_TB_RATE_PPB]⟩
/-- CLK_TB_PPS, 13 R291 Table 13.12. -/
def CLK_TB_PPS_TIME : FldDef := ⟨0, 64, .ro, 0, .job, []⟩
def CLK_TB_PPS : RegDef := ⟨.hub, 0x308020, 1, 8, false, [CLK_TB_PPS_TIME]⟩
/-- CLK_TB_PPS_BAD, 13 R291 Table 13.12. -/
def CLK_TB_PPS_BAD_COUNT : FldDef := ⟨0, 32, .rc, 0, .none, []⟩
def CLK_TB_PPS_BAD : RegDef := ⟨.hub, 0x308028, 1, 8, false, [CLK_TB_PPS_BAD_COUNT]⟩
/-- HBM_CFG, 14 R301 Table 14.6. -/
def HBM_CFG_RATE : FldDef := ⟨0, 2, .rw, 0, .brd, []⟩
def HBM_CFG_SCRUB_EN : FldDef := ⟨2, 1, .rw, 1, .dev, []⟩
def HBM_CFG : RegDef := ⟨.stack, 0x1000, 1, 8, false, [HBM_CFG_RATE, HBM_CFG_SCRUB_EN]⟩
/-- HBM_CTRL, 14 R301 Table 14.6. -/
def HBM_CTRL_RETRAIN : FldDef := ⟨0, 1, .wo, 0, .none, []⟩
def HBM_CTRL : RegDef := ⟨.stack, 0x1008, 1, 8, false, [HBM_CTRL_RETRAIN]⟩
/-- HBM_STATUS, 14 R301 Table 14.6. -/
def HBM_STATUS_STATE : FldDef := ⟨0, 3, .ro, 0, .job, []⟩
def HBM_STATUS_CAUSE : FldDef := ⟨8, 8, .ro, 0, .job, []⟩
def HBM_STATUS_TEMP : FldDef := ⟨16, 8, .ro, 0, .none, []⟩
def HBM_STATUS_HOT : FldDef := ⟨24, 1, .ro, 0, .none, []⟩
def HBM_STATUS : RegDef := ⟨.stack, 0x1010, 1, 8, false, [HBM_STATUS_STATE, HBM_STATUS_CAUSE, HBM_STATUS_TEMP, HBM_STATUS_HOT]⟩
/-- HBM_ECC, 14 R301 Table 14.6. -/
def HBM_ECC_CE : FldDef := ⟨0, 32, .rc, 0, .dev, []⟩
def HBM_ECC_UE : FldDef := ⟨32, 32, .rc, 0, .dev, []⟩
def HBM_ECC : RegDef := ⟨.stack, 0x1018, 1, 8, false, [HBM_ECC_CE, HBM_ECC_UE]⟩
/-- HBM_ECC_LAST, 14 R301 Table 14.6. -/
def HBM_ECC_LAST_ADDR : FldDef := ⟨0, 48, .ro, 0, .dev, []⟩
def HBM_ECC_LAST_PC : FldDef := ⟨48, 6, .ro, 0, .dev, []⟩
def HBM_ECC_LAST_VALID : FldDef := ⟨63, 1, .ro, 0, .dev, []⟩
def HBM_ECC_LAST : RegDef := ⟨.stack, 0x1020, 1, 8, false, [HBM_ECC_LAST_ADDR, HBM_ECC_LAST_PC, HBM_ECC_LAST_VALID]⟩
/-- HBM_SCRUB, 14 R301 Table 14.6. -/
def HBM_SCRUB_PASSES : FldDef := ⟨0, 32, .ro, 0, .dev, []⟩
def HBM_SCRUB : RegDef := ⟨.stack, 0x1028, 1, 8, false, [HBM_SCRUB_PASSES]⟩
/-- HBM_RFM, 14 R301 Table 14.6. -/
def HBM_RFM_COUNT : FldDef := ⟨0, 48, .rc, 0, .none, []⟩
def HBM_RFM : RegDef := ⟨.stack, 0x1030, 1, 8, false, [HBM_RFM_COUNT]⟩
/-- HBM_REPAIR, 14 R301 Table 14.6. -/
def HBM_REPAIR_LANES : FldDef := ⟨0, 8, .ro, 0, .job, []⟩
def HBM_REPAIR : RegDef := ⟨.stack, 0x1038, 1, 8, false, [HBM_REPAIR_LANES]⟩
/-- PWR_FLOOR, 15 R319 Table 15.5. -/
def PWR_FLOOR_W : FldDef := ⟨0, 13, .rw, 0, .job, []⟩
def PWR_FLOOR : RegDef := ⟨.hub, 0x200000, 1, 8, false, [PWR_FLOOR_W]⟩
/-- PWR_CEIL, 15 R319 Table 15.5. -/
def PWR_CEIL_W : FldDef := ⟨0, 13, .rw, 0x3e8, .job, []⟩
def PWR_CEIL : RegDef := ⟨.hub, 0x200008, 1, 8, false, [PWR_CEIL_W]⟩
/-- PWR_SLEW, 15 R319 Table 15.5. -/
def PWR_SLEW_W_PER_MS : FldDef := ⟨0, 14, .rw, 0x32, .job, []⟩
def PWR_SLEW : RegDef := ⟨.hub, 0x200010, 1, 8, false, [PWR_SLEW_W_PER_MS]⟩
/-- PWR_START, 15 R319 Table 15.5. -/
def PWR_START_W : FldDef := ⟨0, 13, .rw, 0, .job, []⟩
def PWR_START : RegDef := ⟨.hub, 0x200018, 1, 8, false, [PWR_START_W]⟩
/-- PWR_END, 15 R319 Table 15.5. -/
def PWR_END_W : FldDef := ⟨0, 13, .rw, 0, .job, []⟩
def PWR_END : RegDef := ⟨.hub, 0x200020, 1, 8, false, [PWR_END_W]⟩
/-- PWR_THERM, 15 R319 Table 15.5. -/
def PWR_THERM_LIMIT : FldDef := ⟨0, 7, .rw, 0x64, .dev, []⟩
def PWR_THERM : RegDef := ⟨.hub, 0x200028, 1, 8, false, [PWR_THERM_LIMIT]⟩
/-- PWR_CTRL, 15 R319 Table 15.5. -/
def PWR_CTRL_REQ : FldDef := ⟨0, 2, .wo, 0, .none, []⟩
def PWR_CTRL_IRQ_EN : FldDef := ⟨2, 1, .rw, 0, .dev, []⟩
def PWR_CTRL : RegDef := ⟨.hub, 0x200030, 1, 8, false, [PWR_CTRL_REQ, PWR_CTRL_IRQ_EN]⟩
/-- PWR_STATUS, 15 R319 Table 15.5. -/
def PWR_STATUS_STATE : FldDef := ⟨0, 2, .ro, 0, .none, []⟩
def PWR_STATUS_SOWING : FldDef := ⟨2, 1, .ro, 0, .none, []⟩
def PWR_STATUS_RAMP_DOWN : FldDef := ⟨3, 1, .ro, 0, .none, []⟩
def PWR_STATUS_FILLING : FldDef := ⟨4, 1, .ro, 0, .none, []⟩
def PWR_STATUS_STRETCH : FldDef := ⟨5, 1, .ro, 0, .none, []⟩
def PWR_STATUS_GATE_WAIT : FldDef := ⟨6, 1, .ro, 0, .none, []⟩
def PWR_STATUS : RegDef := ⟨.hub, 0x200038, 1, 8, false, [PWR_STATUS_STATE, PWR_STATUS_SOWING, PWR_STATUS_RAMP_DOWN, PWR_STATUS_FILLING, PWR_STATUS_STRETCH, PWR_STATUS_GATE_WAIT]⟩
/-- PWR_TEL, 15 R319 Table 15.5. -/
def PWR_TEL_MEASURED_W : FldDef := ⟨0, 13, .ro, 0, .none, []⟩
def PWR_TEL_TARGET_W : FldDef := ⟨16, 13, .ro, 0, .none, []⟩
def PWR_TEL_FILL_W : FldDef := ⟨32, 13, .ro, 0, .none, []⟩
def PWR_TEL_TEMP : FldDef := ⟨48, 8, .ro, 0, .none, []⟩
def PWR_TEL : RegDef := ⟨.hub, 0x200040, 1, 8, false, [PWR_TEL_MEASURED_W, PWR_TEL_TARGET_W, PWR_TEL_FILL_W, PWR_TEL_TEMP]⟩
/-- PWR_GATE, 15 R319 Table 15.5. -/
def PWR_GATE_NS : FldDef := ⟨0, 48, .rc, 0, .none, []⟩
def PWR_GATE : RegDef := ⟨.hub, 0x200048, 1, 8, false, [PWR_GATE_NS]⟩
/-- PWR_FILL_J, 15 R319 Table 15.5. -/
def PWR_FILL_J_J : FldDef := ⟨0, 48, .rc, 0, .none, []⟩
def PWR_FILL_J : RegDef := ⟨.hub, 0x200050, 1, 8, false, [PWR_FILL_J_J]⟩
/-- PWR_EVT, 15 R319 Table 15.5. -/
def PWR_EVT_SHORT : FldDef := ⟨0, 16, .rc, 0, .none, []⟩
def PWR_EVT_OVER : FldDef := ⟨16, 16, .rc, 0, .none, []⟩
def PWR_EVT_UNCONTROLLED : FldDef := ⟨32, 16, .rc, 0, .none, []⟩
def PWR_EVT_TRIP : FldDef := ⟨48, 1, .rw1c, 0, .dev, []⟩
def PWR_EVT : RegDef := ⟨.hub, 0x200058, 1, 8, false, [PWR_EVT_SHORT, PWR_EVT_OVER, PWR_EVT_UNCONTROLLED, PWR_EVT_TRIP]⟩
/-- PWR_TRIP, 15 R319 Table 15.5. -/
def PWR_TRIP_TEMP : FldDef := ⟨0, 8, .ro, 0, .dev, []⟩
def PWR_TRIP_SOURCE : FldDef := ⟨8, 8, .ro, 0, .dev, []⟩
def PWR_TRIP_JOB_ID : FldDef := ⟨32, 32, .ro, 0, .dev, []⟩
def PWR_TRIP : RegDef := ⟨.hub, 0x200060, 1, 8, false, [PWR_TRIP_TEMP, PWR_TRIP_SOURCE, PWR_TRIP_JOB_ID]⟩
/-- PWR_RAIL, 15 R319 Table 15.5. -/
def PWR_RAIL_W : FldDef := ⟨0, 13, .ro, 0, .none, []⟩
def PWR_RAIL_MV : FldDef := ⟨16, 13, .ro, 0, .none, []⟩
def PWR_RAIL : RegDef := ⟨.hub, 0x200100, 27, 8, false, [PWR_RAIL_W, PWR_RAIL_MV]⟩
/-- CLK_XO, 16 R336 Table 16.7. -/
def CLK_XO_SETTLE : FldDef := ⟨0, 16, .ro, 0, .none, []⟩
def CLK_XO_CMOS : FldDef := ⟨16, 1, .ro, 0, .none, []⟩
def CLK_XO_FROM_OTP : FldDef := ⟨17, 1, .ro, 0, .none, []⟩
def CLK_XO : RegDef := ⟨.hub, 0x300000, 1, 8, false, [CLK_XO_SETTLE, CLK_XO_CMOS, CLK_XO_FROM_OTP]⟩
/-- CLK_STATUS, 16 R336 Table 16.7. -/
def CLK_STATUS_XIN0_OK : FldDef := ⟨0, 1, .ro, 0, .none, []⟩
def CLK_STATUS_LOSS : FldDef := ⟨1, 1, .rw1c, 0, .dev, []⟩
def CLK_STATUS_XIN1_PRESENT : FldDef := ⟨2, 1, .ro, 0, .none, []⟩
def CLK_STATUS_PCIE_LOSS : FldDef := ⟨3, 1, .rw1c, 0, .dev, []⟩
def CLK_STATUS_MPLL_LOCK : FldDef := ⟨4, 1, .ro, 0, .none, []⟩
def CLK_STATUS : RegDef := ⟨.hub, 0x300008, 1, 8, false, [CLK_STATUS_XIN0_OK, CLK_STATUS_LOSS, CLK_STATUS_XIN1_PRESENT, CLK_STATUS_PCIE_LOSS, CLK_STATUS_MPLL_LOCK]⟩
/-- CLK_CTRL, 16 R336 Table 16.7. -/
def CLK_CTRL_RELOCK : FldDef := ⟨0, 1, .wo, 0, .none, []⟩
def CLK_CTRL : RegDef := ⟨.hub, 0x300010, 1, 8, false, [CLK_CTRL_RELOCK]⟩
/-- CLK_MPLL, 16 R336 Table 16.7. -/
def CLK_MPLL_HPB_DIV : FldDef := ⟨0, 4, .rw, 4, .dev, []⟩
def CLK_MPLL : RegDef := ⟨.hub, 0x300018, 1, 8, false, [CLK_MPLL_HPB_DIV]⟩
/-- CLK_MEAS, 16 R336 Table 16.7. -/
def CLK_MEAS_FOSC_KHZ : FldDef := ⟨0, 19, .ro, 0, .none, []⟩
def CLK_MEAS_SOSC_HZ : FldDef := ⟨32, 16, .ro, 0, .none, []⟩
def CLK_MEAS : RegDef := ⟨.hub, 0x300020, 1, 8, false, [CLK_MEAS_FOSC_KHZ, CLK_MEAS_SOSC_HZ]⟩
/-- CLK_EN_RUN, 16 R336 Table 16.7. -/
def CLK_EN_RUN_EN : FldDef := ⟨0, 64, .rw, 0xffffffffffffffff, .dev, [0xFFFFFFFFFFFFFFFF, 0xFFFFFFFFFFFFFFFF, 0x00003FFFFFFFFFFF]⟩
def CLK_EN_RUN : RegDef := ⟨.hub, 0x300040, 3, 8, false, [CLK_EN_RUN_EN]⟩
/-- CLK_EN_SLEEP, 16 R336 Table 16.7. -/
def CLK_EN_SLEEP_EN : FldDef := ⟨0, 64, .rw, 0x1000080004000, .dev, [0x1000080004000, 0x10000800040002, 0x3c8000400020]⟩
def CLK_EN_SLEEP : RegDef := ⟨.hub, 0x300058, 3, 8, false, [CLK_EN_SLEEP_EN]⟩
/-- CLK_EN_DEEP, 16 R336 Table 16.7. -/
def CLK_EN_DEEP_EN : FldDef := ⟨0, 64, .rw, 0, .dev, [0x0, 0x0, 0x3c0000000000]⟩
def CLK_EN_DEEP : RegDef := ⟨.hub, 0x300070, 3, 8, false, [CLK_EN_DEEP_EN]⟩
/-- CLK_CPLL, 16 R337 Table 16.8. -/
def CLK_CPLL_MULT : FldDef := ⟨0, 8, .rw, 0x90, .dev, []⟩
def CLK_CPLL : RegDef := ⟨.die, 0x0, 1, 8, false, [CLK_CPLL_MULT]⟩
/-- CLK_FPLL, 16 R337 Table 16.8. -/
def CLK_FPLL_FAB_MULT : FldDef := ⟨0, 8, .rw, 0x80, .dev, []⟩
def CLK_FPLL_MOV_MULT : FldDef := ⟨8, 8, .rw, 0x80, .dev, []⟩
def CLK_FPLL : RegDef := ⟨.die, 0x8, 1, 8, false, [CLK_FPLL_FAB_MULT, CLK_FPLL_MOV_MULT]⟩
/-- CLK_HPLL, 16 R337 Table 16.8. -/
def CLK_HPLL_PLOT_DIV : FldDef := ⟨0, 4, .rw, 4, .dev, []⟩
def CLK_HPLL_TLT_DIV : FldDef := ⟨4, 4, .rw, 4, .dev, []⟩
def CLK_HPLL : RegDef := ⟨.die, 0x10, 1, 8, false, [CLK_HPLL_PLOT_DIV, CLK_HPLL_TLT_DIV]⟩
/-- CLK_SSC, 16 R337 Table 16.8. -/
def CLK_SSC_C_DEPTH : FldDef := ⟨0, 5, .rw, 0, .dev, []⟩
def CLK_SSC_C_RATE : FldDef := ⟨8, 4, .rw, 0, .dev, []⟩
def CLK_SSC_F_DEPTH : FldDef := ⟨16, 5, .rw, 0, .dev, []⟩
def CLK_SSC_F_RATE : FldDef := ⟨24, 4, .rw, 0, .dev, []⟩
def CLK_SSC : RegDef := ⟨.die, 0x18, 1, 8, false, [CLK_SSC_C_DEPTH, CLK_SSC_C_RATE, CLK_SSC_F_DEPTH, CLK_SSC_F_RATE]⟩
/-- CLK_DSTAT, 16 R337 Table 16.8. -/
def CLK_DSTAT_CPLL_LOCK : FldDef := ⟨0, 1, .ro, 0, .none, []⟩
def CLK_DSTAT_FPLL_LOCK : FldDef := ⟨1, 1, .ro, 0, .none, []⟩
def CLK_DSTAT_HPLL0_LOCK : FldDef := ⟨2, 1, .ro, 0, .none, []⟩
def CLK_DSTAT_HPLL1_LOCK : FldDef := ⟨3, 1, .ro, 0, .none, []⟩
def CLK_DSTAT_CPLL_LOSS : FldDef := ⟨8, 1, .rw1c, 0, .dev, []⟩
def CLK_DSTAT_FPLL_LOSS : FldDef := ⟨9, 1, .rw1c, 0, .dev, []⟩
def CLK_DSTAT_HPLL0_LOSS : FldDef := ⟨10, 1, .rw1c, 0, .dev, []⟩
def CLK_DSTAT_HPLL1_LOSS : FldDef := ⟨11, 1, .rw1c, 0, .dev, []⟩
def CLK_DSTAT : RegDef := ⟨.die, 0x20, 1, 8, false, [CLK_DSTAT_CPLL_LOCK, CLK_DSTAT_FPLL_LOCK, CLK_DSTAT_HPLL0_LOCK, CLK_DSTAT_HPLL1_LOCK, CLK_DSTAT_CPLL_LOSS, CLK_DSTAT_FPLL_LOSS, CLK_DSTAT_HPLL0_LOSS, CLK_DSTAT_HPLL1_LOSS]⟩
/-- TLY_ID, 17 R351 Table 17.4. -/
def TLY_ID_FW_VER : FldDef := ⟨0, 16, .ro, 0, .none, []⟩
def TLY_ID_FW_CRC : FldDef := ⟨16, 32, .ro, 0, .none, []⟩
def TLY_ID_CHANNELS : FldDef := ⟨48, 8, .ro, 0, .none, []⟩
def TLY_ID : RegDef := ⟨.mirror, 0x0, 1, 8, false, [TLY_ID_FW_VER, TLY_ID_FW_CRC, TLY_ID_CHANNELS]⟩
/-- TLY_ENERGY, 17 R351 Table 17.4. -/
def TLY_ENERGY_UWH : FldDef := ⟨0, 64, .ro, 0, .none, []⟩
def TLY_ENERGY : RegDef := ⟨.mirror, 0x8, 1, 8, false, [TLY_ENERGY_UWH]⟩
/-- TLY_STATUS, 17 R351 Table 17.4. -/
def TLY_STATUS_SEALED : FldDef := ⟨0, 1, .ro, 0, .none, []⟩
def TLY_STATUS_CALEN : FldDef := ⟨1, 1, .ro, 0, .none, []⟩
def TLY_STATUS_XTAL_OK : FldDef := ⟨2, 1, .ro, 0, .none, []⟩
def TLY_STATUS_LOG_FULL : FldDef := ⟨3, 1, .ro, 0, .none, []⟩
def TLY_STATUS_CH_FAULT : FldDef := ⟨4, 1, .ro, 0, .none, []⟩
def TLY_STATUS_SELFTEST_FAIL : FldDef := ⟨5, 1, .ro, 0, .none, []⟩
def TLY_STATUS_RESTORED : FldDef := ⟨6, 1, .ro, 0, .none, []⟩
def TLY_STATUS : RegDef := ⟨.mirror, 0x10, 1, 8, false, [TLY_STATUS_SEALED, TLY_STATUS_CALEN, TLY_STATUS_XTAL_OK, TLY_STATUS_LOG_FULL, TLY_STATUS_CH_FAULT, TLY_STATUS_SELFTEST_FAIL, TLY_STATUS_RESTORED]⟩
/-- TLY_TIME, 17 R351 Table 17.4. -/
def TLY_TIME_SECONDS : FldDef := ⟨0, 48, .ro, 0, .none, []⟩
def TLY_TIME : RegDef := ⟨.mirror, 0x18, 1, 8, false, [TLY_TIME_SECONDS]⟩
/-- TLY_POWER, 17 R351 Table 17.4. -/
def TLY_POWER_W : FldDef := ⟨0, 13, .ro, 0, .none, []⟩
def TLY_POWER : RegDef := ⟨.mirror, 0x20, 1, 8, false, [TLY_POWER_W]⟩
/-- TLY_CAL_CRC, 17 R351 Table 17.4. -/
def TLY_CAL_CRC_CRC : FldDef := ⟨0, 32, .ro, 0, .none, []⟩
def TLY_CAL_CRC : RegDef := ⟨.mirror, 0x28, 1, 8, false, [TLY_CAL_CRC_CRC]⟩
/-- TLY_LOG_CNT, 17 R351 Table 17.4. -/
def TLY_LOG_CNT_COUNT : FldDef := ⟨0, 11, .ro, 0, .none, []⟩
def TLY_LOG_CNT_EVT_LOST : FldDef := ⟨32, 32, .ro, 0, .none, []⟩
def TLY_LOG_CNT : RegDef := ⟨.mirror, 0x30, 1, 8, false, [TLY_LOG_CNT_COUNT, TLY_LOG_CNT_EVT_LOST]⟩
/-- TLY_ANN_CNT, 17 R351 Table 17.4. -/
def TLY_ANN_CNT_COUNT : FldDef := ⟨0, 32, .ro, 0, .none, []⟩
def TLY_ANN_CNT_ANN_BAD : FldDef := ⟨32, 32, .ro, 0, .none, []⟩
def TLY_ANN_CNT : RegDef := ⟨.mirror, 0x38, 1, 8, false, [TLY_ANN_CNT_COUNT, TLY_ANN_CNT_ANN_BAD]⟩
/-- TLY_PULSES, 17 R351 Table 17.4. -/
def TLY_PULSES_COUNT : FldDef := ⟨0, 64, .ro, 0, .none, []⟩
def TLY_PULSES : RegDef := ⟨.mirror, 0x40, 1, 8, false, [TLY_PULSES_COUNT]⟩
/-- TLY_MIRROR_STAT, 17 R351 Table 17.5. -/
def TLY_MIRROR_STAT_LINK : FldDef := ⟨0, 1, .ro, 0, .none, []⟩
def TLY_MIRROR_STAT_AGE_MS : FldDef := ⟨8, 8, .ro, 0xff, .none, []⟩
def TLY_MIRROR_STAT : RegDef := ⟨.mirror, 0x1000, 1, 8, false, [TLY_MIRROR_STAT_LINK, TLY_MIRROR_STAT_AGE_MS]⟩
/-- HUB_TLY_TOKEN, 17 R351 Table 17.5. -/
def HUB_TLY_TOKEN_VALUE : FldDef := ⟨0, 32, .wo, 0, .none, []⟩
def HUB_TLY_TOKEN : RegDef := ⟨.hub, 0x5000, 1, 8, false, [HUB_TLY_TOKEN_VALUE]⟩
/-- RST_CTRL, 18 R378 Table 18.13. -/
def RST_CTRL_JOB : FldDef := ⟨0, 1, .wo, 0, .none, []⟩
def RST_CTRL_DEV : FldDef := ⟨1, 1, .wo, 0, .none, []⟩
def RST_CTRL_CORE : FldDef := ⟨2, 1, .wo, 0, .none, []⟩
def RST_CTRL_DIE : FldDef := ⟨8, 4, .wo, 0, .none, []⟩
def RST_CTRL_PHYS : FldDef := ⟨16, 4, .wo, 0, .none, []⟩
def RST_CTRL : RegDef := ⟨.hub, 0x400000, 1, 8, false, [RST_CTRL_JOB, RST_CTRL_DEV, RST_CTRL_CORE, RST_CTRL_DIE, RST_CTRL_PHYS]⟩
/-- RST_CFG, 18 R378 Table 18.13. -/
def RST_CFG_AUTO_JOB : FldDef := ⟨0, 1, .rw, 1, .dev, []⟩
def RST_CFG_NOTICE : FldDef := ⟨1, 1, .rw, 1, .dev, []⟩
def RST_CFG : RegDef := ⟨.hub, 0x400008, 1, 8, false, [RST_CFG_AUTO_JOB, RST_CFG_NOTICE]⟩
/-- RST_STATUS, 18 R378 Table 18.13. -/
def RST_STATUS_BUSY : FldDef := ⟨0, 1, .ro, 0, .none, []⟩
def RST_STATUS_LAST : FldDef := ⟨1, 3, .ro, 5, .none, []⟩
def RST_STATUS_DEGRADED : FldDef := ⟨4, 1, .ro, 0, .none, []⟩
def RST_STATUS : RegDef := ⟨.hub, 0x400010, 1, 8, false, [RST_STATUS_BUSY, RST_STATUS_LAST, RST_STATUS_DEGRADED]⟩
/-- RST_MAP, 18 R378 Table 18.13. -/
def RST_MAP_MAP : FldDef := ⟨0, 48, .ro, 0xBA9876543210, .core, []⟩
def RST_MAP : RegDef := ⟨.hub, 0x400100, 10, 8, false, [RST_MAP_MAP]⟩
/-- RST_SUSPECT, 18 R378 Table 18.13. -/
def RST_SUSPECT_CORES : FldDef := ⟨0, 14, .rw, 0, .brd, []⟩
def RST_SUSPECT_PLOTS : FldDef := ⟨16, 16, .rw, 0, .brd, []⟩
def RST_SUSPECT_PORTS : FldDef := ⟨32, 6, .rw, 0, .brd, []⟩
def RST_SUSPECT : RegDef := ⟨.hub, 0x400180, 10, 8, false, [RST_SUSPECT_CORES, RST_SUSPECT_PLOTS, RST_SUSPECT_PORTS]⟩
/-- RST_FUSED, 18 R378 Table 18.13. -/
def RST_FUSED_CORES : FldDef := ⟨0, 14, .ro, 0, .none, []⟩
def RST_FUSED : RegDef := ⟨.hub, 0x400200, 10, 8, false, [RST_FUSED_CORES]⟩
/-- ERR_FAULT, 18 R379 Table 18.14. -/
def ERR_FAULT_CAUSE : FldDef := ⟨0, 8, .ro, 0, .dev, []⟩
def ERR_FAULT_VALID : FldDef := ⟨8, 1, .ro, 0, .dev, []⟩
def ERR_FAULT_FURROW : FldDef := ⟨16, 16, .ro, 0, .dev, []⟩
def ERR_FAULT_TAG : FldDef := ⟨32, 32, .ro, 0, .dev, []⟩
def ERR_FAULT : RegDef := ⟨.hub, 0x500000, 1, 8, false, [ERR_FAULT_CAUSE, ERR_FAULT_VALID, ERR_FAULT_FURROW, ERR_FAULT_TAG]⟩
/-- ERR_FAULT_B, 18 R379 Table 18.14. -/
def ERR_FAULT_B_STEP : FldDef := ⟨0, 32, .ro, 0, .dev, []⟩
def ERR_FAULT_B_JOB_ID : FldDef := ⟨32, 32, .ro, 0, .dev, []⟩
def ERR_FAULT_B : RegDef := ⟨.hub, 0x500008, 1, 8, false, [ERR_FAULT_B_STEP, ERR_FAULT_B_JOB_ID]⟩
/-- ERR_FAULT_T, 18 R379 Table 18.14. -/
def ERR_FAULT_T_TIME : FldDef := ⟨0, 64, .ro, 0, .dev, []⟩
def ERR_FAULT_T : RegDef := ⟨.hub, 0x500010, 1, 8, false, [ERR_FAULT_T_TIME]⟩
/-- ERR_FAULT_U, 18 R379 Table 18.14. -/
def ERR_FAULT_U_DETAIL : FldDef := ⟨0, 8, .ro, 0, .dev, []⟩
def ERR_FAULT_U_KIND : FldDef := ⟨8, 4, .ro, 0, .dev, []⟩
def ERR_FAULT_U_UNIT : FldDef := ⟨16, 12, .ro, 0, .dev, []⟩
def ERR_FAULT_U_ORIGIN : FldDef := ⟨32, 16, .ro, 0, .dev, []⟩
def ERR_FAULT_U_MORE : FldDef := ⟨48, 16, .ro, 0, .dev, []⟩
def ERR_FAULT_U : RegDef := ⟨.hub, 0x500018, 1, 8, false, [ERR_FAULT_U_DETAIL, ERR_FAULT_U_KIND, ERR_FAULT_U_UNIT, ERR_FAULT_U_ORIGIN, ERR_FAULT_U_MORE]⟩
/-- ERR_MCHK, 18 R379 Table 18.14. -/
def ERR_MCHK_COUNT : FldDef := ⟨0, 32, .rc, 0, .dev, []⟩
def ERR_MCHK_DEV_FAULT : FldDef := ⟨32, 1, .ro, 0, .job, []⟩
def ERR_MCHK : RegDef := ⟨.hub, 0x500020, 1, 8, false, [ERR_MCHK_COUNT, ERR_MCHK_DEV_FAULT]⟩
/-- ERR_REPLAY, 18 R379 Table 18.14. -/
def ERR_REPLAY_COUNT : FldDef := ⟨0, 32, .rc, 0, .none, []⟩
def ERR_REPLAY : RegDef := ⟨.hub, 0x500028, 1, 8, false, [ERR_REPLAY_COUNT]⟩
/-- ERR_INBOUND, 18 R379 Table 18.14. -/
def ERR_INBOUND_COUNT : FldDef := ⟨0, 32, .rc, 0, .none, []⟩
def ERR_INBOUND : RegDef := ⟨.hub, 0x500030, 1, 8, false, [ERR_INBOUND_COUNT]⟩
/-- ERR_GLOG_CNT, 18 R379 Table 18.14. -/
def ERR_GLOG_CNT_COUNT : FldDef := ⟨0, 5, .ro, 0, .dev, []⟩
def ERR_GLOG_CNT_OVERFLOW : FldDef := ⟨8, 1, .rw1c, 0, .dev, []⟩
def ERR_GLOG_CNT_CLEAR : FldDef := ⟨16, 1, .wo, 0, .none, []⟩
def ERR_GLOG_CNT : RegDef := ⟨.hub, 0x500080, 1, 8, false, [ERR_GLOG_CNT_COUNT, ERR_GLOG_CNT_OVERFLOW, ERR_GLOG_CNT_CLEAR]⟩
/-- ERR_GLOG_A, 18 R379 Table 18.14. -/
def ERR_GLOG_A_ADDR : FldDef := ⟨0, 48, .ro, 0, .dev, []⟩
def ERR_GLOG_A_CAUSE : FldDef := ⟨48, 8, .ro, 0, .dev, []⟩
def ERR_GLOG_A_REQ : FldDef := ⟨56, 3, .ro, 0, .dev, []⟩
def ERR_GLOG_A : RegDef := ⟨.hub, 0x500100, 16, 16, false, [ERR_GLOG_A_ADDR, ERR_GLOG_A_CAUSE, ERR_GLOG_A_REQ]⟩
/-- ERR_GLOG_B, 18 R379 Table 18.14. -/
def ERR_GLOG_B_TAG : FldDef := ⟨0, 32, .ro, 0, .dev, []⟩
def ERR_GLOG_B_STEP : FldDef := ⟨32, 32, .ro, 0, .dev, []⟩
def ERR_GLOG_B : RegDef := ⟨.hub, 0x500108, 16, 16, false, [ERR_GLOG_B_TAG, ERR_GLOG_B_STEP]⟩
/-- IST_CFG, 18 R380 Table 18.15. -/
def IST_CFG_ENABLE : FldDef := ⟨0, 1, .rw, 1, .dev, []⟩
def IST_CFG_CYCLE_S : FldDef := ⟨8, 24, .rw, 0x15180, .dev, []⟩
def IST_CFG : RegDef := ⟨.hub, 0x700000, 1, 8, false, [IST_CFG_ENABLE, IST_CFG_CYCLE_S]⟩
/-- IST_CTRL, 18 R380 Table 18.15. -/
def IST_CTRL_RUN_ALL : FldDef := ⟨0, 1, .wo, 0, .none, []⟩
def IST_CTRL : RegDef := ⟨.hub, 0x700008, 1, 8, false, [IST_CTRL_RUN_ALL]⟩
/-- IST_STATUS, 18 R380 Table 18.15. -/
def IST_STATUS_RUNNING_ALL : FldDef := ⟨0, 1, .ro, 0, .none, []⟩
def IST_STATUS_TRANSIENT : FldDef := ⟨16, 16, .rc, 0, .dev, []⟩
def IST_STATUS_CYCLES : FldDef := ⟨32, 32, .ro, 0, .dev, []⟩
def IST_STATUS : RegDef := ⟨.hub, 0x700010, 1, 8, false, [IST_STATUS_RUNNING_ALL, IST_STATUS_TRANSIENT, IST_STATUS_CYCLES]⟩
/-- IST_PROGRESS, 18 R380 Table 18.15. -/
def IST_PROGRESS_SLICES : FldDef := ⟨0, 12, .ro, 0, .dev, []⟩
def IST_PROGRESS_WINDOWS : FldDef := ⟨16, 14, .ro, 0, .dev, []⟩
def IST_PROGRESS_OVERDUE : FldDef := ⟨32, 16, .ro, 0, .dev, []⟩
def IST_PROGRESS : RegDef := ⟨.hub, 0x700018, 1, 8, false, [IST_PROGRESS_SLICES, IST_PROGRESS_WINDOWS, IST_PROGRESS_OVERDUE]⟩
/-- IST_LAST, 18 R380 Table 18.15. -/
def IST_LAST_TIME : FldDef := ⟨0, 64, .ro, 0, .dev, []⟩
def IST_LAST : RegDef := ⟨.hub, 0x700020, 1, 8, false, [IST_LAST_TIME]⟩
/-- IST_LINK, 18 R380 Table 18.15. -/
def IST_LINK_UE_LIMIT : FldDef := ⟨0, 16, .rw, 0x10, .dev, []⟩
def IST_LINK_REPLAY_LIMIT : FldDef := ⟨16, 16, .rw, 0x1000, .dev, []⟩
def IST_LINK : RegDef := ⟨.hub, 0x700028, 1, 8, false, [IST_LINK_UE_LIMIT, IST_LINK_REPLAY_LIMIT]⟩
/-- IST_FAIL_CNT, 18 R380 Table 18.15. -/
def IST_FAIL_CNT_COUNT : FldDef := ⟨0, 5, .ro, 0, .dev, []⟩
def IST_FAIL_CNT_OVERFLOW : FldDef := ⟨8, 1, .rw1c, 0, .dev, []⟩
def IST_FAIL_CNT_CLEAR : FldDef := ⟨16, 1, .wo, 0, .none, []⟩
def IST_FAIL_CNT : RegDef := ⟨.hub, 0x700080, 1, 8, false, [IST_FAIL_CNT_COUNT, IST_FAIL_CNT_OVERFLOW, IST_FAIL_CNT_CLEAR]⟩
/-- IST_FAIL_A, 18 R380 Table 18.15. -/
def IST_FAIL_A_KIND : FldDef := ⟨0, 4, .ro, 0, .dev, []⟩
def IST_FAIL_A_UNIT : FldDef := ⟨4, 12, .ro, 0, .dev, []⟩
def IST_FAIL_A_PART : FldDef := ⟨16, 16, .ro, 0, .dev, []⟩
def IST_FAIL_A_SUSPECT : FldDef := ⟨32, 1, .ro, 0, .dev, []⟩
def IST_FAIL_A : RegDef := ⟨.hub, 0x700100, 16, 16, false, [IST_FAIL_A_KIND, IST_FAIL_A_UNIT, IST_FAIL_A_PART, IST_FAIL_A_SUSPECT]⟩
/-- IST_FAIL_B, 18 R380 Table 18.15. -/
def IST_FAIL_B_TIME : FldDef := ⟨0, 64, .ro, 0, .dev, []⟩
def IST_FAIL_B : RegDef := ⟨.hub, 0x700108, 16, 16, false, [IST_FAIL_B_TIME]⟩
/-- HUB_IRQ_STATUS, 19 R397 Table 19.8. -/
def HUB_IRQ_STATUS_CAUSE : FldDef := ⟨0, 12, .rw1c, 0, .dev, []⟩
def HUB_IRQ_STATUS : RegDef := ⟨.hub, 0x6000, 1, 8, false, [HUB_IRQ_STATUS_CAUSE]⟩
/-- HUB_IRQ_EN, 19 R397 Table 19.8. -/
def HUB_IRQ_EN_EN : FldDef := ⟨0, 12, .rw, 0, .dev, []⟩
def HUB_IRQ_EN : RegDef := ⟨.hub, 0x6008, 1, 8, false, [HUB_IRQ_EN_EN]⟩
/-- HUB_BOOT, 19 R397 Table 19.8. -/
def HUB_BOOT_READY : FldDef := ⟨0, 1, .ro, 0, .dev, []⟩
def HUB_BOOT_RECOVERY : FldDef := ⟨1, 1, .ro, 0, .dev, []⟩
def HUB_BOOT_SLOT : FldDef := ⟨2, 1, .ro, 0, .dev, []⟩
def HUB_BOOT_RETRY : FldDef := ⟨3, 1, .wo, 0, .none, []⟩
def HUB_BOOT_VERSION : FldDef := ⟨32, 32, .ro, 0, .dev, []⟩
def HUB_BOOT : RegDef := ⟨.hub, 0x7000, 1, 8, false, [HUB_BOOT_READY, HUB_BOOT_RECOVERY, HUB_BOOT_SLOT, HUB_BOOT_RETRY, HUB_BOOT_VERSION]⟩
/-- SEQ_SRC, 19 R397 Table 19.9. -/
def SEQ_SRC_ADDR : FldDef := ⟨12, 52, .rw, 0, .dev, []⟩
def SEQ_SRC : RegDef := ⟨.hub, 0x800000, 1, 8, false, [SEQ_SRC_ADDR]⟩
/-- SEQ_LEN, 19 R397 Table 19.9. -/
def SEQ_LEN_BYTES : FldDef := ⟨0, 40, .rw, 0, .dev, []⟩
def SEQ_LEN : RegDef := ⟨.hub, 0x800008, 1, 8, false, [SEQ_LEN_BYTES]⟩
/-- SEQ_STATUS, 19 R397 Table 19.9. -/
def SEQ_STATUS_COPIED : FldDef := ⟨0, 1, .ro, 0, .core, []⟩
def SEQ_STATUS_PCIE_ERR : FldDef := ⟨1, 1, .ro, 0, .core, []⟩
def SEQ_STATUS : RegDef := ⟨.hub, 0x800010, 1, 8, false, [SEQ_STATUS_COPIED, SEQ_STATUS_PCIE_ERR]⟩
/-- TRC_BASE, 19 R397 Table 19.10. -/
def TRC_BASE_BASE : FldDef := ⟨12, 36, .rw, 0, .dev, []⟩
def TRC_BASE : RegDef := ⟨.hub, 0x600000, 4, 64, false, [TRC_BASE_BASE]⟩
/-- TRC_SIZE, 19 R397 Table 19.10. -/
def TRC_SIZE_LOG2_SIZE : FldDef := ⟨0, 6, .rw, 0, .dev, []⟩
def TRC_SIZE_OVERWRITE : FldDef := ⟨8, 1, .rw, 0, .dev, []⟩
def TRC_SIZE_WATERMARK : FldDef := ⟨16, 4, .rw, 0xc, .dev, []⟩
def TRC_SIZE : RegDef := ⟨.hub, 0x600008, 4, 64, false, [TRC_SIZE_LOG2_SIZE, TRC_SIZE_OVERWRITE, TRC_SIZE_WATERMARK]⟩
/-- TRC_WR, 19 R397 Table 19.10. -/
def TRC_WR_COUNT : FldDef := ⟨0, 64, .ro, 0, .dev, []⟩
def TRC_WR : RegDef := ⟨.hub, 0x600010, 4, 64, false, [TRC_WR_COUNT]⟩
/-- TRC_RD, 19 R397 Table 19.10. -/
def TRC_RD_COUNT : FldDef := ⟨0, 64, .rw, 0, .dev, []⟩
def TRC_RD : RegDef := ⟨.hub, 0x600018, 4, 64, false, [TRC_RD_COUNT]⟩
/-- TRC_LOST, 19 R397 Table 19.10. -/
def TRC_LOST_COUNT : FldDef := ⟨0, 32, .rc, 0, .dev, []⟩
def TRC_LOST : RegDef := ⟨.hub, 0x600020, 4, 64, false, [TRC_LOST_COUNT]⟩
/-- TRC_SEL, 19 R397 Table 19.10. -/
def TRC_SEL_RING0 : FldDef := ⟨0, 3, .rw, 0, .dev, []⟩
def TRC_SEL_RING1 : FldDef := ⟨3, 3, .rw, 0, .dev, []⟩
def TRC_SEL_RING2 : FldDef := ⟨6, 3, .rw, 0, .dev, []⟩
def TRC_SEL_RING3 : FldDef := ⟨9, 3, .rw, 0, .dev, []⟩
def TRC_SEL_RING4 : FldDef := ⟨12, 3, .rw, 0, .dev, []⟩
def TRC_SEL_RING5 : FldDef := ⟨15, 3, .rw, 0, .dev, []⟩
def TRC_SEL_RING6 : FldDef := ⟨18, 3, .rw, 0, .dev, []⟩
def TRC_SEL_FILL : FldDef := ⟨24, 1, .rw, 0, .dev, []⟩
def TRC_SEL : RegDef := ⟨.hub, 0x600100, 1, 8, false, [TRC_SEL_RING0, TRC_SEL_RING1, TRC_SEL_RING2, TRC_SEL_RING3, TRC_SEL_RING4, TRC_SEL_RING5, TRC_SEL_RING6, TRC_SEL_FILL]⟩
/-- MOV_ELOG_CNT, 18 R356 Table 5.6. -/
def MOV_ELOG_CNT_COUNT : FldDef := ⟨0, 5, .ro, 0, .job, []⟩
def MOV_ELOG_CNT_OVERFLOW : FldDef := ⟨8, 1, .rw1c, 0, .job, []⟩
def MOV_ELOG_CNT_CLEAR : FldDef := ⟨16, 1, .wo, 0, .none, []⟩
def MOV_ELOG_CNT : RegDef := ⟨.mover, 0x80, 1, 8, false, [MOV_ELOG_CNT_COUNT, MOV_ELOG_CNT_OVERFLOW, MOV_ELOG_CNT_CLEAR]⟩
/-- MOV_ELOG_A, 18 R356 Table 5.6. -/
def MOV_ELOG_A_ADDR : FldDef := ⟨0, 48, .ro, 0, .job, []⟩
def MOV_ELOG_A_CAUSE : FldDef := ⟨48, 8, .ro, 0, .job, []⟩
def MOV_ELOG_A : RegDef := ⟨.mover, 0x100, 16, 16, false, [MOV_ELOG_A_ADDR, MOV_ELOG_A_CAUSE]⟩
/-- MOV_ELOG_B, 18 R356 Table 5.6. -/
def MOV_ELOG_B_TAG : FldDef := ⟨0, 32, .ro, 0, .job, []⟩
def MOV_ELOG_B_STEP : FldDef := ⟨32, 32, .ro, 0, .job, []⟩
def MOV_ELOG_B : RegDef := ⟨.mover, 0x108, 16, 16, false, [MOV_ELOG_B_TAG, MOV_ELOG_B_STEP]⟩

/-- The registers of block `hub`. -/
def hubRegs : List RegDef :=
  [HUB_PART, HUB_FAMILY, ADM_CTRL, ADM_STATUS, ADM_DETAIL0, ADM_DETAIL1, ADM_SOW, ADM_WDOG, ADM_BREACH, ADM_BREACH_LAST, ADM_ROUTE_LAT, HUB_LS_STATE, HUB_LS_COMMIT, HUB_LS_CTRL, HUB_LS_EVT, HUB_STEP_EVT, HUB_GEN, HUB_SEAL, HUB_SEALTIME, HUB_SNAP] ++
  [HUB_SNAP_GEN, HUB_YOKE, HUB_YOKE_STATE, HUB_DIR_STAT, HUB_DIR_BACKINV, HUB_DIR_INV, HUB_DEVID, HUB_FAB_CFG, HUB_EPOCH, HUB_COMB, HUB_ROUTE, HUB_ROUTE_NEXT, CLK_TB_CFG, CLK_TB_STATUS, CLK_TB_OFFSET, CLK_TB_RATE, CLK_TB_PPS, CLK_TB_PPS_BAD, PWR_FLOOR, PWR_CEIL] ++
  [PWR_SLEW, PWR_START, PWR_END, PWR_THERM, PWR_CTRL, PWR_STATUS, PWR_TEL, PWR_GATE, PWR_FILL_J, PWR_EVT, PWR_TRIP, PWR_RAIL, CLK_XO, CLK_STATUS, CLK_CTRL, CLK_MPLL, CLK_MEAS, CLK_EN_RUN, CLK_EN_SLEEP, CLK_EN_DEEP] ++
  [HUB_TLY_TOKEN, RST_CTRL, RST_CFG, RST_STATUS, RST_MAP, RST_SUSPECT, RST_FUSED, ERR_FAULT, ERR_FAULT_B, ERR_FAULT_T, ERR_FAULT_U, ERR_MCHK, ERR_REPLAY, ERR_INBOUND, ERR_GLOG_CNT, ERR_GLOG_A, ERR_GLOG_B, IST_CFG, IST_CTRL, IST_STATUS] ++
  [IST_PROGRESS, IST_LAST, IST_LINK, IST_FAIL_CNT, IST_FAIL_A, IST_FAIL_B, HUB_IRQ_STATUS, HUB_IRQ_EN, HUB_BOOT, SEQ_SRC, SEQ_LEN, SEQ_STATUS, TRC_BASE, TRC_SIZE, TRC_WR, TRC_RD, TRC_LOST, TRC_SEL]

/-- The registers of block `furrow`. -/
def furrowRegs : List RegDef :=
  [FRW_RING_BASE, FRW_RING_CFG, FRW_HEAD, FRW_TAIL, FRW_STATUS, FRW_CUR, FRW_CUR_POS, FRW_WAITING, FRW_ERR, FRW_STALL, FRW_CTRL]

/-- The registers of block `core`. -/
def coreRegs : List RegDef :=
  [MXA_STATUS, MXA_CHAIN0, MXA_CHAIN1, MXA_SAT_ACC, MXA_SAT_OUT, MXA_NONFIN, MXA_ACT, MXA_SAVED, MXA_INSERT, MXA_REPLAY, MXA_ELOG_CNT, MXA_ELOG_A, MXA_ELOG_B, MXA_FMAP_FALLOW, MXA_FMAP_DENSE, MXA_GLEAN_SKIP, MXA_HDR_ADDR, MXA_HDR, TME_STATUS, TME_LAUNCH] ++
  [TME_WDOG, TME_PARK_MASK, TME_PARK_SEL, TME_PARK_CAUSE, TME_PARK_PC, TME_PARK_ADDR, TME_PARK_LANES, TME_PARK_CTRL, TME_REG_SEL, TME_REG_DATA, TME_ISSUE, TME_SECT, TME_NOPROG]

/-- The registers of block `plot`. -/
def plotRegs : List RegDef :=
  [TLT_CFG, TLT_MARK, TLT_STATUS, TLT_SAT, TLT_NONFIN, TLT_DROP24, TLT_LAND, TLT_BP, TLT_OVERSUB, TLT_CACHE, TLT_HDR_ADDR, TLT_HDR, TLT_ELOG_CNT, TLT_ELOG_A, TLT_ELOG_B]

/-- The registers of block `stack`. -/
def stackRegs : List RegDef :=
  [HRW_STATUS, HRW_SAT, HRW_NONFIN, HRW_LAND, HRW_BP, HRW_LATE, HRW_DROPPED, HRW_VERD_SEL, HRW_VERD, HRW_ELOG_CNT, HRW_ELOG_A, HRW_ELOG_B, HBM_CFG, HBM_CTRL, HBM_STATUS, HBM_ECC, HBM_ECC_LAST, HBM_SCRUB, HBM_RFM, HBM_REPAIR]

/-- The registers of block `port`. -/
def portRegs : List RegDef :=
  [HDL_CFG, HDL_STATUS, HDL_PEER, HDL_RTT, HDL_FEC, HDL_REPLAY, HDL_TX, HDL_RX, HDL_STALL, HDL_ELOG_CNT, HDL_ELOG_A, HDL_ELOG_B]

/-- The registers of block `die`. -/
def dieRegs : List RegDef :=
  [CLK_CPLL, CLK_FPLL, CLK_HPLL, CLK_SSC, CLK_DSTAT]

/-- The registers of block `mirror`. -/
def mirrorRegs : List RegDef :=
  [TLY_ID, TLY_ENERGY, TLY_STATUS, TLY_TIME, TLY_POWER, TLY_CAL_CRC, TLY_LOG_CNT, TLY_ANN_CNT, TLY_PULSES, TLY_MIRROR_STAT]

/-- The registers of block `mover`. -/
def moverRegs : List RegDef :=
  [MOV_ELOG_CNT, MOV_ELOG_A, MOV_ELOG_B]

/-- The furrow block (Table 3.10) or the other registers of a block. -/
def findIn (l : List RegDef) (off : Nat) : Option (RegDef × Nat) :=
  match l.find? (fun r => decide (r.off ≤ off) && decide (off < r.off + r.stride * r.count) &&
      decide ((off - r.off) % r.stride = 0)) with
  | some r => some (r, (off - r.off) / r.stride)
  | none => none

/-- The register at a control-window offset, with its unit and index; none where the offset is unassigned (R20). -/
def regAt (o : Nat) : Option (RegDef × Nat × Nat) :=
  let mk (u : Nat) (x : Option (RegDef × Nat)) : Option (RegDef × Nat × Nat) := x.map fun p => (p.1, u, p.2)
  if o < 0x100_0000 then mk 0 (findIn hubRegs o)
  else if o < 0x200_0000 then mk 0 (findIn mirrorRegs (o - 0x100_0000))
  else if o < 0x1000_0000 then none
  else
    let d := (o - 0x1000_0000) / 0x100_0000
    let x := (o - 0x1000_0000) % 0x100_0000
    if 10 ≤ d then none
    else if x < 0x10_0000 then mk d (findIn dieRegs x)
    else if x < 0x1E_0000 then
      let c := (x - 0x10_0000) / 0x1_0000
      let y := x % 0x1_0000
      if 0xE000 ≤ y then mk (o - y % 0x1000) (findIn furrowRegs (y % 0x1000))
      else mk (14 * d + c) (findIn coreRegs y)
    else if x < 0x40_0000 then none
    else if x < 0x41_0000 then
      let y := x % 0x1000
      if 0x800 ≤ y then mk (o - y % 0x800) (findIn furrowRegs (y % 0x800))
      else mk (16 * d + (x - 0x40_0000) / 0x1000) (findIn plotRegs y)
    else if x < 0x50_0000 then none
    else
      let y := x % 0x1_0000
      if x < 0x54_0000 then
        if 0xF000 ≤ y then mk (o - y % 0x1000) (findIn furrowRegs (y % 0x1000))
        else mk (4 * d + (x - 0x50_0000) / 0x1_0000) (findIn moverRegs y)
      else if x < 0x60_0000 then none
      else if x < 0x66_0000 then
        if 0xF000 ≤ y then mk (o - y % 0x1000) (findIn furrowRegs (y % 0x1000))
        else mk (6 * d + (x - 0x60_0000) / 0x1_0000) (findIn portRegs y)
      else if x < 0x70_0000 then none
      else if x < 0x72_0000 then
        if 0xF000 ≤ y then mk (o - y % 0x1000) (findIn furrowRegs (y % 0x1000))
        else mk (2 * d + (x - 0x70_0000) / 0x1_0000) (findIn stackRegs y)
      else none

end Sys2Proof
end

