-- ==== Sys2Proof/Machine/Numerics.lean ====
section
/-! DEFINITION. Numeric formats, exact values, rounding, saturation and block scales
(spec 07_numerics R147 to R158, 04 Table 4.2). -/
namespace Sys2Proof

/-- An exact value of the extended range in which the device decodes (R158): NaN, an infinity, or `±m·2^e`.
A zero keeps its sign (R155). -/
inductive Ex
  | nan
  | inf (neg : Bool)
  | fin (neg : Bool) (m : Nat) (e : Int)
deriving DecidableEq, Repr

def Ex.zero : Ex := .fin false 0 0
def Ex.ofNat (n : Nat) : Ex := .fin false n 0

/-- A power of two. -/
def Ex.pow2 (e : Int) : Ex := .fin false 1 e

def Ex.isFin : Ex → Bool
  | .fin _ _ _ => true
  | _ => false

def Ex.isNan : Ex → Bool
  | .nan => true
  | _ => false

def Ex.isZero : Ex → Bool
  | .fin _ 0 _ => true
  | _ => false

def Ex.isNeg : Ex → Bool
  | .nan => false
  | .inf n => n
  | .fin n _ _ => n

def Ex.neg : Ex → Ex
  | .nan => .nan
  | .inf n => .inf (!n)
  | .fin n m e => .fin (!n) m e

def Ex.abs : Ex → Ex
  | .nan => .nan
  | .inf _ => .inf false
  | .fin _ m e => .fin false m e

/-- `m·2^e` as a multiple of `2^g`, for `g ≤ e`. -/
def scaleTo (m : Nat) (e g : Int) : Nat := m <<< (e - g).toNat

/-- The signed significand at exponent `g ≤ e`. -/
def signedAt (neg : Bool) (m : Nat) (e g : Int) : Int :=
  if neg then -(scaleTo m e g : Int) else (scaleTo m e g : Int)

/-- Exact sum (R154, R155): opposite operands that cancel give +0, equal-signed zeros keep their sign. -/
def Ex.add : Ex → Ex → Ex
  | .nan, _ => .nan
  | _, .nan => .nan
  | .inf a, .inf b => if a = b then .inf a else .nan
  | .inf a, .fin _ _ _ => .inf a
  | .fin _ _ _, .inf b => .inf b
  | .fin n1 m1 e1, .fin n2 m2 e2 =>
    let g := min e1 e2
    let s := signedAt n1 m1 e1 g + signedAt n2 m2 e2 g
    if s = 0 then .fin (n1 && n2) 0 0 else .fin (decide (s < 0)) s.natAbs g

def Ex.sub (a b : Ex) : Ex := Ex.add a b.neg

/-- Exact product (R154, R155). -/
def Ex.mul : Ex → Ex → Ex
  | .nan, _ => .nan
  | _, .nan => .nan
  | .inf a, .inf b => .inf (a != b)
  | .inf a, .fin n m _ => if m = 0 then .nan else .inf (a != n)
  | .fin n m _, .inf b => if m = 0 then .nan else .inf (n != b)
  | .fin n1 m1 e1, .fin n2 m2 e2 => .fin (n1 != n2) (m1 * m2) (e1 + e2)

/-- Exact order on finite values and infinities: is `a < b`? NaN is never less. `-0 < +0` is false here. -/
def Ex.lt : Ex → Ex → Bool
  | .nan, _ => false
  | _, .nan => false
  | .inf a, .inf b => a && !b
  | .inf a, .fin _ _ _ => a
  | .fin _ _ _, .inf b => !b
  | .fin n1 m1 e1, .fin n2 m2 e2 =>
    let g := min e1 e2
    decide (signedAt n1 m1 e1 g < signedAt n2 m2 e2 g)

def Ex.le (a b : Ex) : Bool := !a.isNan && !b.isNan && !(Ex.lt b a)

def Ex.eqv (a b : Ex) : Bool := Ex.le a b && Ex.le b a

/-- The larger of two values; NaN if either is; -0 is smaller than +0 (R155). -/
def Ex.max (a b : Ex) : Ex :=
  if a.isNan || b.isNan then .nan
  else if Ex.lt a b then b else if Ex.lt b a then a
  else if a.isNeg then b else a

/-- The smaller of two values, as `Ex.max`. -/
def Ex.min (a b : Ex) : Ex :=
  if a.isNan || b.isNan then .nan
  else if Ex.lt a b then a else if Ex.lt b a then b
  else if a.isNeg then a else b

/-- `⌊log2⌋` of a non-zero magnitude. -/
def magLog (m : Nat) (e : Int) : Int := (Nat.log2 m : Int) + e

/-- `m·2^e` rounded to nearest even as a multiple of `2^g` (R151). -/
def rneAt (m : Nat) (e g : Int) : Nat :=
  if g ≤ e then m <<< (e - g).toNat
  else
    let s := (g - e).toNat
    let q := m >>> s
    let r := m % 2 ^ s
    let h := 2 ^ (s - 1)
    if h < r || (r = h && q % 2 = 1) then q + 1 else q

/-- `⌊m·2^e / 2^g⌋` and whether something was cut off. -/
def floorAt (m : Nat) (e g : Int) : Nat × Bool :=
  if g ≤ e then (m <<< (e - g).toNat, false)
  else let s := (g - e).toNat; (m >>> s, m % 2 ^ s != 0)

/-- A floating-point element encoding of Table 7.1: exponent bits, fraction bits, bias, the code of the largest finite
magnitude, and its specials: 0 none, 1 infinities and NaNs with exponent all ones, 2 one NaN code only. -/
structure FpEnc where
  eb : Nat
  fb : Nat
  bias : Int
  maxCode : Nat
  spec : Nat
deriving DecidableEq, Repr

def encFp32 : FpEnc := ⟨8, 23, 127, 0x7F7FFFFF, 1⟩
def encBf16 : FpEnc := ⟨8, 7, 127, 0x7F7F, 1⟩
def encFp16 : FpEnc := ⟨5, 10, 15, 0x7BFF, 1⟩
def encE4m3 : FpEnc := ⟨4, 3, 7, 0x7E, 2⟩
def encE5m2 : FpEnc := ⟨5, 2, 15, 0x7B, 1⟩
def encE3m2 : FpEnc := ⟨3, 2, 3, 0x1F, 0⟩
def encE2m3 : FpEnc := ⟨2, 3, 1, 0x1F, 0⟩
def encE2m1 : FpEnc := ⟨2, 1, 1, 0x7, 0⟩

def FpEnc.bits (f : FpEnc) : Nat := 1 + f.eb + f.fb

/-- The value of a code (R147). -/
def FpEnc.decode (f : FpEnc) (c : Nat) : Ex :=
  let neg := bitOf c (f.eb + f.fb)
  let e := bitsOf c f.fb f.eb
  let fr := bitsOf c 0 f.fb
  let top := 2 ^ f.eb - 1
  if f.spec = 1 && e = top then (if fr = 0 then .inf neg else .nan)
  else if f.spec = 2 && e = top && fr = 2 ^ f.fb - 1 then .nan
  else if e = 0 then .fin neg fr (1 - f.bias - f.fb)
  else .fin neg (2 ^ f.fb + fr) ((e : Int) - f.bias - f.fb)

/-- Magnitude code of a non-zero magnitude rounded to nearest even, before any limit on the range. -/
def FpEnc.magCode (f : FpEnc) (m : Nat) (e : Int) : Nat :=
  let g := Max.max (magLog m e) (1 - f.bias) - f.fb
  (g + f.fb + f.bias - 1).toNat * 2 ^ f.fb + rneAt m e g

/-- Place the sign. -/
def FpEnc.signed (f : FpEnc) (neg : Bool) (c : Nat) : Nat := c + b2n neg * 2 ^ (f.eb + f.fb)

/-- The default NaN of Table 7.2. -/
def FpEnc.nanCode (f : FpEnc) : Nat :=
  if f.spec = 1 then (if f.fb = 2 then 0x7E else (2 ^ f.eb - 1) * 2 ^ f.fb + 2 ^ (f.fb - 1))
  else if f.spec = 2 then (2 ^ f.eb - 1) * 2 ^ f.fb + (2 ^ f.fb - 1)
  else f.maxCode

/-- Code of the infinity, for encodings that have one. -/
def FpEnc.infCode (f : FpEnc) (neg : Bool) : Nat := f.signed neg ((2 ^ f.eb - 1) * 2 ^ f.fb)

/-- Encode with saturation (R151 to R154, Table 7.2): the code and whether it saturated. -/
def FpEnc.encode (f : FpEnc) : Ex → Nat × Bool
  | .nan => (f.nanCode, false)
  | .inf n => if f.spec = 1 then (f.infCode n, false) else (f.signed n f.maxCode, true)
  | .fin n m e =>
    if m = 0 then (f.signed n 0, false)
    else
      let c := f.magCode m e
      if f.maxCode < c then (f.signed n f.maxCode, true) else (f.signed n c, false)

/-- Encode as IEEE 754 does, overflowing to infinity where the encoding has one (R242). -/
def FpEnc.encodeIeee (f : FpEnc) : Ex → Nat
  | .nan => f.nanCode
  | .inf n => if f.spec = 1 then f.infCode n else f.signed n f.maxCode
  | .fin n m e =>
    if m = 0 then f.signed n 0
    else
      let c := f.magCode m e
      if f.maxCode < c then (if f.spec = 1 then f.infCode n else f.signed n f.maxCode) else f.signed n c

/-- The FP32 value nearest to an exact value, saturating (R151, R152), and whether it saturated. -/
def fl32 (x : Ex) : Ex × Bool :=
  let r := encFp32.encode x
  (encFp32.decode r.1, r.2)

def ofF32 (b : Nat) : Ex := encFp32.decode b
def toF32 (x : Ex) : Nat := (encFp32.encode x).1

/-- Integer square root by Newton's iteration from above. -/
def isqrtGo : Nat → Nat → Nat → Nat
  | 0, _, x => x
  | k + 1, n, x =>
    let y := (x + n / x) / 2
    if y < x then isqrtGo k n y else x

def isqrt (n : Nat) : Nat := if n = 0 then 0 else isqrtGo 64 n (2 ^ (Nat.log2 n / 2 + 1))

/-- A quotient with enough bits and a sticky bit that every rounding to at most 100 bits of it is that of the exact
quotient. -/
def Ex.div : Ex → Ex → Ex
  | .nan, _ => .nan
  | _, .nan => .nan
  | .inf _, .inf _ => .nan
  | .inf a, .fin n _ _ => .inf (a != n)
  | .fin n _ _, .inf b => .fin (n != b) 0 0
  | .fin n1 m1 e1, .fin n2 m2 e2 =>
    if m2 = 0 then (if m1 = 0 then .nan else .inf (n1 != n2))
    else if m1 = 0 then .fin (n1 != n2) 0 0
    else
      let k := Nat.log2 m2 + 128
      let a := m1 <<< k
      .fin (n1 != n2) (2 * (a / m2) + b2n (a % m2 != 0)) (e1 - e2 - k - 1)

/-- A square root of a non-negative value with a sticky bit, as `Ex.div`. A negative value gives NaN, -0 gives -0. -/
def Ex.sqrt : Ex → Ex
  | .nan => .nan
  | .inf n => if n then .nan else .inf false
  | .fin n m e =>
    if m = 0 then .fin n 0 0
    else if n then .nan
    else
      let p := 256 + (e % 2).toNat
      let a := m <<< p
      let q := isqrt a
      .fin false (2 * q + b2n (q * q != a)) ((e - p) / 2 - 1)

/-- The reciprocal square root of a positive value with a sticky bit. -/
def Ex.rsqrt : Ex → Ex
  | .nan => .nan
  | .inf n => if n then .nan else .fin false 0 0
  | .fin n m e =>
    if m = 0 then .inf n
    else if n then .nan
    else
      -- 1/sqrt(m·2^e) = sqrt(2^(2k)/m)·2^(-k-e/2), with e even
      let m' := m <<< (e % 2).toNat
      let e' := e - e % 2
      let k := Nat.log2 m' + 128
      let q := isqrt (2 ^ (2 * k) / m')
      .fin false (2 * q + b2n (q * q * m' != 2 ^ (2 * k))) (-(k : Int) - e' / 2 - 1)

/-- Formats of Table 4.2 other than NONE. -/
inductive Fmt
  | fp32 | bf16 | fp16 | e4m3 | e5m2 | mxE4m3 | mxE5m2 | mxE3m2 | mxE2m3 | mxInt8 | mxFp4 | fp4 | bs16 | bs8
deriving DecidableEq, Repr

def Fmt.all : List Fmt :=
  [.fp32, .bf16, .fp16, .e4m3, .e5m2, .mxE4m3, .mxE5m2, .mxE3m2, .mxE2m3, .mxInt8, .mxFp4, .fp4, .bs16, .bs8]

/-- The format of a code of Table 4.2; 0x1F is NONE and every other code is refused. -/
def Fmt.ofCode (c : Nat) : Option Fmt := Fmt.all[c]?

/-- Element bits (Table 4.2). -/
def Fmt.bits : Fmt → Nat
  | .fp32 => 32
  | .bf16 | .fp16 | .bs16 => 16
  | .e4m3 | .e5m2 | .mxE4m3 | .mxE5m2 | .mxInt8 | .bs8 => 8
  | .mxE3m2 | .mxE2m3 => 6
  | .mxFp4 | .fp4 => 4

/-- Does the format carry a shared scale? -/
def Fmt.scaled : Fmt → Bool
  | .mxE4m3 | .mxE5m2 | .mxE3m2 | .mxE2m3 | .mxInt8 | .mxFp4 | .bs16 | .bs8 => true
  | _ => false

/-- `s` of R81: 8 when the format carries a shared scale. -/
def Fmt.sbits (f : Fmt) : Nat := if f.scaled then 8 else 0

/-- Dot length of Table 4.2; 0 where the format is no matrix-array operand. -/
def Fmt.dot : Fmt → Nat
  | .fp32 | .bf16 | .fp16 => 128
  | .e4m3 | .e5m2 | .mxE4m3 | .mxE5m2 | .mxE3m2 | .mxE2m3 | .mxInt8 => 256
  | .mxFp4 | .fp4 => 512
  | .bs16 | .bs8 => 0

/-- Floating-point element encoding, for formats that have one. -/
def Fmt.fp : Fmt → Option FpEnc
  | .fp32 => some encFp32
  | .bf16 => some encBf16
  | .fp16 => some encFp16
  | .e4m3 | .mxE4m3 => some encE4m3
  | .e5m2 | .mxE5m2 => some encE5m2
  | .mxE3m2 => some encE3m2
  | .mxE2m3 => some encE2m3
  | .mxFp4 | .fp4 => some encE2m1
  | .mxInt8 | .bs16 | .bs8 => none

/-- Fraction bits of the integer-significand formats (R149). -/
def Fmt.ifrac : Fmt → Nat
  | .bs16 => 14
  | _ => 6

/-- Is NaN a code of the element (R149, Table 7.1)? -/
def Fmt.hasNan : Fmt → Bool
  | .mxE3m2 | .mxE2m3 | .mxFp4 | .mxInt8 => false
  | _ => true

/-- Footprint of `r` rows of `k` elements in bytes (R81). -/
def footprint (r k : Nat) (f : Fmt) : Nat :=
  512 * cdiv (r * k * f.bits + r * cdiv k 32 * f.sbits) 4096

/-- Value of an element code, before any scale (R147, R149). -/
def Fmt.elem (f : Fmt) (c : Nat) : Ex :=
  match f.fp with
  | some p => p.decode c
  | none =>
    let b := f.bits
    let v := sgn c b
    if f.hasNan && c % 2 ^ b == 2 ^ (b - 1) then .nan
    else .fin (decide (v < 0)) v.natAbs (-(f.ifrac : Int))

/-- Multiply by `2^x`. -/
def Ex.scale2 (x : Int) : Ex → Ex
  | .fin n m e => .fin n m (e + x)
  | y => y

/-- Value of an element with its shared scale `sc` (R148): 0xFF makes every element NaN. -/
def Fmt.value (f : Fmt) (c sc : Nat) : Ex :=
  if f.scaled then (if sc = 255 then .nan else (f.elem c).scale2 ((sc : Int) - 127)) else f.elem c

/-- `emax` of R156. -/
def Fmt.emax : Fmt → Int
  | .mxE4m3 => 8
  | .mxE5m2 => 15
  | .mxE3m2 => 4
  | .mxE2m3 => 2
  | .mxFp4 => 2
  | _ => 0

/-- An element as written: its code, whether it saturated and whether it counts as non-finite (R152, R154). -/
structure Enc where
  code : Nat
  sat : Bool
  nf : Bool
deriving DecidableEq, Repr

/-- Encode one element into an unscaled format. -/
def Fmt.enc1 (f : Fmt) (x : Ex) : Enc :=
  match f.fp with
  | some p => let r := p.encode x; ⟨r.1, r.2, !x.isFin⟩
  | none => ⟨0, false, false⟩

/-- Largest finite magnitude of a list, as (m, e), ignoring NaN and infinities (R156); none when it is zero. -/
def amaxOf : List Ex → Option (Nat × Int)
  | [] => none
  | .fin _ m e :: t =>
    match amaxOf t with
    | none => if m = 0 then none else some (m, e)
    | some (m', e') => if Ex.lt (.fin false m' e') (.fin false m e) then some (m, e) else some (m', e')
  | _ :: t => amaxOf t

/-- Clamp of R156 step 3. -/
def clampX (x : Int) : Int := Min.min (Max.max x (-127)) 127

/-- Largest magnitude of the significand of an integer format: 32,767 or 127 (R149). -/
def Fmt.imax (f : Fmt) : Nat := 2 ^ (f.bits - 1) - 1

/-- The scale exponent X of a block (R156). -/
def Fmt.blockX (f : Fmt) (xs : List Ex) : Int :=
  match amaxOf xs with
  | none => -127
  | some (m, e) =>
    let x := clampX (magLog m e - f.emax)
    if (f = .bs16 || f = .bs8) && x < 127 && f.imax < rneAt m e (x - f.ifrac) then x + 1 else x

/-- Code of a finite magnitude q = m·2^e (already divided by 2^X) rounded by `r`, clamped; with the count rule of R156. -/
def Fmt.encScaledWith (f : Fmt) (r : Nat → Int → Int → Nat) (n : Bool) (m : Nat) (e : Int) : Enc :=
  match f.fp with
  | some p =>
    if m = 0 then ⟨p.signed n 0, false, false⟩
    else
      let g := Max.max (magLog m e) (1 - p.bias) - p.fb
      let c := (g + p.fb + p.bias - 1).toNat * 2 ^ p.fb + r m e g
      let big := decide (f.emax + 1 ≤ magLog m e)
      if p.maxCode < c then ⟨p.signed n p.maxCode, big, false⟩ else ⟨p.signed n c, false, false⟩
  | none =>
    let q := r m e (-(f.ifrac : Int))
    let big := if f = .mxInt8 then m != 0 && decide (1 ≤ magLog m e) else true
    let v := Min.min q f.imax
    ⟨toTwos (if n then -(v : Int) else v) f.bits, decide (f.imax < q) && big, false⟩

/-- Encode one element at scale exponent X (R156, Table 7.2). -/
def Fmt.encAt (f : Fmt) (x : Int) : Ex → Enc
  | .nan =>
    match f.fp with
    | some p => ⟨p.nanCode, false, true⟩
    | none => ⟨2 ^ (f.bits - 1), false, true⟩
  | .inf n =>
    match f.fp with
    | some p => if p.spec = 1 then ⟨p.infCode n, false, true⟩ else ⟨p.signed n p.maxCode, true, true⟩
    | none => ⟨toTwos (if n then -(f.imax : Int) else f.imax) f.bits, true, true⟩
  | .fin n m e => f.encScaledWith rneAt n m (e - x)

/-- Encode a block of at most 32 elements: its E8M0 scale and elements (R156, Table 7.2). -/
def Fmt.encBlock (f : Fmt) (xs : List Ex) : Nat × List Enc :=
  if !f.hasNan && xs.any Ex.isNan then (255, xs.map fun _ => ⟨0, false, true⟩)
  else
    let x := f.blockX xs
    ((x + 127).toNat, xs.map (f.encAt x))

/-- Encode a row, block by block (32 elements each), from the front; `fuel` bounds the number of blocks. -/
def Fmt.encBlocks (f : Fmt) : Nat → List Ex → List Nat × List Enc
  | 0, _ => ([], [])
  | _ + 1, [] => ([], [])
  | k + 1, x :: xs =>
    let b := f.encBlock ((x :: xs).take 32)
    let r := f.encBlocks k ((x :: xs).drop 32)
    (b.1 :: r.1, b.2 ++ r.2)

/-- Encode a row of elements: its shared scales (none for an unscaled format) and its elements. -/
def Fmt.encRow (f : Fmt) (xs : List Ex) : List Nat × List Enc :=
  if f.scaled then f.encBlocks (xs.length / 32 + 1) xs else ([], xs.map f.enc1)

/-- A value with the events met on the way: saturated, non-finite (R152, R154). -/
structure V where
  x : Ex
  sat : Bool
  nf : Bool
deriving DecidableEq, Repr

def V.of (x : Ex) : V := ⟨x, false, false⟩

/-- One FP32 step: round once and merge the events of the operands. -/
def V.fl (x : Ex) (a b : V) : V :=
  let r := fl32 x
  ⟨r.1, a.sat || b.sat || r.2, a.nf || b.nf || !r.1.isFin⟩

def V.add (a b : V) : V := V.fl (Ex.add a.x b.x) a b
def V.sub (a b : V) : V := V.fl (Ex.sub a.x b.x) a b
def V.mul (a b : V) : V := V.fl (Ex.mul a.x b.x) a b

/-! ### Sums -/

/-- A sum under way, in units of 2^-320: exact value, sum of magnitudes, the positive and the negative addends, the
non-zero products among them, whether an addend lies below the FP32 normal range, whether one has bits below it, and an
infinity or NaN met (R116 to R118, R184). -/
structure Sum where
  exact : Int
  mag : Nat
  pos : Nat
  neg : Nat
  cnt : Nat
  low : Bool
  fine : Bool
  spec : Option Ex
deriving DecidableEq, Repr

def Sum.zero : Sum := ⟨0, 0, 0, 0, 0, false, false, none⟩

/-- One addend: infinities and NaN follow IEEE 754 addition (R118). -/
def Sum.addend (s : Sum) (x : Ex) : Sum :=
  match x with
  | .fin n m e =>
    let v := scaleTo m e (-320)
    { s with
      pos := s.pos + (if n then 0 else v)
      neg := s.neg + (if n then v else 0)
      low := s.low || (v != 0 && decide (v < 2 ^ 194))
      fine := s.fine || v % 2 ^ 194 != 0 }
  | y => { s with spec := some (match s.spec with | some z => Ex.add z y | none => y) }

/-- A product with the addends that the array forms of it: the product itself, or the six of R117. -/
def Sum.product (s : Sum) (p : Ex × List Ex) : Sum :=
  let t := p.2.foldl Sum.addend s
  match p.1 with
  | .fin n m e =>
    let v := signedAt n m e (-320)
    { t with exact := s.exact + v, mag := s.mag + v.natAbs, cnt := s.cnt + b2n (v != 0) }
  | _ => t

/-- Add a term without rounding (R116). -/
def Sum.add (s : Sum) (x : Ex) : Sum := s.product (x, [x])

/-- May a partial sum of some order fall below the FP32 normal range (R116)? An addend does, or addends of both signs with
bits below it do (log entry 84). -/
def Sum.dips (s : Sum) : Bool := s.low || (decide (0 < s.pos) && decide (0 < s.neg) && s.fine)

/-- The sum as one held value: of a saturated accumulator, whose chain goes on from it (R118). -/
def Sum.held (x : Ex) (mag : Nat) : Sum := { Sum.zero.add x with mag := mag, cnt := 2 }

/-- Largest finite FP32 value of a sign. -/
def f32Max (neg : Bool) : Ex := .fin neg (2 ^ 24 - 1) 104

/-- Reciprocal with the edge of R155: ±0 gives the largest finite value of that sign, saturated. -/
def V.recip (a : V) : V :=
  if a.x.isZero then ⟨f32Max a.x.isNeg, true, a.nf⟩ else V.fl (Ex.div (Ex.ofNat 1) a.x) a a

/-- Reciprocal square root with the edges of R155. -/
def V.rsqrt (a : V) : V :=
  if a.x.isZero then ⟨f32Max a.x.isNeg, true, a.nf⟩ else V.fl (Ex.rsqrt a.x) a a

/-- Quotient rounded once; a zero divisor of a non-zero dividend acts as the reciprocal of zero (R155, log entry 9). -/
def V.div (a b : V) : V :=
  if b.x.isZero && !a.x.isZero && a.x.isFin then ⟨f32Max (a.x.isNeg != b.x.isNeg), true, a.nf || b.nf⟩
  else V.fl (Ex.div a.x b.x) a b

end Sys2Proof
end

