-- ==== Sys2Proof/Machine/Units.lean ====
section
/-! DEFINITION. Plain data of the device's units: furrows, the synchronisation unit's waiters, team slots and
launches, the admitted sheaf and the running job (spec 02, 03, 11, 12). -/
namespace Sys2Proof

/-- A descriptor held by or in flight to a furrow's FIFO, resolved (R66), with its step number, the ring index of its
outermost descriptor, its routine and position, the tag of R71, its call depth, and for a RET the CALL it closes with that
CALL's routine and position. -/
structure FItem where
  d : Desc
  step : Nat
  n : Nat
  rtn : Nat
  pos : Nat
  otag : Nat
  depth : Nat
  call : Desc
  crtn : Nat
  cpos : Nat
deriving DecidableEq, Repr

/-- A frame of a furrow's call stack (R66): where fetch resumes, the resolved CALL, and the bases in force in the body, with the
tag, ring index and step of the outermost CALL. -/
structure Frame where
  rtn : Nat
  pos : Nat
  call : Desc
  fBase : Nat
  cBase : Nat
  otag : Nat
  n : Nat
  step : Nat
deriving DecidableEq, Repr

/-- State of a furrow head's WAIT: not yet tested, tested and pending at the synchronisation unit, satisfied. -/
inductive WaitSt
  | untested | pending | satisfied
deriving DecidableEq, Repr

/-- One furrow (spec 03): FIFO, bursts in flight, fetch source (routine 0xFFFF is the ring) and position, call stack, the
head's WAIT state, the descriptor in progress with its begin time, the OVF and NF bits of its step then (R161) and whether its operation has been performed, the
bodies the loader has appended, whether the epilogue is appended, and inserted work (0 none, 1 fill, 2 test). `held` counts the
transactions of the descriptor in progress that still await a response. -/
structure Furrow where
  fifo : List FItem
  infl : List (List FItem)
  rtn : Nat
  pos : Nat
  frames : List Frame
  wait : WaitSt
  cur : Option FItem
  t0 : Nat
  bits : Bool × Bool
  done : Bool
  held : Nat
  verdictWait : Bool
  bodies : Nat
  epi : Bool
  inserted : Nat
deriving DecidableEq, Repr

def Furrow.empty : Furrow := ⟨[], [], 0xFFFF, 0, [], .untested, none, 0, (false, false), false, 0, false, 0, false, 0⟩

/-- A wait pending at the synchronisation unit, in arrival order (R57): furrow index, or the core and slot of a team. -/
structure Waiter where
  team : Bool
  unit : Nat
  slot : Nat
  ctr : Bool
  idx : Nat
  thr : Nat
  consume : Bool
deriving DecidableEq, Repr

/-- Record of a parked team (Table 11.10). -/
structure Park where
  cause : Nat
  pc : Nat
  addr : Nat
  active : Nat
  fault : Nat
deriving DecidableEq, Repr

/-- An outstanding team access (R233, R235): destination register, bytes per lane, whether the register file is written, the
data arrived so far and the address of each lane, remote responses still missing, lanes in error, lanes that take part and
lanes that issued, CHK and CP, its program counter, scope and acquire, and whether its completion is a progress event: a store's, or
an atomic's that wrote (R239). -/
structure Access where
  rd : Nat
  size : Nat
  load : Bool
  data : List (Nat × Nat)
  addrs : List (Nat × Nat)
  wait : Nat
  err : Nat
  active : Nat
  issued : Nat
  chk : Bool
  cp : Nat
  pc : Nat
  scope : Nat
  acq : Bool
  prog : Bool
deriving DecidableEq, Repr

/-- A team in a slot (R225, R227, R237): team number, per-lane program counters, exited lanes, reconvergence stack (top
first, address and mask), v registers keyed `32·r + lane`, u registers, predicate masks p0 to p6, park record, pending
wait instruction, outstanding access, STEP action pending, lanes a replay is restricted to; for the no-progress count (R239), the time
base since which it runs, none while the team is suspended or parked, and the ns it counted before. -/
structure Slot where
  team : Nat
  pcs : List Nat
  exited : Nat
  stack : List (Nat × Nat)
  v : SMap Nat
  u : SMap Nat
  p : List Nat
  park : Option Park
  waiting : Bool
  access : Option Access
  step1 : Bool
  replay : Option Nat
  since : Option Nat
  counted : Nat
deriving DecidableEq, Repr

/-- A progress event: the no-progress count starts anew (R239). -/
def Slot.progress (x : Slot) (now : Nat) : Slot := { x with since := some now, counted := 0 }

/-- The no-progress count stands still from now on: the team parks or is suspended (R239). -/
def Slot.still (x : Slot) (now : Nat) : Slot :=
  { x with since := none, counted := x.counted + (match x.since with | some t => now - t | none => 0) }

/-- The no-progress count runs on. -/
def Slot.runs (x : Slot) (now : Nat) : Slot := { x with since := some (x.since.getD now) }

/-- Ns that the no-progress count stands at. -/
def Slot.idleNs (x : Slot) (now : Nat) : Nat := x.counted + (match x.since with | some t => now - t | none => 0)

/-- The team engine of one physical core: the launch in progress (R225, R99) and its slots; of each of the four schedulers the slot that
issued last (R228) and the time base until which its memory stage is occupied (R235). -/
structure Tme where
  active : Bool
  furrow : Nat
  tag : Nat
  step : Nat
  program : Nat
  teams : Nat
  regs : Nat
  budget : Nat
  args : List Byte
  started : Nat
  ended : Nat
  overrun : Bool
  slots : SMap Slot
  last : SMap Nat
  busy : SMap Nat
deriving DecidableEq, Repr

/-- Slot `j` is the one that its scheduler issued from last (R228). -/
def Tme.tookBy (t : Tme) (j : Nat) : Tme := { t with last := SMap.put 60 t.last (j % 4) j }

def Tme.empty : Tme := ⟨false, 0, 0, 0xFFFFFFFF, 0, 0, 0, 0, [], 0, 0, false, [], [], []⟩

/-- A SYNC declaration (R34). -/
structure SyncDecl where
  ctr : Bool
  first : Nat
  count : Nat
  remote : Bool
  host : Bool
deriving DecidableEq, Repr

/-- A deadline entry (Table 2.7). -/
structure Ddl where
  id : Nat
  kind : Nat
  phase : Nat
  sf : Nat
  ef : Nat
  stag : Nat
  etag : Nat
  bound : Nat
  plist : Nat
deriving DecidableEq, Repr

/-- A power-profile segment (R37). -/
structure Seg where
  off : Nat
  w : Nat
  fill : Nat
deriving DecidableEq, Repr

/-- A memory reservation (R39). -/
structure Resv where
  base : Nat
  size : Nat
  kind : Nat
  mark : Nat
deriving DecidableEq, Repr

/-- A furrow of the admitted sheaf: furrow index, descriptor counts of its phases, ring and source-copy places (R64). -/
structure FrwImg where
  f : Nat
  nPro : Nat
  nBody : Nat
  nEpi : Nat
  ring : Nat
  log2 : Nat
  srcBody : Nat
  srcEpi : Nat
deriving DecidableEq, Repr

/-- A routine of the library store with its place (R38, R69). -/
structure StoreRtn where
  id : Nat
  addr : Nat
  count : Nat
  contract : List Byte
deriving DecidableEq, Repr

/-- The admitted sheaf (R25), with its placement, the sow-in delay, its profile on the grid of R418 (first and one past
the last microsecond, W, fillable W), the worst-case length in µs of prologue, step body and epilogue, and the counts of STAMP
operations, SEALs and UPDs of one step body. -/
structure Sheaf where
  jobId : Nat
  steps : Nat
  seed : Nat
  lsInit : Int
  carry : Bool
  lsGrow : Nat
  cores : Nat
  ports : Nat
  plots : Nat
  stackSet : Nat
  movers : Nat
  sync : List SyncDecl
  ddls : List Ddl
  power : List (List Seg)
  mem : List Resv
  peers : List (List Nat)
  store : List StoreRtn
  frws : List FrwImg
  lats : List (Nat × Nat)
  sowNs : Nat
  profile : List (Nat × Nat × Nat × Nat)
  phaseUs : List Nat
  nStamp : Nat
  nSeal : Nat
  nUpd : Nat
  digest : List Byte
deriving DecidableEq, Repr

/-- An open deadline interval (R36): deadline, step, start time, and whether its LATE event has been raised. -/
structure Ival where
  id : Nat
  k : Nat
  start : Nat
  late : Bool
deriving DecidableEq, Repr

/-- The run of the admitted sheaf: START time, end of sow-in, last step once FINISH or the end fixes it, deadline
intervals open, furrows that completed a phase (key: step, or 2^32 prologue, 2^32 + 1 epilogue), and the abort. -/
structure Job where
  start : Nat
  sowEnd : Nat
  last : Option Nat
  ivals : List Ival
  phaseDone : SMap Nat
  aborting : Bool
  abortAt : Nat
  refuseInbound : Bool
  faulted : Bool
deriving DecidableEq, Repr

def Job.idle : Job := ⟨0, 0, none, [], [], false, 0, false, false⟩

end Sys2Proof
end

