-- ==== Sys2Proof/Machine/Fabric.lean ====
section
/-! DEFINITION. Plain data of the caches, the matrix arrays, the harrow units, the step seal, the ports and the fabric
transactions (spec 05, 09, 10, 12, 13). -/
namespace Sys2Proof

/-- A cached line or private copy: its address, its bytes and a mask of the bytes that are valid (a cache) or that its
atomics changed (a private copy, R260). -/
structure Line where
  addr : Nat
  bytes : List Byte
  mask : List Bool
deriving DecidableEq, Repr

/-- An accumulator element of the matrix array (R113): its FP32 bits, and, for an open chain, the sum of its products
(R90, R116). -/
structure AccEl where
  y : Nat
  sum : Sum
  nf : Bool
deriving DecidableEq, Repr

def AccEl.zero : AccEl := ⟨0, Sum.zero, false⟩

/-- An accumulator tile with its open chain (R90, R113): owned, shape, columns, chain K so far, whether a
member had FP32 operands (R117); elements keyed
`columns·row + column`. -/
structure AccTile where
  owned : Bool
  m : Nat
  n : Nat
  shape : Nat
  ksum : Nat
  split : Bool
  els : SMap AccEl
deriving DecidableEq, Repr

def AccTile.empty : AccTile := ⟨false, 0, 0, 0, 0, false, []⟩

/-- The two accumulators of one physical core. -/
structure Mxa where
  acc0 : AccTile
  acc1 : AccTile
deriving DecidableEq, Repr

def Mxa.empty : Mxa := ⟨.empty, .empty⟩

/-- A group registered with a harrow unit (R206), with the place of its group record. -/
structure HGroup where
  record : Nat
  base : Nat
  nrec : Nat
  count : Nat
  contribs : List Nat
  window : Nat
  drain : Nat
deriving DecidableEq, Repr

/-- A reduction header (R209) of group `g` and step `k`: records landed on time and carried per contributor index, the
contributors landed late and dropped, closed participation bitmap, carried contributions, event bits, fault causes
(1 SPLIT, 2 OVERCOUNT, 4 MISMATCH), the anchor of its landings, and whether it is closed and deposited. -/
structure HHdr where
  g : Nat
  k : Nat
  onRec : SMap Nat
  carRec : SMap Nat
  lateDev : NSet
  bitmap : Nat
  carried : Nat
  ovf : Bool
  nf : Bool
  faults : Nat
  anchor : Nat
  closed : Bool
  deposited : Bool
deriving DecidableEq, Repr

def HHdr.empty (g k : Nat) : HHdr := ⟨g, k, [], [], [], 0, 0, false, false, 0, 0, false, false⟩

/-- The last verdict a harrow unit keeps for a group (R220): step, state (Table 10.7), applied, divisor, loss-scale
exponent. -/
structure HVerd where
  step : Nat
  state : Nat
  applied : Bool
  d : Nat
  ls : Int
deriving DecidableEq, Repr

def HVerd.none : HVerd := ⟨0, 0, false, 0, 0⟩

/-- One harrow unit: registered groups, headers, verdicts, and the step whose gradient each slot of a group holds
(key `2·g + slot`). -/
structure Harrow where
  groups : SMap HGroup
  hdrs : List HHdr
  verds : SMap HVerd
  own : SMap (Option Nat)
deriving DecidableEq, Repr

def Harrow.empty : Harrow := ⟨[], [], [], []⟩

/-- The hub's record of one step's seal (R210 to R214): SEALs deposited, the OR of their bits, J(k), STAMP operations
begun and completed, token sent, tokens held, devices named in its peer tables and in those with EMIT, verdict
(Table 10.9), SEALTIME, devices whose DONE arrived, own DONE sent, UPDs completed, generation advanced. -/
structure StepSeal where
  dep : Nat
  ovf : Bool
  nf : Bool
  fault : Bool
  jk : Nat
  stampBegun : Nat
  stampDone : Nat
  sent : Bool
  toks : List Tok
  peers : NSet
  emit : NSet
  verdict : Nat
  sealtime : Nat
  dones : NSet
  doneSent : Bool
  upds : Nat
  adv : Bool
deriving DecidableEq, Repr

def StepSeal.empty : StepSeal := ⟨0, false, false, false, 0, 0, 0, false, [], [], [], 0, 0, [], false, 0, false⟩

/-- What a fabric transaction of this device is for (R276, R277). A load names its lanes with their addresses, an atomic its lanes with
the operands combined before theirs (none for the first) and its two operands, a store the bytes it writes with their global addresses.
An access whose team went on without it is `lost`: 0 a load, 1 a write to this device, 2 one to another (R244, R259). `inval` is a yoke
invalidation sent to a sharer (R263). -/
inductive XKind
  | put (f step : Nat)
  | get (f step loc : Nat) (lctr : Option Nat)
  | acc (f step : Nat) (stamp : Bool)
  | signal (f step : Nat)
  | load (core slot : Nat) (lanes : List (Nat × Nat))
  | store (core slot : Nat) (lanes : Nat) (ws : List (Nat × List Byte))
  | atomic (core slot : Nat) (lanes : List (Nat × Option Nat)) (v v2 : Nat)
  | lost (core slot : Nat) (w : Nat)
  | stale
  | inval
  | echo (dev : Nat)
deriving DecidableEq, Repr

/-- What awaits the sharers' answers to a write's invalidations (R263): the answer to an access of the host or JTAG, a RESPONSE, the
descriptor in progress at a furrow, the access of a team. -/
inductive AckTo
  | ok
  | rsp (c : Cmd) (status : Nat) (data : List Byte)
  | furrow (f : Nat)
  | team (core slot : Nat)
deriving DecidableEq, Repr

/-- An outstanding fabric transaction: its identifier, purpose, destination, command header and sending time. -/
structure Xact where
  xid : Nat
  kind : XKind
  dst : Nat
  port : Nat
  cmd : Cmd
deriving DecidableEq, Repr

/-- The link state of a headland port (R270, R275): current step of Table 13.2, failed attempts, sequenced flits sent
and received in order, flits kept for replay, and replays of one SEQ without progress, with the flits sent since the first of them. -/
structure Port where
  step : Nat
  fails : Nat
  tx : Nat
  rx : Nat
  kept : Nat
  nakSeq : Nat
  nakRuns : Nat
  since : Nat
deriving DecidableEq, Repr

def Port.off : Port := ⟨0, 0, 0, 0, 0, 0, 0, 0⟩

end Sys2Proof
end

