-- ==== Sys2Proof/Machine/Hub.lean ====
section
/-! DEFINITION. Plain data of the hub's own units: governor, clocks, time base, resets, in-service test, boot, management,
JTAG, PCIe function; and of the tally (spec 15 to 20). -/
namespace Sys2Proof

/-- Why the device does not run: it runs; a thermal trip stopped every clock (R311); a boundary-scan instruction was
loaded (R392); power-on reset is asserted (R405). -/
inductive Halt
  | run | trip | boundary | por
deriving DecidableEq, Repr

/-- Governor (R306 to R313), in half milliwatts: target, last ten samples, inserted fill in place, whether it holds a job's
envelope, ramp-down, the descriptors at the gate (furrow and time of arrival, oldest first), stretch of each island in
64ths of its contract frequency, an envelope recheck due, fill level per MXA core, plots with inserted reads, and the
begin of the running phase's profile, the idle draw, what is left of this microsecond's slew allowance, the gate closed
above the ceiling, the energy of inserted work below one joule, and the dies' temperatures; fill holds the level that ramp-down reached,
the draw that aborted operations handed to the pattern generators, by furrow (R309); during a power transition the state it leaves and the
state it goes to (R316). -/
structure Gov where
  target : Nat
  meas : List Nat
  fill : Nat
  active : Bool
  ramp : Bool
  gate : List (Nat × Nat)
  stretch : SMap Nat
  recheck : Bool
  mxaFill : SMap Nat
  plotFill : NSet
  phase : Nat
  phaseT0 : Nat
  idle : Nat
  allow : Nat
  closed : Bool
  fillE : Nat
  dieTemp : List Nat
  hold : Bool
  hand : SMap Nat
  leaves : Nat
  goal : Option Nat
deriving DecidableEq, Repr

def Gov.off : Gov := ⟨0, [], 0, false, false, [], [], false, [], [], 0, 0, 0, 0, false, 0, [], false, [], 0, none⟩

/-- Clock sources and loops (spec 16): presence of XIN0, PCIE_REFCLK and XIN1's copy, XO_SETTLE elapsed, loops that
relock (4·d + 0 CPLL, 1 FPLL, 2 HPLL0, 3 HPLL1; 40 MPLL) and loops that coast. -/
structure Clk where
  xin0 : Bool
  pcieRef : Bool
  xin1 : Bool
  settled : Bool
  relock : NSet
  coast : NSet
deriving DecidableEq, Repr

/-- Time base (R286 to R288): count, whether it counts, time of an outstanding TB_REQ, consecutive good exchanges, rate at
SUBMIT, time of the last PPS_IN edge. -/
structure Tb where
  time : Nat
  on : Bool
  reqT1 : Option Nat
  good : Nat
  rateSub : Int
  pps : Option Nat
deriving DecidableEq, Repr

/-- In-service test (R368 to R370): units due, running, failed once, and per port the uncorrected codewords and replays
counted at the start of the clock hour with its start time. Unit: slice `16·core + s`, window `2,240 + 64·plot + w`. -/
structure Ist where
  due : NSet
  running : NSet
  failed : NSet
  hour : Nat
  ue : SMap Nat
  rep : SMap Nat
deriving DecidableEq, Repr

/-- A thermal-trip record (R311): source, temperature, time base, JOB_ID, reported. -/
structure TripRec where
  src : Nat
  temp : Nat
  tb : Nat
  job : Nat
  reported : Bool
deriving DecidableEq, Repr

/-- Flash, OTP and boot (R388, R389, R321): the two slots, rollback counter, booted slot, library memory, XO_SETTLE in OTP,
JTAG mode, suspect marks and trip records in flash, a trip record not yet written, the PLDM update (0 none, 1 written and verified,
2 failed verification), the recovery window, whether the device boots, whether a DEV reset waits for loops, and the CORE (1) or JOB (2) reset that
runs, with the time base at which it began (R372, R373). -/
structure Boot where
  slots : List FwSlot
  rollback : Nat
  booted : Option Nat
  lib : List Routine
  bootImage : List Byte
  xoOtp : Option Nat
  jtagMode : Nat
  marks : SMap Nat
  trips : List TripRec
  tripDue : Option TripRec
  pldm : Nat
  window : Mem
  booting : Bool
  devReset : Bool
  soft : Option (Nat × Nat)
deriving DecidableEq, Repr

/-- SPDM responder (R390): the exchange so far, and what measurements 4 to 6 cover; MCTP endpoint (R391). -/
structure Mgmt where
  version : Bool
  caps : Bool
  algs : Bool
  keyEx : Bool
  session : Bool
  eid : Nat
  meas4 : List Byte
  meas5 : List Byte
  meas6 : List Byte
deriving DecidableEq, Repr

/-- TAP instruction register code (Table 19.6), data register, boundary register. -/
structure Jtag where
  ir : Nat
  dr : Nat
  bsr : List Byte
deriving DecidableEq, Repr

/-- PCIe function (R381, R384, R385): link up, D3hot, MSI-X vector masks and pending bits, MSI-X table bytes. -/
structure Pcie where
  link : Bool
  d3 : Bool
  mask : Nat
  pend : Nat
  table : Mem
deriving DecidableEq, Repr

/-- Pins and straps (spec 20): XO_SET, CMOS, MGMT_ADDR, MGMT_I3C, TLY_ADDR; THERMTRIP_N pulled low. -/
structure Pins where
  xoSet : Nat
  cmos : Bool
  mgmtAddr : Bool
  mgmtI3c : Bool
  thermtrip : Bool
deriving DecidableEq, Repr

/-- Route epoch (R283): next table activated and not yet resumed, devices whose ECHO is outstanding, tokens that wait for
commands to flow again, devices whose answer says that they list this one in their yoke, the members agreed at the last one (R262,
R267), and the time base at RESUME. -/
structure Epoch where
  swapped : Bool
  echoes : NSet
  tokq : List Tok
  listers : NSet
  members : List Nat
  since : Nat
deriving DecidableEq, Repr

/-- An entry of the tally's event log (R346). -/
structure TlyEvt where
  code : Nat
  time : Nat
  uwh : Nat
  detail : Nat
deriving DecidableEq, Repr

/-- A tally annotation (R347). -/
structure TlyAnn where
  tb : Nat
  job : Nat
  kind : Nat
  secs : Nat
  uwh : Nat
deriving DecidableEq, Repr

/-- A non-volatile copy (R343): energies with fraction, time, sequence number, written at power loss, CRC good. -/
structure NvCopy where
  energy : Nat
  ch : List Nat
  secs : Nat
  seq : Nat
  atLoss : Bool
  good : Bool
deriving DecidableEq, Repr

/-- Calibration of one channel as written: TLY_CAL_A and TLY_CAL_B (Table 17.4). -/
structure Cal where
  a : Word
  b : Word
deriving DecidableEq, Repr

/-- Latest reading of one channel (TLY_CH): millivolts, 10 mA units, °C, and the energy of its latest sample in µWh with 32
fraction bits. -/
structure ChNow where
  mv : Nat
  ma : Nat
  temp : Nat
  prev : Nat
deriving DecidableEq, Repr

/-- The tally (spec 17). Energies are in µWh with 32 fraction bits. -/
structure Tally where
  powered : Bool
  energy : Nat
  ch : List Nat
  chNow : List ChNow
  secs : Nat
  samples : Nat
  wsum : Nat
  watts : Nat
  log : List TlyEvt
  lost : Nat
  ann : List TlyAnn
  annCnt : Nat
  annBad : Nat
  annRate : Nat
  pulses : Nat
  pulseLow : Bool
  cal : List Cal
  sealed : Bool
  sealKey : Bool
  calen : Bool
  xtal : Bool
  xtalSecs : Nat
  chFault : Bool
  stFail : Bool
  romBad : Bool
  restored : Bool
  dead : NSet
  overRange : NSet
  nv : List NvCopy
  nvSeq : Nat
  chSel : Nat
  logSel : Nat
  annSel : Nat
  fwVer : Nat
  fwCrc : Nat
  addrHigh : Bool
deriving DecidableEq, Repr

/-- Factory calibration: unit gains, zero offsets (log entry 6). -/
def Cal.factory : Cal := ⟨0x4000_0000_4000_0000, 0⟩

end Sys2Proof
end

