-- ==== Sys2Proof/Machine/State.lean ====
section
/-! DEFINITION. The machine's state: the device, the tally and the queue of waiting commands; how a step can stop; the
state after reset. -/
namespace Sys2Proof.Machine
open Sys2Proof

/-- How a step stops without a next state. -/
inductive Fault
  /-- Raised by every meaning whose operand names a unit, register, index or step the device does not have (Table 0.3):
  there is no such command. Safe: the model stops where the hardware has no behaviour. -/
  | noSuchUnit
deriving DecidableEq, Repr

/-- Why a command has no meaning. -/
inductive Refusal
  /-- Raised by an arm of `exec` that has no meaning yet, naming its mnemonic. Safe: the model stops. -/
  | notModelled (mnemonic : String)
deriving DecidableEq, Repr

/-- The device but for the tally. Registers are listed by control-window offset; one that is not listed holds its Reset
value (R8, R18). Units are listed by number; one that is not listed is in its reset state. -/
structure Dev where
  /-- control registers -/
  regs : SMap Word
  /-- HBM, plots and tile buffers, by local address in the host view (R247) -/
  mem : Mem
  /-- slot header of each 512-byte block (address / 512) of plots and tile buffers (R133) -/
  hdrs : SMap Nat
  /-- 64-bit HBM words (address / 8) with an uncorrectable error (R299) -/
  eccUE : NSet
  /-- 64-bit HBM words (address / 8) with a correctable error (R299) -/
  eccCE : NSet
  /-- set flags (R251) -/
  flags : NSet
  /-- receive counters (R251) -/
  ctrs : SMap Word
  /-- declarations in force at the synchronisation unit: those of the sheaf admitted last, until the next one or a JOB reset (R34, log
  entry 24) -/
  decls : List SyncDecl
  /-- furrows, in the order MXA, TME, tilth, mover, headland, harrow (Table 2.5) -/
  furrows : SMap Furrow
  /-- waits pending at the synchronisation unit, in arrival order (R57) -/
  waits : List Waiter
  /-- accumulators and chains, by physical core (R90, R113) -/
  mxa : SMap Mxa
  /-- team engines, by physical core (R225) -/
  tme : SMap Tme
  /-- team L1 lines, by physical core, newest first (R257) -/
  l1 : SMap (List Line)
  /-- cache-plot lines, by die, newest first (R188) -/
  cplot : SMap (List Line)
  /-- core-private atomic copies, by physical core (R260) -/
  coreCopy : SMap (List Line)
  /-- die-private atomic copies, by die (R260) -/
  dieCopy : SMap (List Line)
  /-- yoke directory: sharers of each 256-byte granule (R263) -/
  dir : SMap (List Nat)
  /-- harrow units, by stack -/
  harrow : SMap Harrow
  /-- the hub's seal records, by step (R210 to R214) -/
  seals : SMap StepSeal
  /-- loss-scale exponent of each step of the run (R162, R163) -/
  ls : SMap (Option Int)
  /-- loss-scale exponent and clean-step count as the last verdict left them and the run's effective growth interval, kept
  through a JOB reset (R162, R163, R221) -/
  lsLast : Int × Nat × Nat
  /-- GEN0: HUB_GEN at START of the run (R210) -/
  gen0 : Nat
  /-- HUB_SNAP.ENABLE at SUBMIT: the job's UPDs write pre-images (R222) -/
  snap : Bool
  /-- snapshot capture under way: its step (R222) -/
  capture : Option Nat
  /-- link state of the headland ports -/
  ports : SMap Port
  /-- outstanding fabric transactions (R276) -/
  xacts : List Xact
  /-- next transaction identifier -/
  nextXid : Nat
  /-- writes that await the answers of sharers: the invalidations not answered yet, and who waits (R263) -/
  acks : List (List Nat × AckTo)
  /-- admitted sheaf (R25) -/
  sheaf : Option Sheaf
  /-- bytes that the loader is still to copy (R386) -/
  copies : List (Nat × List Byte)
  /-- the run of the sheaf -/
  job : Job
  epoch : Epoch
  gov : Gov
  clk : Clk
  tb : Tb
  ist : Ist
  /-- stacks in self-refresh (R298) -/
  selfRef : NSet
  /-- last step of Table 14.3 of each stack that is to train or trains (R296) -/
  training : SMap Nat
  /-- stacks that are hot (R297) -/
  hot : NSet
  /-- data rate of each stack since its last training (R293) -/
  rates : SMap Nat
  boot : Boot
  mgmt : Mgmt
  jtag : Jtag
  pcie : Pcie
  pins : Pins
  halt : Halt
  /-- suspect marks in effect: RST_SUSPECT of each die as the last JOB or deeper reset found it (R365) -/
  suspects : SMap Nat
  /-- records dropped from each trace ring since its last LOST record (R395) -/
  lostTrace : SMap Nat
  /-- what left the device or answered a requester during the last command (the model's own field) -/
  out : List Out
  /-- free-value counter (the model's own field; log entry 1) -/
  free : Nat
deriving DecidableEq, Repr

/-- The machine: device, tally, and the commands that wait (the model's own field; log entry 2). -/
structure State where
  dev : Dev
  tally : Tally
  pending : List Instr
deriving DecidableEq, Repr

/-- A firmware slot that verifies, version 0, with an empty library (log entry 6). -/
def slotZero : FwSlot := ⟨0, true, true, [], []⟩

/-- Boot data of a new part (log entry 6). -/
def bootFresh : Boot := ⟨[slotZero, slotZero], 0, none, [], [], none, 0, [], [], none, 0, [], true, false, none⟩

/-- The device right after power-on reset is released (R375, Table 16.4 step 1). -/
def Dev.reset : Dev where
  regs := []
  mem := []
  hdrs := []
  eccUE := []
  eccCE := []
  flags := []
  ctrs := []
  decls := []
  furrows := []
  waits := []
  mxa := []
  tme := []
  l1 := []
  cplot := []
  coreCopy := []
  dieCopy := []
  dir := []
  harrow := []
  seals := []
  ls := []
  lsLast := (0, 0, 2000)
  gen0 := 0
  snap := false
  capture := none
  ports := []
  xacts := []
  nextXid := 0
  acks := []
  sheaf := none
  copies := []
  job := .idle
  epoch := ⟨false, [], [], [], [], 0⟩
  gov := .off
  clk := ⟨true, true, true, false, [], []⟩
  tb := ⟨0, false, none, 0, 0, none⟩
  ist := ⟨[], [], [], 0, [], []⟩
  selfRef := []
  training := []
  hot := []
  rates := []
  boot := bootFresh
  mgmt := ⟨false, false, false, false, false, 0, [], [], []⟩
  jtag := ⟨2, 0x112805A3, []⟩
  pcie := ⟨true, false, 0xFFF, 0, []⟩
  pins := ⟨0, false, false, false, false⟩
  halt := .run
  suspects := []
  lostTrace := []
  out := []
  free := 0

/-- The tally as shipped, running (R343, R345; log entry 6). -/
def tallyReset : Tally where
  powered := true
  energy := 0
  ch := List.replicate 16 0
  chNow := List.replicate 16 ⟨0, 0, 0, 0⟩
  secs := 0
  samples := 0
  wsum := 0
  watts := 0
  log := []
  lost := 0
  ann := []
  annCnt := 0
  annBad := 0
  annRate := 0
  pulses := 0
  pulseLow := false
  cal := List.replicate 16 .factory
  sealed := false
  sealKey := false
  calen := false
  xtal := true
  xtalSecs := 0
  chFault := false
  stFail := false
  romBad := false
  restored := false
  dead := []
  overRange := []
  nv := []
  nvSeq := 0
  chSel := 0
  logSel := 0
  annSel := 0
  fwVer := 0
  fwCrc := 0
  addrHigh := false

/-- The machine right after reset: power-on reset just released, nothing booted, no command waiting. -/
def State.reset : State := ⟨Dev.reset, tallyReset, []⟩

end Sys2Proof.Machine
end

