-- ==== Sys2Proof/Machine/Ops.lean ====
section
/-! DEFINITION. Shared operations: running a meaning, register fields, error logs, interrupts, trace records, furrow and
core numbering, local memory, and the idle tick. -/
namespace Sys2Proof.Machine
open Sys2Proof

/-- A device command's meaning: it runs on the device alone, after the record of the last command's output is cleared;
`ok` says whether its operands name units that exist. -/
def runDev (ok : Bool) (f : Dev → Dev) (s : State) : Host.Outcome State Fault Refusal :=
  if ok then .next { s with dev := f { s.dev with out := [] } } else .fault .noSuchUnit

/-- A tally command's meaning: it runs on the tally alone. -/
def runTally (f : Tally → Tally) (s : State) : Host.Outcome State Fault Refusal :=
  .next { s with tally := f s.tally, dev := { s.dev with out := [] } }

/-- Does the device run: no trip has stopped its clocks, no boundary-scan instruction is loaded, no power-on reset is
asserted (R311, R392, R405)? -/
def Dev.live (d : Dev) : Bool := d.halt == .run

/-- A command of the device's own engines or of its surroundings, which has no effect while the device does not run. -/
def runLive (ok : Bool) (f : Dev → Dev) (s : State) : Host.Outcome State Fault Refusal :=
  runDev ok (fun d => if d.live then f d else d) s

/-- Number of a word. -/
def wnat (w : Word) : Nat := w.toNat

/-- A 64-bit word of a number. -/
def mkW (n : Nat) : Word := BitVec.ofNat 64 n

/-- Replace bits `[lo + w - 1 : lo]` of a number. -/
def setBits (v lo w x : Nat) : Nat := v - (bitsOf v lo w) <<< lo + (x % 2 ^ w) <<< lo

/-! ### Registers -/

/-- Stored value of register `r` of unit `u`, index `i`; its Reset value where nothing is listed (R8). -/
def Dev.reg (d : Dev) (r : RegDef) (u : Nat := 0) (i : Nat := 0) : Nat :=
  match SMap.find d.regs (r.addr u i) with
  | some w => w.toNat
  | none => r.reset i

/-- Store a register. -/
def Dev.setReg (d : Dev) (r : RegDef) (v : Nat) (u : Nat := 0) (i : Nat := 0) : Dev :=
  { d with regs := SMap.put (mkW (r.reset i)) d.regs (r.addr u i) (mkW v) }

/-- Stored value of a field. -/
def Dev.fld (d : Dev) (r : RegDef) (f : FldDef) (u : Nat := 0) (i : Nat := 0) : Nat := bitsOf (d.reg r u i) f.lo f.w

def Dev.bit (d : Dev) (r : RegDef) (f : FldDef) (u : Nat := 0) (i : Nat := 0) : Bool := d.fld r f u i != 0

/-- Store a field. -/
def Dev.setFld (d : Dev) (r : RegDef) (f : FldDef) (x : Nat) (u : Nat := 0) (i : Nat := 0) : Dev :=
  d.setReg r (setBits (d.reg r u i) f.lo f.w x) u i

/-- Add to a field that sticks at its largest value. -/
def Dev.stick (d : Dev) (r : RegDef) (f : FldDef) (n : Nat) (u : Nat := 0) (i : Nat := 0) : Dev :=
  d.setFld r f (min (d.fld r f u i + n) (2 ^ f.w - 1)) u i

/-- Add to a field that wraps. -/
def Dev.bump (d : Dev) (r : RegDef) (f : FldDef) (n : Nat) (u : Nat := 0) (i : Nat := 0) : Dev :=
  d.setFld r f (d.fld r f u i + n) u i

/-- Something leaves the device or answers a requester. -/
def Dev.emit (d : Dev) (o : Out) : Dev := { d with out := d.out ++ [o] }

/-- Fold a device operation over a list. -/
def Dev.each {α : Type} (d : Dev) (l : List α) (f : Dev → α → Dev) : Dev := l.foldl f d

/-- A fresh index for a free value (log entry 1). -/
def Dev.fresh (d : Dev) : Dev := { d with free := d.free + 1 }

/-- Does an access of `who` reach the control registers: the device runs, its boot is over (R389), and for the host the
link is up and the function in D0 (R384)? -/
def Dev.reach (d : Dev) (who : Who) : Bool :=
  d.live && d.bit HUB_BOOT HUB_BOOT_READY && (who != .host || (d.pcie.link && !d.pcie.d3))

/-- An access that does not reach has no effect and an error response; a device that does not run answers no host access (R409). -/
def Dev.unreached (d : Dev) (who : Who) : Dev := if who = .host && !d.live then d else d.emit .err

/-- A register access of `who`. -/
def runWho (ok : Bool) (who : Who) (f : Dev → Dev) (s : State) : Host.Outcome State Fault Refusal :=
  runDev ok (fun d => if d.reach who then f d else d.unreached who) s

/-! ### Interrupts (R385) -/

/-- Interrupt bits of Table 19.2. -/
def irqJobFault : Nat := 0
def irqBreach : Nat := 1
def irqParked : Nat := 2
def irqFurrow : Nat := 3
def irqPower : Nat := 4
def irqIst : Nat := 5
def irqAdmission : Nat := 6
def irqTrace : Nat := 7
def irqGeneration : Nat := 8
def irqSnapshot : Nat := 9
def irqLink : Nat := 10
def irqBoot : Nat := 11

/-- A cause arises: its bit sets, and as it rises with EN set the vector's message is sent, or stays pending while the
vector is masked (R385). -/
def Dev.irq (d : Dev) (n : Nat) : Dev :=
  let st := d.fld HUB_IRQ_STATUS HUB_IRQ_STATUS_CAUSE
  if bitOf st n then d
  else
    let d := d.setFld HUB_IRQ_STATUS HUB_IRQ_STATUS_CAUSE (st + 2 ^ n)
    if bitOf (d.fld HUB_IRQ_EN HUB_IRQ_EN_EN) n then
      if bitOf d.pcie.mask n then { d with pcie := { d.pcie with pend := setBits d.pcie.pend n 1 1 } }
      else d.emit (.msi n)
    else d

/-! ### Error logs (R129, R355 to R357) -/

/-- Write an entry of an engine's log; a full log keeps its first 16 entries and sets OVERFLOW (R129). The registers are
the log's CNT, A and B, which have the same fields in every engine. -/
def Dev.elog (d : Dev) (cnt a b : RegDef) (u addr cause tag step : Nat) : Dev :=
  let c := d.reg cnt u
  let n := bitsOf c 0 5
  if 16 ≤ n then d.setReg cnt (setBits c 8 1 1) u
  else
    let d := d.setReg a (addr % 2 ^ 48 + (cause % 256) <<< 48) u n
    let d := d.setReg b (tag % 2 ^ 32 + (step % 2 ^ 32) <<< 32) u n
    d.setReg cnt (setBits c 0 5 (n + 1)) u

def Dev.elogMxa (d : Dev) (core addr cause tag step : Nat) : Dev := d.elog MXA_ELOG_CNT MXA_ELOG_A MXA_ELOG_B core addr cause tag step
def Dev.elogTlt (d : Dev) (plot addr cause tag step : Nat) : Dev := d.elog TLT_ELOG_CNT TLT_ELOG_A TLT_ELOG_B plot addr cause tag step
def Dev.elogHrw (d : Dev) (stack addr cause tag step : Nat) : Dev := d.elog HRW_ELOG_CNT HRW_ELOG_A HRW_ELOG_B stack addr cause tag step
def Dev.elogHdl (d : Dev) (port addr cause tag step : Nat) : Dev := d.elog HDL_ELOG_CNT HDL_ELOG_A HDL_ELOG_B port addr cause tag step
def Dev.elogMov (d : Dev) (m addr cause tag step : Nat) : Dev := d.elog MOV_ELOG_CNT MOV_ELOG_A MOV_ELOG_B m addr cause tag step

/-- Requester codes of the global log beyond `Who.req` (Table 18.14). -/
def reqDesc : Nat := 3
def reqTeam : Nat := 4
def reqRemote : Nat := 5
def reqHw : Nat := 6

/-- Write an entry of the global log (R357). -/
def Dev.glog (d : Dev) (addr cause req tag step : Nat) : Dev :=
  let c := d.reg ERR_GLOG_CNT
  let n := bitsOf c 0 5
  if 16 ≤ n then d.setReg ERR_GLOG_CNT (setBits c 8 1 1)
  else
    let d := d.setReg ERR_GLOG_A (addr % 2 ^ 48 + (cause % 256) <<< 48 + (req % 8) <<< 56) 0 n
    let d := d.setReg ERR_GLOG_B (tag % 2 ^ 32 + (step % 2 ^ 32) <<< 32) 0 n
    d.setReg ERR_GLOG_CNT (setBits c 0 5 (n + 1))

/-- STEP of records that belong to no step (R71, R355). -/
def noStep : Nat := 0xFFFF_FFFF

/-- An access by `who` is refused: error response, entry in the global log with TAG 0 and no step (R355, R357). -/
def Dev.refuse (d : Dev) (who : Who) (addr cause : Nat) : Dev := (d.glog addr cause who.req 0 noStep).emit .err

/-! ### Islands (R326, R334) -/

/-- Is bit `i` of one of the three enable masks set (R334)? -/
def Dev.islandEn (d : Dev) (r : RegDef) (i : Nat) : Bool := bitOf (d.reg r 0 (i / 64)) (i % 64)

def coreIsland (c : Nat) : Nat := 17 * (c / 14) + c % 14
def fabIsland (die : Nat) : Nat := 17 * die + 14
def movIsland (die : Nat) : Nat := 17 * die + 15
def plotIsland (die : Nat) : Nat := 17 * die + 16

/-- PWR_STATUS.STATE: 0 RUN, 1 SLEEP, 2 DEEP, 3 in a transition. -/
def Dev.pwrState (d : Dev) : Nat := d.fld PWR_STATUS PWR_STATUS_STATE

/-- The power state whose enables hold: in a transition the one it leaves, until the blocks have switched (R316; log entry 86). -/
def Dev.pwrMode (d : Dev) : Nat := if d.pwrState = 3 then d.gov.leaves else d.pwrState

/-- Is island `i` gated in the power state as it is (R334)? -/
def Dev.gated (d : Dev) (i : Nat) : Bool :=
  !d.islandEn (if d.pwrMode = 0 then CLK_EN_RUN else if d.pwrMode = 1 then CLK_EN_SLEEP else CLK_EN_DEEP) i

/-! ### Ratio limits broken (R335, Table 16.5; log entry 93) -/

/-- Do a die's lane tree and bank tree differ? Its lanes then repeat or skip words. -/
def Dev.treesOff (d : Dev) (die : Nat) : Bool := d.fld CLK_HPLL CLK_HPLL_PLOT_DIV die != d.fld CLK_HPLL CLK_HPLL_TLT_DIV die

/-- Data that land at `a` as the plots take them: free where the trees of the plot's die differ. -/
def Dev.lanes (d : Dev) (a : Nat) (bs : List Byte) : Dev × List Byte :=
  let at_ (i : Nat) : Bool :=
    decide (0x200_0000_0000 ≤ a + i) && decide (a + i < 0x300_0000_0000) && d.treesOff ((a + i - 0x200_0000_0000) / 0x4000_0000)
  if (List.range 10).any d.treesOff && (at_ 0 || at_ (bs.length - 1)) then
    (d.fresh, bs.zipIdx.map fun p => if at_ p.2 then BitVec.ofNat 8 (Config.freeNat d.free p.2) else p.1)
  else (d, bs)

/-- Is the peripheral bus clocked, and within its limit? -/
def Dev.busOk (d : Dev) : Bool := !d.gated 171 && decide (4 ≤ d.fld CLK_MPLL CLK_MPLL_HPB_DIV)

/-- A transfer over the peripheral bus: none while its island is gated; above the limit it may be lost. -/
def Dev.bus (d : Dev) (go : Dev → Dev) : Dev :=
  if d.busOk then go d
  else if d.gated 171 || Config.freeBool d.free 9 then d.fresh
  else go d.fresh

/-- A token goes to the tally over the hub link (R347). -/
def Dev.tlySend (d : Dev) (value kind : Nat) : Dev := d.bus fun e => e.emit (.tlyToken d.tb.time value kind)

/-- The island that answers for a control-window offset, none for the hub's own (R317). A stack answers through its die's
fabric. -/
def regIsland (o : Nat) : Option Nat :=
  if o < 0x1000_0000 || 0x1A00_0000 ≤ o then none
  else
    let d := (o - 0x1000_0000) / 0x100_0000
    let x := (o - 0x1000_0000) % 0x100_0000
    if 0x10_0000 ≤ x && x < 0x1E_0000 then some (17 * d + (x - 0x10_0000) / 0x1_0000)
    else if 0x40_0000 ≤ x && x < 0x41_0000 then some (plotIsland d)
    else if 0x50_0000 ≤ x && x < 0x54_0000 then some (movIsland d)
    else some (fabIsland d)

/-- Is the register at an offset in a gated island? -/
def Dev.gatedReg (d : Dev) (o : Nat) : Bool := match regIsland o with | some i => d.gated i | none => false

/-- An access of `who` to the register at offset `o`: in a gated island it draws an error response and is logged (R317). -/
def Dev.atReg (d : Dev) (who : Who) (o : Nat) (f : Dev → Dev) : Dev :=
  if d.gatedReg o then d.refuse who (0x400_0000_0000 + o) 0x02 else f d

/-- A register access of `who` at offset `o` of a state. -/
def runReg (ok : Bool) (who : Who) (o : Dev → Nat) (f : Dev → Dev) (s : State) : Host.Outcome State Fault Refusal :=
  runWho ok who (fun d => d.atReg who (o d) f) s

/-- Is a loop locked? -/
def Dev.locked (d : Dev) (n : Nat) : Bool := d.clk.settled && !d.clk.relock.has n && !d.clk.coast.has n

/-! ### Admission state -/

def Dev.admitted (d : Dev) : Bool := d.bit ADM_STATUS ADM_STATUS_ADMITTED
def Dev.running (d : Dev) : Bool := d.bit ADM_STATUS ADM_STATUS_RUNNING
def Dev.checking (d : Dev) : Bool := d.bit ADM_STATUS ADM_STATUS_CHECKING

/-- No sheaf reserves a plot any more (Table 9.4). -/
def Dev.clearMarks (d : Dev) : Dev :=
  d.each (List.range 160) fun d p => d.setReg TLT_MARK (d.reg TLT_MARK p / 8 * 8) p

/-- Plots that the ended sheaf marked KEEP hold kept contents (R187). -/
def Dev.markKept (d : Dev) : Dev :=
  d.each (List.range 160) fun d p =>
    if d.bit TLT_MARK TLT_MARK_RESERVED p && d.fld TLT_MARK TLT_MARK_MARK p == 3 then d.setFld TLT_MARK TLT_MARK_KEPT 1 p else d

/-- JOB_ID of the admitted sheaf, 0 with none (R71). -/
def Dev.jobId (d : Dev) : Nat :=
  match d.sheaf with
  | some s => s.jobId
  | none => 0

/-- This device's identifier (R279). -/
def Dev.devId (d : Dev) : Nat := d.fld HUB_DEVID HUB_DEVID_ID

/-! ### Yoke invalidations (R263) -/

/-- A new transaction identifier. -/
def Dev.newXid (d : Dev) : Dev × Nat := ({ d with nextXid := (d.nextXid + 1) % 2 ^ 32 }, d.nextXid)

/-- An invalidation of a granule goes to each of its sharers (R263). -/
def Dev.invSharers (d : Dev) (g : Nat) (sharers : List Nat) : Dev :=
  d.each sharers fun d s =>
    let (d, xid) := d.newXid
    { (d.bump HUB_DIR_INV HUB_DIR_INV_COUNT 1).emit (.invalidate s g xid) with xacts := d.xacts ++ [⟨xid, .inval, s, 0, Cmd.zero⟩] }

/-- Yoke invalidations that a write to `[a, a + n)` of HBM sends: every sharer of a tracked granule, whose entry is
dropped; the write's acknowledgement follows the sharers' answers (R263). -/
def Dev.yokeWrite (d : Dev) (a n : Nat) : Dev :=
  let hit := d.dir.filter fun p => decide (a / 256 ≤ p.1) && decide (p.1 ≤ (a + n - 1) / 256)
  let d := { d with dir := d.dir.filter fun p => !(decide (a / 256 ≤ p.1) && decide (p.1 ≤ (a + n - 1) / 256)) }
  d.each hit fun d p => d.invSharers p.1 p.2

/-- Invalidations that the command under way has sent. -/
def Dev.invs (d : Dev) : List Nat := d.out.filterMap fun o => match o with | .invalidate _ _ x => some x | _ => none

/-- Does the acknowledgement of this command's write await sharers? Then it is put aside for `t` (R263). -/
def Dev.awaits (d : Dev) (t : AckTo) : Option Dev :=
  if d.invs.isEmpty then none else some { d with acks := d.acks ++ [(d.invs, t)] }

/-- The normal response to a write of the host or JTAG, once every sharer has answered (R263). -/
def Dev.okAck (d : Dev) : Dev := (d.awaits .ok).getD (d.emit .ok)

/-! ### Trace (R393 to R396) -/

/-- Record kinds of Table 19.7. -/
def trcBegin : Nat := 1
def trcEnd : Nat := 2
def trcMarkK : Nat := 3
def trcPark : Nat := 4
def trcBreach : Nat := 5
def trcFault : Nat := 6
def trcVerdict : Nat := 7
def trcEpoch : Nat := 8
def trcFillBegin : Nat := 9
def trcFillEnd : Nat := 10
def trcLost : Nat := 11

/-- The 64 bytes of a record (Table 19.7), its DATA padded with zeros. -/
def traceBytes (time kind flags furrow tag step job rtn pos : Nat) (data : List Byte) : List Byte :=
  leBytes 8 time ++ leBytes 1 kind ++ leBytes 1 flags ++ leBytes 2 furrow ++ leBytes 4 tag ++ leBytes 4 step ++
  leBytes 4 job ++ leBytes 2 rtn ++ leBytes 2 pos ++ leBytes 4 0 ++ (data ++ List.replicate 32 0).take 32

/-- The TRACE interrupt, when a ring reaches its watermark (R396). -/
def Dev.traceMark (d : Dev) (r : Nat) : Dev :=
  let cap := 2 ^ (d.fld TRC_SIZE TRC_SIZE_LOG2_SIZE 0 r - 6)
  let held := (d.reg TRC_WR 0 r + 2 ^ 64 - d.reg TRC_RD 0 r) % 2 ^ 64
  if d.fld TRC_SIZE TRC_SIZE_WATERMARK 0 r * cap ≤ 16 * held then d.irq irqTrace else d

/-- Place a record that has room in its ring (R395). -/
def Dev.tracePut (d : Dev) (r : Nat) (b : List Byte) : Dev :=
  let lg := d.fld TRC_SIZE TRC_SIZE_LOG2_SIZE 0 r
  let n := d.reg TRC_WR 0 r
  let a := d.fld TRC_BASE TRC_BASE_BASE 0 r * 4096 + 64 * (n % 2 ^ (lg - 6))
  ({ d.yokeWrite a b.length with mem := Mem.write d.mem a b }).setReg TRC_WR ((n + 1) % 2 ^ 64) 0 r

/-- Write a record to ring `r`: dropped and counted when the ring is full and OVERWRITE is clear; a LOST record comes
first when records were dropped before (R395). -/
def Dev.traceRing (d : Dev) (r : Nat) (b : List Byte) : Dev :=
  let lg := d.fld TRC_SIZE TRC_SIZE_LOG2_SIZE 0 r
  if lg < 16 then d
  else
    let cap := 2 ^ (lg - 6)
    let used (d : Dev) : Nat := (d.reg TRC_WR 0 r + 2 ^ 64 - d.reg TRC_RD 0 r) % 2 ^ 64
    let lose (d : Dev) : Dev :=
      { d.stick TRC_LOST TRC_LOST_COUNT 1 0 r with
        lostTrace := SMap.put 0 d.lostTrace r (SMap.get 0 d.lostTrace r + 1) }
    if d.bit TRC_SIZE TRC_SIZE_OVERWRITE 0 r then
      let d := if cap ≤ used d then d.setReg TRC_RD ((d.reg TRC_RD 0 r + 1) % 2 ^ 64) 0 r else d
      (d.tracePut r b).traceMark r
    else if cap ≤ used d then lose d
    else
      let l := SMap.get 0 d.lostTrace r
      let d :=
        if l = 0 then d
        else
          { d.tracePut r (traceBytes d.tb.time trcLost 0 0xFFFF 0 noStep d.jobId 0xFFFF 0 (leBytes 8 l)) with
            lostTrace := SMap.put 0 d.lostTrace r 0 }
      if cap ≤ used d then (lose d).traceMark r else (d.tracePut r b).traceMark r

/-- Write a trace record of source class `t` (0 hub, 1 to 6 the engine types of Table 2.5) to the ring that TRC_SEL
assigns, if any (R393). -/
def Dev.trace (d : Dev) (t kind flags furrow tag step rtn pos : Nat) (data : List Byte) : Dev :=
  let r := bitsOf (d.reg TRC_SEL) (3 * t) 3
  if r < 4 then d.traceRing r (traceBytes d.tb.time kind flags furrow tag step d.jobId rtn pos data) else d

/-- A hub record of no furrow. -/
def Dev.traceHub (d : Dev) (kind tag step : Nat) (data : List Byte) : Dev := d.trace 0 kind 0 0xFFFF tag step 0xFFFF 0 data

/-- The descriptor that a record concerns (R71): furrow identifier, tag, step, routine and position; of none the values here. -/
structure At where
  furrow : Nat := 0xFFFF
  tag : Nat := 0
  step : Nat := 0xFFFF_FFFF
  rtn : Nat := 0xFFFF
  pos : Nat := 0
deriving DecidableEq, Repr

/-- A record of source class `t` that concerns a descriptor: it says whether that stands in a routine, and where (R71, Table 19.7). -/
def Dev.traceAt (d : Dev) (t kind : Nat) (x : At) (data : List Byte) : Dev :=
  d.trace t kind (4 * b2n (x.rtn != 0xFFFF)) x.furrow x.tag x.step x.rtn x.pos data

/-! ### Furrows, cores and their numbers -/

/-- Engine type code of a furrow index (Table 2.5). -/
def furrowType (f : Nat) : Nat :=
  if f < 120 then 1 else if f < 240 then 2 else if f < 400 then 3 else if f < 440 then 4 else if f < 500 then 5 else 6

/-- First furrow index of an engine type. -/
def furrowFirst (t : Nat) : Nat :=
  if t = 1 then 0 else if t = 2 then 120 else if t = 3 then 240 else if t = 4 then 400 else if t = 5 then 440 else 500

/-- Engine index of a furrow. -/
def furrowUnit (f : Nat) : Nat := f - furrowFirst (furrowType f)

/-- Furrow identifier (R30). -/
def furrowId (f : Nat) : Nat := furrowType f * 4096 + furrowUnit f

/-- Engines of a type (Table 2.5). -/
def typeCount (t : Nat) : Nat :=
  if t = 1 || t = 2 then 120 else if t = 3 then 160 else if t = 4 then 40 else if t = 5 then 60 else if t = 6 then 20 else 0

/-- Furrow index of an engine type and index, if there is one. -/
def furrowOf (t i : Nat) : Option Nat := if i < typeCount t then some (furrowFirst t + i) else none

/-- Furrow index of an identifier. -/
def furrowOfId (x : Nat) : Option Nat := furrowOf (x / 4096) (x % 4096)

/-- Physical core of logical core `l` (window index 14·d + c), none when unmapped (R5, Table 18.13). -/
def Dev.physOf (d : Dev) (l : Nat) : Option Nat :=
  let c := bitsOf (d.reg RST_MAP 0 (l / 12)) (4 * (l % 12)) 4
  if c < 14 then some (14 * (l / 12) + c) else none

/-- Logical core that physical core `p` serves. -/
def Dev.logOf (d : Dev) (p : Nat) : Option Nat :=
  ((List.range 12).find? fun l => bitsOf (d.reg RST_MAP 0 (p / 14)) (4 * l) 4 == p % 14).map (12 * (p / 14) + ·)

/-- Window offset of physical core `p`'s block (Table 1.6). -/
def coreBase (p : Nat) : Nat := Blk.base .core p

/-- Window offset of a furrow's register block (Table 3.10); an unmapped core's furrow has none, which an unassigned
offset stands for. -/
def Dev.frwBase (d : Dev) (f : Nat) : Nat :=
  let u := furrowUnit f
  match furrowType f with
  | 1 => match d.physOf u with | some p => coreBase p + 0xE000 | none => 0x0F00_0000 + 0x100 * f
  | 2 => match d.physOf u with | some p => coreBase p + 0xF000 | none => 0x0F00_0000 + 0x100 * f
  | 3 => Blk.base .plot u + 0x800
  | 4 => Blk.base .mover u + 0xF000
  | 5 => Blk.base .port u + 0xF000
  | _ => Blk.base .stack u + 0xF000

def Dev.frw (d : Dev) (f : Nat) : Furrow := SMap.get Furrow.empty d.furrows f
def Dev.setFrw (d : Dev) (f : Nat) (x : Furrow) : Dev := { d with furrows := SMap.put Furrow.empty d.furrows f x }

/-- A field of a furrow's register block. -/
def Dev.ff (d : Dev) (f : Nat) (r : RegDef) (x : FldDef) : Nat := d.fld r x (d.frwBase f)
def Dev.setFf (d : Dev) (f : Nat) (r : RegDef) (x : FldDef) (v : Nat) : Dev := d.setFld r x v (d.frwBase f)
def Dev.setFr (d : Dev) (f : Nat) (r : RegDef) (v : Nat) : Dev := d.setReg r v (d.frwBase f)

/-- Has the furrow stopped with an error (R76)? -/
def Dev.frwErr (d : Dev) (f : Nat) : Nat := d.ff f FRW_ERR FRW_ERR_CODE

def Dev.core (d : Dev) (c : Nat) : Tme := SMap.get Tme.empty d.tme c
def Dev.setCore (d : Dev) (c : Nat) (t : Tme) : Dev := { d with tme := SMap.put Tme.empty d.tme c t }
def Dev.mx (d : Dev) (c : Nat) : Mxa := SMap.get Mxa.empty d.mxa c
def Dev.setMx (d : Dev) (c : Nat) (x : Mxa) : Dev := { d with mxa := SMap.put Mxa.empty d.mxa c x }
def Dev.hrw (d : Dev) (s : Nat) : Harrow := SMap.get Harrow.empty d.harrow s
def Dev.setHrw (d : Dev) (s : Nat) (x : Harrow) : Dev := { d with harrow := SMap.put Harrow.empty d.harrow s x }
def Dev.port (d : Dev) (n : Nat) : Port := SMap.get Port.off d.ports n
def Dev.setPort (d : Dev) (n : Nat) (x : Port) : Dev := { d with ports := SMap.put Port.off d.ports n x }
def Dev.seal (d : Dev) (k : Nat) : StepSeal := SMap.get StepSeal.empty d.seals k
def Dev.setSeal (d : Dev) (k : Nat) (x : StepSeal) : Dev := { d with seals := SMap.put StepSeal.empty d.seals k x }

/-! ### Local memory (R247 to R250, R255) -/

/-- What a local address of the host view names (Table 12.1). -/
inductive Region
  | hbm | plot (p : Nat) | tile (c : Nat) | ctrl (off : Nat) | lib (off : Nat) | hole
deriving DecidableEq, Repr

def hbmSize : Nat := 0x140_0000_0000
def plotBase : Nat := 0x200_0000_0000
def plotEnd : Nat := plotBase + 160 * 0x400_0000
def coreWin : Nat := 0x300_0000_0000
def ctrlBase : Nat := 0x400_0000_0000
def libBase : Nat := 0x500_0000_0000

/-- The region of a local address. -/
def region (a : Nat) : Region :=
  if a < hbmSize then .hbm
  else if plotBase ≤ a && a < plotBase + 160 * 0x400_0000 then .plot ((a - plotBase) / 0x400_0000)
  else if coreWin ≤ a && a < coreWin + 140 * 0x100_0000 then
    (if (a - coreWin) % 0x100_0000 < 0x40_0000 then .tile ((a - coreWin) / 0x100_0000) else .hole)
  else if ctrlBase ≤ a && a < ctrlBase + 0x1_0000_0000 then .ctrl (a - ctrlBase)
  else if libBase ≤ a && a < libBase + 0x1000_0000 then .lib (a - libBase)
  else .hole

/-- Is a region byte memory? -/
def Region.isMem : Region → Bool
  | .hbm => true
  | .plot _ => true
  | .tile _ => true
  | _ => false

/-- Does every byte of `[a, a + n)` lie in one memory region kind (n ≥ 1)? Ranges may span plots. -/
def memRange (a n : Nat) : Bool :=
  match region a, region (a + n - 1) with
  | .hbm, .hbm => true
  | .plot _, .plot _ => true
  | .tile x, .tile y => x == y
  | _, _ => false

/-- An agent's local address in the host view: core windows are named by logical core (R249, R82). -/
def Dev.agentAddr (d : Dev) (a : Nat) : Option Nat :=
  if coreWin ≤ a && a < coreWin + 140 * 0x100_0000 then
    let l := (a - coreWin) / 0x100_0000
    if l < 120 then (d.physOf l).map fun p => coreWin + p * 0x100_0000 + (a - coreWin) % 0x100_0000 else none
  else some a

/-- Tile buffer of physical core `p` in the host view. -/
def tileAddr (p : Nat) : Nat := coreWin + p * 0x100_0000

/-- Does every byte of `[a, a + n)` lie in some HBM reservation, going on from one reservation to the next at most `k` times? -/
def hbmCoveredGo (rs : List Resv) : Nat → Nat → Nat → Bool
  | 0, _, n => n == 0
  | k + 1, a, n =>
    n == 0 || match rs.find? fun r => r.kind == 1 && decide (r.base ≤ a) && decide (a < r.base + r.size) with
      | some r => hbmCoveredGo rs k (r.base + r.size) (a + n - (r.base + r.size))
      | none => false

/-- Does an HBM range lie inside the reservations (R39, R250)? It may span adjacent ones. -/
def hbmCovered (rs : List Resv) (a n : Nat) : Bool := hbmCoveredGo rs rs.length a n

/-- Is an HBM range inside the sheaf's reservations (R250)? -/
def Dev.reserved (d : Dev) (a n : Nat) : Bool :=
  match d.sheaf with
  | some s => hbmCovered s.mem a n
  | none => false

/-- Header of the 512-byte block that holds a byte: 0 PLAIN, 1 FALLOW, 2 DENSE in rows, 3 DENSE in squares (R133). -/
def Dev.hdr (d : Dev) (a : Nat) : Nat := SMap.get 0 d.hdrs (a / 512)
def Dev.setHdr (d : Dev) (a v : Nat) : Dev := { d with hdrs := SMap.put 0 d.hdrs (a / 512) v }

/-- Mark the blocks that `[a, a + n)` touches PLAIN (R135). -/
def Dev.plain (d : Dev) (a n : Nat) : Dev :=
  if n = 0 then d else { d with hdrs := SMap.clearRange d.hdrs (a / 512) ((a + n - 1) / 512 - a / 512 + 1) }

/-- A 64-bit word wholly covered by a write has valid check bits again (R299, R354). -/
def freshWords (s : NSet) (a n : Nat) : NSet :=
  s.filter fun w => !(decide (a ≤ 8 * w) && decide (8 * w + 8 ≤ a + n))

/-- Write bytes to local memory, in the host view: no access right is checked here. -/
def Dev.write (d : Dev) (a : Nat) (bs : List Byte) : Dev :=
  if bs.length = 0 then d
  else
    let d := if a < hbmSize then d.yokeWrite a bs.length else d
    { d with
      mem := Mem.write d.mem a bs
      eccUE := freshWords d.eccUE a bs.length
      eccCE := freshWords d.eccCE a bs.length }

/-- Read bytes of local memory, in the host view. -/
def Dev.read (d : Dev) (a n : Nat) : List Byte := Mem.read d.mem a n

def Dev.readN (d : Dev) (a n : Nat) : Nat := leNat (d.read a n)

/-- The stack that holds an HBM address (R294). -/
def stackOf (a : Nat) : Nat :=
  let p := a / 512
  let u := p / 20
  let h := bitsOf u 0 5 ^^^ bitsOf u 5 5 ^^^ bitsOf u 10 5 ^^^ bitsOf u 15 5 ^^^ bitsOf u 20 5 ^^^ bitsOf u 25 2
  (p % 20 + h) % 20

/-- Pseudo-channel q of an HBM address within its stack (R294). -/
def pseudoOf (a : Nat) : Nat :=
  let u := a / 512 / 20
  (2 * bitsOf u 0 5 + bitsOf a 8 1) ^^^ bitsOf u 5 6 ^^^ bitsOf u 11 6 ^^^ bitsOf u 17 6 ^^^ bitsOf u 23 4

/-- Granule L of an HBM address within its pseudo-channel (R294). -/
def granuleOf (a : Nat) : Nat := bitsOf (a / 512 / 20) 5 22

/-- Where an HBM address lies: stack, pseudo-channel, and in it the stack identifier, bank group, bank, row and granule of the row (R294, R295). -/
structure HbmPlace where
  stack : Nat
  pseudo : Nat
  sid : Nat
  group : Nat
  bank : Nat
  row : Nat
  column : Nat
  deriving DecidableEq, Repr

/-- The place of an HBM address (R294, R295). -/
def hbmPlace (a : Nat) : HbmPlace :=
  let l := granuleOf a
  { stack := stackOf a, pseudo := pseudoOf a, sid := bitsOf l 6 2, group := bitsOf l 4 2, bank := bitsOf l 2 2, row := bitsOf l 8 14,
    column := bitsOf l 0 2 }

/-- Stacks that serve no access: in self-refresh, in training, or FAILED at it (R296, R298, R332; log entry 87). -/
def Dev.hbmDown (d : Dev) : List Nat :=
  (List.range 20).filter fun s =>
    d.selfRef.has s || d.fld HBM_STATUS HBM_STATUS_STATE s == 1 || d.fld HBM_STATUS HBM_STATUS_STATE s == 3

/-- Do the stacks serve an access to `[a, a + n)`, where that is HBM? -/
def Dev.hbmServes (d : Dev) (a n : Nat) : Bool :=
  if hbmSize ≤ a then true
  else
    let l := d.hbmDown
    l.isEmpty || (List.range ((a + n - 1) / 512 - a / 512 + 1)).all fun i => !l.contains (stackOf (512 * (a / 512 + i)))

/-- First uncorrectable word that a read of `[a, a + n)` meets (R299). -/
def Dev.ueIn (d : Dev) (a n : Nat) : Option Nat :=
  d.eccUE.find? fun w => decide (a / 8 ≤ w) && decide (8 * w < a + n)

/-- A single-bit error in word `w` is corrected and written back (R299). -/
def Dev.correct (d : Dev) (w : Nat) : Dev :=
  let p := hbmPlace (8 * w)
  ({ d with eccCE := d.eccCE.del w }.stick HBM_ECC HBM_ECC_CE 1 p.stack).setReg HBM_ECC_LAST (8 * w + p.pseudo * 2 ^ 48 + 2 ^ 63) p.stack

/-- Words with a single-bit error that a read of `[a, a + n)` of HBM meets are corrected. -/
def Dev.corrects (d : Dev) (a n : Nat) : Dev :=
  d.each (d.eccCE.filter fun w => decide (a / 8 ≤ w) && decide (8 * w < a + n)) Dev.correct

/-- An uncorrectable word is met: it stays, and UE grows (R299). -/
def Dev.countUE (d : Dev) (w : Nat) : Dev :=
  { d with eccUE := d.eccUE.add w }.stick HBM_ECC HBM_ECC_UE 1 (stackOf (8 * w))

/-- The words that a write of `[a, a + n)` covers in part: each is read, merged and written (R299). -/
def partWords (a n : Nat) : List Nat :=
  (if a % 8 = 0 then [] else [a / 8]) ++ (if (a + n) % 8 = 0 || ((a + n) / 8 == a / 8 && a % 8 != 0) then [] else [(a + n) / 8])

/-- An uncorrectable word that a write of `[a, a + n)` of HBM must read, if one is there. -/
def Dev.mergeUE (d : Dev) (a n : Nat) : Option Nat := if a < hbmSize then (partWords a n).find? d.eccUE.has else none

/-- The words that a write of `[a, a + n)` must read are corrected. -/
def Dev.mergeFix (d : Dev) (a n : Nat) : Dev := if a < hbmSize then d.each ((partWords a n).filter d.eccCE.has) Dev.correct else d

/-- The words at `a`, aligned, of which a mask names some bytes but not all. -/
def partMasked (a : Nat) (m : List Bool) : List Nat :=
  ((List.range (m.length / 8)).filter fun i => ((m.drop (8 * i)).take 8).any id && !((m.drop (8 * i)).take 8).all id).map fun i => a / 8 + i

/-- Write the bytes that a mask names of the aligned words at `a`: each word named in part is read, corrected, merged and written (R255, R299). -/
def Dev.writeMasked (d : Dev) (a : Nat) (bs : List Byte) (m : List Bool) : Dev :=
  let d := if a < hbmSize then d.each ((partMasked a m).filter d.eccCE.has) Dev.correct else d
  d.each ((List.range (m.length / 8)).filter fun i => ((m.drop (8 * i)).take 8).any id) fun d i =>
    let old := d.read (a + 8 * i) 8
    d.write (a + 8 * i) (old.zipIdx.map fun p => if (m[8 * i + p.2]?).getD false then (bs[8 * i + p.2]?).getD p.1 else p.1)

/-! ### The idle tick -/

/-- With no command waiting, one tick of the device time base passes while it counts (log entry 2): its island is clocked (R334). -/
def idleStep (s : State) : Host.Outcome State Fault Refusal :=
  .next { s with dev := { s.dev with
    out := []
    tb := { s.dev.tb with time := if s.dev.tb.on && !s.dev.gated 172 then (s.dev.tb.time + 1) % 2 ^ 64 else s.dev.tb.time } } }

end Sys2Proof.Machine
end

