-- ==== Sys2Proof/Machine/Clock.lean ====
section
/-! DEFINITION. Island frequencies and times (R42, R284, R324, R329). -/
namespace Sys2Proof.Machine
open Sys2Proof

/-- `n` cycles, in ns rounded up, of an output at 12.5 MHz · `mult` at the bottom of a spread of `depth` steps (R329). -/
def cycNs (n mult depth : Nat) : Nat := cdiv (64000 * n) (mult * (800 - depth))

/-- Speed of die `d`'s fabric island at the bottom of its spread, in units of 15.625 kHz. -/
def Dev.fabSpeed (x : Dev) (d : Nat) : Nat := x.fld CLK_FPLL CLK_FPLL_FAB_MULT d * (800 - x.fld CLK_SSC CLK_SSC_F_DEPTH d)

/-- Nanoseconds of `n` cycles of the slowest fabric island (R284). -/
def Dev.fabNs (x : Dev) (n : Nat) : Nat :=
  cdiv (64000 * n) ((List.range 10).foldl (fun a d => min a (x.fabSpeed d)) (x.fabSpeed 0))

end Sys2Proof.Machine
end

