-- ==== Sys2Proof/Machine/Crc.lean ====
section
/-! DEFINITION. The checks the spec names: CRC-32C (R27, R38, R272, R343, R347) and the CRC-8 of the I2C PEC (R348). -/
namespace Sys2Proof

/-- Eight shifts of the reflected CRC-32C register (polynomial 0x1EDC_6F41, reflected 0x82F6_3B78). -/
def crc32cShift : Nat → Nat → Nat
  | 0, c => c
  | k + 1, c => crc32cShift k (if c % 2 = 1 then (c / 2) ^^^ 0x82F63B78 else c / 2)

def crc32cGo : List (BitVec 8) → Nat → Nat
  | [], c => c
  | b :: t, c => crc32cGo t (crc32cShift 8 (c ^^^ b.toNat))

/-- CRC-32C with initial and final value 0xFFFF_FFFF (R27). -/
def crc32c (bs : List (BitVec 8)) : Nat := crc32cGo bs 0xFFFFFFFF ^^^ 0xFFFFFFFF

def crc8Shift : Nat → Nat → Nat
  | 0, c => c
  | k + 1, c => crc8Shift k (if 128 ≤ c then ((2 * c) ^^^ 0x07) % 256 else 2 * c)

def crc8Go : List (BitVec 8) → Nat → Nat
  | [], c => c
  | b :: t, c => crc8Go t (crc8Shift 8 (c ^^^ b.toNat))

/-- CRC-8, polynomial 0x07 (R348). -/
def crc8 (bs : List (BitVec 8)) : Nat := crc8Go bs 0

end Sys2Proof
end

