-- ==== Sys2Proof/Machine/Functions.lean ====
section
/-! DEFINITION. The functions the spec wants correctly rounded (R115, R195, R231, R242): exponential, base-2 exponential
and logarithm, sine, cosine, GELU, SiLU and their derivatives. Each is enclosed between two fixed-point
bounds of 400 fraction bits; where both bounds round to one FP32 value that is the result, otherwise a free
choice of Config decides (log entry 8). -/
namespace Sys2Proof

/-- Fraction bits of the enclosures. -/
def ivP : Nat := 400

/-- One in fixed point. -/
def ivOne : Int := (2 ^ ivP : Nat)

/-- A closed interval in fixed point. -/
structure Iv where
  lo : Int
  hi : Int
deriving DecidableEq, Repr

def ceilDiv (a d : Int) : Int := -((-a) / d)

def Iv.add (a b : Iv) : Iv := ⟨a.lo + b.lo, a.hi + b.hi⟩
def Iv.neg (a : Iv) : Iv := ⟨-a.hi, -a.lo⟩
def Iv.sub (a b : Iv) : Iv := Iv.add a b.neg

def Iv.mul (a b : Iv) : Iv :=
  let p := a.lo * b.lo
  let q := a.lo * b.hi
  let r := a.hi * b.lo
  let s := a.hi * b.hi
  ⟨min (min p q) (min r s) / ivOne, ceilDiv (max (max p q) (max r s)) ivOne⟩

/-- Divide by a positive integer. -/
def Iv.divN (a : Iv) (n : Nat) : Iv := ⟨a.lo / n, ceilDiv a.hi n⟩

/-- Multiply by an integer. -/
def Iv.mulI (a : Iv) (n : Int) : Iv := if 0 ≤ n then ⟨a.lo * n, a.hi * n⟩ else ⟨a.hi * n, a.lo * n⟩

/-- Widen by a number of units. -/
def Iv.widen (a : Iv) (u : Int) : Iv := ⟨a.lo - u, a.hi + u⟩

/-- Multiply by `2^n`, rounding outwards. -/
def Iv.shift (a : Iv) (n : Int) : Iv :=
  if 0 ≤ n then ⟨a.lo * (2 ^ n.toNat : Nat), a.hi * (2 ^ n.toNat : Nat)⟩
  else ⟨a.lo / (2 ^ (-n).toNat : Nat), ceilDiv a.hi (2 ^ (-n).toNat : Nat)⟩

/-- Reciprocal of an interval of positive numbers. -/
def Iv.recip (a : Iv) : Iv := ⟨ivOne * ivOne / a.hi, ceilDiv (ivOne * ivOne) a.lo⟩

/-- An exact value as an interval. -/
def Iv.ofEx : Ex → Iv
  | .fin n m e =>
    let s := signedAt n m (max e (-(ivP : Int))) (-(ivP : Int))
    if -(ivP : Int) ≤ e then ⟨s, s⟩ else ⟨-1, 1⟩
  | _ => ⟨0, 0⟩

/-- `Σ 1 / ((2k+1)·n^(2k+1))`, alternating when `alt`, over `cnt` terms from `k`. -/
def oddSeries (n : Nat) (alt : Bool) : Nat → Nat → Int
  | 0, _ => 0
  | cnt + 1, k =>
    let t : Int := ivOne / (((2 * k + 1) * n ^ (2 * k + 1) : Nat) : Int)
    (if alt && k % 2 = 1 then -t else t) + oddSeries n alt cnt (k + 1)

def ivLn2 : Iv := Iv.widen ⟨2 * oddSeries 3 false 130 0, 2 * oddSeries 3 false 130 0⟩ 300

def ivPi : Iv :=
  let a := 16 * oddSeries 5 true 90 0 - 4 * oddSeries 239 true 30 0
  Iv.widen ⟨a, a⟩ 2000

/-- Taylor sum of the exponential: the term `t` and the terms after it. -/
def expGo (x : Iv) : Nat → Nat → Iv → Iv
  | 0, _, t => t.widen 4
  | c + 1, k, t => Iv.add t (expGo x c (k + 1) ((Iv.mul t x).divN k))

/-- `e^x` for `|x| ≤ 1`. -/
def ivExpSmall (x : Iv) : Iv := expGo x 100 1 ⟨ivOne, ivOne⟩

/-- `e^x` as an interval times a power of two. -/
def ivExp (x : Iv) : Iv × Int :=
  let n := (2 * x.lo + ivLn2.lo) / (2 * ivLn2.lo)
  (ivExpSmall (Iv.sub x (ivLn2.mulI n)), n)

/-- Terms of sine (`k` odd) or cosine (`k` even): the term `t` of index `k` and those after it, alternating. -/
def trigGo (x2 : Iv) : Nat → Nat → Iv → Iv
  | 0, _, t => t.widen 4
  | c + 1, k, t => Iv.add t (trigGo x2 c (k + 2) ((Iv.mul t x2).neg.divN ((k + 1) * (k + 2))))

def ivSinSmall (r : Iv) : Iv := trigGo (Iv.mul r r) 60 1 r
def ivCosSmall (r : Iv) : Iv := trigGo (Iv.mul r r) 60 0 ⟨ivOne, ivOne⟩

/-- `ln m` for `1 ≤ m < 2` through the inverse hyperbolic tangent. -/
def lnGo (t2 : Iv) : Nat → Nat → Iv → Iv
  | 0, _, p => p.widen 4
  | c + 1, k, p => Iv.add (p.divN (2 * k + 1)) (lnGo t2 c (k + 1) (Iv.mul p t2))

def ivLn (m : Iv) : Iv :=
  let t := Iv.mul (Iv.sub m ⟨ivOne, ivOne⟩) (Iv.recip (Iv.add m ⟨ivOne, ivOne⟩))
  (lnGo (Iv.mul t t) 140 0 t).mulI 2

/-- A fixed-point number times `m·2^e` as an exact value. -/
def fixEx (v : Int) (m : Nat) (e : Int) : Ex := .fin (decide (v < 0)) (v.natAbs * m) (e - ivP)

/-- Round an enclosure times `±m·2^e` with `enc`: the code both bounds give, or a free choice of the two
(log entry 8). `key` identifies the function and its operand. -/
def pickCode (enc : Ex → Nat) (fn op : Nat) (neg : Bool) (m : Nat) (e : Int) (v : Iv) : Nat :=
  let sg (x : Ex) : Ex := if neg then x.neg else x
  let a := enc (sg (fixEx v.lo m e))
  let b := enc (sg (fixEx v.hi m e))
  if a = b then a else if Config.roundUp fn op then b else a

/-- As `pickCode`, with saturation, as a value with its events (tilth and drain stages, R115, R195). -/
def pickV (fn op : Nat) (neg : Bool) (m : Nat) (e : Int) (v : Iv) (src : V) : V :=
  let sg (x : Ex) : Ex := if neg then x.neg else x
  let a := sg (fixEx v.lo m e)
  let b := sg (fixEx v.hi m e)
  if toF32 a = toF32 b then V.fl a src src else V.fl (if Config.roundUp fn op then b else a) src src

/-- A number that identifies an exact operand, for the free choice. -/
def opKey : Ex → Nat
  | .fin n m e => 4 * (m * 2 ^ (e + 1000).toNat) + b2n n
  | _ => 2

/-- EXP of a tilth unit: e^x rounded once, saturating (R155, R195). -/
def V.exp (a : V) : V :=
  match a.x with
  | .nan => V.fl .nan a a
  | .inf n => if n then ⟨Ex.zero, a.sat, a.nf⟩ else V.fl (.inf false) a a
  | .fin n m e =>
    if m = 0 then ⟨Ex.ofNat 1, a.sat, a.nf⟩
    else if 8 ≤ magLog m e then (if n then ⟨Ex.zero, a.sat, a.nf⟩ else ⟨f32Max false, true, a.nf⟩)
    else
      let r := ivExp (Iv.ofEx a.x)
      pickV 1 (opKey a.x) false 1 r.2 r.1 a

/-- `v` of the logistic form `x/(1+e^(-v))`: x for SiLU, `2·0.7978845608·(x + 0.044715·x³)` for GELU. -/
def gateArg (gelu : Bool) (x : Ex) : Iv :=
  let f := Iv.ofEx x
  if gelu then
    let q (t : Int) : Int := 15957691216 * (1000000 * t * (ivOne * ivOne) + 44715 * (t * t * t))
    ⟨q f.lo / (10 ^ 16 * (ivOne * ivOne)), ceilDiv (q f.hi) (10 ^ 16 * (ivOne * ivOne))⟩
  else f

/-- `dv/dx` of `gateArg`. -/
def gateSlope (gelu : Bool) (x : Ex) : Iv :=
  if gelu then
    let f := Iv.ofEx x
    let x2 := Iv.mul f f
    -- 2c·(1 + 3·0.044715·x²)
    let s := Iv.add ⟨ivOne, ivOne⟩ ((x2.mulI 134145).divN 1000000)
    ((s.mulI 15957691216).divN (10 ^ 10))
  else ⟨ivOne, ivOne⟩

/-- The logistic function of `v`, for `|v| ≤ 800`. -/
def ivLogistic (v : Iv) : Iv :=
  let r := ivExp v.neg
  Iv.recip (Iv.add ⟨ivOne, ivOne⟩ (r.1.shift r.2))

/-- GELU (tanh form) or SiLU: the exact real value rounded once; the limits for infinities (R115). -/
def V.gate (gelu : Bool) (a : V) : V :=
  match a.x with
  | .nan => V.fl .nan a a
  | .inf n => if n then ⟨Ex.fin true 0 0, a.sat, a.nf⟩ else V.fl (.inf false) a a
  | .fin n m e =>
    if m = 0 then ⟨.fin n 0 0, a.sat, a.nf⟩
    else
      let v := gateArg gelu a.x
      if 800 * ivOne < v.lo then V.fl a.x a a
      else if v.hi < -800 * ivOne then ⟨.fin true 0 0, a.sat, a.nf⟩
      else pickV (if gelu then 2 else 3) (opKey a.x) n m e (ivLogistic v) a

/-- The derivative of GELU or SiLU as an enclosure, for finite x. -/
def ivGateD (gelu : Bool) (x : Ex) : Iv :=
  let v := gateArg gelu x
  if 800 * ivOne < v.lo then ⟨ivOne + 1, ivOne + 2⟩
  else if v.hi < -800 * ivOne then ⟨-1, -1⟩
  else
    let l := ivLogistic v
    Iv.add l (Iv.mul (Iv.mul (Iv.ofEx x) (gateSlope gelu x)) (Iv.mul l (Iv.sub ⟨ivOne, ivOne⟩ l)))

/-- GELU.D and SILU.D: y·f′(x), the exact product rounded once (R195). -/
def V.gateD (gelu : Bool) (x y : V) : V :=
  match x.x with
  | .nan => V.fl .nan x y
  | .inf n => V.fl (Ex.mul y.x (if n then .fin true 0 0 else Ex.ofNat 1)) x y
  | .fin _ m _ =>
    match y.x with
    | .fin n my e =>
      if m = 0 then V.fl (Ex.mul y.x (.fin false 1 (-1))) x y
      else if my = 0 then ⟨.fin (n != decide ((ivGateD gelu x.x).lo < 0)) 0 0, x.sat || y.sat, x.nf || y.nf⟩
      else
        let d := ivGateD gelu x.x
        let r := pickV (if gelu then 4 else 5) (opKey x.x) n my e d x
        if r.x.isZero then ⟨.fin (n != decide (d.lo < 0)) 0 0, x.sat || y.sat, x.nf || y.nf⟩
        else ⟨r.x, r.sat || y.sat, r.nf || y.nf⟩
    | yy => V.fl (Ex.mul yy (.fin (decide ((ivGateD gelu x.x).lo < 0)) 1 0)) x y

/-- FP32 code of `2^x` (team `exp2.f32`, R231, R242). -/
def f32Exp2 (c : Nat) : Nat :=
  match ofF32 c with
  | .nan => encFp32.nanCode
  | .inf n => if n then 0 else encFp32.infCode false
  | .fin n m e =>
    if m = 0 then encFp32.encodeIeee (Ex.ofNat 1)
    else if 9 ≤ magLog m e then (if n then 0 else encFp32.infCode false)
    else
      let x := Iv.ofEx (.fin n m e)
      let k := x.lo / ivOne
      let f := Iv.sub x ⟨k * ivOne, k * ivOne⟩
      if f.lo = 0 then encFp32.encodeIeee (Ex.pow2 k)
      else pickCode encFp32.encodeIeee 6 c false 1 k (ivExpSmall (Iv.mul f ivLn2))

/-- FP32 code of `log2 x`. -/
def f32Log2 (c : Nat) : Nat :=
  match ofF32 c with
  | .nan => encFp32.nanCode
  | .inf n => if n then encFp32.nanCode else encFp32.infCode false
  | .fin n m e =>
    if m = 0 then encFp32.infCode true
    else if n then encFp32.nanCode
    else
      let k := magLog m e
      let mm := Iv.ofEx (.fin false m (e - k))
      if mm.lo = ivOne then encFp32.encodeIeee (.fin (decide (k < 0)) k.natAbs 0)
      else
        let l := Iv.mul (ivLn mm) (Iv.recip ivLn2)
        pickCode encFp32.encodeIeee 7 c false 1 0 (Iv.add l ⟨k * ivOne, k * ivOne⟩)

/-- Reduced argument: `x - q·π/2` and `q mod 4`. -/
def trigReduce (x : Iv) : Iv × Nat :=
  let h := ivPi.divN 2
  let q := (2 * x.lo + h.lo) / (2 * h.lo)
  (Iv.sub x (h.mulI q), (q % 4).toNat)

/-- FP32 code of sine (`shift` 0) or cosine (`shift` 1). -/
def f32Trig (shift c : Nat) : Nat :=
  match ofF32 c with
  | .nan => encFp32.nanCode
  | .inf _ => encFp32.nanCode
  | .fin n m e =>
    if m = 0 then (if shift = 0 then c else encFp32.encodeIeee (Ex.ofNat 1))
    else
      let r := trigReduce (Iv.ofEx (.fin n m e))
      let q := (r.2 + shift) % 4
      let v := if q % 2 = 0 then ivSinSmall r.1 else ivCosSmall r.1
      pickCode encFp32.encodeIeee (8 + shift) c (decide (2 ≤ q)) 1 0 v

end Sys2Proof
end

