-- ==== Sys2Proof/Machine/Cache.lean ====
section
/-! DEFINITION. The team L1, the cache plots and the private copies of atomics (R188, R257, R260). -/
namespace Sys2Proof

/-- Replace the bytes of a line that lie in `[a, a + n)`. -/
def Line.patch (l : Line) (a : Nat) (bs : List Byte) : Line :=
  { l with bytes := l.bytes.zipIdx.map fun p =>
      if a ≤ l.addr + p.2 then (bs[l.addr + p.2 - a]?).getD p.1 else p.1 }

/-- Does a line touch `[a, a + n)`? -/
def Line.touches (l : Line) (a n : Nat) : Bool := decide (l.addr < a + n) && decide (a < l.addr + l.bytes.length)

end Sys2Proof

namespace Sys2Proof.Machine
open Sys2Proof

/-- Die of a physical core. -/
def dieOf (c : Nat) : Nat := c / 14

/-- Is a plot a cache of HBM (R188)? -/
def Dev.cachePlot (d : Dev) (p : Nat) : Bool := d.bit TLT_MARK TLT_MARK_RESERVED p && d.fld TLT_MARK TLT_MARK_MARK p == 1

/-- Cache plots of a die. -/
def Dev.cachePlots (d : Dev) (die : Nat) : List Nat := (List.range 16).filter fun i => d.cachePlot (16 * die + i)

/-- Place of a line in the die's cache plots: the plot by the pseudo-channel hash, and a set of it (R188, log entry 11). -/
def Dev.cpSet (d : Dev) (die key : Nat) : Nat × Nat :=
  (pseudoOf (key % 2 ^ 48) % (d.cachePlots die).length, Config.cacheSet (key / 256) % 16384)

/-- Lines of cache plot `p` held in its 1 MiB window `w` are invalid; set `s` takes the plot's bytes 4,096·s on (Table 9.1; log entry 91). -/
def Dev.dropWindow (d : Dev) (p w : Nat) : Dev :=
  let die := p / 16
  let hit (l : Line) : Bool :=
    let k := d.cpSet die l.addr
    (d.cachePlots die)[k.1]? == some (p % 16) && decide (k.2 / 256 = w)
  { d with cplot := SMap.put [] d.cplot die ((SMap.get [] d.cplot die).filter fun l => !hit l) }

/-- Stores and atomics of core `c` update the lines of its L1 (Table 12.5). -/
def Dev.l1Patch (d : Dev) (c a : Nat) (bs : List Byte) : Dev :=
  { d with l1 := d.l1.map fun (p : Nat × List Line) => if p.1 == c then (p.1, p.2.map fun l => l.patch a bs) else p }

/-- Stores and atomics of a die's teams update the lines of its cache plots (Table 12.5, R188). -/
def Dev.cpPatch (d : Dev) (die a : Nat) (bs : List Byte) : Dev :=
  { d with cplot := d.cplot.map fun (p : Nat × List Line) => if p.1 == die then (p.1, p.2.map fun l => l.patch a bs) else p }

/-- A store or atomic of core `c` at the home memory updates resident lines (R257). -/
def Dev.cachePatch (d : Dev) (c a : Nat) (bs : List Byte) : Dev := (d.l1Patch c a bs).cpPatch (dieOf c) a bs

/-- A write to the home memory of this device, in the host view; plots and tile buffers become PLAIN there (R135). -/
def Dev.homeWrite (d : Dev) (a : Nat) (bs : List Byte) : Dev :=
  let d := d.write a bs
  if a < hbmSize then d else d.plain a bs.length

/-- A write by a team of core `c` to this device's memory: home memory, headers, resident lines. -/
def Dev.teamWrite (d : Dev) (c a : Nat) (bs : List Byte) : Dev := (d.homeWrite a bs).cachePatch c a bs

/-- Write back a private copy of core `c` or its die: the bytes its atomics changed (R260). Each atomic updated its own core's L1 when it
was performed; the die's cache plots are updated now. A word of HBM that must be read and is uncorrectable stays as it is, counts and is logged
(R299; log entry 89). -/
def Dev.writeBack (d : Dev) (c : Nat) (l : Line) : Dev :=
  let bad := if l.addr < hbmSize then (partMasked l.addr l.mask).filter d.eccUE.has else []
  let m := l.mask.zipIdx.map fun p => p.1 && !bad.contains ((l.addr + p.2) / 8)
  let d := d.each bad fun d w => (d.countUE w).glog (8 * w) 0x07 reqTeam 0 noStep
  let d := d.writeMasked l.addr l.bytes m
  let d := if l.addr < hbmSize || !m.any id then d else d.plain l.addr l.bytes.length
  (l.bytes.zip m).zipIdx.foldl (fun d p => if p.1.2 then d.cpPatch (dieOf c) (l.addr + p.2) [p.1.1] else d) d

/-- Core `c`'s private copies are written back. -/
def Dev.flushCore (d : Dev) (c : Nat) : Dev :=
  let ls := SMap.get [] d.coreCopy c
  ls.foldl (fun d l => d.writeBack c l) { d with coreCopy := SMap.erase d.coreCopy c }

/-- The private copies of core `c`'s die are written back. -/
def Dev.flushDie (d : Dev) (c : Nat) : Dev :=
  let ls := SMap.get [] d.dieCopy (dieOf c)
  ls.foldl (fun d l => d.writeBack c l) { d with dieCopy := SMap.erase d.dieCopy (dieOf c) }

/-- Drop core `c`'s whole L1. -/
def Dev.dropL1 (d : Dev) (c : Nat) : Dev := { d with l1 := SMap.erase d.l1 c }

/-- The end of a launch on core `c`: its private copies and its die's are written back, its L1 is dropped (R257, R260). -/
def Dev.launchEnd (d : Dev) (c : Nat) : Dev := ((d.flushCore c).flushDie c).dropL1 c

end Sys2Proof.Machine
end

