-- ==== Sys2Proof/Machine/Fill.lean ====
section
/-! DEFINITION. Opcodes, draw estimates (Table 15.2) and inserted work: in-service tests, pattern fill, inserted plot reads (R74, R125, R307 to
R309). Draws are in half milliwatts. -/
namespace Sys2Proof.Machine
open Sys2Proof

/-! ### Opcodes (Table 4.1) -/

def opNop : Nat := 0
def opWait : Nat := 1
def opSignal : Nat := 2
def opCall : Nat := 3
def opRet : Nat := 4
def opTrc : Nat := 5
def opFill : Nat := 8
def opIst : Nat := 9
def opMmF : Nat := 0x100
def opMmBd : Nat := 0x101
def opMmBw : Nat := 0x102
def opMmBx : Nat := 0x103
def opElt : Nat := 0x200
def opRed1 : Nat := 0x201
def opRed2 : Nat := 0x202
def opNrmB : Nat := 0x203
def opSmxB : Nat := 0x204
def opCvt : Nat := 0x205
def opCvt24 : Nat := 0x206
def opRng : Nat := 0x207
def opMov : Nat := 0x300
def opPut : Nat := 0x400
def opGet : Nat := 0x401
def opAcc : Nat := 0x402
def opUpd : Nat := 0x500
def opSeal : Nat := 0x501
def opLaunch : Nat := 0x600

/-- Is the opcode a matrix operation? -/
def isMm (op : Nat) : Bool := decide (0x100 ≤ op ∧ op ≤ 0x103)
/-- Is the opcode a tilth operation? -/
def isTilth (op : Nat) : Bool := decide (0x200 ≤ op ∧ op ≤ 0x207)
/-- Is the opcode a headland operation? -/
def isHdl (op : Nat) : Bool := decide (0x400 ≤ op ∧ op ≤ 0x402)

/-! ### Draw estimates (Table 15.2) -/

/-- Bits of a format code's elements; 0 for NONE. -/
def codeBits (c : Nat) : Nat := match Fmt.ofCode c with | some f => f.bits | none => 0

/-- Draw estimate of a descriptor (Table 15.2), in half milliwatts, which hold every step of the table whole. -/
def estimate (f : Nat) (x : Desc) : Nat :=
  if isMm x.op then
    let b := codeBits (bitsOf x.w1.toNat 0 5)
    if b = 4 then 26000 else if b = 6 || b = 8 then 24000 else 21000
  else if isTilth x.op then 2400
  else if x.op = opFill then
    let l := bitsOf x.w0.toNat 32 4 + 1
    if furrowType f = 1 then 1500 * l else if furrowType f = 3 then 150 * l else 375 * l
  else if x.op = opMov then
    (if region (bitsOf x.w0.toNat 0 48) == .hbm || region (bitsOf x.w1.toNat 0 48) == .hbm then 54000 else 6000)
  else if isHdl x.op then 18000
  else if x.op = opUpd then 82000
  else if x.op = opLaunch then 2400
  else 0

/-! ### Inserted work -/

/-- Is in-service test unit `u` (see `Ist`) on the engine of furrow `f`? -/
def Dev.testOn (d : Dev) (f u : Nat) : Bool :=
  if furrowType f = 1 then decide (u < 2240) && d.physOf (furrowUnit f) == some (u / 16)
  else furrowType f == 3 && decide (2240 ≤ u) && (u - 2240) / 64 == furrowUnit f

/-- LEVEL + 1 of the pattern generator on the engine of furrow `f`, 0 when it is still. -/
def Dev.patternOn (d : Dev) (f : Nat) : Nat :=
  if furrowType f = 1 then (match d.physOf (furrowUnit f) with | some c => SMap.get 0 d.gov.mxaFill c | none => 0) else 0

/-- Does inserted work run on the furrow's own engine: pattern fill, plot reads or an in-service test? -/
def Dev.insertedOn (d : Dev) (f : Nat) : Bool :=
  (d.frw f).inserted != 0 || d.ist.running.any (d.testOn f) || d.patternOn f != 0 || (furrowType f == 3 && d.gov.plotFill.has (furrowUnit f)) ||
    SMap.get 0 d.gov.hand f != 0

/-- Draw of a test slice and of a test window's plot, of one LEVEL of the MXA pattern, of inserted plot reads (Table 15.2, R308). -/
def drawSlice : Nat := 21000
def drawPlot : Nat := 1600
def drawLevel : Nat := 1500

/-- Draw of test unit `u`. -/
def drawTest (u : Nat) : Nat := if u < 2240 then drawSlice else drawPlot

/-- Draw of the inserted work on the furrow's own engine. -/
def Dev.fillOn (d : Dev) (f : Nat) : Nat :=
  ((d.ist.running.filter (d.testOn f)).map drawTest).foldl (· + ·) 0 + drawLevel * d.patternOn f +
    (if furrowType f = 3 && d.gov.plotFill.has (furrowUnit f) then drawPlot else 0) + SMap.get 0 d.gov.hand f

/-- A trace record of inserted work (R393), with tag 0. -/
def Dev.traceFill (d : Dev) (t kind furrow : Nat) : Dev :=
  if d.bit TRC_SEL TRC_SEL_FILL then d.trace t kind 2 furrow 0 noStep 0xFFFF 0 [] else d

/-- A test that runs stops, and is due again (R125, R368). -/
def Dev.stopTest (d : Dev) (u : Nat) : Dev :=
  { d with ist := { d.ist with running := d.ist.running.del u, due := d.ist.due.add u } }

/-- Inserted work on the furrow's own engine stops, and what it drew is free for the microsecond's begins; a test that runs there runs again
later (R74, R125, R307, R368). -/
def Dev.stopInserted (d : Dev) (f : Nat) : Dev :=
  if !d.insertedOn f then d
  else
    let w := d.fillOn f
    let d := d.each (d.ist.running.filter (d.testOn f)) Dev.stopTest
    let d := { d with
      gov := { d.gov with
        fill := d.gov.fill - w
        allow := d.gov.allow + w
        mxaFill := if furrowType f = 1 then (match d.physOf (furrowUnit f) with | some c => SMap.erase d.gov.mxaFill c | none => d.gov.mxaFill) else d.gov.mxaFill
        plotFill := if furrowType f = 3 then d.gov.plotFill.del (furrowUnit f) else d.gov.plotFill
        hand := SMap.erase d.gov.hand f } }
    (d.setFrw f { d.frw f with inserted := 0 }).traceFill (furrowType f) trcFillEnd (furrowId f)

/-- Cores on which a test slice runs. -/
def Dev.testCores (d : Dev) : List Nat := (d.ist.running.filter fun u => decide (u < 2240)).map fun u => u / 16

/-- Plot of a test window. -/
def windowOf (u : Nat) : Nat := (u - 2240) / 64

/-- Plots in which a test window runs. -/
def Dev.testPlots (d : Dev) : List Nat := (d.ist.running.filter fun u => decide (2240 ≤ u)).map windowOf

/-- Plots in which a test window may run: unreserved without kept contents, or a cache (Table 9.1, R187). -/
def Dev.windowPlot (d : Dev) (p : Nat) : Bool :=
  if d.bit TLT_MARK TLT_MARK_RESERVED p then d.fld TLT_MARK TLT_MARK_MARK p == 1 else !d.bit TLT_MARK TLT_MARK_KEPT p

/-- Is a plot marked HOLD? No inserted work enters it (R175). -/
def Dev.heldPlot (d : Dev) (p : Nat) : Bool := d.bit TLT_MARK TLT_MARK_RESERVED p && d.fld TLT_MARK TLT_MARK_MARK p == 2

/-- Furrow identifier of a physical core's MXA. -/
def Dev.mxaId (d : Dev) (c : Nat) : Nat := match d.logOf c with | some l => furrowId l | none => 0xFFFF

/-- Inserted work shown on a core's MXA furrow (Table 3.11). -/
def Dev.showInserted (d : Dev) (c n : Nat) : Dev :=
  match d.logOf c with | some l => d.setFrw l { d.frw l with inserted := n } | none => d

/-- A core's pattern generator runs at `u` units (LEVEL u - 1), or not. -/
def Dev.setMxaFill (d : Dev) (c u : Nat) : Dev :=
  let o := SMap.get 0 d.gov.mxaFill c
  let d := { d with gov := { d.gov with mxaFill := SMap.put 0 d.gov.mxaFill c u } }
  if o = 0 && u != 0 then (d.showInserted c 1).traceFill 1 trcFillBegin (d.mxaId c)
  else if o != 0 && u = 0 then
    let d := if (d.testCores).contains c then d else d.showInserted c 0
    d.traceFill 1 trcFillEnd (d.mxaId c)
  else d

/-- Inserted reads of a plot, or none. -/
def Dev.setPlotFill (d : Dev) (p : Nat) (on : Bool) : Dev :=
  if d.gov.plotFill.has p = on then d
  else
    let d := { d with gov := { d.gov with plotFill := if on then d.gov.plotFill.add p else d.gov.plotFill.del p } }
    (d.setFrw (240 + p) { d.frw (240 + p) with inserted := if (d.testPlots).contains p then 2 else b2n on }).traceFill 3 (if on then trcFillBegin else trcFillEnd) (furrowId (240 + p))

/-- Inserted test unit `u` stops on its engine, whose furrow shows what is left there. -/
def Dev.endTest (d : Dev) (u : Nat) : Dev :=
  let d := d.stopTest u
  if u < 2240 then (d.showInserted (u / 16) (b2n (SMap.get 0 d.gov.mxaFill (u / 16) != 0))).traceFill 1 trcFillEnd (d.mxaId (u / 16))
  else
    let f := 240 + windowOf u
    (d.setFrw f { d.frw f with inserted := b2n (d.gov.plotFill.has (windowOf u)) }).traceFill 3 trcFillEnd (furrowId f)

/-! ### Withdrawal (R307 to R310): plot reads first, then patterns, then tests -/

/-- Withdraw plot reads until `need` is covered; what is still needed is answered. -/
def Dev.withdrawPlots (d : Dev) : Nat → List Nat → Dev × Nat
  | need, [] => (d, need)
  | need, p :: ps => if need = 0 then (d, 0) else (d.setPlotFill p false).withdrawPlots (need - drawPlot) ps

/-- Lower the pattern levels of cores. -/
def Dev.withdrawCores (d : Dev) : Nat → List Nat → Dev × Nat
  | need, [] => (d, need)
  | need, c :: cs =>
    if need = 0 then (d, 0)
    else
      let u := SMap.get 0 d.gov.mxaFill c
      let k := min u (cdiv need drawLevel)
      (d.setMxaFill c (u - k)).withdrawCores (need - drawLevel * k) cs

/-- Stop tests. -/
def Dev.withdrawTests (d : Dev) : Nat → List Nat → Dev × Nat
  | need, [] => (d, need)
  | need, u :: us => if need = 0 then (d, 0) else (d.endTest u).withdrawTests (need - drawTest u) us

/-- Draw of all inserted work in place. -/
def Dev.fillDraw (d : Dev) : Nat :=
  (d.ist.running.map drawTest).foldl (· + ·) 0 + drawLevel * (d.gov.mxaFill.map Prod.snd).foldl (· + ·) 0 + drawPlot * d.gov.plotFill.length +
    (d.gov.hand.map Prod.snd).foldl (· + ·) 0

/-- Withdraw inserted work that draws `need`, or all of it, in the reverse of the order in which it is placed. -/
def Dev.withdraw (d : Dev) (need : Nat) : Dev :=
  let q := d.withdrawPlots need d.gov.plotFill
  let q := q.1.withdrawCores q.2 (q.1.gov.mxaFill.map Prod.fst)
  let q := q.1.withdrawTests q.2 q.1.ist.running.reverse
  { q.1 with gov := { q.1.gov with fill := q.1.fillDraw } }

/-- An MM or tilth operation that a fault aborts hands its units to the pattern generator at its own estimate (R309). -/
def Dev.handOver (d : Dev) (f : Nat) : Dev :=
  match (d.frw f).cur with
  | some i =>
    if isMm i.d.op || isTilth i.d.op then
      let e := estimate f i.d
      let d := { d with gov := { d.gov with hand := SMap.put 0 d.gov.hand f e, fill := d.gov.fill + e } }
      (d.setFrw f { d.frw f with inserted := 1 }).traceFill (furrowType f) trcFillBegin (furrowId f)
    else d
  | none => d

end Sys2Proof.Machine
end

