-- ==== Sys2Proof/Machine/Fault.lean ====
section
/-! DEFINITION. Commands leaving by a port (R280, R282), contract breaches (R49), suspect marks (R365), machine checks
(R353), device faults (R354), job faults (R358 to R362) and failed descriptors (R76). -/
namespace Sys2Proof.Machine
open Sys2Proof

/-! ### Egress -/

/-- Route entry of a device (Table 13.5); entry 0xFFFF is never used (R279). -/
def Dev.routeEntry (d : Dev) (dst : Nat) : Nat := if dst = 0xFFFF then 0 else d.reg HUB_ROUTE 0 dst

/-- An entry without its reserved bits (Table 13.5). -/
def routeWord (e : Nat) : Nat := bitsOf e 0 11 + (bitsOf e 16 8) <<< 16 + (bitsOf e 31 1) <<< 31

def routeValid (e : Nat) : Bool := bitOf e 31
def routeDie (e : Nat) : Nat := bitsOf e 0 4
def routePorts (e : Nat) : Nat := bitsOf e 4 6
def routeDateline (e : Nat) : Bool := bitOf e 10
def routeHops (e : Nat) : Nat := bitsOf e 16 8

/-- HDL_STATUS.STATE codes (Table 13.10). -/
def portOff : Nat := 0
def portTraining : Nat := 1
def portUp : Nat := 2
def portFailed : Nat := 3
def portDown : Nat := 4

def Dev.portState (d : Dev) (n : Nat) : Nat := d.fld HDL_STATUS HDL_STATUS_STATE n
def Dev.portIsUp (d : Dev) (n : Nat) : Bool := d.portState n == portUp

/-- Ports that an entry allows, as device-wide numbers, ascending. -/
def entryPorts (e : Nat) : List Nat :=
  ((List.range 6).filter fun h => bitOf (routePorts e) h).map fun h => 6 * routeDie e + h

/-- Where a command for a device leaves (R280): no valid entry, the selected port which is not UP, or that port. -/
inductive Egress
  | noRoute
  | down (port : Nat)
  | up (port : Nat)
deriving DecidableEq, Repr

/-- Selection by the hash of the source device and the granule, among every port set in PORTS (R280). -/
def Dev.egress (d : Dev) (dst src addr : Nat) : Egress :=
  let e := d.routeEntry dst
  if !routeValid e then .noRoute
  else
    let ps := entryPorts e
    match ps[if ps.length ≤ 1 then 0 else Config.routeHash src (addr / 256) % ps.length]? with
    | some p => if d.portIsUp p then .up p else .down p
    | none => .noRoute

/-- Flits of a command of operation `op` with `n` data bytes: the sectors of a team access lie in the COMMAND flit after its header (R276). -/
def flitsOf (op n : Nat) : Nat := if 8 ≤ op && op ≤ 10 then 1 + cdiv (n - 440) 504 else 1 + cdiv n 504

/-- Sequenced flits leave by a port: the count, and the last 512 kept for replay (R275). When more than those have left since a SEQ was first
replayed, it has passed: there was progress (log entry 96). -/
def Dev.txFlits (d : Dev) (p n : Nat) : Dev :=
  let x := d.port p
  let runs := if x.since + n ≤ 512 then x.nakRuns else 0
  (d.bump HDL_TX HDL_TX_FLITS n p).setPort p { x with
    tx := (x.tx + n) % 1024, kept := min (x.kept + n) 512, nakRuns := runs, since := if runs = 0 then 0 else x.since + n }

/-- A command that left by a port has its RESPONSE: its flits have arrived, which is progress (R275). -/
def Dev.progress (d : Dev) (p : Nat) : Dev :=
  let x := d.port p
  if x.nakRuns = 0 then d else d.setPort p { x with nakRuns := 0, since := 0 }

/-- A command leaves by a port with its data; its entry's DATELINE moves it to REQ1 (R281). -/
def Dev.sendBy (d : Dev) (p : Nat) (c : Cmd) (data : List Byte) : Dev :=
  let c := if routeDateline (d.routeEntry c.dst) then { c with flags := setBits c.flags 4 1 1 } else c
  (d.txFlits p (flitsOf c.op data.length)).emit (.cmd p c data)

/-- A TOKEN leaves, or waits while commands do not flow (R278, R283). One that cannot leave is logged at its egress
port (R282). -/
def Dev.sendTok (d : Dev) (t : Tok) : Dev :=
  if d.bit HUB_EPOCH HUB_EPOCH_QUIESCED then { d with epoch := { d.epoch with tokq := d.epoch.tokq ++ [t] } }
  else
    match d.egress t.dst t.src 0 with
    | .up p => (d.txFlits p 1).emit (.tok p { t with req1 := t.req1 || routeDateline (d.routeEntry t.dst) })
    | .down p => d.elogHdl p 0 0x60 0 t.step
    | .noRoute => d.elogHdl (6 * routeDie (d.routeEntry t.dst)) 0 0x63 0 t.step

/-- A token for another device with this device's identity (Table 13.4a). -/
def Dev.mkTok (d : Dev) (dst kind : Nat) : Tok :=
  ⟨0, d.devId, dst, kind, 0, 0, d.devId, 0, 0, d.tb.time, d.jobId, d.gen0, false, false⟩

/-! ### Breaches -/

/-- Causes of Table 2.11. -/
def brLate : Nat := 1
def brOverrun : Nat := 2
def brThrottle : Nat := 3
def brThermal : Nat := 4
def brEnvelope : Nat := 5
def brRoute : Nat := 6

/-- A contract breach (R49) that concerns the descriptor `x`, if any (R71). Its global-log entry has a cause that Table 18.2 does not
state: a free value. -/
def Dev.breach (d : Dev) (cause where_ : Nat) (x : At) : Dev :=
  let v := cause % 16 + (where_ % 2 ^ 16) <<< 16 + (x.tag % 2 ^ 32) <<< 32
  let d := (d.stick ADM_BREACH ADM_BREACH_COUNT 1).setReg ADM_BREACH_LAST v
  let d := d.traceAt 0 trcBreach x (leBytes 4 cause ++ leBytes 4 where_)
  (((d.glog 0 (Config.freeNat d.free 0) reqHw x.tag x.step).fresh).irq irqBreach)

/-! ### Suspect units, machine checks -/

/-- Unit kinds of ERR_FAULT_U (Table 18.14). -/
def kNone : Nat := 0
def kCore : Nat := 1
def kPlot : Nat := 2
def kPort : Nat := 3
def kStack : Nat := 4
def kMover : Nat := 5
def kFabric : Nat := 6
def kHub : Nat := 7

/-- ADDR of a global-log entry that names a unit and no address (log entry 13). -/
def unitAddr (kind unit : Nat) : Nat := kind * 4096 + unit

/-- Mark a unit suspect (R365): cores, plots and ports have a bit; the mark is logged. -/
def Dev.suspect (d : Dev) (kind unit : Nat) : Dev :=
  let d :=
    if kind = kCore then
      d.setFld RST_SUSPECT RST_SUSPECT_CORES (setBits (d.fld RST_SUSPECT RST_SUSPECT_CORES 0 (unit / 14)) (unit % 14) 1 1) 0 (unit / 14)
    else if kind = kPlot then
      d.setFld RST_SUSPECT RST_SUSPECT_PLOTS (setBits (d.fld RST_SUSPECT RST_SUSPECT_PLOTS 0 (unit / 16)) (unit % 16) 1 1) 0 (unit / 16)
    else if kind = kPort then
      d.setFld RST_SUSPECT RST_SUSPECT_PORTS (setBits (d.fld RST_SUSPECT RST_SUSPECT_PORTS 0 (unit / 6)) (unit % 6) 1 1) 0 (unit / 6)
    else d
  let d := d.glog (unitAddr kind unit) 0x08 reqHw 0 noStep
  { d with boot := { d.boot with marks :=
    if kind = kCore then SMap.put 0 d.boot.marks (unit / 14) (d.reg RST_SUSPECT 0 (unit / 14))
    else if kind = kPlot then SMap.put 0 d.boot.marks (unit / 16) (d.reg RST_SUSPECT 0 (unit / 16))
    else if kind = kPort then SMap.put 0 d.boot.marks (unit / 6) (d.reg RST_SUSPECT 0 (unit / 6))
    else d.boot.marks } }

/-! ### Job faults -/

/-- Causes of Table 18.3. -/
def jfDeadline : Nat := 1
def jfClkLoss : Nat := 2
def jfFurrow : Nat := 3
def jfCoreReset : Nat := 4
def jfSeal : Nat := 5
def jfLinkDown : Nat := 6
def jfThermal : Nat := 7
def jfMachineCheck : Nat := 8
def jfUncorrectable : Nat := 9
def jfPeer : Nat := 10
def jfHostReset : Nat := 11

/-- What a job fault reports (R359), with the routine and position of its descriptor (R71); for PEER_FAULT also the originator's cause,
which the notices carry on (Table 13.4a). -/
structure FaultRep where
  cause : Nat
  furrow : Nat := 0xFFFF
  tag : Nat := 0
  step : Nat := 0xFFFF_FFFF
  detail : Nat := 0
  kind : Nat := 0
  unit : Nat := 0
  origin : Nat := 0
  origCause : Nat := 0
  rtn : Nat := 0xFFFF
  pos : Nat := 0
deriving DecidableEq, Repr

/-- Has the furrow no descriptor of the sheaf left: its epilogue completed (Table 18.4)? -/
def Dev.frwFinished (d : Dev) (f : Nat) : Bool :=
  let x := d.frw f
  x.epi && x.cur.isNone && x.fifo.isEmpty && x.infl.isEmpty && d.ff f FRW_HEAD FRW_HEAD_HEAD == d.ff f FRW_TAIL FRW_TAIL_TAIL

/-- Abort one furrow: its descriptor is abandoned, and it shows ABORTED unless it had failed or finished (Table 18.4). With no descriptor
in progress the TAG of FRW_ERR is the FIFO head's, or 0 with an empty FIFO. DESIGN CHOICE, Table 3.12 gives the code alone (log entry 82). -/
def Dev.abortFurrow (d : Dev) (f : Nat) : Dev :=
  let x := d.frw f
  let tag := match x.cur with | some i => i.otag | none => match x.fifo with | i :: _ => i.otag | [] => 0
  let d := if d.frwErr f != 0 || d.frwFinished f then d else d.setFr f FRW_ERR (7 + (tag % 2 ^ 32) <<< 32)
  let d := d.handOver f
  d.setFrw f { d.frw f with cur := none, done := false, held := 0, wait := .untested, verdictWait := false }

/-- Teams of a core end; parked ones stay to be inspected (R243, R244, Table 18.4). -/
def Dev.endTeams (d : Dev) (c : Nat) : Dev :=
  let t := d.core c
  d.setCore c { t with active := false, slots := t.slots.filter fun p => p.2.park.isSome }

/-- The launch of a core is abandoned. -/
def Dev.abortCore (d : Dev) (c : Nat) : Dev := if (d.core c).active then (d.endTeams c).launchEnd c else d.endTeams c

/-- Every engine abandons its work (Table 18.4 step 2): accumulators are discarded (R126), pending waits dropped; the waits at the
gate end and count (R307). -/
def Dev.abortEngines (d : Dev) (s : Sheaf) : Dev :=
  let d := d.bump PWR_GATE PWR_GATE_NS ((d.gov.gate.map fun p => d.tb.time - p.2).foldl (· + ·) 0)
  let d := if d.running then d.each (s.frws.map (·.f)) Dev.abortFurrow else d
  let d := d.each (d.tme.map (·.1)) Dev.abortCore
  { d with mxa := [], waits := [], gov := { d.gov with gate := [] } }

/-- Devices named in the PEERS lists, this one apart, each once (R362). -/
def Dev.peerSet (d : Dev) (s : Sheaf) : List Nat := ((s.peers.flatten).foldl NSet.add []).filter fun p => p != d.devId

/-- Peer notices (R362). -/
def Dev.notices (d : Dev) (s : Sheaf) (r : FaultRep) : Dev :=
  if d.bit RST_CFG RST_CFG_NOTICE then
    d.each (d.peerSet s) fun d p =>
      d.sendTok { d.mkTok p 3 with cause := if r.cause = jfPeer then r.origCause else r.cause, step := r.step, origin := if r.cause = jfPeer then r.origin else d.devId }
  else d

/-- Write the fault report (R359). -/
def Dev.report (d : Dev) (job : Nat) (r : FaultRep) : Dev :=
  let d := d.setReg ERR_FAULT (r.cause % 256 + 256 + (r.furrow % 2 ^ 16) <<< 16 + (r.tag % 2 ^ 32) <<< 32)
  let d := d.setReg ERR_FAULT_B (r.step % 2 ^ 32 + (job % 2 ^ 32) <<< 32)
  let d := d.setReg ERR_FAULT_T d.tb.time
  d.setReg ERR_FAULT_U (r.detail % 256 + (r.kind % 16) <<< 8 + (r.unit % 4096) <<< 16 + (r.origin % 2 ^ 16) <<< 32)

/-- A job fault (R358 to R362). Later faults of the run only add to MORE. With no sheaf admitted there is no job. -/
def Dev.jobFault (d : Dev) (r : FaultRep) : Dev :=
  match d.sheaf with
  | none => d
  | some s =>
    if d.job.faulted then d.stick ERR_FAULT_U ERR_FAULT_U_MORE 1
    else
      let d := (d.report s.jobId r).abortEngines s
      let d := d.setFld ADM_STATUS ADM_STATUS_RUNNING 0
      let d := { d with
        job := { d.job with faulted := true, aborting := true, abortAt := d.tb.time, refuseInbound := true, ivals := [] }
        gov := { d.gov with ramp := true, active := false }
        capture := none }
      let d := (d.setFld PWR_STATUS PWR_STATUS_RAMP_DOWN 1).setFld PWR_STATUS PWR_STATUS_SOWING 0
      let d := d.traceAt 0 trcFault ⟨r.furrow, r.tag, r.step, r.rtn, r.pos⟩ (leBytes 8 (d.reg ERR_FAULT) ++ leBytes 8 (d.reg ERR_FAULT_U))
      ((d.notices s r).tlySend s.jobId 3).irq irqJobFault

/-- A device fault raised during a JOB reset is recorded, with no job to stop (R376): in the report, or in MORE where that holds a fault already. -/
def Dev.noteFault (d : Dev) (r : FaultRep) : Dev :=
  match d.boot.soft with
  | some (2, _) => if d.bit ERR_FAULT ERR_FAULT_VALID then d.stick ERR_FAULT_U ERR_FAULT_U_MORE 1 else d.report 0 r
  | _ => d

/-- A device fault (R354). -/
def Dev.devFault (d : Dev) (r : FaultRep) : Dev := ((d.setFld ERR_MCHK ERR_MCHK_DEV_FAULT 1).noteFault r).jobFault r

/-- Units that have neither a spare nor an admission exclusion (R354). -/
def unspared (kind : Nat) : Bool := decide (kStack ≤ kind)

/-- The counting, logging and marking of a machine check (R353); a unit of R354 makes a device fault. -/
def Dev.mcheckMark (d : Dev) (kind unit : Nat) : Dev :=
  let d := (d.stick ERR_MCHK ERR_MCHK_COUNT 1).glog (unitAddr kind unit) 0x04 reqHw 0 noStep
  let d := d.suspect kind unit
  if unspared kind then d.setFld ERR_MCHK ERR_MCHK_DEV_FAULT 1 else d

/-- A machine check whose consumer is neither a descriptor nor a team (R353). -/
def Dev.machineCheck (d : Dev) (kind unit : Nat) : Dev :=
  let r : FaultRep := { cause := if unspared kind then jfUncorrectable else jfMachineCheck, kind := kind, unit := unit }
  let d := d.mcheckMark kind unit
  if unspared kind then d.devFault r else d.jobFault r

/-! ### Failed descriptors -/

/-- Furrow error codes (Table 3.12). -/
def feAccOwned : Nat := 1
def feAccess : Nat := 2
def feSignal : Nat := 3
def feParity : Nat := 4
def feKilled : Nat := 5
def feRefused : Nat := 6

/-- Kind and unit of a furrow's engine for the fault report. -/
def Dev.engineUnit (d : Dev) (f : Nat) : Nat × Nat :=
  let u := furrowUnit f
  match furrowType f with
  | 1 => (kCore, (d.physOf u).getD 0)
  | 2 => (kCore, (d.physOf u).getD 0)
  | 3 => (kPlot, u)
  | 4 => (kMover, u)
  | 5 => (kPort, u)
  | _ => (kStack, u)

/-- Write an entry of the log of a furrow's engine. The TME dispatch shares the core's log (log entry 14). -/
def Dev.elogEngine (d : Dev) (f addr cause tag step : Nat) : Dev :=
  let u := furrowUnit f
  match furrowType f with
  | 1 => match d.physOf u with | some p => d.elogMxa p addr cause tag step | none => d
  | 2 => match d.physOf u with | some p => d.elogMxa p addr cause tag step | none => d
  | 3 => d.elogTlt u addr cause tag step
  | 4 => d.elogMov u addr cause tag step
  | 5 => d.elogHdl u addr cause tag step
  | _ => d.elogHrw u addr cause tag step

/-- The descriptor in progress at a furrow fails (R76): code and tag, no SIGNAL, the furrow stops, the job faults. -/
def Dev.failCur (d : Dev) (f code tag step detail : Nat) : Dev :=
  let x := d.frw f
  let d := (d.setFr f FRW_ERR (code % 256 + (tag % 2 ^ 32) <<< 32)).handOver f
  let d := d.setFrw f { d.frw f with cur := none, done := false, held := 0, wait := .untested }
  let d := if furrowType f = 1 then
      match d.physOf (furrowUnit f) with | some p => d.setMx p Mxa.empty | none => d
    else d
  let e := d.engineUnit f
  let w := match x.cur with | some i => (i.rtn, i.pos) | none => (0xFFFF, 0)
  d.jobFault { cause := jfFurrow, furrow := furrowId f, tag := tag, step := step, detail := detail, kind := e.1, unit := e.2
               rtn := w.1, pos := w.2 }

/-- Fail the descriptor in progress with an FRW_ERR code, and an entry of the engine's log where one is due. -/
def Dev.failOp (d : Dev) (f code addr : Nat) (cause : Option Nat) : Dev :=
  match (d.frw f).cur with
  | none => d
  | some i =>
    let d := match cause with | some c => d.elogEngine f addr c i.otag i.step | none => d
    d.failCur f code i.otag i.step code

/-- A requester that is no descriptor and no team reads an uncorrectable HBM word: a device fault (R299, R354). -/
def Dev.readUE (d : Dev) (w req tag step : Nat) : Dev :=
  ((d.countUE w).glog (8 * w) 0x07 req tag step).devFault
    { cause := jfUncorrectable, step := step, tag := tag, detail := 0x07, kind := kStack, unit := stackOf (8 * w) }

/-- The descriptor in progress reads an uncorrectable HBM word: an error response, UE, and a device fault (R299, R354). -/
def Dev.hbmUE (d : Dev) (f w : Nat) : Dev :=
  match (d.frw f).cur with
  | some i =>
    let d := (d.countUE w).glog (8 * w) 0x07 reqDesc i.otag i.step
    let d := d.elogEngine f (8 * w) 0x02 i.otag i.step
    let d := (d.setFr f FRW_ERR (feAccess + (i.otag % 2 ^ 32) <<< 32)).handOver f
    let d := d.setFrw f { d.frw f with cur := none, done := false, held := 0, wait := .untested }
    d.devFault { cause := jfUncorrectable, furrow := furrowId f, tag := i.otag, step := i.step, detail := 0x02,
                 kind := kStack, unit := stackOf (8 * w), rtn := i.rtn, pos := i.pos }
  | none => d

/-- Unit that holds the words of an address, where a parity error is found (R353). -/
def unitAt (a : Nat) : Nat × Nat :=
  match region a with
  | .plot p => (kPlot, p)
  | .tile c => (kCore, c)
  | .hbm => (kStack, stackOf a)
  | _ => (kHub, 0)

/-- A descriptor that meets a parity error (R127, R352, R353): a replay that succeeds counts, in a matrix array every replay; an
error that persists stops the furrow with PARITY and names the unit that holds the word, the engine's own where the word has no address; an uncorrectable HBM word at `addr` is a device fault (R299). The flag lets it go on. -/
def Dev.upset (d : Dev) (f : Nat) (u : Upset) (addr : Nat := 0) : Dev × Bool :=
  let e := d.engineUnit f
  match u with
  | .none => (d, true)
  | .replays n =>
    if furrowType f = 1 then (d.stick MXA_REPLAY MXA_REPLAY_COUNT n e.2, true)
    else (d.stick ERR_REPLAY ERR_REPLAY_COUNT n, true)
  | .persistent a =>
    let d := if furrowType f = 1 then d.stick MXA_REPLAY MXA_REPLAY_COUNT 3 e.2 else d
    let s := if a = 0 then e else unitAt a
    ((d.mcheckMark s.1 s.2).failOp f feParity a (some 0x04), false)
  | .uncorrectable => (d.hbmUE f (addr / 8), false)

/-- A consumer that is no descriptor and no team reads words at `a` (R352, R353): a persisting error is a machine check of their
unit, and the access draws an error response. The flag lets it go on. -/
def Dev.upsetAt (d : Dev) (a : Nat) (u : Upset) : Dev × Bool :=
  match u with
  | .none => (d, true)
  | .replays n => (d.stick ERR_REPLAY ERR_REPLAY_COUNT n, true)
  | _ => (d.machineCheck (unitAt a).1 (unitAt a).2, false)

/-- Refusals of an access by a unit are logged in that unit's log, and of no unit in the global one (R247, R355). -/
def Dev.refuseAt (d : Dev) (a req tag step : Nat) : Dev :=
  match region a with
  | .hbm => d.elogHrw (stackOf a) a 0x02 tag step
  | .plot p => d.elogTlt p a 0x40 tag step
  | .tile c => d.elogMxa c a 0x40 tag step
  | _ => d.glog a 0x02 req tag step

/-- An operand address of the descriptor in progress drew an error response: the refusing unit's entry, the engine's own, and
code ACCESS (R100, R355). -/
def Dev.accessFail (d : Dev) (f a : Nat) : Dev :=
  match (d.frw f).cur with
  | some i => (d.refuseAt a reqDesc i.otag i.step).failOp f feAccess a (some 0x02)
  | none => d

end Sys2Proof.Machine
end

