-- ==== Sys2Proof/Machine/TeamFmt.lean ====
section
/-! DEFINITION. The team engine's instruction format (R229 to R231), lane selection (R237), registers (R226, R227). -/
namespace Sys2Proof

/-! ### Fields (Table 11.3) -/

def tCls (w : Nat) : Nat := bitsOf w 61 3
/-- Format I: classes 0 to 3 with OPC[4] set (R229). -/
def tImmF (w : Nat) : Bool := decide (tCls w ≤ 3) && bitOf w 60
def tNum (w : Nat) : Nat := if tCls w ≤ 3 then bitsOf w 56 4 else bitsOf w 56 5
def tGN (w : Nat) : Bool := bitOf w 55
def tGP (w : Nat) : Nat := bitsOf w 52 3
def tD (w : Nat) : Nat := bitsOf w 44 8
def tA (w : Nat) : Nat := bitsOf w 36 8
def tB (w : Nat) : Nat := bitsOf w 28 8
def tC (w : Nat) : Nat := bitsOf w 20 8
def tUD (w : Nat) : Bool := if tImmF w then bitOf w 35 else bitOf w 19
def tUA (w : Nat) : Bool := if tImmF w then bitOf w 34 else bitOf w 18
def tUB (w : Nat) : Bool := bitOf w 17
def tUC (w : Nat) : Bool := bitOf w 16
def tMod (w : Nat) : Nat := bitsOf w 0 16
def tItype (w : Nat) : Nat := bitsOf w 32 2
def tImm (w : Nat) : Nat := bitsOf w 0 32
def mUA (w : Nat) : Bool := bitOf w 27
def mChk (w : Nat) : Bool := bitOf w 26
def mCp (w : Nat) : Nat := bitsOf w 23 3
def mScope (w : Nat) : Nat := bitsOf w 20 3
def mOrd (w : Nat) : Nat := bitsOf w 18 2
def mSize (w : Nat) : Nat := bitsOf w 15 3
def mOff (w : Nat) : Int := sgn (bitsOf w 0 15) 15
/-- Bytes of a SIZE code. -/
def mBytes (w : Nat) : Nat := 2 ^ mSize w
/-- Type and kind of an atomic. -/
def mType (w : Nat) : Nat := tNum w / 8
def mKind (w : Nat) : Nat := tNum w % 8

/-- Integer types: 0 i32, 1 n32, 2 i64, 3 n64, 4 w32, 5 w64 (Table 11.4b). -/
def iType (w : Nat) : Nat := if tImmF w then (match tItype w with | 0 => 0 | 1 => 1 | 2 => 4 | _ => 2) else bitsOf w 0 3
def iWide (ty : Nat) : Bool := ty == 2 || ty == 3 || ty == 5
def iSigned (ty : Nat) : Bool := ty == 0 || ty == 2
def tCond (w : Nat) : Nat := bitsOf w 4 3
def tBit (w : Nat) : Nat := bitsOf w 8 2
/-- Floating types: 0 f32, 1 f64, 2 bf16p, 3 h16p. -/
def fType (w : Nat) : Nat := if tImmF w then tItype w else bitsOf w 0 3

/-- Code of a `cvt` operand: a format of Table 4.2 or an integer type. -/
def cvtOk (c : Nat) : Bool := decide (c < 14) || decide (0x10 ≤ c ∧ c ≤ 0x13)
def cvtDst (w : Nat) : Nat := bitsOf w 0 5
def cvtSrc (w : Nat) : Nat := bitsOf w 5 5
def cvtWide (c : Nat) : Bool := c == 0x12 || c == 0x13
def cvtScaled (c : Nat) : Bool := match Fmt.ofCode c with | some f => f.scaled | none => false

/-! ### Register operands -/

/-- A register operand: u or v, its index, its words. -/
structure ROp where
  u : Bool
  r : Nat
  n : Nat
deriving DecidableEq, Repr

/-- Does an instruction of classes 0 to 2 write a predicate instead of a register? -/
def predDest (w : Nat) : Bool :=
  ((tCls w == 0 || tCls w == 1) && tNum w == 0xE) || (tCls w == 2 && (tNum w == 4 || tNum w == 5 || tNum w == 6 || tNum w == 9))

/-- The register operands of an instruction (Table 11.4a). -/
def tRegs (w : Nat) : List ROp :=
  let dD (n : Nat) : List ROp := [⟨tUD w, tD w, n⟩]
  let dA (n : Nat) : List ROp := [⟨tUA w, tA w, n⟩]
  let dB (n : Nat) : List ROp := if tImmF w then [] else [⟨tUB w, tB w, n⟩]
  let dC (n : Nat) : List ROp := [⟨tUC w, tC w, n⟩]
  match tCls w with
  | 0 =>
    let n := if iWide (iType w) then 2 else 1
    match tNum w with
    | 0x4 => dD n ++ dA n ++ dB n ++ dC n
    | 0xE => dA n ++ dB n
    | 0xF => dD n ++ dA n
    | _ => dD n ++ dA n ++ dB n
  | 1 =>
    let n := if fType w = 1 then 2 else 1
    match tNum w with
    | 0x3 => dD n ++ dA n ++ dB n ++ dC n
    | 0xE => dA n ++ dB n
    | 0x0 | 0x1 | 0x2 | 0x4 | 0x5 => dD n ++ dA n ++ dB n
    | _ => dD n ++ dA n
  | 2 =>
    match tNum w with
    | 0x0 => if tImmF w then dD (if tItype w = 3 then 2 else 1) else (let n := if bitOf w 0 then 2 else 1; dD n ++ dA n)
    | 0x1 => dD (if bitsOf w 0 4 = 9 then 2 else 1)
    | 0x2 =>
      dD (if cvtWide (cvtDst w) then 2 else 1) ++ dA (if cvtWide (cvtSrc w) then 2 else 1) ++
        (if cvtScaled (cvtDst w) || cvtScaled (cvtSrc w) then dC 1 else [])
    | 0x3 => dD 1 ++ dA 1 ++ dB 1
    | 0x7 => dD 1
    | 0x8 => dD 1 ++ dA 1 ++ dB 1
    | 0x9 => dA 1
    | _ => []
  | 3 => if tNum w = 0 && !tImmF w then dA 2 else []
  | 4 =>
    let n := mBytes w / 4
    [⟨mUA w, tA w, 2⟩, ⟨false, if tNum w = 0 then tD w else tB w, max 1 n⟩]
  | 5 =>
    let n := max 1 (mBytes w / 4)
    [⟨mUA w, tA w, 2⟩, ⟨false, tD w, n⟩, ⟨false, tB w, n⟩] ++
      (if mKind w = 7 then [⟨false, if tB w = 255 then 255 else tB w + n, n⟩] else [])
  | 6 =>
    match tNum w with
    | 0 | 1 => dA 1
    | 2 | 3 => dA 1 ++ dB 2
    | _ => []
  | _ => []

/-- Is a register field well formed: a u field below 64, pairs even, quads multiples of 4 (R230)? -/
def ROp.ok (o : ROp) : Bool := if o.u then decide (o.r < 64) && o.r % o.n == 0 else o.r == 255 || o.r % o.n == 0

/-- Is a v index in range of `R` allocated registers (R230)? -/
def ROp.inRange (regs : Nat) (o : ROp) : Bool := o.u || o.r == 255 || decide (o.r + o.n ≤ regs)

/-! ### Legality (R230, Tables 11.4a and 11.4b) -/

/-- MOD bits outside a mask are zero. -/
def modOk (w mask : Nat) : Bool := tMod w &&& (0xFFFF - mask) == 0

/-- Combinations of kind, type and size of an atomic (R236). -/
def rmwOk (w : Nat) : Bool :=
  let k := mKind w
  let t := mType w
  let s := mSize w
  match k with
  | 0 => (t == 0 && (s == 2 || s == 3)) || (t == 1 && s == 2) || (t == 2 && s == 2)
  | 1 | 2 => decide (t ≤ 2) && s == 2
  | 3 | 4 | 5 => t == 0 && (s == 2 || s == 3)
  | _ => t == 0 && (s == 2 || s == 3)

/-- Opcode, format, MOD and ITYPE are assigned. -/
def opLegal (w : Nat) : Bool :=
  let n := tNum w
  let i := tImmF w
  match tCls w with
  | 0 =>
    let ty := iType w
    decide (ty < 6) &&
      (match n with
       | 0x3 | 0x5 | 0x6 | 0x7 | 0x8 | 0xD => decide (ty < 4) && (i || modOk w 0x7)
       | 0x4 => !i && modOk w 0x7
       | 0xE => !i && modOk w 0x77 && decide (tCond w < 6)
       | 0xF => !i && modOk w 0x307 && decide (tBit w < 3)
       | _ => i || modOk w 0x7)
  | 1 =>
    let ty := fType w
    (if i then ty == 0 || ty == 2 else decide (ty < 4)) &&
      (match n with
       | 0x0 | 0x1 | 0x2 | 0x4 | 0x5 => i || modOk w 0x7
       | 0x6 | 0x7 | 0x8 | 0x9 | 0xA | 0xB | 0xC => !i && modOk w 0x7 && ty == 0
       | 0xE => !i && modOk w 0x77 && decide (tCond w < 7)
       | _ => !i && modOk w 0x7)
  | 2 =>
    match n with
    | 0x0 => if i then tItype w == 0 || tItype w == 3 else modOk w 0x1
    | 0x1 => !i && modOk w 0xF && decide (bitsOf w 0 4 < 10)
    | 0x2 => !i && modOk w 0x3FF && cvtOk (cvtDst w) && cvtOk (cvtSrc w)
    | 0x3 => !i && modOk w 0x7
    | 0x4 | 0x5 | 0x6 | 0x7 => !i && modOk w 0
    | 0x8 => if i then tItype w == 0 else modOk w 0x3
    | 0x9 => !i && modOk w 0x1F
    | _ => false
  | 3 =>
    match n with
    | 0x0 => if i then tItype w == 0 && tImm w % 8 == 0 else modOk w 0
    | 0x1 => i && tItype w == 0 && tImm w % 8 == 0
    | 0x2 | 0x3 | 0x4 | 0x5 => !i && modOk w 0
    | _ => false
  | 4 =>
    decide (mScope w < 5) && decide (mSize w < 5) &&
      (match n with
       | 0 => mOrd w == 0 || mOrd w == 1
       | 1 => mOrd w == 0 || mOrd w == 2
       | _ => false)
  | 5 => decide (mScope w < 5) && rmwOk w
  | 6 =>
    match n with
    | 0 | 2 => modOk w 0
    | 1 | 3 => modOk w 0x1
    | 4 => modOk w 0x7 && decide (bitsOf w 0 3 < 5)
    | _ => false
  | _ => false

/-- Is an instruction word legal (R230)? -/
def tLegal (w : Nat) : Bool := opLegal w && (tRegs w).all ROp.ok && (!predDest w || decide (tD w < 8))

/-- Are its v registers within the allocation? -/
def tInRange (w regs : Nat) : Bool := (tRegs w).all (ROp.inRange regs)

/-! ### Slots -/

/-- The lanes set in a mask, ascending. -/
def lanesOf (m : Nat) : List Nat := (List.range 32).filter fun l => bitOf m l

/-- The mask of a list of lanes. -/
def maskOf (ls : List Nat) : Nat := (List.range 32).foldl (fun m l => if ls.contains l then m + 2 ^ l else m) 0

/-- All lanes. -/
def allLanes : Nat := 2 ^ 32 - 1

def Slot.pcOf (x : Slot) (l : Nat) : Nat := (x.pcs[l]?).getD 0

/-- A v register; index 255 reads as zero (R230). -/
def Slot.rv (x : Slot) (r l : Nat) : Nat := if r = 255 then 0 else SMap.get 0 x.v (32 * r + l)
def Slot.wv (x : Slot) (r l v : Nat) : Slot := if r = 255 then x else { x with v := SMap.put 0 x.v (32 * r + l) (v % 2 ^ 32) }
def Slot.ru (x : Slot) (r : Nat) : Nat := SMap.get 0 x.u r
def Slot.wu (x : Slot) (r v : Nat) : Slot := { x with u := SMap.put 0 x.u r (v % 2 ^ 32) }

/-- Predicate bits of all lanes; p7 reads 1 (R227). -/
def Slot.pm (x : Slot) (i : Nat) : Nat := if i = 7 then allLanes else (x.p[i]?).getD 0
def Slot.pr (x : Slot) (i l : Nat) : Bool := bitOf (x.pm i) l

/-- Write a predicate in the lanes of `act`; a write to p7 is discarded. -/
def Slot.wp (x : Slot) (i act m : Nat) : Slot :=
  if i = 7 then x else { x with p := setAt x.p i ((x.pm i &&& (allLanes - act)) ||| (m &&& act)) }

/-- `n` words of a register operand as one number, low word first. -/
def Slot.rd (x : Slot) (u : Bool) (r n l : Nat) : Nat :=
  (List.range n).foldl (fun a i => a + (if u then x.ru (r + i) else if r = 255 then 0 else x.rv (r + i) l) * 2 ^ (32 * i)) 0

/-- Write `n` words of a v register operand. -/
def Slot.wr (x : Slot) (r n l v : Nat) : Slot :=
  if r = 255 then x else (List.range n).foldl (fun x i => x.wv (r + i) l (v / 2 ^ (32 * i))) x

/-- Write `n` words of a u register. -/
def Slot.wru (x : Slot) (r n v : Nat) : Slot := (List.range n).foldl (fun x i => x.wu (r + i) (v / 2 ^ (32 * i))) x

/-- Write a result to D: each lane's, or with UD the lowest active lane's (R232). -/
def Slot.result (x : Slot) (w n : Nat) (vals : List (Nat × Nat)) : Slot :=
  if tUD w then (match vals with | (_, v) :: _ => x.wru (tD w) n v | [] => x)
  else vals.foldl (fun (x : Slot) (p : Nat × Nat) => x.wr (tD w) n p.1 p.2) x

/-- Lanes that the guard lets act (R230). -/
def Slot.guard (x : Slot) (w m : Nat) : Nat := m &&& (if tGN w then allLanes - x.pm (tGP w) else x.pm (tGP w))

/-- Lane `l` is eligible under an entry with mask `m` and, unless it is the base entry, an address (R237). -/
def Slot.eligible (x : Slot) (m : Nat) (addr : Option Nat) (l : Nat) : Bool :=
  bitOf m l && !bitOf x.exited l && (match addr with | some a => x.pcOf l != a | none => true)

/-- The lanes that issue, after the pops they take: the program counter of the lowest eligible lane and every eligible lane
with it (R237). -/
def Slot.pick : List (Nat × Nat) → Slot → Option (Slot × Nat × Nat)
  | [], x =>
    match (List.range 32).find? (x.eligible allLanes none) with
    | some l => some ({ x with stack := [] }, x.pcOf l, maskOf ((List.range 32).filter fun i => x.eligible allLanes none i && x.pcOf i == x.pcOf l))
    | none => none
  | (a, m) :: t, x =>
    match (List.range 32).find? (x.eligible m (some a)) with
    | some l =>
      some ({ x with stack := (a, m) :: t }, x.pcOf l, maskOf ((List.range 32).filter fun i => x.eligible m (some a) i && x.pcOf i == x.pcOf l))
    | none => Slot.pick t x

/-- Set the program counter of some lanes. -/
def Slot.setPcs (x : Slot) (m pc : Nat) : Slot := { x with pcs := x.pcs.zipIdx.map fun p => if bitOf m p.2 then pc else p.1 }

/-- The program counter holds bits [47:3] of an address (Table 11.10). -/
def pcMask (a : Nat) : Nat := a % 2 ^ 48 / 8 * 8

end Sys2Proof
end

