-- ==== Sys2Proof/Machine/Sync.lean ====
section
/-! DEFINITION. The synchronisation unit: flags, receive counters and the waits pending at them (R56 to R58, R251, R252), parked teams (R243),
and the step-event slots (R160, R161). -/
namespace Sys2Proof.Machine
open Sys2Proof

/-- Value of a receive counter. -/
def Dev.ctr (d : Dev) (j : Nat) : Nat := (SMap.get 0 d.ctrs j).toNat

/-- Is a wait satisfied now (R56)? -/
def Dev.waitMet (d : Dev) (w : Waiter) : Bool := if w.ctr then decide (w.thr ≤ d.ctr w.idx) else d.flags.has w.idx

/-- CONSUME (Table 3.3). -/
def Dev.consume (d : Dev) (w : Waiter) : Dev :=
  if !w.consume then d
  else if w.ctr then { d with ctrs := SMap.put 0 d.ctrs w.idx (mkW (d.ctr w.idx - w.thr)) }
  else { d with flags := d.flags.del w.idx }

/-! ### Parking (R243) -/

/-- Store a slot. -/
def Dev.setSlot (d : Dev) (c j : Nat) (x : Slot) : Dev :=
  let t := d.core c
  d.setCore c { t with slots := SMap.insert j x t.slots }

/-- Furrow index of the launch that runs on a core. -/
def Dev.teamFurrow (d : Dev) (c : Nat) : Nat := (d.core c).furrow

/-- The LAUNCH that a core runs, as records of its teams name it (R71): the descriptor in progress at its furrow. -/
def Dev.launchAt (d : Dev) (c : Nat) : At :=
  let t := d.core c
  let w := match (d.frw t.furrow).cur with | some i => (i.rtn, i.pos) | none => (0xFFFF, 0)
  ⟨furrowId t.furrow, t.tag, t.step, w.1, w.2⟩

/-- A team parks (R243): record, trace record with the LAUNCH's tag and place, interrupt. -/
def Dev.parkTeam (d : Dev) (c j : Nat) (x : Slot) (k : Park) : Dev :=
  let at_ := d.launchAt c
  let d := d.setSlot c j { x.still d.tb.time with park := some k, replay := none, step1 := false }
  let d := d.traceAt 2 trcPark at_ (leBytes 4 k.cause ++ leBytes 4 j ++ leBytes 4 x.team)
  d.irq irqParked

/-- Park causes (Table 11.7). -/
def pkAccess : Nat := 1
def pkMisaligned : Nat := 2
def pkIllegal : Nat := 3
def pkRegRange : Nat := 4
def pkNoProgress : Nat := 5
def pkRcv : Nat := 6
def pkBreak : Nat := 7
def pkStepped : Nat := 8
def pkFetch : Nat := 9

/-- The end of a team's instruction: it stays, and after a STEP action parks again (R244). -/
def Dev.retire (d : Dev) (c j : Nat) (x : Slot) : Dev :=
  let x := { x with replay := none }
  if x.step1 then
    match Slot.pick x.stack x with
    | some (_, pc, iss) => d.parkTeam c j x ⟨pkStepped, pc, 0, iss, iss⟩
    | none => d.setSlot c j x
  else d.setSlot c j x

/-! ### Waits -/

/-- The waiter goes on: a furrow's head holds its WAIT satisfied, which stops inserted work on its engine (R74); a team leaves its wait
instruction, which is an acquire that drops its core's L1 (R258). -/
def Dev.release (d : Dev) (w : Waiter) : Dev :=
  if w.team then
    let t := d.core w.unit
    match SMap.find t.slots w.slot with
    | some x =>
      (d.retire w.unit w.slot { x.progress d.tb.time with waiting := false }).dropL1 w.unit
    | none => d
  else (d.setFrw w.unit { d.frw w.unit with wait := .satisfied }).stopInserted w.unit

/-- Test the pending waits in arrival order; each consumes before the next tests (R57). -/
def Dev.serveGo (d : Dev) : List Waiter → Dev
  | [] => d
  | w :: ws =>
    if d.waitMet w then (((d.consume w).release w)).serveGo ws
    else
      let r := d.serveGo ws
      { r with waits := w :: r.waits }

def Dev.serve (d : Dev) : Dev :=
  let ws := d.waits
  ({ d with waits := [] }).serveGo ws

/-- A wait arrives at the unit and is tested (R57). -/
def Dev.arrive (d : Dev) (w : Waiter) : Dev := ({ d with waits := d.waits ++ [w] }).serve

/-- Drop the pending waits of a furrow or team. -/
def Dev.unwait (d : Dev) (team : Bool) (unit slot : Nat) : Dev :=
  { d with waits := d.waits.filter fun w => !(w.team == team && w.unit == unit && (!team || w.slot == slot)) }

def Dev.setFlag (d : Dev) (i : Nat) : Dev := ({ d with flags := d.flags.add i }).serve
def Dev.clearFlag (d : Dev) (i : Nat) : Dev := { d with flags := d.flags.del i }

/-- Replace a counter's value. -/
def Dev.setCtr (d : Dev) (j v : Nat) : Dev := ({ d with ctrs := SMap.put 0 d.ctrs j (mkW v) }).serve

/-- Add to a counter modulo 2^64 (R58, R252). -/
def Dev.addCtr (d : Dev) (j v : Nat) : Dev := d.setCtr j (d.ctr j + v)

/-- The declaration in force that covers a flag or counter (R34, log entry 24). -/
def Dev.declOf (d : Dev) (ctr : Bool) (i : Nat) : Option SyncDecl :=
  d.decls.find? fun x => x.ctr == ctr && decide (x.first ≤ i) && decide (i < x.first + x.count)

def Dev.declared (d : Dev) (ctr : Bool) (i : Nat) : Bool := (d.declOf ctr i).isSome

/-- Declared REMOTE by the admitted sheaf (R60). -/
def Dev.remoteOk (d : Dev) (ctr : Bool) (i : Nat) : Bool :=
  d.sheaf.isSome && (match d.declOf ctr i with | some x => x.remote | none => false)

/-- Declared HOST (R60). -/
def Dev.hostOk (d : Dev) (ctr : Bool) (i : Nat) : Bool := match d.declOf ctr i with | some x => x.host | none => false

/-- An atomic or store on a flag or counter (Table 12.3): operation 0 store, 1 exchange, 2 compare-and-swap (`v` the
comparand, `v2` the new value), 3 or, 4 and, 5 add. The width in bytes is 4 or 8. Answers the old value, or none where
the access is not one of the table's. -/
def Dev.syncOp (d : Dev) (ctr : Bool) (i op size v v2 : Nat) : Option (Dev × Nat) :=
  if ctr then
    let o := d.ctr i
    if size != 8 then none
    else if op = 0 then some (d.setCtr i v, o)
    else if op = 5 then some (d.addCtr i v, o)
    else if op = 2 then some (if o = v then d.setCtr i v2 else d, o)
    else none
  else if size != 4 && size != 8 then none
  else
    let o := b2n (d.flags.has i)
    let wr (d : Dev) (x : Nat) : Dev := if x = 1 then d.setFlag i else d.clearFlag i
    if op = 0 && decide (v < 2) then some (wr d v, o)
    else if op = 1 && decide (v < 2) then some (wr d v, o)
    else if op = 2 && decide (v < 2) && decide (v2 < 2) then some (if o = v then wr d v2 else d, o)
    else if op = 3 && v == 1 then some (wr d 1, o)
    else if op = 4 && v == 0 then some (wr d 0, o)
    else none

/-- Load of a flag or counter (Table 12.3). -/
def Dev.syncLoad (d : Dev) (ctr : Bool) (i size : Nat) : Option Nat :=
  if ctr then (if size = 8 then some (d.ctr i) else none)
  else if size = 4 || size = 8 then some (b2n (d.flags.has i)) else none

/-- What an offset in the synchronisation region names (Table 12.2). -/
def syncAt (off : Nat) : Option (Bool × Nat) :=
  if off < 0x80000 then some (false, off / 8)
  else if 0x10_0000 ≤ off && off < 0x11_0000 then some (true, (off - 0x10_0000) / 8)
  else none

/-! ### Step events -/

/-- Has the device's last STAMP operation of step `k` begun (R161)? -/
def Dev.stepLate (d : Dev) (k : Nat) : Bool :=
  match d.sheaf with
  | some s => decide (0 < s.nStamp) && decide (s.nStamp ≤ (d.seal k).stampBegun)
  | none => false

/-- An event of step `k` marks its slot (R160); one that comes after the device's last STAMP operation of the step has begun
sets LATE (R161). -/
def Dev.stepEvt (d : Dev) (k : Nat) (ovf nf : Bool) : Dev :=
  if k = noStep || !(ovf || nf) then d
  else
    let j := k % 4
    let v := d.reg HUB_STEP_EVT 0 j
    let v := if bitOf v 34 && bitsOf v 0 32 == k then v else k + 2 ^ 34
    let v := if ovf then setBits v 32 1 1 else v
    let v := if nf then setBits v 33 1 1 else v
    d.setReg HUB_STEP_EVT (if d.stepLate k then setBits v 35 1 1 else v) 0 j

/-- OVF and NF bits of step `k` as its slot holds them (R161). -/
def Dev.stepBits (d : Dev) (k : Nat) : Bool × Bool :=
  let v := d.reg HUB_STEP_EVT 0 (k % 4)
  if bitOf v 34 && bitsOf v 0 32 == k then (bitOf v 32, bitOf v 33) else (false, false)

/-- Source classes of R160. -/
inductive Src
  | acc | out | cvt | land
deriving DecidableEq, Repr

/-- Is a class enabled in HUB_LS_CTRL? -/
def Dev.srcOn (d : Dev) (c : Src) : Bool :=
  match c with
  | .acc => d.bit HUB_LS_CTRL HUB_LS_CTRL_SRC_ACC
  | .out => d.bit HUB_LS_CTRL HUB_LS_CTRL_SRC_OUT
  | .cvt => d.bit HUB_LS_CTRL HUB_LS_CTRL_SRC_CVT
  | .land => d.bit HUB_LS_CTRL HUB_LS_CTRL_SRC_LAND

/-- `sat` saturations of a class and `nf` non-finite events of step `k` (R160). -/
def Dev.numEvt (d : Dev) (c : Src) (k sat nf : Nat) : Dev := d.stepEvt k (decide (0 < sat) && d.srcOn c) (decide (0 < nf))

/-- Add to a 32-bit numeric counter with its MAX bit at 63 (R159). -/
def Dev.numCount (d : Dev) (r : RegDef) (u n : Nat) : Dev :=
  if n = 0 then d else
  let v := d.reg r u
  let c := bitsOf v 0 32 + n
  if 0xFFFFFFFF ≤ c then d.setReg r (setBits (setBits v 0 32 0xFFFFFFFF) 63 1 1) u else d.setReg r (setBits v 0 32 c) u

/-- Non-finite counters also have a FLAG at 62. -/
def Dev.nfCount (d : Dev) (r : RegDef) (u n : Nat) : Dev :=
  if n = 0 then d
  else
    let d := d.numCount r u n
    d.setReg r (setBits (d.reg r u) 62 1 1) u

end Sys2Proof.Machine
end

