-- ==== Sys2Proof/Machine/Seal.lean ====
section
/-! DEFINITION. The hub's part of the step seal: tokens, verdicts, the loss scale, the DONE round and the generation (R162 to R164,
R210 to R214, R221, R222). -/
namespace Sys2Proof.Machine
open Sys2Proof

/-- Verdict codes (Table 10.9). -/
def vUnknown : Nat := 1
def vCommit : Nat := 2
def vDiscard : Nat := 3
def vFault : Nat := 4

/-- Current LS and clean-step count (R162). -/
def Dev.lsNow (d : Dev) : Int := sgn (d.fld HUB_LS_STATE HUB_LS_STATE_EXP) 8

/-- J(k): HUB_GEN at START plus the COMMIT verdicts of earlier steps of this run (R210). -/
def Dev.jOf (d : Dev) (k : Nat) : Nat :=
  (d.gen0 + (d.seals.filter fun p => decide (p.1 < k) && p.2.verdict == vCommit).length) % 2 ^ 32

/-- SEALs of a step body. -/
def Dev.nSeal (d : Dev) : Nat := match d.sheaf with | some s => s.nSeal | none => 0
def Dev.nStamp (d : Dev) : Nat := match d.sheaf with | some s => s.nStamp | none => 0
def Dev.nUpd (d : Dev) : Nat := match d.sheaf with | some s => s.nUpd | none => 0

/-! ### Loss scale (R163) -/

/-- Store LS and the clean-step count. -/
def Dev.setLs (d : Dev) (l : Int) (n : Nat) : Dev :=
  { d.setReg HUB_LS_STATE (toTwos l 8 + (n % 2 ^ 32) <<< 32) with lsLast := (l, n, d.lsLast.2.2) }

/-- Loss scale after a halving or a clean step, from `(l, n)` (R163). -/
def Dev.lsStep (d : Dev) (l : Int) (n : Nat) (halve : Bool) : Dev :=
  if halve then
    (if l ≤ -16 then d.setFld HUB_LS_EVT HUB_LS_EVT_FLOOR 1 else d.stick HUB_LS_EVT HUB_LS_EVT_HALVED 1).setLs (max (-16) (l - 1)) 0
  else if d.lsLast.2.2 ≤ n + 1 then
    (if 24 ≤ l then d.setFld HUB_LS_EVT HUB_LS_EVT_CEIL 1 else d.stick HUB_LS_EVT HUB_LS_EVT_DOUBLED 1).setLs (min 24 (l + 1)) 0
  else d.setLs l (n + 1)

/-- A step commits: LS and count are copied with VALID (R163). -/
def Dev.lsCommit (d : Dev) : Dev :=
  d.setReg HUB_LS_COMMIT (toTwos d.lsLast.1 8 + 256 + (d.lsLast.2.1 % 2 ^ 32) <<< 32)

/-! ### Verdicts (R212) -/

/-- The verdict that a set of tokens shows, and its OVF (Table 10.4). -/
def verdictOf (ts : List Tok) : Nat × Bool :=
  let any (i : Nat) : Bool := ts.any fun t => bitOf t.bits i
  let same : Bool := ts.all fun t => ts.all fun u => t.jk == u.jk
  (if any 2 || !same then vFault else if any 1 then vDiscard else vCommit, any 0)

/-- Divisors of the headers of step `k` that were deposited. -/
def Dev.divisors (d : Dev) (k : Nat) : List Nat :=
  (d.harrow.map fun (p : Nat × Harrow) => (p.2.verds.filter fun q => q.2.step == k && q.2.state != 0).map fun q => q.2.d).flatten

/-- D of a VERDICT record: the divisor of the step's headers where they agree, else a free value (log entry 1). -/
def Dev.traceD (d : Dev) (k : Nat) : Nat :=
  match d.divisors k with
  | [] => 0
  | x :: t => if t.all (· == x) then x else Config.freeNat d.free 1 % 2 ^ 12

/-- Every harrow unit takes the verdict of step `k` for the headers it deposited (R212, R220). -/
def Dev.verdictHarrows (d : Dev) (k v : Nat) : Dev :=
  { d with harrow := d.harrow.map fun (p : Nat × Harrow) =>
      (p.1, { p.2 with verds := p.2.verds.map fun (q : Nat × HVerd) => if q.2.step == k && q.2.state == vUnknown then (q.1, { q.2 with state := v, ls := (SMap.get none d.ls k).getD d.lsLast.1 }) else q }) }

/-- A furrow whose SEAL of step `k` waits for the verdict is refused (R210); the job fault has the cause of its own. -/
def Dev.refuseSeals (d : Dev) (k : Nat) : Dev :=
  d.each (d.furrows.map (·.1)) fun d f =>
    match (d.frw f).cur with
    | some i =>
      if i.d.op = 0x501 && i.step == k then
        let d := d.elogEngine f 0 0x34 i.otag k
        (d.setFr f FRW_ERR (feRefused + (i.otag % 2 ^ 32) <<< 32)).setFrw f { d.frw f with cur := none, done := false, held := 0, wait := .untested }
      else d
    | none => d

/-- SEALs of step `k` in progress. -/
def Dev.sealsWaiting (d : Dev) (k : Nat) : Nat :=
  (d.furrows.filter fun (p : Nat × Furrow) => match p.2.cur with | some i => i.d.op == 0x501 && i.step == k | none => false).length

/-- A capture begins with the first COMMIT step of the run numbered HUB_SNAP.STEP or later (R222). -/
def Dev.captureBegin (d : Dev) (k : Nat) : Dev :=
  let a := d.fld HUB_SNAP HUB_SNAP_STEP
  if d.running && d.snap && a != 0xFFFFFFFF && decide (a ≤ k) && d.capture.isNone && !d.bit HUB_SNAP HUB_SNAP_DONE then
    { d with capture := some k }
  else d

/-- The effect of step `k`'s final verdict on the hub (R163, R212, R213). -/
def Dev.applyVerdict (d : Dev) (k v : Nat) (ovf : Bool) (time : Nat) : Dev :=
  let d := (d.setSeal k { d.seal k with verdict := v, sealtime := time }).setReg HUB_SEALTIME time
  let d := if d.fld HUB_SEAL HUB_SEAL_STEP = k then d.setFld HUB_SEAL HUB_SEAL_VERDICT v else d
  let d := (d.traceHub trcVerdict 0 k (leBytes 4 k ++ leBytes 4 v ++ leBytes 4 (d.traceD k))).fresh.verdictHarrows k v
  if v = vFault then
    let n := d.sealsWaiting k
    let d := (d.refuseSeals k).jobFault { cause := jfSeal, step := k, detail := 0x34, kind := kHub }
    d.stick ERR_FAULT_U ERR_FAULT_U_MORE n
  else
    let d := d.lsStep d.lsLast.1 d.lsLast.2.1 (v == vDiscard || ovf)
    let d := { d with ls := SMap.put none d.ls (k + 2) (some d.lsLast.1) }
    if v = vCommit then ((d.lsCommit.setFld HUB_SEAL HUB_SEAL_PEND 1)).captureBegin k else d

/-! ### The DONE round (R214) -/

/-- Steps that committed and whose DONE round is incomplete. -/
def Dev.pendSteps (d : Dev) : Bool := d.seals.any fun p => p.2.verdict == vCommit && !p.2.adv

/-- A capture of step `k` is complete (R222). -/
def Dev.captureDone (d : Dev) (k gen : Nat) : Dev :=
  if d.capture = some k then
    (({ d with capture := none }.setFld HUB_SNAP HUB_SNAP_DONE 1).setReg HUB_SNAP_GEN gen).irq irqSnapshot
  else d

/-- With DONE from every device, a COMMIT verdict advances HUB_GEN by one and clears PEND (R214). -/
def Dev.doneGo (d : Dev) (k : Nat) : Dev :=
  let x := d.seal k
  if x.verdict == vCommit && !x.adv && x.doneSent && (x.peers.all fun p => p == d.devId || x.dones.has p) then
    let g := d.fld HUB_GEN HUB_GEN_GEN
    let d := (d.setSeal k { x with adv := true }).setFld HUB_GEN HUB_GEN_GEN (g + 1)
    let d := if d.pendSteps then d else d.setFld HUB_SEAL HUB_SEAL_PEND 0
    (d.irq irqGeneration).captureDone k (d.jOf k)
  else d

/-- The hub sends DONE(k) after the device's last UPD of the step, to the devices its device token went to (R214). -/
def Dev.doneSend (d : Dev) (k : Nat) : Dev :=
  let x := d.seal k
  if !x.doneSent && (x.verdict == vCommit || x.verdict == vDiscard) && decide (d.nUpd ≤ x.upds) && d.sheaf.isSome && !d.job.faulted then
    let d := d.each (x.emit.filter fun p => p != d.devId) fun d p => d.sendTok { d.mkTok p 2 with step := k }
    (d.setSeal k { d.seal k with doneSent := true }).doneGo k
  else d

/-- An UPD of step `k` completed. -/
def Dev.updDone (d : Dev) (k : Nat) : Dev :=
  if k = noStep then d else (d.setSeal k { d.seal k with upds := (d.seal k).upds + 1 }).doneSend k

/-- A STAMP operation of step `k` completed (R211). -/
def Dev.stampEnd (d : Dev) (k : Nat) : Dev :=
  if k = noStep then d else d.setSeal k { d.seal k with stampDone := (d.seal k).stampDone + 1 }

/-! ### Tokens (R211, R212) -/

/-- First step of the run whose verdict is not final. -/
def Dev.nextVerdict (d : Dev) : Nat → Nat → Nat
  | 0, k => k
  | n + 1, k => if 2 ≤ (d.seal k).verdict then d.nextVerdict n (k + 1) else k

/-- Does the device hold its own token of step `k` and one of every device in its peer tables (R212)? -/
def Dev.hasTokens (d : Dev) (k : Nat) : Bool :=
  let x := d.seal k
  x.sent && x.peers.all fun p => p == d.devId || x.toks.any fun t => t.src == p

/-- Form the verdicts that can be formed, in step order (R163, R212). -/
def Dev.verdictGo (d : Dev) : Nat → Dev
  | 0 => d
  | n + 1 =>
    let k := d.nextVerdict (d.seals.length + 1) 0
    if d.hasTokens k then
      let x := d.seal k
      let v := verdictOf (x.toks.filter fun t => t.src == d.devId || x.peers.has t.src)
      let t := (x.toks.map (·.time)).foldl max 0
      ((d.applyVerdict k v.1 v.2 t).doneSend k).verdictGo n
    else d

def Dev.verdicts (d : Dev) : Dev := d.verdictGo (d.seals.length + 1)

/-- SEAL_TOKEN_SEND: the device token of step `k`, once every SEAL of the step has deposited and every STAMP operation of
the step has completed (R211). -/
def Dev.sendSeal (d : Dev) (k : Nat) : Dev :=
  let x := d.seal k
  if d.running && !x.sent && decide (0 < d.nSeal) && decide (d.nSeal ≤ x.dep) && decide (d.nStamp ≤ x.stampDone) then
    let t : Tok := { d.mkTok d.devId 1 with bits := b2n x.ovf + 2 * b2n x.nf + 4 * b2n x.fault, step := k, jk := d.jOf k }
    let d := d.each (x.emit.filter fun p => p != d.devId) fun d p => d.sendTok { t with dst := p }
    (d.setSeal k { d.seal k with sent := true, jk := t.jk, toks := x.toks ++ [t] }).verdicts
  else d

/-- A SEAL token is recorded towards its step's verdict, one per device (R212). -/
def Dev.takeSeal (d : Dev) (t : Tok) : Dev :=
  let x := d.seal t.step
  if x.toks.any fun u => u.src == t.src then d else (d.setSeal t.step { x with toks := x.toks ++ [t] }).verdicts

/-- A DONE token is recorded towards its step's generation advance (R214). -/
def Dev.takeDone (d : Dev) (t : Tok) : Dev :=
  (d.setSeal t.step { d.seal t.step with dones := (d.seal t.step).dones.add t.src }).doneGo t.step

/-- A SEAL deposits its header in the verdict accumulator of step `k`; with the last of them the step is closed on this
device and its verdict unknown (R210, Table 10.9). -/
def Dev.deposit (d : Dev) (k : Nat) (ovf nf fault emit : Bool) (peers : List Nat) : Dev :=
  let x := d.seal k
  let ps := peers.foldl NSet.add x.peers
  let es := if emit then peers.foldl NSet.add x.emit else x.emit
  let d := d.setSeal k { x with
    dep := x.dep + 1, ovf := x.ovf || ovf, nf := x.nf || nf, fault := x.fault || fault, peers := ps, emit := es }
  if x.dep + 1 = d.nSeal then (d.setFld HUB_SEAL HUB_SEAL_STEP k).setFld HUB_SEAL HUB_SEAL_VERDICT vUnknown else d

/-- FORCE_COMMIT: COMMIT is applied to a step whose verdict is unknown; there is no effect and an error response otherwise
(R221). The step's OVF is what the tokens held show. -/
def Dev.forceCommit (d : Dev) : Dev :=
  if d.fld HUB_SEAL HUB_SEAL_VERDICT = vUnknown then
    let k := d.fld HUB_SEAL HUB_SEAL_STEP
    (d.applyVerdict k vCommit (verdictOf (d.seal k).toks).2 (((d.seal k).toks.map (·.time)).foldl max 0)).emit .ok
  else d.emit .err

end Sys2Proof.Machine
end

