-- ==== Sys2Proof/Machine/Furrow.lean ====
section
/-! DEFINITION. Furrows: fetch and resolution (R62 to R67), the begin of a descriptor with its waits and gate (R55, R56,
R164, R307), its completion, SIGNAL and deadlines (R36, R59), the loader's appends (R31, R32, R64), the end of the job. -/
namespace Sys2Proof

/-! ### Descriptor fields -/

def Desc.trcBegin (x : Desc) : Bool := bitOf x.ctrl 0
def Desc.trcEnd (x : Desc) : Bool := bitOf x.ctrl 1
def Desc.irq (x : Desc) : Bool := bitOf x.ctrl 2
def Desc.rel (x : Desc) : Bool := bitOf x.ctrl 3
def Desc.subst (x : Desc) (i : Nat) : Bool := bitOf x.ctrl (4 + i)

/-- Descriptors of the bursts in flight. -/
def Furrow.inflight (x : Furrow) : Nat := (x.infl.map List.length).foldl (· + ·) 0

/-- Step number of ring index `n` (R31, R71). -/
def FrwImg.stepAt (g : FrwImg) (bodies n : Nat) : Nat :=
  if n < g.nPro || g.nBody = 0 then 0xFFFF_FFFF else if n < g.nPro + bodies * g.nBody then (n - g.nPro) / g.nBody else 0xFFFF_FFFF

/-- Phase of an item: 0 prologue, 1 step body, 2 epilogue. -/
def FrwImg.phaseOf (g : FrwImg) (i : FItem) : Nat := if i.step != 0xFFFF_FFFF then 1 else if i.n < g.nPro then 0 else 2

/-- Furrows with descriptors in a phase. -/
def Sheaf.furrowsIn (s : Sheaf) (ph : Nat) : Nat :=
  (s.frws.filter fun g => (if ph = 0 then g.nPro else if ph = 1 then g.nBody else g.nEpi) != 0).length

/-- Is ring index `n` the last of its phase's copy? -/
def FrwImg.lastOf (g : FrwImg) (bodies n : Nat) : Bool :=
  if n < g.nPro then n + 1 == g.nPro
  else if n < g.nPro + bodies * g.nBody then (n - g.nPro) % g.nBody + 1 == g.nBody
  else n + 1 == g.nPro + bodies * g.nBody + g.nEpi

end Sys2Proof

namespace Sys2Proof.Machine
open Sys2Proof

/-- WAIT: kind, consume, index, threshold (Table 3.3). -/
def waitKind (w : Nat) : Nat := bitsOf w 0 2
def waitConsume (w : Nat) : Bool := bitOf w 2
def waitIndex (w : Nat) : Nat := bitsOf w 8 16
def waitThr (w : Nat) : Nat := bitsOf w 24 40

/-- SIGNAL: kind, index, device, value (Table 3.4). -/
def sigKind (w : Nat) : Nat := bitsOf w 0 2
def sigIndex (w : Nat) : Nat := bitsOf w 8 16
def sigDevice (w : Nat) : Nat := bitsOf w 24 16
def sigValue (w : Nat) : Nat := bitsOf w 40 24

/-! ### Routines and resolution (R65, R66) -/

/-- Where a routine's descriptors are read: a body in library memory, or an address in the library store. -/
def Dev.routineAt (d : Dev) (id : Nat) : Option (List Desc ⊕ Nat × Nat) :=
  if bitOf id 15 then
    match d.sheaf with
    | some s => (s.store.find? fun r => r.id == id).map fun r => .inr (r.addr, r.count)
    | none => none
  else (d.boot.lib.find? fun r => r.id == id).map fun r => .inl r.body

/-- Up to `n` descriptors of a routine from a position. -/
def Dev.routineDescs (d : Dev) (id pos n : Nat) : List Desc :=
  match d.routineAt id with
  | some (.inl b) => (b.drop pos).take n
  | some (.inr (a, c)) => (List.range (min n (c - pos))).map fun i => Desc.ofBytes (d.read (a + 64 * (pos + i)) 64)
  | none => []

/-- Argument j of a CALL. -/
def callArg (c : Desc) (j : Nat) : Word := match j with | 0 => c.w1 | 1 => c.w2 | 2 => c.w3 | _ => c.w4

/-- One operand word with its SUBST bit: ARGj plus the signed 62-bit offset, modulo 2^64 (R66). -/
def substWord (c : Desc) (on : Bool) (w : Word) : Word :=
  if on then callArg c (w.toNat / 2 ^ 62) + BitVec.ofInt 64 (sgn (w.toNat % 2 ^ 62) 62) else w

/-- INDEX of a WAIT or SIGNAL moved by the base of its kind (1 flag, 2 counter). -/
def relIndex (w : Word) (f c : Nat) : Word :=
  let x := w.toNat
  let b := if bitsOf x 0 2 = 1 then f else if bitsOf x 0 2 = 2 then c else 0
  BitVec.ofNat 64 (setBits x 8 16 (bitsOf x 8 16 + b))

/-- A routine descriptor resolved in the innermost CALL's frame (R66). -/
def resolve (fr : Frame) (x : Desc) : Desc :=
  let y := { x with
    w0 := substWord fr.call (x.subst 0) x.w0, w1 := substWord fr.call (x.subst 1) x.w1
    w2 := substWord fr.call (x.subst 2) x.w2, w3 := substWord fr.call (x.subst 3) x.w3
    w4 := substWord fr.call (x.subst 4) x.w4 }
  if x.rel then { y with wait := relIndex x.wait fr.fBase fr.cBase, sig := relIndex x.sig fr.fBase fr.cBase } else y

def callRoutine (c : Desc) : Nat := bitsOf c.w0.toNat 0 16
def callFBase (c : Desc) : Nat := bitsOf c.w0.toNat 16 16
def callCBase (c : Desc) : Nat := bitsOf c.w0.toNat 32 13

/-- The frame that a resolved CALL pushes; a nested CALL with REL adds its caller's bases to its own (R66). -/
def pushFrame (frames : List Frame) (c : Desc) (rtn pos otag n step : Nat) : Frame :=
  match frames with
  | fr :: _ =>
    if c.rel then ⟨rtn, pos, c, callFBase c + fr.fBase, callCBase c + fr.cBase, fr.otag, fr.n, fr.step⟩
    else ⟨rtn, pos, c, callFBase c, callCBase c, fr.otag, fr.n, fr.step⟩
  | [] => ⟨rtn, pos, c, callFBase c, callCBase c, otag, n, step⟩

/-! ### Fetch (R62, R63) -/

/-- The sheaf's entry for a furrow. -/
def Dev.frwImg (d : Dev) (f : Nat) : Option FrwImg :=
  match d.sheaf with
  | some s => s.frws.find? fun x => x.f == f
  | none => none

/-- Fetch up to `k` descriptors from the current source, up to and including the next CALL or RET, which move the source
(R66, R67). The furrow is updated; HEAD is answered with the burst. -/
def Dev.fetchRun (d : Dev) (g : FrwImg) : Nat → Furrow → Nat → Nat → List FItem × Furrow × Nat
  | 0, x, head, _ => ([], x, head)
  | k + 1, x, head, tail =>
    if x.rtn = 0xFFFF then
      if tail ≤ head then ([], x, head)
      else
        let a := g.ring + 64 * (head % 2 ^ (g.log2 - 6))
        let y := Desc.ofBytes (d.read a 64)
        let st := g.stepAt x.bodies head
        let it : FItem := ⟨y, st, head, 0xFFFF, 0, y.tag, 0, Desc.zero, 0xFFFF, 0⟩
        if y.op = opCall then
          let fr := pushFrame x.frames y 0xFFFF 0 y.tag head st
          ([it], { x with rtn := callRoutine y, pos := 0, frames := fr :: x.frames }, head + 1)
        else
          let r := d.fetchRun g k x (head + 1) tail
          (it :: r.1, r.2)
    else
      match x.frames, d.routineDescs x.rtn x.pos 1 with
      | fr :: rest, [y0] =>
        let y := resolve fr y0
        let it : FItem := ⟨y, fr.step, fr.n, x.rtn, x.pos, fr.otag, x.frames.length, fr.call, fr.rtn, fr.pos - 1⟩
        if y.op = opCall then
          let nf := pushFrame x.frames y x.rtn (x.pos + 1) fr.otag fr.n fr.step
          ([it], { x with rtn := callRoutine y, pos := 0, frames := nf :: x.frames }, head)
        else if y.op = opRet then ([it], { x with rtn := fr.rtn, pos := fr.pos, frames := rest }, head)
        else
          let r := d.fetchRun g k { x with pos := x.pos + 1 } head tail
          (it :: r.1, r.2)
      | _, _ => ([], x, head)

/-- Address in HBM of a fetched descriptor: in its furrow's ring or in the library store; none in library memory. -/
def Dev.itemAddr (d : Dev) (g : FrwImg) (i : FItem) : Option Nat :=
  if i.rtn = 0xFFFF then some (g.ring + 64 * (i.n % 2 ^ (g.log2 - 6)))
  else match d.routineAt i.rtn with | some (.inr (a, _)) => some (a + 64 * i.pos) | _ => none

/-- Issue bursts while fewer than 256 descriptors are held and at least 64 credits are free (R62); at most eight fit. -/
def Dev.issueGo (d : Dev) (f : Nat) (g : FrwImg) : Nat → Dev
  | 0 => d
  | n + 1 =>
    let x := d.frw f
    if 256 ≤ x.fifo.length || 512 < x.fifo.length + x.inflight + 64 then d
    else
      let r := d.fetchRun g 64 x (d.ff f FRW_HEAD FRW_HEAD_HEAD) (d.ff f FRW_TAIL FRW_TAIL_TAIL)
      let at_ := r.1.filterMap fun i => d.itemAddr g i
      if r.1.isEmpty then d
      else if let some w := at_.findSome? fun a => d.ueIn a 64 then d.readUE w reqDesc 0 noStep
      else (((d.each at_ fun d a => d.corrects a 64).setFrw f { r.2.1 with infl := x.infl ++ [r.1] }).setFr f FRW_HEAD r.2.2).issueGo f g n

/-- The fetcher of a furrow of the running sheaf. -/
def Dev.issue (d : Dev) (f : Nat) : Dev :=
  match d.frwImg f with
  | some g => if d.running && d.frwErr f == 0 then d.issueGo f g 512 else d
  | none => d

/-- FETCH_BURST_ARRIVAL: the oldest burst enters the FIFO. -/
def Dev.burstArrive (d : Dev) (f : Nat) : Dev :=
  let x := d.frw f
  match x.infl with
  | b :: rest => (d.setFrw f { x with fifo := x.fifo ++ b, infl := rest }).issue f
  | [] => d

/-! ### The loader's appends (R31, R32, R64) -/

/-- The job's last step (R32): fixed by FINISH, else STEPS - 1, or 0xFFFF_FFFE when STEPS is 0. -/
def Dev.lastStep (d : Dev) : Nat :=
  match d.sheaf with
  | some s =>
    let m := if s.steps = 0 then 0xFFFFFFFE else s.steps - 1
    match d.job.last with
    | some l => min l m
    | none => m
  | none => 0

/-- Copy `n` descriptors from a source copy to the end of a furrow's ring. An uncorrectable word of the copy is a device fault (R299, R354). -/
def Dev.appendRing (d : Dev) (f : Nat) (g : FrwImg) (src n : Nat) : Dev :=
  match d.ueIn src (64 * n) with
  | some w => d.readUE w reqHw 0 noStep
  | none =>
  let tail := d.ff f FRW_TAIL FRW_TAIL_TAIL
  let d := (List.range n).foldl (fun d i =>
    (d.corrects (src + 64 * i) 64).write (g.ring + 64 * ((tail + i) % 2 ^ (g.log2 - 6))) (d.read (src + 64 * i) 64)) d
  d.setFr f FRW_TAIL (tail + n)

/-- Has every furrow with a step body been given the job's last one, or is there none (R31)? -/
def Dev.bodiesDone (d : Dev) : Bool :=
  match d.sheaf with
  | some s => s.frws.all fun g => g.nBody == 0 || decide (d.lastStep < (d.frw g.f).bodies)
  | none => false

/-- The next append of a furrow, if one is due: `start` is START, which places two bodies at once; later ones wait for the
head to pass the end of the body before the last one placed (R64). -/
def Dev.appendOne (d : Dev) (g : FrwImg) : Dev :=
  let x := d.frw g.f
  let head := d.ff g.f FRW_HEAD FRW_HEAD_HEAD
  if x.epi then d
  else if g.nBody = 0 then
    (if d.bodiesDone then (d.appendRing g.f g g.srcEpi g.nEpi).setFrw g.f { x with epi := true } else d)
  else
    let due := decide (x.bodies < 2) || decide (g.nPro + (x.bodies - 1) * g.nBody ≤ head)
    if !due then d
    else if x.bodies ≤ d.lastStep then (d.appendRing g.f g g.srcBody g.nBody).setFrw g.f { x with bodies := x.bodies + 1 }
    else (d.appendRing g.f g g.srcEpi g.nEpi).setFrw g.f { x with epi := true }

/-- LOADER_APPEND: an append that is due, after which the fetcher goes on. Furrows without a step body follow once the last
body is placed everywhere (R31). -/
def Dev.append (d : Dev) (f : Nat) : Dev :=
  match d.frwImg f with
  | some g =>
    if d.running then (d.appendOne g).issue f else d
  | none => d

/-- At START every ring gets its first two bodies, or as many as the job has with the epilogue after them (R64). -/
def Dev.appendStart (d : Dev) (s : Sheaf) : Dev :=
  let d := d.each s.frws fun d g => if g.nBody = 0 then d else ((d.appendOne g).appendOne g)
  let d := d.each s.frws fun d g =>
    if g.nBody != 0 && decide (d.lastStep < (d.frw g.f).bodies) && decide ((d.frw g.f).bodies < 2) then d.appendOne g else d
  d.each s.frws fun d g => if g.nBody = 0 then d.appendOne g else d

/-! ### Loss scale of a descriptor (R163 to R165) -/

/-- Has every step of the run had its verdict (R164)? A sheaf without SEALs has none to wait for. -/
def Dev.allVerdicts (d : Dev) : Bool := d.nSeal == 0 || decide (d.lastStep < d.nextVerdict (d.seals.length + 1) 0)

/-- LS of a descriptor: LS(k) on a step, the starting value in the prologue, the value after every verdict in the
epilogue; none while the verdict of step k - 2, or in the epilogue any verdict, is awaited (R163, R164). -/
def Dev.lsFor (d : Dev) (g : FrwImg) (i : FItem) : Option Int :=
  match g.phaseOf i with
  | 0 => SMap.get none d.ls 0
  | 1 => SMap.get none d.ls i.step
  | _ => if d.allVerdicts then some d.lsNow else none

/-- The LS token codes (R165). -/
def lsTokUp : Nat := 0x7FC04C53
def lsTokDown : Nat := 0x7FC04C49

/-- The 32-bit field that may carry an LS token: SCALAR of a tilth descriptor but RNG.DROP, SCALE of an MM. -/
def scaleField (x : Desc) : Option Nat :=
  if isMm x.op then some (bitsOf x.w3.toNat 32 32)
  else if isTilth x.op && x.op != opRng then some (bitsOf x.w0.toNat 32 32)
  else none

def hasLsTok (x : Desc) : Bool := scaleField x == some lsTokUp || scaleField x == some lsTokDown

/-- STAMP of an HDL.ACC. -/
def isStamp (x : Desc) : Bool := x.op == opAcc && bitOf x.w4.toNat 7

/-- Does the descriptor use the loss scale (R164, R213)? -/
def usesLs (x : Desc) : Bool := hasLsTok x || x.op == opUpd || isStamp x

/-- FP32 code of 2^e for -126 ≤ e ≤ 127. -/
def f32Pow2 (e : Int) : Nat := ((e + 127).toNat % 256) * 2 ^ 23

/-- Replace an LS token by its power of two (R165). -/
def substLs (x : Desc) (ls : Int) : Desc :=
  match scaleField x with
  | some v =>
    if v = lsTokUp || v = lsTokDown then
      let c := f32Pow2 (if v = lsTokUp then ls else -ls)
      if isMm x.op then { x with w3 := BitVec.ofNat 64 (setBits x.w3.toNat 32 32 c) }
      else { x with w0 := BitVec.ofNat 64 (setBits x.w0.toNat 32 32 c) }
    else x
  | none => x

/-! ### Power gate (R307, Table 15.2) -/

/-- Does the descriptor pass the gate now: the gate is open, it is the first there, and the fill in place with the microsecond's slew allowance
covers its estimate (R307, R310)? -/
def Dev.gatePass (d : Dev) (f e : Nat) : Bool :=
  !d.gov.closed && (match d.gov.gate with | [] => true | (g, _) :: _ => g == f) && decide (e ≤ d.gov.fill + d.gov.allow)

/-- It passes: fill elsewhere is withdrawn to cover it, then the slew allowance is used; a wait adds to PWR_GATE (R307). -/
def Dev.gateTake (d : Dev) (f e : Nat) : Dev :=
  let w := match d.gov.gate.find? fun p => p.1 == f with | some p => d.tb.time - p.2 | none => 0
  let d := if w = 0 then d else d.bump PWR_GATE PWR_GATE_NS w
  let q := d.withdraw e
  { q with gov := { q.gov with
    allow := q.gov.allow + (d.gov.fill - q.gov.fill) - e, gate := q.gov.gate.filter fun p => p.1 != f } }

/-- It waits at the gate. -/
def Dev.gateWait (d : Dev) (f : Nat) : Dev :=
  if d.gov.gate.any fun p => p.1 == f then d
  else { d with gov := { d.gov with gate := d.gov.gate ++ [(f, d.tb.time)] } }

/-! ### Deadlines (R36) -/

/-- Key of a phase's completion count. -/
def phaseKey (ph step : Nat) : Nat := if ph = 1 then step else if ph = 0 then 2 ^ 32 else 2 ^ 32 + 1

/-- Step of an interval: of a step-body deadline the step, otherwise none. -/
def ivalStep (ph step : Nat) : Nat := if ph = 1 then step else noStep

/-- Open an interval once; those of the prologue include the sow-in delay (R36), for which they start that much earlier. -/
def Dev.openIval (d : Dev) (x : Ddl) (k : Nat) : Dev :=
  if d.job.ivals.any fun v => v.id == x.id && v.k == k then d
  else
    let t := if x.phase = 0 then d.tb.time - (d.job.sowEnd - d.job.start) else d.tb.time
    { d with job := { d.job with ivals := d.job.ivals ++ [⟨x.id, k, t, false⟩] } }

/-- The bound has passed: a LATE breach, once per interval (R49). -/
def Dev.lateIval (d : Dev) (x : Ddl) (k : Nat) : Dev :=
  match d.job.ivals.find? fun v => v.id == x.id && v.k == k with
  | some v =>
    if v.late || d.tb.time ≤ v.start + x.bound then d
    else
      let d := d.breach brLate x.id (if x.kind = 1 then { step := k } else { furrow := x.ef, tag := x.etag, step := k })
      { d with job := { d.job with ivals := d.job.ivals.map fun u => if u.id == x.id && u.k == k then { u with late := true } else u } }
  | none => d

/-- Close an interval; one that ends past its bound is late. -/
def Dev.closeIval (d : Dev) (x : Ddl) (k : Nat) : Dev :=
  let d := d.lateIval x k
  { d with job := { d.job with ivals := d.job.ivals.filter fun v => !(v.id == x.id && v.k == k) } }

/-- Deadlines that a begin starts: those whose START it is, and the STEP deadlines of its phase. -/
def Dev.beginDdls (d : Dev) (f : Nat) (i : FItem) (ph : Nat) : Dev :=
  match d.sheaf with
  | some s => d.each s.ddls fun d x =>
    if x.phase = ph && (x.kind = 1 || (i.depth == 0 && x.sf == furrowId f && x.stag == i.d.tag)) then
      d.openIval x (ivalStep ph i.step)
    else d
  | none => d

/-- Deadlines that a completion ends: those whose END it is. -/
def Dev.endDdls (d : Dev) (f tag ph step : Nat) : Dev :=
  match d.sheaf with
  | some s => d.each s.ddls fun d x =>
    if x.kind != 1 && x.phase = ph && x.ef == furrowId f && x.etag == tag then d.closeIval x (ivalStep ph step) else d
  | none => d

/-- A furrow completed its last descriptor of a phase: the STEP deadlines end when every furrow has (R36). -/
def Dev.phaseEnd (d : Dev) (ph step : Nat) : Dev :=
  match d.sheaf with
  | some s =>
    let n := SMap.get 0 d.job.phaseDone (phaseKey ph step) + 1
    let d := { d with job := { d.job with phaseDone := SMap.put 0 d.job.phaseDone (phaseKey ph step) n } }
    if n < s.furrowsIn ph then d
    else d.each s.ddls fun d x => if x.kind = 1 && x.phase = ph then d.closeIval x (ivalStep ph step) else d
  | none => d

/-! ### Begin (R55) -/

/-- Source class and position fields of a furrow's trace record (R71, Table 19.7). -/
def Dev.traceItem (d : Dev) (f : Nat) (kind : Nat) (i : FItem) (data : List Byte) : Dev :=
  let fl := b2n (i.d.op == opMmBx) + 4 * b2n (i.rtn != 0xFFFF)
  d.trace (furrowType f) kind fl (furrowId f) i.otag i.step i.rtn i.pos data

/-- The head's WAIT is tested, once, as it arrives at the synchronisation unit (R56, R57). -/
def Dev.testWait (d : Dev) (f : Nat) (i : FItem) : Dev :=
  let x := d.frw f
  let w := i.d.wait.toNat
  match x.wait with
  | .untested =>
    if waitKind w = 0 then (d.setFrw f { x with wait := .satisfied }).stopInserted f
    else
      (d.setFrw f { x with wait := .pending }).arrive
        ⟨false, f, 0, waitKind w == 2, waitIndex w, if waitKind w = 2 then waitThr w else 0, waitConsume w⟩
  | _ => d

/-- The governor's running phase moves on with the newest phase or step begun (R306): 0 is the prologue, k + 1 step k. -/
def Dev.phaseAnchor (d : Dev) (ph step : Nat) : Dev :=
  let n := if ph = 0 then 0 else if ph = 1 then step + 1 else 2 ^ 33
  if d.gov.phase < n then { d with gov := { d.gov with phase := n, phaseT0 := d.tb.time } } else d

/-- FRW_CUR and FRW_CUR_POS show a descriptor: also a head that waits (R71, Table 3.11, log entry 25). -/
def Dev.showItem (d : Dev) (f : Nat) (i : FItem) : Dev :=
  (d.setFr f FRW_CUR (i.otag % 2 ^ 32 + (i.step % 2 ^ 32) <<< 32)).setFr f FRW_CUR_POS (i.rtn % 2 ^ 16 + (i.pos % 2 ^ 16) <<< 16)

/-- The head begins: it leaves the FIFO, its LS token is replaced, the registers and the trace show it (R71, R165). -/
def Dev.beginItem (d : Dev) (f : Nat) (i : FItem) (g : FrwImg) : Dev :=
  let d := d.stopInserted f
  let x := d.frw f
  let i := match d.lsFor g i with | some l => { i with d := substLs i.d l } | none => i
  let d := d.setFrw f { x with
    fifo := x.fifo.drop 1, wait := .untested, cur := some i, t0 := d.tb.time, bits := d.stepBits i.step, done := false, held := 0
    verdictWait := false }
  let d := d.showItem f i
  let d := if i.d.trcBegin then d.traceItem f trcBegin i [] else d
  let d := if opMmF ≤ i.d.op && i.d.op ≤ opMmBx then
      (match d.physOf (furrowUnit f) with | some p => d.setFld MXA_STATUS MXA_STATUS_TAG i.otag p | none => d)
    else d
  let ph := g.phaseOf i
  let d := if isStamp i.d && i.step != noStep then
      d.setSeal i.step { d.seal i.step with stampBegun := (d.seal i.step).stampBegun + 1 }
    else d
  ((d.beginDdls f i ph).phaseAnchor ph i.step).issue f

/-- Does the furrow's head use the loss scale and await a verdict (R164)? -/
def Dev.awaitsVerdict (d : Dev) (f : Nat) : Bool :=
  match d.frwImg f, (d.frw f).fifo with
  | some g, i :: _ => (d.frw f).cur.isNone && usesLs i.d && (d.lsFor g i).isNone
  | _, _ => false

/-- DESCRIPTOR_BEGIN: the head is tested and begins when its predecessor has completed, its WAIT is satisfied, the verdict
it needs is known, sow-in is over and the gate lets it pass (R43, R55, R75, R164, R307). -/
def Dev.begin_ (d : Dev) (f : Nat) : Dev :=
  let d := d.issue f
  match d.frwImg f, (d.frw f).fifo with
  | some g, i :: _ =>
    if !d.running || d.frwErr f != 0 || (d.frw f).cur.isSome || d.ff f FRW_CTRL FRW_CTRL_HOLD != 0 then d
    else if d.tb.time < d.job.sowEnd then d
    else
      let d := d.testWait f i
      let late := usesLs i.d && (d.lsFor g i).isNone
      let d := d.setFrw f { d.frw f with verdictWait := late }
      if (d.frw f).wait != .satisfied || late then d.showItem f i
      else
        let e := estimate f i.d
        if d.gatePass f e then (d.gateTake f e).beginItem f i g
        else d.gateWait f
  | _, _ => d

/-! ### SIGNAL (R58 to R60) -/

/-- Does commands' flow wait for a route epoch (R283)? -/
def Dev.quiesced (d : Dev) : Bool := d.bit HUB_EPOCH HUB_EPOCH_QUIESCED

/-- Is a SIGNAL's target another device? -/
def Dev.sigRemote (d : Dev) (w : Nat) : Bool := sigKind w != 0 && sigDevice w != 0xFFFF && sigDevice w != d.devId

/-- Stop a furrow whose descriptor has completed: its SIGNAL was refused (R60). -/
def Dev.failSignal (d : Dev) (f tag step : Nat) : Dev := d.failCur f feSignal tag step feSignal

/-- Perform a SIGNAL with the value it adds (R58); a remote one leaves as a command, or is refused at the origin when no
route or no UP port takes it (R282). -/
def Dev.signal (d : Dev) (f tag step w v : Nat) : Dev :=
  if sigKind w = 0 then d
  else if d.sigRemote w then
    let (d, xid) := d.newXid
    let c : Cmd := { Cmd.zero with
      op := if sigKind w = 1 then 4 else 5, src := d.devId, dst := sigDevice w, addr := sigIndex w, bytes := v, tag := tag
      jobId := d.jobId, xid := xid }
    match d.egress (sigDevice w) d.devId (sigIndex w) with
    | .up p => { d.sendBy p c [] with xacts := d.xacts ++ [⟨xid, .signal f step, sigDevice w, p, c⟩] }
    | .down p => (d.elogHdl p (sigIndex w) 0x60 tag step).failSignal f tag step
    | .noRoute => (d.elogHdl (6 * routeDie (d.routeEntry (sigDevice w))) (sigIndex w) 0x63 tag step).failSignal f tag step
  else if sigKind w = 1 then d.setFlag (sigIndex w)
  else d.addCtr (sigIndex w) v

/-! ### Completion (R59, R313) -/

/-- Every furrow of the sheaf has completed its epilogue. -/
def Dev.allFinished (d : Dev) (s : Sheaf) : Bool := s.frws.all fun g => d.frwFinished g.f

/-- The job ends with its last epilogue (R25, R313): ramp-down begins and an END token goes to the tally. -/
def Dev.jobEnd (d : Dev) : Dev :=
  match d.sheaf with
  | some s =>
    if d.running && d.allFinished s then
      let d := ((d.setFld ADM_STATUS ADM_STATUS_RUNNING 0).setFld ADM_STATUS ADM_STATUS_ADMITTED 0).markKept.clearMarks
      let d := { d with
        sheaf := none, job := { d.job with ivals := [] }, mgmt := { d.mgmt with meas5 := [] }
        gov := { d.gov with ramp := true, active := false } }
      let d := (d.setFld PWR_STATUS PWR_STATUS_RAMP_DOWN 1).setFld PWR_STATUS PWR_STATUS_SOWING 0
      d.tlySend s.jobId 2
    else d
  | none => d

/-- When a harrow furrow's epilogue completes, each contribution carried into a step that does not follow is dropped
(R208). -/
def Dev.dropCarried (d : Dev) (f : Nat) : Dev :=
  if furrowType f = 6 && d.frwFinished f then
    let s := furrowUnit f
    let n := (((d.hrw s).hdrs.filter fun h => decide (d.lastStep < h.k)).map fun h => h.carRec.length).foldl (· + ·) 0
    d.stick HRW_DROPPED HRW_DROPPED_COUNT n s
  else d

/-- A completed descriptor of a step counts towards its seal: STAMP operations (R211) and UPDs (R214). -/
def Dev.sealCount (d : Dev) (i : FItem) : Dev :=
  if isStamp i.d then d.stampEnd i.step else if i.d.op = opUpd then d.updDone i.step else d

/-- The descriptor in progress completes: trace, interrupt, deadlines; its SIGNAL has been performed. A RET leaves its routine: the furrow
is again where the CALL stands (R67). -/
def Dev.finishItem (d : Dev) (f : Nat) (i : FItem) (g : FrwImg) : Dev :=
  let x := d.frw f
  let d := d.setFrw f { x with cur := none, done := false, held := 0 }
  let shows (d : Dev) (i : FItem) : Dev :=
    let d := if i.d.trcEnd then d.traceItem f trcEnd i [] else d
    if i.d.irq && d.ff f FRW_CTRL FRW_CTRL_IRQ_EN != 0 then d.irq irqFurrow else d
  let ph := g.phaseOf i
  -- a RET that closes the outermost CALL completes that CALL
  let outer := (i.depth == 0 && i.d.op != opCall) || (i.depth == 1 && i.d.op == opRet)
  let d := if i.d.op = opCall then d else shows d i
  let d := if i.d.op = opRet then
      (shows d { i with d := i.call, rtn := i.crtn, pos := i.cpos }).setFr f FRW_CUR_POS (i.crtn % 2 ^ 16 + (i.cpos % 2 ^ 16) <<< 16)
    else d
  let d := if outer then d.endDdls f i.otag ph i.step else d
  let d := if outer && g.lastOf x.bodies i.n then d.phaseEnd ph i.step else d
  (((d.sealCount i).dropCarried f).issue f).jobEnd

/-- Are the conditions of completion met: the operation performed, no response awaited, a timed pause over, no command
waiting for a route epoch? -/
def Dev.canFinish (d : Dev) (f : Nat) (i : FItem) : Bool :=
  let x := d.frw f
  x.done && x.held == 0 && d.frwErr f == 0 && !(d.quiesced && d.sigRemote i.d.sig.toNat)

/-- Does the operation perform its SIGNAL in its own step (SIGNAL, RET), or leave it to its RET (CALL)? -/
def ownSignal (op : Nat) : Bool := op == opSignal || op == opRet || op == opCall

/-- The current descriptor completes, performing its SIGNAL first (R59). -/
def Dev.complete (d : Dev) (f : Nat) : Dev :=
  match (d.frw f).cur, d.frwImg f with
  | some i, some g =>
    if d.canFinish f i then
      let d := if ownSignal i.d.op then d else d.signal f i.otag i.step i.d.sig.toNat (sigValue i.d.sig.toNat)
      if d.frwErr f != 0 then d else d.finishItem f i g
    else d
  | _, _ => d

/-- Perform the operation of the descriptor in progress when it is the one the command names and has not been performed. -/
def Dev.perform (d : Dev) (f op : Nat) (k : FItem → Dev → Dev) : Dev :=
  let x := d.frw f
  match x.cur with
  | some i => if i.d.op = op && !x.done && d.frwErr f == 0 then k i d else d
  | none => d

/-- Mark the operation of the descriptor in progress as performed; it goes on once the sharers of what it wrote have answered (R263). -/
def Dev.opDone (d : Dev) (f : Nat) : Dev :=
  match d.awaits (.furrow f) with
  | some d => d.setFrw f { d.frw f with done := true, held := (d.frw f).held + 1 }
  | none => d.setFrw f { d.frw f with done := true }

end Sys2Proof.Machine
end

