-- ==== Sys2Proof/Machine/Operands.lean ====
section
/-! DEFINITION. How operands lie in memory: square and row-major planes (R105, R106, R114), the compressed 2:4 form (R121), the
fallow form and the slot headers (R130 to R138), and the operand words of the MM, tilth, MOV and HDL operations. -/
namespace Sys2Proof

/-- Layout of a dense panel: square (tile buffers) or row-major (plots). -/
inductive Lay
  | sq | rm
deriving DecidableEq, Repr

/-- Bit offset of element (i, j) of an operand of `r` rows of `k` elements of `b` bits (R105, R114). -/
def elOff (l : Lay) (r k b i j : Nat) : Nat :=
  match l with
  | .rm => (i * k + j) * b
  | .sq =>
    let t := i / 32
    let u := j / 32
    32 * t * k * b + min 32 (r - 32 * t) * 32 * u * b + (i % 32) * min 32 (k - 32 * u) * b + (j % 32) * b

/-- Bytes of an element plane. -/
def planeBytes (r k b : Nat) : Nat := cdiv (r * k * b) 8

/-- An operand as read: codes, shared scales, and the fallow groups (row, group of eight columns). -/
structure Opnd where
  code : Nat → Nat → Nat
  scale : Nat → Nat → Nat
  fallow : Nat → Nat → Bool

/-- Exact value of an element (R148, R158). -/
def Opnd.val (o : Opnd) (f : Fmt) (i j : Nat) : Ex := f.value (o.code i j) (o.scale i j)

/-- The operand read transposed (R107). -/
def Opnd.flip (o : Opnd) : Opnd := ⟨fun i j => o.code j i, fun i j => o.scale j i, fun _ _ => false⟩

/-- The operand as lanes off the banks' clock read it: elements and scales are free (R335, log entry 93). -/
def Opnd.skewed (o : Opnd) (free : Nat) (f : Fmt) (k : Nat) : Opnd :=
  ⟨fun i j => Config.freeNat free (2 ^ 64 * k + 2 ^ 32 * i + j) % 2 ^ f.bits, fun i j => Config.freeNat free (2 ^ 64 * (k + 2) + 2 ^ 32 * i + j) % 256,
   o.fallow⟩

/-- A dense operand in the bytes `n` (little-endian number) of a region. -/
def denseOp (n : Nat) (l : Lay) (r k : Nat) (f : Fmt) : Opnd :=
  ⟨fun i j => bitsOf n (elOff l r k f.bits i j) f.bits,
   fun i j => bitsOf n (8 * (planeBytes r k f.bits + i * cdiv k 32 + j / 32)) 8,
   fun _ _ => false⟩

/-- Number of set bits among the low `w` bits. -/
def popc (v : Nat) : Nat → Nat
  | 0 => 0
  | w + 1 => b2n (bitOf v w) + popc v w

/-- Map word of a row in fallow form (Table 6.3). -/
def fmapRow (n i : Nat) : Nat := bitsOf n (16 * i) 16

/-- Non-fallow groups of the first `rows` rows. -/
def fmapCount (n g : Nat) : Nat → Nat
  | 0 => 0
  | i + 1 => (g - popc (fmapRow n i) g) + fmapCount n g i

/-- Fallow size S_f (R133). -/
def fallowSize (r w : Nat) (f : Fmt) (cnt : Nat) : Nat := 32 * cdiv r 16 + cnt * f.bits + r * cdiv w 32 * f.sbits / 8

/-- Is a FALLOW panel malformed (R145)? -/
def fallowBad (n r w : Nat) (f : Fmt) : Bool :=
  (List.range r).any (fun i => decide (2 ^ cdiv w 8 ≤ fmapRow n i)) ||
    decide (footprint r w f < fallowSize r w f (fmapCount n (cdiv w 8) r))

/-- A panel in fallow form, expanded: fallow groups read as +0 (R138). -/
def fallowOp (n r w : Nat) (f : Fmt) : Opnd :=
  let g := cdiv w 8
  let idx (i q : Nat) : Nat := fmapCount n g i + (q - popc (fmapRow n i) q)
  let base := 8 * 32 * cdiv r 16
  ⟨fun i j => if bitOf (fmapRow n i) (j / 8) then 0 else bitsOf n (base + idx i (j / 8) * 8 * f.bits + (j % 8) * f.bits) f.bits,
   fun i j => bitsOf n (base + 8 * (fmapCount n g r * f.bits + i * cdiv w 32 + j / 32)) 8,
   fun i q => bitOf (fmapRow n i) q⟩

/-- An operand made of 128-column panels. -/
def joinPanels (ps : List Opnd) : Opnd :=
  let z : Opnd := ⟨fun _ _ => 0, fun _ _ => 0, fun _ _ => false⟩
  ⟨fun i j => ((ps[j / 128]?).getD z).code i (j % 128), fun i j => ((ps[j / 128]?).getD z).scale i (j % 128),
   fun i q => ((ps[q / 16]?).getD z).fallow i (q % 16)⟩

/-- A compressed 2:4 operand (R121): kept value `s` of group `q` of row `i`, its position, and the row's scales. -/
structure Op24 where
  kept : Nat → Nat → Nat → Nat
  pos : Nat → Nat → Nat → Nat
  scale : Nat → Nat → Nat

def op24 (n : Nat) (l : Lay) (r k : Nat) (f : Fmt) : Op24 :=
  let ib := planeBytes r (k / 2) f.bits
  ⟨fun i q s => bitsOf n (elOff l r (k / 2) f.bits i (2 * q + s)) f.bits,
   fun i q s => bitsOf n (8 * (ib + i * (k / 8) + q / 2) + 4 * (q % 2) + 2 * s) 2,
   fun i x => bitsOf n (8 * (ib + r * (k / 8) + i * (k / 32) + x)) 8⟩

/-- Footprint of the compressed form (R121). -/
def footprint24 (n k : Nat) (f : Fmt) : Nat := 512 * cdiv (n * (k / 2) * f.bits + n * k + n * (k / 32) * f.sbits) 4096

/-! ### Panels as written -/

/-- Encoded rows of an output: each row's shared scales and element codes. -/
abbrev Rows := List (List Nat × List Nat)

/-- The element plane as a number. -/
def packPlane (l : Lay) (r k b : Nat) (rows : Rows) : Nat :=
  (rows.zipIdx.map fun p => (p.1.2.zipIdx.map fun q => (q.1 % 2 ^ b) <<< elOff l r k b p.2 q.2).foldl (· + ·) 0).foldl (· + ·) 0

/-- A list of numbers as bytes. -/
def asBytes (l : List Nat) : List Byte := l.map fun x => BitVec.ofNat 8 x

/-- A dense panel's bytes; bits of the last byte past the element plane keep their old value `old`. -/
def packDense (l : Lay) (r k : Nat) (f : Fmt) (rows : Rows) (old : Nat) : List Byte :=
  let n := r * k * f.bits
  let v := packPlane l r k f.bits rows
  let v := if n % 8 = 0 then v else v + (old >>> (n % 8)) <<< n
  leBytes (planeBytes r k f.bits) v ++ (if f.scaled then asBytes (rows.map Prod.fst).flatten else [])

/-- Does a code count as zero for the fallow map (R130)? -/
def zeroCode (f : Fmt) (c sc : Nat) : Bool := (f.elem c).isZero && (!f.scaled || sc != 255)

/-- Fallow bits of a row of codes with its scales. -/
def fallowBits (f : Fmt) (row : List Nat × List Nat) : List Bool :=
  (List.range (cdiv row.2.length 8)).map fun q =>
    ((row.2.drop (8 * q)).take 8).all fun c => zeroCode f c ((row.1[q / 4]?).getD 0)

def boolsNat : List Bool → Nat
  | [] => 0
  | b :: t => b2n b + 2 * boolsNat t

/-- The codes of the non-fallow groups of a row, padded to eight. -/
def liveCodes (f : Fmt) (row : List Nat × List Nat) : List Nat :=
  ((fallowBits f row).zipIdx.map fun p =>
    if p.1 then [] else ((row.2.drop (8 * p.2)).take 8 ++ List.replicate 8 0).take 8).flatten

/-- A list of `b`-bit codes as a number. -/
def packBits (b : Nat) : List Nat → Nat
  | [] => 0
  | c :: t => c % 2 ^ b + 2 ^ b * packBits b t

/-- A panel in fallow form (R133). -/
def packFallow (r : Nat) (f : Fmt) (rows : Rows) : List Byte :=
  let m := (rows.map fun x => leBytes 2 (boolsNat (fallowBits f x))).flatten
  let live := (rows.map (liveCodes f)).flatten
  (m ++ List.replicate (32 * cdiv r 16) 0).take (32 * cdiv r 16) ++ leBytes (live.length * f.bits / 8) (packBits f.bits live) ++
    (if f.scaled then asBytes (rows.map Prod.fst).flatten else [])

/-! ### Operand words -/

/-- MM operand words (Table 4.4). -/
structure Mm where
  m : Nat
  n : Nat
  k : Nat
  shape : Nat
  acc : Nat
  accum : Bool
  nodrain : Bool
  tm : Nat
  tn : Nat
  sp24 : Bool
  glean : Bool
  heritage : Bool
  afmt : Nat
  bfmt : Nat
  ofmt : Nat
  aBase : Nat
  bBase : Nat
  dropBase : Nat
  dst : Nat
  dropP : Nat
  bias : Nat
  top : Nat
  act : Nat
  drop : Bool
  fmap : Bool
  biasBase : Nat
  biasF32 : Bool
  scale : Nat
  tensor : Nat
  layer : Nat
deriving DecidableEq, Repr

def Mm.of (x : Desc) : Mm :=
  let w0 := x.w0.toNat
  let w1 := x.w1.toNat
  let w2 := x.w2.toNat
  let w3 := x.w3.toNat
  let w4 := x.w4.toNat
  ⟨bitsOf w0 0 10, bitsOf w0 10 8, bitsOf w0 18 17, bitsOf w0 35 2, bitsOf w0 37 2, bitOf w0 39, bitOf w0 40,
   bitsOf w0 41 4 + 1, bitsOf w0 45 4 + 1, bitOf w0 49, bitOf w0 50, bitOf w0 51, bitsOf w1 0 5, bitsOf w1 5 5,
   bitsOf w1 10 5, bitsOf w1 16 13, bitsOf w1 29 13, bitsOf w1 42 22, bitsOf w2 0 48, bitsOf w2 48 16, bitsOf w3 0 2,
   bitsOf w3 2 2, bitsOf w3 4 2, bitOf w3 6, bitOf w3 7, bitsOf w3 8 13, bitOf w3 21, bitsOf w3 32 32, bitsOf w4 0 48,
   bitsOf w4 48 16⟩

/-- Unit groups of a shape (R89, R104). -/
def Mm.g (x : Mm) : Nat := if x.shape = 0 then 1 else if x.shape = 1 then 2 else 4

/-- Core cycles per K-chunk (R89). -/
def Mm.c (x : Mm) : Nat :=
  let rows := cdiv x.m x.g
  max (if x.shape = 2 then 2 * rows else rows) 128

/-- Tilth operand words (Table 4.6). -/
structure Til where
  func : Nat
  xfmt : Nat
  yfmt : Nat
  zfmt : Nat
  bcast : Bool
  fmap : Bool
  prune : Bool
  scalar : Nat
  rows : Nat
  len : Nat
  x : Nat
  y : Nat
  z : Nat
deriving DecidableEq, Repr

def Til.of (d : Desc) : Til :=
  let w0 := d.w0.toNat
  let w1 := d.w1.toNat
  ⟨bitsOf w0 0 8, bitsOf w0 8 5, bitsOf w0 13 5, bitsOf w0 18 5, bitOf w0 23, bitOf w0 24, bitOf w0 25, bitsOf w0 32 32,
   bitsOf w1 0 32, bitsOf w1 32 32, bitsOf d.w2.toNat 0 48, bitsOf d.w3.toNat 0 48, bitsOf d.w4.toNat 0 48⟩

/-- MOV operand words (R95). -/
structure MovOp where
  src : Nat
  dst : Nat
  rowBytes : Nat
  rows : Nat
  srcStride : Nat
  dstStride : Nat
  counter : Nat
  count : Bool
  squares : Bool
  sqFmt : Nat
deriving DecidableEq, Repr

def MovOp.of (d : Desc) : MovOp :=
  let w2 := d.w2.toNat
  let w3 := d.w3.toNat
  let w4 := d.w4.toNat
  ⟨bitsOf d.w0.toNat 0 48, bitsOf d.w1.toNat 0 48, bitsOf w2 0 32, bitsOf w2 32 32, bitsOf w3 0 32, bitsOf w3 32 32,
   bitsOf w4 0 13, bitOf w4 13, bitOf w4 14, bitsOf w4 15 5⟩

/-- Row starts: a stride of 0 is packed. -/
def MovOp.ss (m : MovOp) : Nat := if m.srcStride = 0 then m.rowBytes else m.srcStride
def MovOp.ds (m : MovOp) : Nat := if m.dstStride = 0 then m.rowBytes else m.dstStride

/-- HDL operand words (R96). -/
structure Hdl where
  dev : Nat
  remote : Nat
  loc : Nat
  bytes : Nat
  rctr : Nat
  rcount : Bool
  lctr : Nat
  lcount : Bool
  afmt : Nat
  aop : Nat
  stamp : Bool
deriving DecidableEq, Repr

def Hdl.of (d : Desc) : Hdl :=
  let w3 := d.w3.toNat
  let w4 := d.w4.toNat
  ⟨bitsOf d.w0.toNat 48 16, bitsOf d.w0.toNat 0 48, bitsOf d.w1.toNat 0 48, bitsOf d.w2.toNat 0 40, bitsOf w3 0 13,
   bitOf w3 13, bitsOf w3 16 13, bitOf w3 29, bitsOf w4 0 5, bitsOf w4 5 2, bitOf w4 7⟩

end Sys2Proof

namespace Sys2Proof.Machine
open Sys2Proof

/-- Memory layout of an address: square in tile buffers, row-major elsewhere (R105, R114). -/
def layOf (a : Nat) : Lay := match region a with | .tile _ => .sq | _ => .rm

/-- Slot header codes (Table 6.2). -/
def hPlain : Nat := 0
def hFallow : Nat := 1
def hDenseRm : Nat := 2
def hDenseSq : Nat := 3

/-- A panel in the form its header gives; none when it is malformed (R138, R145). -/
def Dev.panel (d : Dev) (a r w : Nat) (f : Fmt) : Option Opnd :=
  let n := d.readN a (footprint r w f)
  match d.hdr a with
  | 0 => some (denseOp n (layOf a) r w f)
  | 1 => if fallowBad n r w f then none else some (fallowOp n r w f)
  | 2 => some (denseOp n .rm r w f)
  | _ => some (denseOp n .sq r w f)

/-- An operand of the matrix array that must be PLAIN or DENSE_SQ (Table 6.5). -/
def Dev.plainOp (d : Dev) (a r k : Nat) (f : Fmt) : Option Opnd :=
  if d.hdr a = hPlain || d.hdr a = hDenseSq then some (denseOp (d.readN a (footprint r k f)) .sq r k f) else none

/-- A is read as panels of 128 columns under GLEAN (R139, Table 6.5). Answers the bad panel's address on a MAP case. -/
def Dev.gleanOp (d : Dev) (a r k : Nat) (f : Fmt) : Opnd ⊕ Nat :=
  let ads := (List.range (k / 128)).map fun p => a + p * footprint r 128 f
  match ads.find? fun x => (d.panel x r 128 f).isNone with
  | some x => .inr x
  | none => .inl (joinPanels (ads.filterMap fun x => d.panel x r 128 f))

/-- Panels of a tilth operand whose first block is not PLAIN (R138). -/
def Dev.tilthOp (d : Dev) (a r k : Nat) (f : Fmt) : Opnd ⊕ Nat :=
  if d.hdr a = hPlain then .inl (denseOp (d.readN a (footprint r k f)) .rm r k f)
  else if k % 128 ≠ 0 then .inr a
  else d.gleanOp a r k f

/-- Write a panel as PLAIN dense bytes (R135). -/
def Dev.writeDense (d : Dev) (a : Nat) (l : Lay) (r k : Nat) (f : Fmt) (rows : Rows) : Dev :=
  let bs := packDense l r k f rows (d.readN (a + r * k * f.bits / 8) 1)
  (d.write a bs).plain a bs.length

/-- Write a panel with its fallow map (R134); answers whether it took fallow form. -/
def Dev.writeMap (d : Dev) (a : Nat) (l : Lay) (r w : Nat) (f : Fmt) (rows : Rows) : Dev × Bool :=
  let cnt := ((rows.map fun x => ((fallowBits f x).filter fun b => !b).length)).foldl (· + ·) 0
  let fp := footprint r w f
  if fallowSize r w f cnt ≤ fp then
    ((((d.write a (packFallow r f rows)).plain a fp).setHdr a hFallow), true)
  else
    let bs := packDense l r w f rows (d.readN (a + r * w * f.bits / 8) 1)
    (((d.write a bs).plain a fp).setHdr a (match l with | .sq => hDenseSq | .rm => hDenseRm), false)

/-- Does `[a, a + n)` touch a FALLOW block (Table 6.4)? -/
def Dev.touchesFallow (d : Dev) (a n : Nat) : Bool :=
  d.hdrs.any fun p => p.2 == hFallow && decide (a / 512 ≤ p.1) && decide (p.1 * 512 < a + n)

/-! ### What a sheaf may reach (R186, R250) -/

/-- May the sheaf's accesses use a plot: reserved, and no cache (Table 9.1)? -/
def Dev.plotOk (d : Dev) (p : Nat) : Bool := d.bit TLT_MARK TLT_MARK_RESERVED p && d.fld TLT_MARK TLT_MARK_MARK p != 1

/-- May an access of the sheaf use `[a, a + n)`, in the host view: reserved HBM, usable plots, or one tile buffer? -/
def Dev.sheafMem (d : Dev) (a n : Nat) : Bool :=
  if n = 0 then true
  else
    match region a, region (a + n - 1) with
    | .hbm, .hbm => d.reserved a n && d.hbmServes a n
    | .plot x, .plot y => (List.range (y + 1 - x)).all fun i => d.plotOk (x + i)
    | .tile x, .tile y => x == y
    | _, _ => false

/-! ### Dropout (R177, R178) -/

def rotl32 (w n : Nat) : Nat := (w * 2 ^ n) % 2 ^ 32 + w % 2 ^ 32 / 2 ^ (32 - n)

/-- One round of the generator. -/
def dropRound (k0 k1 : Nat) (x : Nat × Nat × Nat × Nat) (r : Nat) : Nat × Nat × Nat × Nat :=
  let ra := match r % 4 with | 0 => 13 | 1 => 9 | 2 => 17 | _ => 25
  let rb := match r % 4 with | 0 => 7 | 1 => 19 | 2 => 11 | _ => 24
  let x0 := (x.1 + x.2.1) % 2 ^ 32
  let x3 := rotl32 (x.2.2.2 ^^^ x0) ra
  let x2 := (x.2.2.1 + x3) % 2 ^ 32
  let x1 := rotl32 (x.2.1 ^^^ x2) rb
  let x0 := (x0 + k0 + r * 0x6A1D4C3B) % 2 ^ 32
  let x2 := x2 ^^^ ((k1 + r * 0xD2B74E19) % 2 ^ 32)
  (x1, x2, x3, x0)

/-- The generator's 32-bit value v (R177). -/
def dropGen (seed step layer idx dom : Nat) : Nat :=
  let k0 := seed % 2 ^ 32
  let k1 := seed / 2 ^ 32 % 2 ^ 32
  let x := (List.range 10).foldl (dropRound k0 k1)
    ((idx % 2 ^ 32) ^^^ k0, (idx / 2 ^ 32 % 2 ^ 32) ^^^ k1, step % 2 ^ 32, (dom * 65536 + layer) % 2 ^ 32)
  (x.1 + x.2.2.1) % 2 ^ 32

/-- q of R178: fl32(65,536 / (65,536 - P)). -/
def dropQ (p : Nat) : Ex := (fl32 (Ex.div (Ex.ofNat 65536) (Ex.ofNat (65536 - p)))).1

/-- A value through dropout; a dropped element is +0 and not counted as non-finite (R178). -/
def dropV (seed step layer idx p : Nat) (v : V) : V :=
  if dropGen seed step layer idx 0 / 65536 < p then ⟨Ex.zero, v.sat, false⟩ else V.mul v (V.of (dropQ p))

/-- JOB_SEED of the admitted sheaf. -/
def Dev.seed (d : Dev) : Nat := match d.sheaf with | some s => s.seed | none => 0

end Sys2Proof.Machine
end

