-- ==== Sys2Proof/Machine/MatrixOps.lean ====
section
/-! DEFINITION. The matrix array: MM.F, MM.BD, MM.BW and MM.BX (R87 to R92, R101 to R127, R130 to R143, R169, R170). -/
namespace Sys2Proof

/-! ### Sums -/

/-- Is `c` within `coef`·2^-24 of the sum of magnitudes from the exact sum, give or take `slack`·2^-24 units? -/
def boundOk (c exact : Int) (mag coef slack : Nat) : Bool :=
  decide ((c - exact).natAbs * 2 ^ 24 ≤ coef * mag + slack)

/-- Add the addends `l` in an order that free values give: two of them at a time, each step rounded to FP32 (R116, log
entry 1). Answers the sum and whether a step saturated. -/
def freeTree (free idx : Nat) : Nat → List Ex → Bool → Ex × Bool
  | k + 1, x :: y :: l, sat =>
    let w := (Config.freeWord free (2 ^ 32 * (k + 1) + idx)).toNat
    let i := w % (l.length + 2)
    let j := w / 2 ^ 32 % (l.length + 1)
    let a := ((x :: y :: l)[i]?).getD x
    let l' := (x :: y :: l).eraseIdx i
    let b := (l'[j]?).getD y
    let r := fl32 (Ex.add a b)
    freeTree free idx k (r.1 :: l'.eraseIdx j) (sat || r.2)
  | _, l, sat => ((l[0]?).getD Ex.zero, sat)

/-- FP32 code of a sum in an order the spec leaves open (R116, R184, R196): any value within the bound, by a free choice
(log entry 1), and the nearest one where the choice lies outside it; `any` says that no bound is claimed. One product alone
that FP32 holds is exact (R173). Where the addends `l` of one sign leave the range, a partial sum of the order taken may
saturate (R118). Answers the code and whether it saturated. -/
def sumCode (free idx coef k : Nat) (any : Bool) (l : List Ex) (s : Sum) : Nat × Bool :=
  match s.spec with
  | some x => (toF32 x, false)
  | none =>
    if s.mag = 0 then (0, false)
    else
      let r := encFp32.encode (.fin (decide (s.exact < 0)) s.exact.natAbs (-320))
      let t := if 2 ^ 447 ≤ max s.pos s.neg then freeTree free idx l.length l false else (Ex.zero, false)
      if t.2 then (toF32 t.1, true)
      else if r.2 || (s.cnt ≤ 1 && Ex.eqv (ofF32 r.1) (.fin (decide (s.exact < 0)) s.exact.natAbs (-320))) then r
      else
        let c := (Config.freeWord free idx).toNat % 2 ^ 32
        match ofF32 c with
        | .fin n m e =>
          if any || boundOk (signedAt n m e (-320)) s.exact s.mag coef (if s.dips then k * 2 ^ 195 else 0) then (c, false) else r
        | _ => r

/-- Add the products `ps` to an accumulator element in normal mode; `k` counts the chain's K so far. The bound is that of
R116, or R117 with `extra` 3; where a value falls below the normal range it grows by k·2^-149, and above 65,536 none is claimed
(R90). A sum that saturates is held at the largest value of its sign, from which a chain goes on (R118). -/
def AccEl.accum (el : AccEl) (free idx k extra : Nat) (ps : List (Ex × List Ex)) : AccEl × Bool :=
  let old := ofF32 el.y
  let s := ps.foldl Sum.product { el.sum with spec := if old.isFin then none else some old }
  let r := sumCode free idx (clog2 k + extra) k (decide (65536 < k)) (old :: (ps.map Prod.snd).flatten) s
  (⟨r.1, if r.2 then Sum.held (ofF32 r.1) s.mag else { s with spec := none }, el.nf || !(ofF32 r.1).isFin⟩, r.2)

/-- Round to FP32, counting saturations. -/
def flc (x : Ex) (n : Nat) : Ex × Nat := let r := fl32 x; (r.1, n + b2n r.2)

/-- One level of a heritage tree: neighbours added in pairs (R119). -/
def hlevel : List Ex → Nat → List Ex × Nat
  | x :: y :: t, n =>
    let r := flc (Ex.add x y) n
    let q := hlevel t r.2
    (r.1 :: q.1, q.2)
  | l, n => (l, n)

/-- The tree over 64 leaves. -/
def htree (xs : List Ex) (n : Nat) : Ex × Nat :=
  let r := (List.range 6).foldl (fun (a : List Ex × Nat) _ => hlevel a.1 a.2) (xs, n)
  ((r.1[0]?).getD Ex.zero, r.2)

/-- Heritage accumulation over the products of a row (R119): result and saturations. -/
def hsum : Nat → Ex → List Ex → Nat → Ex × Nat
  | 0, acc, _, n => (acc, n)
  | g + 1, acc, xs, n =>
    let leaves := (xs.take 64).foldr (fun x (a : List Ex × Nat) => let r := flc x a.2; (r.1 :: a.1, r.2)) ([], n)
    let t := htree ((leaves.1 ++ List.replicate 64 Ex.zero).take 64) leaves.2
    let a := flc (Ex.add acc t.1) t.2
    hsum g a.1 (xs.drop 64) a.2

/-- Heritage accumulation into an element, which counts once however many of its steps saturate (R159, R167). -/
def AccEl.heritage (el : AccEl) (xs : List Ex) : AccEl × Bool :=
  let r := hsum (cdiv xs.length 64) (ofF32 el.y) xs 0
  let y := toF32 r.1
  (⟨y, { Sum.held (ofF32 y) (xs.foldl Sum.add el.sum).mag with spec := none }, el.nf || !r.1.isFin⟩, r.2 != 0)

/-! ### Operands -/

/-- B of a tile column: dense or compressed. -/
inductive BOp
  | dense (o : Opnd)
  | s24 (o : Op24)

/-- An FP32 value with bits [15:0] cleared. -/
def hi16 (x : Ex) : Ex := ofF32 (toF32 x / 65536 * 65536)

/-- The three BF16 terms of an FP32 element (R166). -/
def split3 (x : Ex) : Ex × Ex × Ex :=
  let a0 := hi16 x
  let r := Ex.sub x a0
  let a1 := hi16 r
  (a0, a1, encBf16.decode (encBf16.encode (Ex.sub r a1)).1)

/-- A product with what the array adds of it: the product itself (R116), or the six of R117 of two FP32 elements, neither of
them infinite or NaN (R166). -/
def mulTerms (split : Bool) (a b : Ex) : Ex × List Ex :=
  if split && a.isFin && b.isFin then
    let p := split3 a
    let q := split3 b
    (Ex.mul (Ex.add (Ex.add p.1 p.2.1) p.2.2) (Ex.add (Ex.add q.1 q.2.1) q.2.2),
     [Ex.mul p.1 q.1, Ex.mul p.1 q.2.1, Ex.mul p.2.1 q.1, Ex.mul p.2.1 q.2.1, Ex.mul p.1 q.2.2, Ex.mul p.2.2 q.1])
  else (Ex.mul a b, [Ex.mul a b])

/-- The products of output element (i, j) (R116, R117, R122, R142, R169). -/
def Mm.products (x : Mm) (af bf : Fmt) (a : Opnd) (b : BOp) (i j : Nat) : List (Ex × List Ex) :=
  match b with
  | .dense o =>
    ((List.range x.k).filter fun q => !(x.glean && a.fallow i (q / 8))).map fun q =>
      mulTerms (af == .fp32 && bf == .fp32) (a.val af i q) (o.val bf j q)
  | .s24 o =>
    ((List.range (x.k / 4)).map fun q => (List.range 2).map fun s =>
      mulTerms false (a.val af i (4 * q + o.pos j q s)) (bf.value (o.kept j q s) (o.scale j (q / 8)))).flatten

/-- Fallow pairs that a pass over A skips (R146). -/
def Mm.skips (x : Mm) (a : Opnd) : Nat :=
  ((List.range x.m).map fun i => ((List.range (x.k / 8)).filter fun q => a.fallow i q).length).foldl (· + ·) 0

/-- Cycles of K-chunk `kc` under GLEAN (R141), `dd` the dot length. -/
def Mm.gleanC (x : Mm) (dd : Nat) (a : Opnd) (kc : Nat) : Nat :=
  let run := cdiv x.m x.g
  ((List.range x.g).map fun g =>
    let lo := g * run
    let hi := min x.m (lo + run)
    let pairs := (hi - lo) * (dd / 8)
    if pairs = 0 then cdiv x.c 2
    else
      let fl := ((List.range (hi - lo)).map fun i => ((List.range (dd / 8)).filter fun q =>
        decide (x.k ≤ dd * kc + 8 * q) || a.fallow (lo + i) (dd / 8 * kc + q)).length).foldl (· + ·) 0
      cdiv (x.c * (2 * pairs - fl)) (2 * pairs)).foldl max 0

end Sys2Proof

namespace Sys2Proof.Machine
open Sys2Proof

/-- Which accumulator tile `t` fills (R90). -/
def Mm.accOf (x : Mm) (t : Nat) : Bool := if x.acc = 0 then t % 2 == 1 else x.acc == 2

def accGet (m : Mxa) (one : Bool) : AccTile := if one then m.acc1 else m.acc0
def accPut (m : Mxa) (one : Bool) (t : AccTile) : Mxa := if one then { m with acc1 := t } else { m with acc0 := t }

/-- Ownership at issue (R90): a named accumulator that is owned needs ACCUM with the chain's M, N and SHAPE; ACCUM needs an
open chain. -/
def Mm.ownOk (x : Mm) (m : Mxa) : Bool :=
  let a := accGet m (Mm.accOf x 0)
  if x.accum then a.owned && a.m == x.m && a.n == x.n && a.shape == x.shape
  else !a.owned && (x.acc != 0 || x.tm * x.tn == 1 || !m.acc1.owned)

/-- A operand of tile row `ti`; the address of the panel on a MAP case. -/
def Dev.mmA (d : Dev) (p op : Nat) (x : Mm) (af : Fmt) (ti : Nat) : Opnd ⊕ Nat :=
  let a := tileAddr p + x.aBase * 512 + ti * footprint x.m x.k af
  if x.glean then d.gleanOp a x.m x.k af
  else if op = opMmBw then match d.plainOp a x.k x.m af with | some o => .inl o.flip | none => .inr a
  else match d.plainOp a x.m x.k af with | some o => .inl o | none => .inr a

/-- B operand of tile column `tj`. -/
def Dev.mmB (d : Dev) (p op : Nat) (x : Mm) (bf : Fmt) (tj : Nat) : BOp ⊕ Nat :=
  if x.sp24 then
    let a := tileAddr p + x.bBase * 512 + tj * footprint24 x.n x.k bf
    if d.hdr a = hPlain || d.hdr a = hDenseSq then .inl (.s24 (op24 (d.readN a (footprint24 x.n x.k bf)) .sq x.n x.k bf))
    else .inr a
  else
    let a := tileAddr p + x.bBase * 512 + tj * footprint x.n x.k bf
    if op = opMmBd || op = opMmBx then match d.plainOp a x.k x.n bf with | some o => .inl (.dense o.flip) | none => .inr a
    else match d.plainOp a x.n x.k bf with | some o => .inl (.dense o) | none => .inr a

/-- Accumulate one tile: the new elements, with the number of saturations (R116 to R119). -/
def Dev.mmAccum (d : Dev) (x : Mm) (af bf : Fmt) (t0 : AccTile) (a : Opnd) (b : BOp) (tidx : Nat) : SMap AccEl × Nat :=
  let k := t0.ksum + x.k
  let extra := if t0.split || af == .fp32 then 3 else 1
  (List.range (x.m * x.n)).foldl (fun (r : SMap AccEl × Nat) e =>
    let el := SMap.get AccEl.zero t0.els e
    let xs := x.products af bf a b (e / x.n) (e % x.n)
    if x.heritage then
      let q := el.heritage (xs.map Prod.fst)
      (SMap.put AccEl.zero r.1 e q.1, r.2 + b2n q.2)
    else
      let q := el.accum d.free (16384 * tidx + e) k extra xs
      (SMap.put AccEl.zero r.1 e q.1, r.2 + b2n q.2)) ([], 0)

/-- Bias element (R115). -/
def Dev.mmBias (d : Dev) (p : Nat) (x : Mm) (i j : Nat) : Ex :=
  let q := if x.bias = 1 then j else i
  let a := tileAddr p + x.biasBase * 512
  if x.biasF32 then ofF32 (d.readN (a + 4 * q) 4) else encBf16.decode (d.readN (a + 2 * q) 2)

/-- Drain stages 1 to 5 on one value (R91, R115, R178); a stage whose field is zero is skipped. -/
def Dev.mmStages (d : Dev) (p : Nat) (x : Mm) (f : Fmt) (ten : Option Opnd) (step tidx i j : Nat) (v : V) : V :=
  let v := if x.scale = 0 then v else V.mul v (V.of (ofF32 x.scale))
  let v := if x.bias = 0 then v else V.add v (V.of (d.mmBias p x i j))
  let v := match ten with
    | some o => if x.top = 1 then V.add v (V.of (o.val f i j)) else V.mul v (V.of (o.val f i j))
    | none => v
  let v := if x.act = 1 then (if v.x.isNan || Ex.lt Ex.zero v.x then v else { v with x := Ex.zero })
    else if x.act = 2 then V.gate true v else if x.act = 3 then V.gate false v else v
  if x.drop then dropV d.seed step x.layer (16384 * (x.dropBase + tidx) + x.n * i + j) x.dropP v else v

/-- The drained tile: encoded rows, saturated elements and non-finite ones (R91, R118, R152, R154). -/
def Dev.mmDrain (d : Dev) (p : Nat) (x : Mm) (f : Fmt) (t : AccTile) (ten : Option Opnd) (step tidx : Nat) :
    Rows × Nat × Nat :=
  let vs := (List.range x.m).map fun i => (List.range x.n).map fun j =>
    let el := SMap.get AccEl.zero t.els (x.n * i + j)
    d.mmStages p x f ten step tidx i j ⟨ofF32 el.y, false, el.nf⟩
  let es := vs.map fun r => (f.encRow (r.map V.x), r)
  let sat := (es.map fun e => ((e.1.2.zip e.2).filter fun q => q.1.sat || q.2.sat).length).foldl (· + ·) 0
  let nf := (es.map fun e => ((e.1.2.zip e.2).filter fun q => q.1.nf || q.2.nf).length).foldl (· + ·) 0
  (es.map fun e => (e.1.1, e.1.2.map Enc.code), sat, nf)

/-- Where an output tile is written, in the host view. -/
def Dev.mmDst (d : Dev) (x : Mm) (f : Fmt) (tidx : Nat) : Option Nat :=
  (d.agentAddr x.dst).map fun a => a + tidx * footprint x.m x.n f

/-- How a tile ended: done, a MAP case at an address, or an address that drew an error response. -/
inductive MmEnd
  | ok
  | map (a : Nat)
  | access (a : Nat)
deriving DecidableEq, Repr

/-- Drain a tile to its destination, with the counters and step events (R113, R114, R131, R159, R160). -/
def Dev.mmOut (d : Dev) (p : Nat) (x : Mm) (f : Fmt) (one : Bool) (step tidx : Nat) : Dev × MmEnd :=
  let fp := footprint x.m x.n f
  match d.mmDst x f tidx, if x.top = 0 then some 0 else (d.agentAddr x.tensor).map (· + tidx * fp) with
  | some a, some ta =>
    if !d.sheafMem a fp then (d, .access a)
    else if x.top != 0 && !d.sheafMem ta fp then (d, .access ta)
    else
      let ten := if x.top = 0 then none else d.panel ta x.m x.n f
      if x.top != 0 && ten.isNone then (d, .map ta)
      else
        let r := d.mmDrain p x f (accGet (d.mx p) one) ten step tidx
        let d :=
          if x.fmap then
            let q := d.writeMap a (layOf a) x.m x.n f r.1
            if q.2 then q.1.stick MXA_FMAP_FALLOW MXA_FMAP_FALLOW_COUNT 1 p else q.1.stick MXA_FMAP_DENSE MXA_FMAP_DENSE_COUNT 1 p
          else d.writeDense a (layOf a) x.m x.n f r.1
        let d := (d.numCount MXA_SAT_OUT p r.2.1).nfCount MXA_NONFIN p r.2.2
        ((d.numEvt .out step r.2.1 r.2.2).setMx p (accPut (d.mx p) one .empty), .ok)
  | _, _ => (d, .access x.dst)

/-- One tile: accumulate, then drain unless the chain stays open. -/
def Dev.mmTile (d : Dev) (p op : Nat) (x : Mm) (af bf f : Fmt) (step tidx : Nat) : Dev × MmEnd :=
  let one := Mm.accOf x tidx
  let t0 := if x.accum then accGet (d.mx p) one else AccTile.empty
  let keep (els : SMap AccEl) : AccTile :=
    ⟨true, x.m, x.n, x.shape, min (t0.ksum + x.k) 0xFFFFFFFF, t0.split || af == .fp32, els⟩
  let fin (d : Dev) : Dev × MmEnd := if x.nodrain then (d, .ok) else d.mmOut p x f one step tidx
  if x.k = 0 then fin (d.setMx p (accPut (d.mx p) one (keep t0.els)))
  else
    match d.mmA p op x af (tidx / x.tn), d.mmB p op x bf (tidx % x.tn) with
    | .inl a, .inl b =>
      let r := d.mmAccum x af bf t0 a b tidx
      let d := (d.numCount MXA_SAT_ACC p r.2).numEvt .acc step r.2 0
      let d := if x.glean then d.bump MXA_GLEAN_SKIP MXA_GLEAN_SKIP_PAIRS (x.skips a) p else d
      let dd := if x.sp24 then 2 * af.dot else af.dot
      let ff := if x.heritage then 8 else if af == .fp32 then 6 else 1
      let dense := cdiv x.k dd * x.c * ff
      let act := if x.glean then ff * ((List.range (cdiv x.k dd)).map (x.gleanC dd a)).foldl (· + ·) 0 else dense
      let d := (d.bump MXA_ACT MXA_ACT_CYCLES act p).bump MXA_SAVED MXA_SAVED_CYCLES (dense - act) p
      fin (d.setMx p (accPut (d.mx p) one (keep r.1)))
    | .inr a, _ => (d, .map a)
    | .inl _, .inr a => (d, .map a)

/-- The tiles in row-major order; the first that fails ends the operation, earlier ones stay written (R126). -/
def Dev.mmTiles (d : Dev) (p op : Nat) (x : Mm) (af bf f : Fmt) (step : Nat) : List Nat → Dev × MmEnd
  | [] => (d, .ok)
  | t :: ts =>
    match d.mmTile p op x af bf f step t with
    | (d', .ok) => d'.mmTiles p op x af bf f step ts
    | r => r

/-- An MM of a core: ownership, upsets, tiles; the activity ramp adds 32 cycles (R111). -/
def Dev.mm (d : Dev) (f p op : Nat) (i : FItem) (u : Upset) : Dev :=
  let x := Mm.of i.d
  let d := d.setFld MXA_STATUS MXA_STATUS_TAG i.otag p
  let d := d.setFld MXA_STATUS MXA_STATUS_HERITAGE (b2n x.heritage) p
  if !Mm.ownOk x (d.mx p) then d.failOp f feAccOwned 0 (some 0x01)
  else
    let q := d.upset f (Upset.onChip u)
    if !q.2 then q.1
    else
      match Fmt.ofCode x.afmt, Fmt.ofCode x.bfmt, if x.nodrain then some .fp32 else Fmt.ofCode x.ofmt with
      | some af, some bf, some ff =>
        let d := q.1.fresh
        let d := if x.k = 0 then d else d.bump MXA_ACT MXA_ACT_CYCLES 32 p
        match d.mmTiles p op x af bf ff i.step (List.range (x.tm * x.tn)) with
        | (d, .ok) => d.opDone f
        | (d, .map a) => d.failOp f feRefused a (some 0x21)
        | (d, .access a) => d.accessFail f a
      | _, _, _ => q.1.failOp f feRefused 0 (some 0x02)

/-- An MM row: the descriptor in progress at a core's MXA furrow. -/
def mmRow (op f : Nat) (u : Upset) (s : State) : Host.Outcome State Fault Refusal :=
  runLive (decide (f < 120)) (fun d => d.perform f op fun i d =>
    match d.physOf (furrowUnit f) with
    | some p => d.mm f p op i u
    | none => d) s

/-- MM.F (R87): neither operand transposed. -/
def execMmF (f : Nat) (u : Upset) (s : State) : Host.Outcome State Fault Refusal := mmRow opMmF f u s

/-- MM.BD (R87): B read transposed. -/
def execMmBd (f : Nat) (u : Upset) (s : State) : Host.Outcome State Fault Refusal := mmRow opMmBd f u s

/-- MM.BW (R87): A read transposed. -/
def execMmBw (f : Nat) (u : Upset) (s : State) : Host.Outcome State Fault Refusal := mmRow opMmBw f u s

/-- MM.BX (R170): as MM.BD; its trace records carry FROZEN. -/
def execMmBx (f : Nat) (u : Upset) (s : State) : Host.Outcome State Fault Refusal := mmRow opMmBx f u s

end Sys2Proof.Machine
end

