-- ==== Sys2Proof/Machine/Harrow.lean ====
section
/-! DEFINITION. Harrow units: group records (R205, R206), stochastic rounding (R157), the update rules (R216 to R219), gradient landings
and their headers (R207 to R209). -/
namespace Sys2Proof

/-! ### Stochastic rounding (R157) -/

/-- Magnitude of floor(v/g + R/65,536) for v = ±m·2^e and g = 2^g: towards minus infinity. -/
def srAt (neg : Bool) (r m : Nat) (e g : Int) : Nat :=
  if g ≤ e then m <<< (e - g).toNat
  else
    let t := (g - e).toNat
    if neg then cdiv (m * 65536 - r * 2 ^ t) (65536 * 2 ^ t) else (m * 65536 + r * 2 ^ t) / (65536 * 2 ^ t)

/-- Encode into an unscaled floating-point format with draw `r`. -/
def FpEnc.sr (f : FpEnc) (r : Nat) : Ex → Enc
  | .fin n m e =>
    if m = 0 then ⟨f.signed n 0, false, false⟩
    else
      let g := Max.max (magLog m e) (1 - f.bias) - f.fb
      let c := (g + f.fb + f.bias - 1).toNat * 2 ^ f.fb + srAt n r m e g
      if f.maxCode < c then ⟨f.signed n f.maxCode, true, false⟩ else ⟨f.signed n c, false, false⟩
  | x => let q := f.encode x; ⟨q.1, q.2, true⟩

/-- Encode an element of a scaled block at exponent X with draw `r`. -/
def Fmt.srEl (f : Fmt) (x : Int) (r : Nat) : Ex → Enc
  | .fin n m e => f.encScaledWith (srAt n r) n m (e - x)
  | y => f.encAt x y

/-- Does a rounded finite element exceed the limit, so that the scale of a BS16 or BS8 block is raised? -/
def srOver (p : Ex × Enc) : Bool := p.1.isFin && p.2.sat

/-- Encode a block with its draws: its E8M0 scale and elements; BS16 and BS8 raise the scale while a rounded element exceeds the
limit, with the same draws. -/
def Fmt.srBlock (f : Fmt) (rs : List Nat) (xs : List Ex) : Nat × List Enc :=
  if !f.hasNan && xs.any Ex.isNan then (255, xs.map fun _ => ⟨0, false, true⟩)
  else
    let go (x : Int) : List Enc := (xs.zip rs).map fun p => f.srEl x p.2 p.1
    let x := f.blockX xs
    let x := if (f == .bs16 || f == .bs8) && decide (x < 127) && (xs.zip (go x)).any srOver then x + 1 else x
    ((x + 127).toNat, go x)

/-! ### Group records (Table 10.2) -/

/-- A group record as read for one stack. -/
structure GRec where
  base : Nat
  nrec : Nat
  contribs : Nat
  rowBlks : Nat
  copyBase : Nat
  contribBase : Nat
  statBase : Nat
  snapBase : Nat
  lr : Ex
  wd : Ex
  b1 : Ex
  b2 : Ex
  eps : Ex
  window : Nat
  drain : Nat
  count : Nat
  stepc : Nat
deriving DecidableEq, Repr

/-- The 256 bytes of a record, for stack `s`. -/
def GRec.of (b : List Byte) (s : Nat) : GRec :=
  let n (o l : Nat) : Nat := leNat ((b.drop o).take l)
  let x (o : Nat) : Ex := ofF32 (n o 4)
  ⟨n 0 8, n 8 4, n 0x0C 2, n 0x0E 2, n 0x10 8, n 0x18 8, n 0x20 8, n 0x28 8, x 0x30, x 0x34, x 0x38, x 0x3C, x 0x40,
   n 0x44 4, n 0x48 4, n (0x50 + 4 * s) 4, n (0xA0 + 4 * s) 4⟩

/-- UPD operand words (Table 4.9). -/
structure Upd where
  rule : Nat
  nesterov : Bool
  frozen : Bool
  wfmt : Fmt
  mfmt : Fmt
  cfmt : Option Fmt
  group : Nat
  record : Nat
  nblk : Nat
deriving DecidableEq, Repr

def Upd.of (x : Desc) : Upd :=
  let w := x.w0.toNat
  ⟨bitsOf w 0 2, bitOf w 2, bitOf w 3, (Fmt.ofCode (bitsOf w 4 5)).getD .bs16, (Fmt.ofCode (bitsOf w 9 5)).getD .bs16,
   Fmt.ofCode (bitsOf w 14 5), bitsOf w 32 12, bitsOf x.w1.toNat 0 48, bitsOf x.w2.toNat 0 32⟩

/-- Are the record's fields in their ranges (R205, R206, R217)? -/
def GRec.ok (g : GRec) (u : Upd) : Bool :=
  g.base % 512 == 0 && decide (1 ≤ g.nrec) && decide (g.base + 512 * g.nrec ≤ 0x140_0000_0000) &&
    decide (1 ≤ g.contribs ∧ g.contribs ≤ 1024) && g.snapBase % 256 == 0 &&
    (u.rule != 3 || (decide (1 ≤ g.rowBlks) && g.nrec % g.rowBlks == 0 &&
      decide (g.nrec / g.rowBlks + 32 * g.rowBlks ≤ 16384)))

/-! ### The rules (R216, R217) -/

/-- A · B + C with one rounding. -/
def V.fma (a b c : V) : V :=
  let r := fl32 (Ex.add (Ex.mul a.x b.x) c.x)
  ⟨r.1, a.sat || b.sat || c.sat || r.2, a.nf || b.nf || c.nf || !r.1.isFin⟩

/-- fl32((1 - B) * X), the difference exact. -/
def V.rest (b : Ex) (x : V) : V := V.fl (Ex.mul (Ex.sub (Ex.ofNat 1) b) x.x) x x

/-- fl32(sqrt(X) + EPS), the root not rounded on its own. -/
def V.sqrtEps (x : V) (eps : Ex) : V := V.fl (Ex.add (Ex.sqrt x.x) eps) x x

/-- x^t, exactly. -/
def Ex.pow (x : Ex) (t : Nat) : Ex :=
  match x with
  | .fin n m e => .fin (n && t % 2 == 1) (m ^ t) (e * t)
  | y => if t = 0 then Ex.ofNat 1 else y

/-- fl32(1 - B^t), the power rounded once. -/
def biasCorr (b : Ex) (t : Nat) : V := V.of (fl32 (Ex.sub (Ex.ofNat 1) (fl32 (Ex.pow b t)).1)).1

/-- sign(x), 0 for ±0. -/
def Ex.sign : Ex → Ex
  | .nan => .nan
  | .inf n => .fin n 1 0
  | .fin n m _ => if m = 0 then Ex.zero else .fin n 1 0

/-- What one element's rule uses beside its own gradient and moments: the factored statistics of its row and column and their mean. -/
structure FactSt where
  row : Ex
  col : Ex
  mean : Ex

/-- New M1, new M2 and the step u of one element (R216); `t` is c + 1. -/
def rule (u : Upd) (p : GRec) (t : Nat) (st : FactSt) (g w m v : V) : V × V × V :=
  let wd := V.of p.wd
  let b1 := V.of p.b1
  let b2 := V.of p.b2
  match u.rule with
  | 0 =>
    let d := V.fma wd w g
    let m' := V.fma b1 m d
    (m', v, if u.nesterov then V.fma b1 m' d else m')
  | 1 =>
    let m' := V.fma b1 m (V.rest p.b1 g)
    let v' := V.fma b2 v (V.rest p.b2 (V.mul g g))
    let mh := V.div m' (biasCorr p.b1 t)
    let vh := V.div v' (biasCorr p.b2 t)
    (m', v', V.fma wd w (V.div mh (V.sqrtEps vh p.eps)))
  | 2 =>
    let s := V.fma b1 m (V.rest p.b1 g)
    (V.fma b2 m (V.rest p.b2 g), v, V.fma wd w { s with x := Ex.sign s.x })
  | _ =>
    let vh := V.div (V.mul (V.of st.row) (V.of st.col)) (V.of st.mean)
    let q := V.div g (V.sqrtEps vh p.eps)
    let m' := V.fma b1 m (V.rest p.b1 q)
    (m', v, V.fma wd w m')

/-- w' = w - LR·u, exact. -/
def newW (lr : Ex) (w u : V) : V :=
  let x := Ex.sub w.x (Ex.mul lr u.x)
  ⟨x, u.sat, u.nf || !x.isFin⟩

/-- The scaled gradient g: the sum over D rounded, times 2^-LS exactly; 0 when D is 0. -/
def gradOf (code dv : Nat) (ls : Int) : V :=
  if dv = 0 then V.of Ex.zero
  else
    let q := V.fl (Ex.div (ofF32 code) (Ex.ofNat dv)) (V.of Ex.zero) (V.of Ex.zero)
    { q with x := q.x.scale2 (-ls) }

/-! ### One record (Tables 10.1, R216 to R219) -/

/-- Offsets of M1 and M2 in a record. -/
def Upd.m1Off (u : Upd) : Nat := if u.wfmt = .fp32 then 0x180 else 0x140
def Upd.m2Off (u : Upd) : Nat := if u.wfmt = .fp32 then 0x1C0 else 0x180

/-- The 32 elements of a field of a record. -/
def recVals (b : List Byte) (f : Fmt) (off scOff : Nat) : List Ex :=
  let n := leNat ((b.drop off).take (4 * f.bits))
  let sc := ((b[scOff]?).getD 0).toNat
  (List.range 32).map fun e => f.value (bitsOf n (e * f.bits) f.bits) sc

/-- Replace bytes of a record. -/
def putBytes (b : List Byte) (off : Nat) (x : List Byte) : List Byte := b.take off ++ x ++ b.drop (off + x.length)

/-- Encode 32 values with the draws of domain `dom` (R218): scale and elements. -/
def encHarrow (f : Fmt) (draw : Nat → Nat) (xs : List Ex) : Nat × List Enc :=
  if f.scaled then f.srBlock ((List.range 32).map draw) xs
  else
    match f.fp with
    | some p => (0, xs.zipIdx.map fun q => p.sr (draw q.2) q.1)
    | none => (0, [])

/-- A written field: saturations and non-finite elements counted once each. -/
def fieldCount (vs : List V) (es : List Enc) : Nat × Nat :=
  let z := vs.zip es
  ((z.filter fun p => p.1.sat || p.2.sat).length, (z.filter fun p => p.1.nf || p.2.nf || !p.1.x.isFin).length)

/-- What an update of one record gives: its bytes, the copy's elements and scale, counts, and g·g of each element. -/
structure RecOut where
  bytes : List Byte
  copy : List Byte
  copyScale : Nat
  sat : Nat
  nf : Nat
  gg : List Ex
deriving DecidableEq, Repr

/-! ### Headers (R209) -/

/-- The header of a group and step, an empty one where none is kept. -/
def Harrow.hdr (h : Harrow) (g k : Nat) : HHdr := (h.hdrs.find? fun x => x.g == g && x.k == k).getD (HHdr.empty g k)

def Harrow.setHdr (h : Harrow) (x : HHdr) : Harrow :=
  { h with hdrs := (h.hdrs.filter fun y => !(y.g == x.g && y.k == x.k)) ++ [x] }

/-- The group registered at a stack whose state array holds an address. -/
def Harrow.groupAt (h : Harrow) (a : Nat) : Option (Nat × HGroup) :=
  h.groups.find? fun p => decide (p.2.base ≤ a) && decide (a < p.2.base + 512 * p.2.nrec)

/-- Contributor bits set: those whose on-time records reach COUNT (R209). -/
def bitsSet (gp : HGroup) (x : HHdr) : Nat :=
  ((List.range gp.contribs.length).map fun j => if gp.count ≤ SMap.get 0 x.onRec j then 2 ^ j else 0).foldl (· + ·) 0

/-- Carried contributions whose records reach COUNT (R209). -/
def carriedFull (gp : HGroup) (x : HHdr) : Nat := (x.carRec.filter fun p => decide (gp.count ≤ p.2)).length

/-- Every contributor's bit is set. -/
def allBits (gp : HGroup) (x : HHdr) : Bool := bitsSet gp x == 2 ^ gp.contribs.length - 1

/-- Is a landing partly landed? -/
def partly (gp : HGroup) (x : HHdr) : Bool :=
  x.onRec.any (fun p => decide (0 < p.2 ∧ p.2 < gp.count)) || x.carRec.any fun p => decide (0 < p.2 ∧ p.2 < gp.count)

/-- Close a header: its bitmap and carried count are fixed (R209). -/
def closeHdr (gp : HGroup) (x : HHdr) : HHdr := { x with bitmap := bitsSet gp x, carried := carriedFull gp x, closed := true }

/-- Divisor D of a closed header (R209). -/
def HHdr.dOf (gp : HGroup) (x : HHdr) : Nat := popc x.bitmap gp.contribs.length + x.carried

end Sys2Proof

namespace Sys2Proof.Machine
open Sys2Proof

/-- Update record `r` under COMMIT when it is not frozen (R216, R218). -/
def updRecord (u : Upd) (p : GRec) (c : Nat) (seed slot dv : Nat) (ls : Int) (stat : Nat → FactSt) (r : Nat) (b : List Byte) : RecOut :=
  let gs := (List.range 32).map fun e => gradOf (leNat ((b.drop (128 * slot + 4 * e)).take 4)) dv ls
  let ws := recVals b u.wfmt 0x100 0x1F0
  let ms := recVals b u.mfmt u.m1Off 0x1F1
  let vs := if u.rule = 1 then recVals b u.mfmt u.m2Off 0x1F2 else List.replicate 32 Ex.zero
  let at_ (l : List Ex) (e : Nat) : V := V.of ((l[e]?).getD Ex.zero)
  let outs := gs.zipIdx.map fun q => (q.2, rule u p (c + 1) (stat q.2) q.1 (at_ ws q.2) (at_ ms q.2) (at_ vs q.2))
  let w' := outs.map fun q => newW p.lr (at_ ws q.1) q.2.2.2
  let m' := outs.map fun q => q.2.1
  let v' := outs.map fun q => q.2.2.1
  let draw (dom e : Nat) : Nat := dropGen seed c u.group (32 * r + e) dom / 65536
  let enc (f : Fmt) (dom : Nat) (l : List V) : Nat × List Enc := encHarrow f (draw dom) (l.map V.x)
  let codes (f : Fmt) (es : List Enc) : List Byte := leBytes (4 * f.bits) (packBits f.bits (es.map Enc.code))
  let ew := enc u.wfmt 1 w'
  let em := enc u.mfmt 2 m'
  let ev := enc u.mfmt 3 v'
  let stored := ew.2.map fun x => u.wfmt.value x.code ew.1
  let ec := match u.cfmt with | some f => encHarrow f (draw 4) stored | none => (0, [])
  let b := putBytes b 0x100 (codes u.wfmt ew.2)
  let b := if u.wfmt.scaled then putBytes b 0x1F0 [BitVec.ofNat 8 ew.1] else b
  let b := putBytes (putBytes b u.m1Off (codes u.mfmt em.2)) 0x1F1 [BitVec.ofNat 8 em.1]
  let b := if u.rule = 1 then putBytes (putBytes b u.m2Off (codes u.mfmt ev.2)) 0x1F2 [BitVec.ofNat 8 ev.1] else b
  let cw := fieldCount w' ew.2
  let cm := fieldCount m' em.2
  let cv := if u.rule = 1 then fieldCount v' ev.2 else (0, 0)
  let cc := fieldCount (stored.map V.of) ec.2
  ⟨b, match u.cfmt with | some f => codes f ec.2 | none => [], ec.1, cw.1 + cm.1 + cv.1 + cc.1, cw.2 + cm.2 + cv.2 + cc.2,
   gs.map fun g => Ex.mul g.x g.x⟩

/-- Records of a group that lie in stack `s` (R203). -/
def recordsIn (g : GRec) (s : Nat) : List Nat := (List.range g.nrec).filter fun r => stackOf (g.base + 512 * r) == s

/-! ### Landings (R207 to R209) -/

/-- Add a value to the FP32 word at an address, exactly and rounded once; answers saturation and non-finite (R197, R207). -/
def Dev.landAdd (d : Dev) (a : Nat) (x : Ex) : Dev × Bool × Bool :=
  let r := fl32 (Ex.add (ofF32 (d.readN a 4)) x)
  (d.write a (leBytes 4 (toF32 r.1)), r.2, !r.1.isFin)

/-- Counting of a landing's events at a harrow unit, on the step it is stamped with (R159, R160). -/
def Dev.hrwCount (d : Dev) (s step sat nf : Nat) (mark : Bool) : Dev :=
  let d := if sat = 0 then d else d.numCount HRW_SAT s sat
  let d := d.nfCount HRW_NONFIN s nf
  if mark then d.numEvt .land step sat nf else d

/-- Store a header, closed when every contributor's bit is set. -/
def Dev.putHdr (d : Dev) (s : Nat) (gp : HGroup) (x : HHdr) : Dev :=
  let x := if !x.closed && allBits gp x then closeHdr gp x else x
  d.setHrw s ((d.hrw s).setHdr x)

/-- Payload bytes of a record and its format for a landing format: FP32, BF16 or FP8 E5M2 (R207). -/
def landBeta (afmt : Nat) : Option (Nat × Fmt) :=
  match Fmt.ofCode afmt with
  | some .fp32 => some (128, .fp32)
  | some .bf16 => some (64, .bf16)
  | some .e5m2 => some (32, .e5m2)
  | _ => none

/-- A STAMP landing as its header and group record decide it: group, record places, contributor, on time or late. -/
structure Land where
  g : Nat
  r0 : Nat
  n : Nat
  j : Nat
  beta : Nat
  fmt : Fmt
  late : Bool
  touched : List Nat
deriving DecidableEq, Repr

/-- The rules of R207 and R208 for a STAMP command; none with the log cause of the refusal. -/
def Dev.landCheck (d : Dev) (c : Cmd) : Land ⊕ Nat :=
  match (d.hrw (stackOf c.addr)).groupAt c.addr, landBeta c.afmt with
  | some (g, gp), some (beta, f) =>
    let r0 := (c.addr - gp.base) / 512
    let n := c.bytes / beta
    if c.aop != 0 || (c.addr - gp.base) % 512 != 0 || c.bytes % beta != 0 || n == 0 || decide (gp.nrec < r0 + n) then .inr 0x02
    else
      match gp.contribs.idxOf? c.src with
      | none => .inr 0x50
      | some j =>
        let ts := ((List.range n).map fun i => stackOf (gp.base + 512 * (r0 + i))).eraseDups
        if ts.any fun s => (SMap.find (d.hrw s).groups g).isNone then .inr 0x02
        else .inl ⟨g, r0, n, j, beta, f, c.anchor != 0 && decide (c.anchor + gp.window < c.ts), ts⟩
  | _, _ => .inr 0x02

/-- Is a contribution carried out of step `k` also late for step k + 1 at stack `s` (R208)? -/
def Dev.alsoLate (d : Dev) (s g k window ts : Nat) : Bool :=
  ((d.hrw s).hdr g (k + 1)).closed ||
    (decide (1 ≤ k) && decide (2 ≤ (d.seal (k - 1)).verdict) && decide ((d.seal (k - 1)).sealtime + window < ts))

/-- May the landing use its slot at stack `s`: 0, or the cause of the refusal (R208, R209)? -/
def Dev.landSlot (d : Dev) (l : Land) (k s : Nat) : Nat :=
  let h := d.hrw s
  let tgt := if l.late then k + 1 else k
  if !l.late && (h.hdr l.g k).closed then 0x52
  else
    match SMap.get none h.own (2 * l.g + tgt % 2) with
    | some o => if o = tgt then 0 else 0x51
    | none => 0

/-- Payload added to record `i` of the landing, element by element. -/
def Dev.landRecord (d : Dev) (l : Land) (base k : Nat) (data : List Byte) (i : Nat) : Dev :=
  let a := base + 512 * (l.r0 + i)
  let slot := (if l.late then k + 1 else k) % 2
  let v := leNat ((data.drop (l.beta * i)).take l.beta)
  let d := d.corrects (a + 128 * slot) 128
  let r := (List.range 32).foldl (fun (x : Dev × Nat × Nat) e =>
    let q := x.1.landAdd (a + 128 * slot + 4 * e) (l.fmt.value (bitsOf v (e * l.fmt.bits) l.fmt.bits) 0)
    (q.1, x.2.1 + b2n q.2.1, x.2.2 + b2n q.2.2)) (d, 0, 0)
  r.1.hrwCount (stackOf a) k r.2.1 r.2.2 true

/-- Faults of a header that grow (R209): SPLIT 1, OVERCOUNT 2, with their log causes. -/
def Dev.hdrFault (d : Dev) (s : Nat) (x : HHdr) (bit cause addr tag k : Nat) : Dev × HHdr :=
  if bitOf x.faults (bit - 1) then (d, x)
  else (d.elogHrw s addr cause tag k, { x with faults := x.faults + bit })

/-- The header reports of one touched stack: `n` records landed (R209). -/
def Dev.landHdr (d : Dev) (l : Land) (gp : HGroup) (c : Cmd) (s n : Nat) (drop : Bool) : Dev :=
  let k := c.step
  let ev (x : HHdr) : HHdr := { x with ovf := x.ovf || bitOf c.flags 2, nf := x.nf || bitOf c.flags 3 }
  let x := (d.hrw s).hdr l.g k
  if !l.late then
    let x := { ev x with onRec := SMap.put 0 x.onRec l.j (SMap.get 0 x.onRec l.j + n), anchor := c.anchor }
    let q := if x.lateDev.has l.j then d.hdrFault s x 1 0x53 c.addr c.tag k else (d, x)
    let q := if gp.count < SMap.get 0 x.onRec l.j then q.1.hdrFault s q.2 2 0x54 c.addr c.tag k else q
    let d := q.1.putHdr s gp q.2
    d.setHrw s { d.hrw s with own := SMap.put none (d.hrw s).own (2 * l.g + k % 2) (some k) }
  else
    let x := { x with lateDev := x.lateDev.add l.j }
    let q := if 0 < SMap.get 0 x.onRec l.j then d.hdrFault s x 1 0x53 c.addr c.tag k else (d, x)
    let d := q.1.putHdr s gp q.2
    if drop then d
    else
      let y := (d.hrw s).hdr l.g (k + 1)
      let y := { ev y with carRec := SMap.put 0 y.carRec l.j (SMap.get 0 y.carRec l.j + n) }
      let q := if gp.count < SMap.get 0 y.carRec l.j then d.hdrFault s y 2 0x54 c.addr c.tag k else (d, y)
      let d := q.1.putHdr s gp q.2
      d.setHrw s { d.hrw s with own := SMap.put none (d.hrw s).own (2 * l.g + (k + 1) % 2) (some (k + 1)) }

/-- Is the sheaf's POLICY CARRY (R27)? -/
def Dev.carry (d : Dev) : Bool := match d.sheaf with | some s => s.carry | none => false

/-- A landing at one stack: dropped (a late one under DROP, or also late), or landed and reported. -/
def Dev.landAt (d : Dev) (l : Land) (c : Cmd) (data : List Byte) (s : Nat) : Dev :=
  match SMap.find (d.hrw s).groups l.g with
  | none => d
  | some gp =>
    let rs := (List.range l.n).filter fun i => stackOf (gp.base + 512 * (l.r0 + i)) == s
    let drop := l.late && (!d.carry || d.alsoLate s l.g c.step gp.window c.ts)
    let d := d.bump HRW_LAND HRW_LAND_BYTES (rs.length * l.beta) s
    let d := if l.late then d.stick HRW_LATE HRW_LATE_COUNT 1 s else d
    let d := if drop then d.stick HRW_DROPPED HRW_DROPPED_COUNT 1 s else d.each rs fun d i => d.landRecord l gp.base c.step data i
    d.landHdr l gp c s rs.length drop

/-- First uncorrectable word of the slots that a landing reads, merges and writes (R299). -/
def Dev.landUE (d : Dev) (l : Land) (c : Cmd) (lands : Nat → Bool) : Option Nat :=
  let base := (c.addr - 512 * l.r0)
  ((List.range l.n).filter fun i => lands (stackOf (base + 512 * (l.r0 + i)))).findSome? fun i =>
    d.ueIn (base + 512 * (l.r0 + i) + 128 * ((if l.late then c.step + 1 else c.step) % 2)) 128

/-- A STAMP landing: refused whole by its first bad stack with the logged cause, or by an uncorrectable word of a slot, which is a device fault, or
landed at every stack it touches. `u` is what the slots' words meet on the way (R299, R352). -/
def Dev.landStamp (d : Dev) (c : Cmd) (data : List Byte) (u : Upset) : Dev × Bool :=
  match d.landCheck c with
  | .inr e => (d.elogHrw (stackOf c.addr) c.addr e c.tag c.step, false)
  | .inl l =>
    let needs (s : Nat) : Bool :=
      match SMap.find (d.hrw s).groups l.g with
      | some gp => !(l.late && (!d.carry || d.alsoLate s l.g c.step gp.window c.ts))
      | none => true
    match l.touched.find? fun s => needs s && d.landSlot l c.step s != 0 with
    | some s => (d.elogHrw s c.addr (d.landSlot l c.step s) c.tag c.step, false)
    | none =>
      let q := d.upsetAt c.addr (if u = .uncorrectable then .none else u)
      if !q.2 then q
      else
        match if u = .uncorrectable then some (c.addr / 8) else q.1.landUE l c needs with
        | some w => (q.1.readUE w reqRemote c.tag c.step, false)
        | none => (q.1.each l.touched fun d s => d.landAt l c data s, true)

/-- HEADER_CLOSE_TIMEOUT: the time base has reached A + WINDOW_NS + DRAIN_NS and nothing is partly landed (R209). Steps 0 and 1 close
only by their bits. -/
def Dev.closeTimeout (d : Dev) (s g k : Nat) : Dev :=
  match SMap.find (d.hrw s).groups g with
  | none => d
  | some gp =>
    let x := (d.hrw s).hdr g k
    let a := if x.anchor != 0 then x.anchor else (d.seal (k - 2)).sealtime
    if x.closed || decide (k < 2) || (x.anchor == 0 && decide ((d.seal (k - 2)).verdict < 2)) || partly gp x ||
        decide (d.tb.time < a + gp.window + gp.drain) then d
    else d.setHrw s ((d.hrw s).setHdr (closeHdr gp x))

end Sys2Proof.Machine
end

