-- ==== Sys2Proof/Machine/MoveOps.lean ====
section
/-! DEFINITION. Movers and headland furrows: MOV (R95, R136), HDL.PUT, HDL.GET and HDL.ACC as their furrow sends them (R96, R137,
R208, R280, R282, R285). -/
namespace Sys2Proof.Machine
open Sys2Proof

/-! ### MOV -/

/-- Row `r`'s source and destination, in the host view, when both may be used. -/
def Dev.movRow (d : Dev) (m : MovOp) (r : Nat) : Option (Nat × Nat) :=
  match d.agentAddr (m.src + r * m.ss), d.agentAddr (m.dst + r * m.ds) with
  | some a, some b => if d.sheafMem a m.rowBytes && d.sheafMem b m.rowBytes then some (a, b) else none
  | _, _ => none

/-- The address of a row that drew an error response: its source, unless that may be used. -/
def Dev.movBad (d : Dev) (m : MovOp) (r : Nat) : Nat :=
  match d.agentAddr (m.src + r * m.ss) with
  | some a => if d.sheafMem a m.rowBytes then (d.agentAddr (m.dst + r * m.ds)).getD (m.dst + r * m.ds) else a
  | none => m.src + r * m.ss

/-- Copy headers block for block (R135, R136). -/
def Dev.copyHdrs (d : Dev) (a b n : Nat) : Dev :=
  (List.range (cdiv n 512)).foldl (fun x i => x.setHdr (b + 512 * i) (d.hdr (a + 512 * i))) d

/-- Is a memory without headers, HBM, at the address? -/
def isHbm (a : Nat) : Bool := decide (a < hbmSize)

/-- First matching row of Table 6.4: 1 blocks with headers, 2 slot copied, 3 re-laid out, 4 refused with MAP, 5 bytes. -/
def Dev.movCase (d : Dev) (m : MovOp) (a b : Nat) : Nat :=
  let h := if isHbm a then hPlain else d.hdr a
  if !m.squares && !isHbm a && !isHbm b && [m.src, m.dst, m.rowBytes, m.srcStride, m.dstStride].all (· % 512 == 0) then 1
  else if m.squares && (h == hFallow || h == hDenseSq) && m.src % 512 == 0 && m.dst % 512 == 0 then 2
  else if m.squares && (h == hPlain || h == hDenseRm) then 3
  else if (List.range m.rows).any fun r => d.touchesFallow (a + r * m.ss) m.rowBytes then 4
  else 5

/-- Copy rows of bytes; with headers, or leaving PLAIN ones. -/
def Dev.movRows (d : Dev) (m : MovOp) (hdrs : Bool) : Dev :=
  d.each (List.range m.rows) fun d r =>
    match d.movRow m r with
    | some (a, b) =>
      let d' := d.write b (d.read a m.rowBytes)
      if hdrs then d'.copyHdrs a b m.rowBytes else if isHbm b then d' else d'.plain b m.rowBytes
    | none => d

/-- Re-lay rows into square layout (R95, R136), written contiguously from DST: DST_STRIDE has no part in it. DESIGN CHOICE, R95 gives the strides
for rows alone and says nothing of a stride under SQUARES (log entry 90). A partial last element of a row is not moved. -/
def Dev.movSquares (d : Dev) (m : MovOp) (f : Fmt) (a b : Nat) : Dev :=
  let k := m.rowBytes * 8 / f.bits
  let rows : Rows := (List.range m.rows).map fun r =>
    let n := leNat (d.read (a + r * m.ss) m.rowBytes)
    ([], (List.range k).map fun j => bitsOf n (j * f.bits) f.bits)
  let bs := packDense .sq m.rows k f rows (d.readN (b + m.rows * k * f.bits / 8) 1)
  let d' := (d.write b bs).plain b bs.length
  if !isHbm a && d.hdr a == hDenseRm then d'.setHdr b hDenseSq else d'

/-- Copy the panels of a slot with their headers, `w` columns and more still to go at `a`; answers the bytes moved, and the address of a malformed
panel, where the copying stops (R136, R138, R145). A FALLOW panel moves its fallow size, another its whole footprint. -/
def Dev.movPanels (d : Dev) (rows : Nat) (f : Fmt) : Nat → Nat → Nat → Nat → Nat → Dev × Nat × Option Nat
  | 0, _, _, _, moved => (d, moved, none)
  | n + 1, a, b, k, moved =>
    let w := min 128 k
    let fp := footprint rows w f
    let fallow := d.hdr a == hFallow
    let v := d.readN a fp
    if fallow && fallowBad v rows w f then (d, moved, some a)
    else
      let size := if fallow then fallowSize rows w f (fmapCount v (cdiv w 8) rows) else fp
      ((d.write b (d.read a size)).copyHdrs a b fp).movPanels rows f n (a + fp) (b + fp) (k - w)
        (moved + if fallow then size else cdiv (rows * w * f.bits) 8)

/-- Copy a slot with its headers: panels of 128 columns where its first block is FALLOW, and a DENSE_SQ slot as it stands (R136). -/
def Dev.movSlot (d : Dev) (m : MovOp) (f : Fmt) (a b : Nat) : Dev × Nat × Option Nat :=
  let k := m.rowBytes * 8 / f.bits
  if d.hdr a = hFallow then d.movPanels m.rows f (cdiv k 128) a b k 0
  else
    let fp := footprint m.rows k f
    ((d.write b (d.read a fp)).copyHdrs a b fp, m.rows * m.rowBytes, none)

/-- Address of the first FALLOW block that the rows of a source touch. -/
def Dev.firstFallow (d : Dev) (m : MovOp) (a : Nat) : Nat :=
  ((List.range m.rows).findSome? fun r =>
    (d.hdrs.find? fun p => p.2 == hFallow && decide ((a + r * m.ss) / 512 ≤ p.1) && decide (p.1 * 512 < a + r * m.ss + m.rowBytes)).map
      fun p => 512 * p.1).getD a

/-- MOV's effect on memory, with the bytes moved and the address of the panel that stops it with MAP, if one does. -/
def Dev.movGo (d : Dev) (m : MovOp) (a b : Nat) : Dev × Nat × Option Nat :=
  match d.movCase m a b, Fmt.ofCode m.sqFmt with
  | 1, _ => (d.movRows m true, m.rows * m.rowBytes, none)
  | 2, some f => d.movSlot m f a b
  | 3, some f => (d.movSquares m f a b, m.rows * m.rowBytes, none)
  | 4, _ => (d, 0, some (d.firstFallow m a))
  | _, _ => (d.movRows m false, m.rows * m.rowBytes, none)

/-- First uncorrectable word that a MOV meets: one that it reads, or one that it must merge into. -/
def Dev.movUE (d : Dev) (m : MovOp) (a b : Nat) : Option Nat :=
  ((List.range m.rows).findSome? fun r => if isHbm a then d.ueIn (a + r * m.ss) m.rowBytes else none).or
    ((List.range m.rows).findSome? fun r => d.mergeUE (b + r * m.ds) m.rowBytes)

/-- MOV (R95, R136): every row must be reachable and readable; COUNT adds the bytes moved. -/
def Dev.mov (d : Dev) (f : Nat) (i : FItem) (u : Upset) : Dev :=
  let m := MovOp.of i.d
  match (List.range m.rows).find? fun r => (d.movRow m r).isNone with
  | some r => d.accessFail f (d.movBad m r)
  | none =>
    match d.movRow m 0 with
    | none => d.accessFail f m.src
    | some (a, b) =>
      let q := d.upset f (if isHbm a then u else u.onChip) a
      if !q.2 then q.1
      else
        let d := q.1
        match d.movUE m a b with
        | some w => d.hbmUE f w
        | none =>
          let d := d.each (List.range m.rows) fun d r =>
            (if isHbm a then d.corrects (a + r * m.ss) m.rowBytes else d).mergeFix (b + r * m.ds) m.rowBytes
          let q := d.movGo m a b
          match q.2.2 with
          | some x => q.1.failOp f feRefused x (some 0x21)
          | none => (if m.count then q.1.addCtr m.counter q.2.1 else q.1).opDone f

/-- MOV. -/
def execMov (f : Nat) (u : Upset) (s : State) : Host.Outcome State Fault Refusal :=
  runLive (decide (400 ≤ f ∧ f < 440)) (fun d => d.perform f opMov fun i d => d.mov f i u) s

/-! ### Headland operations -/

/-- How a headland descriptor leaves by its own furrow's port (R248, R280, R282): the port, or the code and log cause. -/
def Dev.hdlPort (d : Dev) (n dev : Nat) : Nat ⊕ (Nat × Nat) :=
  let e := d.routeEntry dev
  if !routeValid e then .inr (feAccess, 0x63)
  else if !(entryPorts e).contains n then .inr (feRefused, 0x61)
  else if !d.portIsUp n then .inr (feAccess, 0x60)
  else .inl n

/-- Command of a headland operation (Table 13.4); STAMP carries the header of Table 10.3, with the bits of its step as they stood when the operation began (R161). -/
def Dev.hdlCmd (d : Dev) (h : Hdl) (op : Nat) (i : FItem) (xid t0 : Nat) (ev : Bool × Bool) : Cmd :=
  let st := op == opAcc && h.stamp
  { Cmd.zero with
    op := if op = opPut then 1 else if op = opGet then 2 else 3
    src := d.devId
    dst := h.dev
    flags := b2n h.rcount + (if st then 2 + 4 * b2n ev.1 + 8 * b2n ev.2 else 0)
    addr := h.remote
    bytes := h.bytes
    rcounter := h.rctr
    afmt := if op = opAcc then h.afmt else 0
    aop := if op = opAcc then h.aop else 0
    tag := i.otag
    jobId := d.jobId
    xid := xid
    step := if st then i.step else 0
    ts := if st then t0 else 0
    anchor := if st && decide (2 ≤ i.step) then (d.seal (i.step - 2)).sealtime else 0 }

/-- A headland operation leaves: its local side is checked and read, the command goes out by its furrow's port, and the
descriptor waits for the response (R59, R137, R277). -/
def Dev.hdl (d : Dev) (f op : Nat) (i : FItem) (u : Upset) : Dev :=
  let h := Hdl.of i.d
  let n := furrowUnit f
  if d.quiesced then d
  else
    match d.hdlPort n h.dev with
    | .inr e => d.failOp f e.1 h.remote (some e.2)
    | .inl p =>
      if !d.sheafMem h.loc h.bytes then d.accessFail f h.loc
      else if op != opGet && !isHbm h.loc && d.touchesFallow h.loc h.bytes then d.failOp f feRefused h.loc (some 0x21)
      else
        let q := d.upset f (if isHbm h.loc && op != opGet then u else u.onChip) h.loc
        if !q.2 then q.1
        else
          let d := q.1
          match if isHbm h.loc && op != opGet then d.ueIn h.loc h.bytes else none with
          | some w => d.hbmUE f w
          | none =>
            let d := if isHbm h.loc && op != opGet then d.corrects h.loc h.bytes else d
            let (d, xid) := d.newXid
            let c := d.hdlCmd h op i xid (d.frw f).t0 (d.frw f).bits
            let k : XKind := if op = opPut then .put f i.step
              else if op = opGet then .get f i.step h.loc (if h.lcount then some h.lctr else none)
              else .acc f i.step h.stamp
            let d := d.sendBy p c (if op = opGet then [] else d.read h.loc h.bytes)
            { d.setFrw f { d.frw f with done := true, held := 1 } with xacts := d.xacts ++ [⟨xid, k, h.dev, p, c⟩] }

/-- HDL.PUT (R285). -/
def execHdlPut (f : Nat) (u : Upset) (s : State) : Host.Outcome State Fault Refusal :=
  runLive (decide (440 ≤ f ∧ f < 500)) (fun d => d.perform f opPut fun i d => d.hdl f opPut i u) s

/-- HDL.GET (R285). -/
def execHdlGet (f : Nat) (u : Upset) (s : State) : Host.Outcome State Fault Refusal :=
  runLive (decide (440 ≤ f ∧ f < 500)) (fun d => d.perform f opGet fun i d => d.hdl f opGet i u) s

/-- HDL.ACC (R207, R285). -/
def execHdlAcc (f : Nat) (u : Upset) (s : State) : Host.Outcome State Fault Refusal :=
  runLive (decide (440 ≤ f ∧ f < 500)) (fun d => d.perform f opAcc fun i d => d.hdl f opAcc i u) s

end Sys2Proof.Machine
end

