-- ==== Sys2Proof/Machine/Team.lean ====
section
/-! DEFINITION. How a team's instruction issues: readiness, fetch, legality, guard, and the forms of its effect (R228 to R232, R237,
R243). -/
namespace Sys2Proof.Machine
open Sys2Proof

/-- An instruction about to act: core, slot, team engine, slot state after the pops, word, program counter, active lanes, lanes
that issued. -/
structure TCtx where
  c : Nat
  j : Nat
  t : Tme
  x : Slot
  w : Nat
  pc : Nat
  act : Nat
  iss : Nat

/-- The instruction has acted: the lanes that issued go on behind it. -/
def Dev.goOn (d : Dev) (k : TCtx) (x : Slot) : Dev := d.retire k.c k.j (x.setPcs k.iss (pcMask (k.pc + 8)))

/-- The team parks at the instruction. -/
def Dev.parkAt (d : Dev) (k : TCtx) (cause addr fault : Nat) : Dev := d.parkTeam k.c k.j k.x ⟨cause, k.pc, addr, k.iss, fault⟩

/-- An uncorrectable HBM word that a team reads is a device fault (R245, R299, R354). -/
def Dev.teamUE (d : Dev) (c w : Nat) : Dev :=
  let t := d.core c
  let d := (d.countUE w).glog (8 * w) 0x07 reqTeam t.tag t.step
  let at_ := d.launchAt c
  d.devFault { cause := jfUncorrectable, furrow := furrowId t.furrow, tag := t.tag, step := t.step, detail := 0x02,
               kind := kStack, unit := stackOf (8 * w), rtn := at_.rtn, pos := at_.pos }

/-! ### Targets of memory instructions -/

/-- What a lane's address names: an error, memory of this device in the host view, a flag (false) or counter (true), another
device's address (R233, R248, R250, R251). -/
inductive Tgt
  | err
  | mem (a : Nat)
  | sync (ctr : Bool) (i : Nat)
  | remote (dev a : Nat)
deriving DecidableEq, Repr

/-- Does a device field name this device (R248)? -/
def Dev.isSelf (d : Dev) (dev : Nat) : Bool := dev == 0xFFFF || dev == d.devId

/-- Target of an access of `n` bytes. -/
def Dev.target (d : Dev) (addr n : Nat) : Tgt :=
  let dev := addr / 2 ^ 48
  let a := addr % 2 ^ 48
  if !d.isSelf dev then .remote dev a
  else
    match d.agentAddr a with
    | none => .err
    | some h =>
      match region h with
      | .ctrl off =>
        if off < 0x2000_0000 then .err
        else
          match syncAt (off - 0x2000_0000) with
          | some (c, i) => if d.declared c i then .sync c i else .err
          | none => .err
      | _ => if d.sheafMem h n then .mem h else .err

/-- Lane addresses of a memory instruction. -/
def TCtx.addr (k : TCtx) (l : Nat) : Nat := toTwos ((k.x.rd (mUA k.w) (tA k.w) 2 l : Int) + mOff k.w) 64

/-- An HBM address that a lane of a memory instruction names, if one does. -/
def Dev.laneHbm (d : Dev) (k : TCtx) : Option Nat :=
  if tCls k.w = 4 || tCls k.w = 5 then
    (lanesOf k.act).findSome? fun l => match d.target (k.addr l) (mBytes k.w) with | .mem a => if a < hbmSize then some a else none | _ => none
  else none

/-! ### Issue (R228 to R230, R235) -/

/-- Is the team of slot `j` ready to issue: resident, not parked, not suspended, with no access outstanding (R228)? -/
def Dev.readySlot (d : Dev) (c j : Nat) : Option Slot :=
  let t := d.core c
  match SMap.find t.slots j with
  | some x => if t.active && x.park.isNone && !x.waiting && x.access.isNone then some x else none
  | none => none

/-- The fetch of a ready team's next instruction: no team is ready, an address that draws an error response and the unit's refusal of it, an
uncorrectable word, or the instruction. -/
inductive Fetched
  | none
  | bad (x : Slot) (pc iss : Nat) (host : Option Nat)
  | ue (w : Nat)
  | word (k : TCtx) (a : Nat)

/-- Fetch of slot `j`'s next instruction; a pop of a reconvergence entry on the way is a progress event (R237, R239). -/
def Dev.fetchT (d : Dev) (c j : Nat) : Fetched :=
  match d.readySlot c j with
  | none => .none
  | some x0 =>
    match Slot.pick x0.stack x0 with
    | none => .none
    | some (x1, pc, iss) =>
      let x := if x1.stack.length < x0.stack.length then x1.progress d.tb.time else x1
      match d.agentAddr pc with
      | none => .bad x pc iss none
      | some a =>
        if !d.sheafMem a 8 then .bad x pc iss (some a)
        else
          match if a < hbmSize then d.ueIn a 8 else none with
          | some w => .ue w
          | none =>
            let w := d.readN a 8
            let act := x.guard w iss
            .word ⟨c, j, d.core c, x, w, pc, match x.replay with | some r => act &&& r | none => act, iss⟩ a

/-- Is a release at scope `sc` of slot `j` held: a write that the team went on without is not acknowledged yet (R259, R266)? -/
def Dev.lostWrite (d : Dev) (c j sc : Nat) : Bool :=
  d.xacts.any fun x => match x.kind with
    | .lost c' j' w => c' == c && j' == j && (w == 1 && decide (3 ≤ sc) || w == 2 && decide (4 ≤ sc))
    | _ => false

/-- Scope of the release that an instruction makes, if it makes one (R256). -/
def releaseScope (w : Nat) : Option Nat :=
  if tCls w = 4 then (if tNum w = 1 && mOrd w = 2 then some (mScope w) else none)
  else if tCls w = 5 then (if 2 ≤ mOrd w then some (mScope w) else none)
  else if tCls w = 6 then (if tNum w = 0 || tNum w = 2 then some 3 else if tNum w = 4 then some (bitsOf w 0 3) else none)
  else none

/-- Must an instruction wait: its scheduler's memory stage is occupied (R235), it needs the fabric while commands do not flow (R283), or it is
a release that acknowledgements hold (R259)? -/
def Dev.heldT (d : Dev) (k : TCtx) : Bool :=
  ((tCls k.w == 4 || tCls k.w == 5) &&
    (decide (d.tb.time < SMap.get 0 k.t.busy (k.j % 4)) ||
      (d.bit HUB_EPOCH HUB_EPOCH_QUIESCED && (lanesOf k.act).any fun l => !d.isSelf (k.addr l / 2 ^ 48)))) ||
    (match releaseScope k.w with | some sc => k.act != 0 && d.lostWrite k.c k.j sc | none => false)

/-- May the team of slot `j` issue now? -/
def Dev.canIssue (d : Dev) (c j : Nat) : Bool :=
  match d.fetchT c j with
  | .none => false
  | .word k _ => !(tLegal k.w && tInRange k.w (8 * k.t.regs)) || !d.heldT k
  | _ => true

/-- Does scheduler j mod 4 take its next instruction from slot `j`: the first of its teams that may issue, in round-robin order after the one that
issued last (R228)? -/
def Dev.turn (d : Dev) (c j : Nat) : Bool :=
  let l := SMap.get 60 (d.core c).last (j % 4) / 4
  ((List.range 16).map fun i => 4 * ((l + 1 + i) % 16) + j % 4).find? (d.canIssue c) == some j

/-- The scheduler of slot `j` has issued from it. -/
def Dev.took (d : Dev) (c j : Nat) : Dev := d.setCore c ((d.core c).tookBy j)

/-- A parity error of the register file, the team L1 or the instruction word (R245, R352, R353), or an uncorrectable HBM word that the
instruction reads. The flag lets it go on. -/
def Dev.teamUpset (d : Dev) (k : TCtx) (u : Upset) : Dev × Bool :=
  let stop (a : Nat) : Dev := (d.mcheckMark kCore k.c).failOp k.t.furrow feParity a (some 0x04)
  match u with
  | .none => (d, true)
  | .replays n => (d.stick ERR_REPLAY ERR_REPLAY_COUNT n, true)
  | .persistent a => (stop a, false)
  | .uncorrectable => (match d.laneHbm k with | some a => d.teamUE k.c (a / 8) | none => stop 0, false)

/-- Issue the next instruction of a team when its turn has come and the instruction is of class `cls` and number `num`: fetch, legality,
register range, guard, then its body (R228 to R230, R237). An instruction that is illegal or out of range parks the team whatever it is. -/
def Dev.issueT (d : Dev) (c j : Nat) (u : Upset) (cls : Nat) (num : Nat → Bool) (body : TCtx → Dev → Dev) : Dev :=
  if !d.turn c j then d
  else
    match d.fetchT c j with
    | .none => d
    | .ue w => d.teamUE c w
    | .bad x pc iss a =>
      let t := d.core c
      let d := match a with | some a => d.refuseAt a reqTeam t.tag t.step | none => d
      (d.took c j).parkTeam c j x ⟨pkFetch, pc, pc, iss, iss⟩
    | .word k a =>
      if !tLegal k.w then (d.took c j).parkTeam c j k.x ⟨pkIllegal, k.pc, 0, k.iss, k.iss⟩
      else if !tInRange k.w (8 * k.t.regs) then (d.took c j).parkTeam c j k.x ⟨pkRegRange, k.pc, 0, k.iss, k.iss⟩
      else if tCls k.w = cls && num (tNum k.w) then
        let q := (d.took c j).teamUpset k u
        if q.2 then body k ((q.1.corrects a 8).bump TME_ISSUE TME_ISSUE_COUNT 1 c) else q.1
      else d

/-- Cores and slots that exist. -/
def isSlot (c j : Nat) : Bool := decide (c < 140) && decide (j < 64)

/-- A row of the team engine. -/
def teamRow (c j : Nat) (u : Upset) (cls : Nat) (num : Nat → Bool) (body : TCtx → Dev → Dev) (s : State) : Host.Outcome State Fault Refusal :=
  runLive (isSlot c j) (fun d => d.issueT c j u cls num body) s

/-- Operand values of a lane, each of the words its field has. -/
def TCtx.a (k : TCtx) (n l : Nat) : Nat := k.x.rd (tUA k.w) (tA k.w) n l
def TCtx.b (k : TCtx) (n l : Nat) : Nat := k.x.rd (tUB k.w) (tB k.w) n l
def TCtx.cc (k : TCtx) (n l : Nat) : Nat := k.x.rd (tUC k.w) (tC k.w) n l

/-- An instruction that gives each active lane a value of `n` words. -/
def Dev.laneOp (d : Dev) (k : TCtx) (n : Nat) (f : Nat → Nat) : Dev :=
  d.goOn k (k.x.result k.w n ((lanesOf k.act).map fun l => (l, f l)))

/-- An instruction that gives each active lane a predicate. -/
def Dev.predOp (d : Dev) (k : TCtx) (f : Nat → Bool) : Dev :=
  d.goOn k (k.x.wp (tD k.w) k.act (maskOf ((lanesOf k.act).filter f)))

end Sys2Proof.Machine
end

