-- ==== Sys2Proof/Machine/TeamAlu.lean ====
section
/-! DEFINITION. Team instructions of classes 0 to 3: integer, floating point, move and convert, control (R231, R232, R237, R241,
R242). -/
namespace Sys2Proof

/-! ### Integer (Table 11.4a, class 0) -/

/-- Words of an integer operand. -/
def iWords (w : Nat) : Nat := if iWide (iType w) then 2 else 1

/-- Value of an integer operand as its type reads it. -/
def iVal (ty v wd : Nat) : Int := if iSigned ty then sgn v wd else (v % 2 ^ wd : Nat)

/-- Quotient truncated towards zero; all ones for a zero divisor (Table 11.4a). -/
def iDiv (ty a b wd : Nat) : Nat :=
  if b % 2 ^ wd = 0 then 2 ^ wd - 1 else toTwos (Int.tdiv (iVal ty a wd) (iVal ty b wd)) wd

/-- Remainder; A for a zero divisor. -/
def iRem (ty a b wd : Nat) : Nat :=
  if b % 2 ^ wd = 0 then a % 2 ^ wd else toTwos (Int.tmod (iVal ty a wd) (iVal ty b wd)) wd

/-- Shift right: arithmetic for i types. -/
def iShr (ty a b wd : Nat) : Nat := toTwos (iVal ty a wd / (2 ^ (b % wd) : Nat)) wd

/-- Conditions 0 eq, 1 ne, 2 lt, 3 le, 4 gt, 5 ge. -/
def condInt (cond : Nat) (a b : Int) : Bool :=
  match cond with
  | 0 => a == b
  | 1 => a != b
  | 2 => decide (a < b)
  | 3 => decide (a ≤ b)
  | 4 => decide (b < a)
  | _ => decide (b ≤ a)

/-- Leading zeros and bit reversal of a `wd`-bit number. -/
def clzOf (v wd : Nat) : Nat := if v = 0 then wd else wd - 1 - Nat.log2 v
def revOf (v : Nat) : Nat → Nat
  | 0 => 0
  | n + 1 => b2n (bitOf v n) + 2 * revOf v n

/-- Population count, leading zeros or bit reversal, by BIT. -/
def bitFn (sel v wd : Nat) : Nat := match sel with | 0 => popc v wd | 1 => clzOf v wd | _ => revOf v wd

/-! ### Floating point (class 1) -/

def encFp64 : FpEnc := ⟨11, 52, 1023, 0x7FEFFFFFFFFFFFFF, 1⟩

/-- Words of a floating operand. -/
def fWords (w : Nat) : Nat := if fType w = 1 then 2 else 1

/-- IEEE 754-2019 minimum and maximum: NaN gives NaN, -0 lies below +0. -/
def ieeeMin (a b : Ex) : Ex :=
  if a.isNan || b.isNan then .nan else if Ex.lt a b then a else if Ex.lt b a then b else if a.isNeg then a else b
def ieeeMax (a b : Ex) : Ex :=
  if a.isNan || b.isNan then .nan else if Ex.lt a b then b else if Ex.lt b a then a else if a.isNeg then b else a

/-- Apply a function of exact values with one rounding, in each half of a packed pair. -/
def fpApply (ty : Nat) (f : Ex → Ex → Ex → Ex) (a b c : Nat) : Nat :=
  let one (e : FpEnc) (a b c : Nat) : Nat := e.encodeIeee (f (e.decode a) (e.decode b) (e.decode c))
  match ty with
  | 0 => one encFp32 a b c
  | 1 => one encFp64 a b c
  | _ =>
    let e := if ty = 2 then encBf16 else encFp16
    one e (a % 65536) (b % 65536) (c % 65536) + 65536 * one e (a / 65536 % 65536) (b / 65536 % 65536) (c / 65536 % 65536)

/-- Sign bits of a type. -/
def fSigns (ty : Nat) : Nat := match ty with | 0 => 2 ^ 31 | 1 => 2 ^ 63 | _ => 2 ^ 31 + 2 ^ 15

/-- Conditions on floating values: with a NaN every one is false but ne and un. -/
def condFp (cond : Nat) (a b : Ex) : Bool :=
  if a.isNan || b.isNan then cond == 1 || cond == 6
  else
    match cond with
    | 0 => Ex.eqv a b
    | 1 => !Ex.eqv a b
    | 2 => Ex.lt a b
    | 3 => !Ex.lt b a
    | 4 => Ex.lt b a
    | 5 => !Ex.lt a b
    | _ => false

/-! ### Convert (R242) -/

/-- Exact value of a `cvt` source. -/
def cvtVal (code v scale : Nat) : Ex :=
  let i (x : Int) : Ex := .fin (decide (x < 0)) x.natAbs 0
  match code with
  | 0x10 => i (sgn v 32)
  | 0x11 => .fin false (v % 2 ^ 32) 0
  | 0x12 => i (sgn v 64)
  | 0x13 => .fin false (v % 2 ^ 64) 0
  | _ => match Fmt.ofCode code with | some f => f.value (v % 2 ^ f.bits) scale | none => .nan

/-- Round to an integer, to nearest even, in `wd` bits; none outside the type's range. -/
def exToInt (signed : Bool) (wd : Nat) : Ex → Option Nat
  | .fin n m e =>
    let q := rneAt m e 0
    let v : Int := if n then -(q : Int) else q
    if signed then (if -(2 ^ (wd - 1) : Nat) ≤ v ∧ v < (2 ^ (wd - 1) : Nat) then some (toTwos v wd) else none)
    else if 0 ≤ v ∧ v < (2 ^ wd : Nat) then some v.toNat else none
  | _ => none

/-- Result of `cvt`, a NaN or infinity as Table 7.2 has it; none where the spec states none: an integer out of range, a finite value at a
destination scale of 0xFF (log entry 15). -/
def cvtOut (code scale : Nat) (x : Ex) : Option Nat :=
  match code with
  | 0x10 => exToInt true 32 x
  | 0x11 => exToInt false 32 x
  | 0x12 => exToInt true 64 x
  | 0x13 => exToInt false 64 x
  | _ =>
    match Fmt.ofCode code with
    | some f =>
      if f.scaled then
        (if x.isNan && !f.hasNan then some 0
         else if x.isFin && scale == 255 then none
         else some (f.encAt ((scale : Int) - 127) x).code)
      else some (f.enc1 x).code
    | none => none

end Sys2Proof

namespace Sys2Proof.Machine
open Sys2Proof

/-- B of an integer or floating instruction: the register, or IMM sign-extended to the width (Table 11.4b). -/
def TCtx.bi (k : TCtx) (n l : Nat) : Nat := if tImmF k.w then toTwos (sgn (tImm k.w) 32) (32 * n) else k.b n l

/-- An integer instruction of A and B. -/
def intOp (f : (ty a b wd : Nat) → Nat) (k : TCtx) (d : Dev) : Dev :=
  let n := iWords k.w
  d.laneOp k n fun l => f (iType k.w) (k.a n l) (k.bi n l) (32 * n)

/-- INT_ADD. -/
def execIntAdd (c j : Nat) (u : Upset) (s : State) : Host.Outcome State Fault Refusal :=
  teamRow c j u 0 (· == 0x0) (intOp fun _ a b wd => (a + b) % 2 ^ wd) s

/-- INT_SUB. -/
def execIntSub (c j : Nat) (u : Upset) (s : State) : Host.Outcome State Fault Refusal :=
  teamRow c j u 0 (· == 0x1) (intOp fun _ a b wd => (a + 2 ^ wd - b % 2 ^ wd) % 2 ^ wd) s

/-- INT_MUL: the low half of the product. -/
def execIntMul (c j : Nat) (u : Upset) (s : State) : Host.Outcome State Fault Refusal :=
  teamRow c j u 0 (· == 0x2) (intOp fun _ a b wd => a * b % 2 ^ wd) s

/-- INT_MULHI: the high half. -/
def execIntMulhi (c j : Nat) (u : Upset) (s : State) : Host.Outcome State Fault Refusal :=
  teamRow c j u 0 (· == 0x3) (intOp fun ty a b wd => toTwos (iVal ty a wd * iVal ty b wd / (2 ^ wd : Nat)) wd) s

/-- INT_MAD: the low half of A · B + C. -/
def execIntMad (c j : Nat) (u : Upset) (s : State) : Host.Outcome State Fault Refusal :=
  teamRow c j u 0 (· == 0x4) (fun k d =>
    let n := iWords k.w
    d.laneOp k n fun l => (k.a n l * k.b n l + k.cc n l) % 2 ^ (32 * n)) s

/-- INT_DIV. -/
def execIntDiv (c j : Nat) (u : Upset) (s : State) : Host.Outcome State Fault Refusal := teamRow c j u 0 (· == 0x5) (intOp iDiv) s

/-- INT_REM. -/
def execIntRem (c j : Nat) (u : Upset) (s : State) : Host.Outcome State Fault Refusal := teamRow c j u 0 (· == 0x6) (intOp iRem) s

/-- INT_MIN. -/
def execIntMin (c j : Nat) (u : Upset) (s : State) : Host.Outcome State Fault Refusal :=
  teamRow c j u 0 (· == 0x7) (intOp fun ty a b wd => if iVal ty b wd < iVal ty a wd then b else a) s

/-- INT_MAX. -/
def execIntMax (c j : Nat) (u : Upset) (s : State) : Host.Outcome State Fault Refusal :=
  teamRow c j u 0 (· == 0x8) (intOp fun ty a b wd => if iVal ty a wd < iVal ty b wd then b else a) s

/-- INT_AND. -/
def execIntAnd (c j : Nat) (u : Upset) (s : State) : Host.Outcome State Fault Refusal :=
  teamRow c j u 0 (· == 0x9) (intOp fun _ a b _ => a &&& b) s

/-- INT_OR. -/
def execIntOr (c j : Nat) (u : Upset) (s : State) : Host.Outcome State Fault Refusal :=
  teamRow c j u 0 (· == 0xA) (intOp fun _ a b _ => a ||| b) s

/-- INT_XOR. -/
def execIntXor (c j : Nat) (u : Upset) (s : State) : Host.Outcome State Fault Refusal :=
  teamRow c j u 0 (· == 0xB) (intOp fun _ a b _ => a ^^^ b) s

/-- INT_SHL: by B modulo the width. -/
def execIntShl (c j : Nat) (u : Upset) (s : State) : Host.Outcome State Fault Refusal :=
  teamRow c j u 0 (· == 0xC) (intOp fun _ a b wd => a * 2 ^ (b % wd) % 2 ^ wd) s

/-- INT_SHR. -/
def execIntShr (c j : Nat) (u : Upset) (s : State) : Host.Outcome State Fault Refusal := teamRow c j u 0 (· == 0xD) (intOp iShr) s

/-- INT_CMP: a predicate per lane. -/
def execIntCmp (c j : Nat) (u : Upset) (s : State) : Host.Outcome State Fault Refusal :=
  teamRow c j u 0 (· == 0xE) (fun k d =>
    let n := iWords k.w
    d.predOp k fun l => condInt (tCond k.w) (iVal (iType k.w) (k.a n l) (32 * n)) (iVal (iType k.w) (k.b n l) (32 * n))) s

/-- INT_BIT. -/
def execIntBit (c j : Nat) (u : Upset) (s : State) : Host.Outcome State Fault Refusal :=
  teamRow c j u 0 (· == 0xF) (fun k d =>
    let n := iWords k.w
    d.laneOp k n fun l => bitFn (tBit k.w) (k.a n l) (32 * n)) s

/-! ### Floating point -/

/-- B of a floating instruction: the register or IMM. -/
def TCtx.bf (k : TCtx) (n l : Nat) : Nat := if tImmF k.w then tImm k.w else k.b n l

/-- A floating instruction of A, B and C with one rounding (R231, R242). -/
def fpOp (f : Ex → Ex → Ex → Ex) (k : TCtx) (d : Dev) : Dev :=
  let n := fWords k.w
  d.laneOp k n fun l => fpApply (fType k.w) f (k.a n l) (k.bf n l) (k.cc n l)

/-- A function of one FP32 operand's code. -/
def f32Op (f : Nat → Nat) (k : TCtx) (d : Dev) : Dev := d.laneOp k 1 fun l => f (k.a 1 l)

/-- FP_ADD. -/
def execFpAdd (c j : Nat) (u : Upset) (s : State) : Host.Outcome State Fault Refusal :=
  teamRow c j u 1 (· == 0x0) (fpOp fun a b _ => Ex.add a b) s

/-- FP_SUB. -/
def execFpSub (c j : Nat) (u : Upset) (s : State) : Host.Outcome State Fault Refusal :=
  teamRow c j u 1 (· == 0x1) (fpOp fun a b _ => Ex.sub a b) s

/-- FP_MUL. -/
def execFpMul (c j : Nat) (u : Upset) (s : State) : Host.Outcome State Fault Refusal :=
  teamRow c j u 1 (· == 0x2) (fpOp fun a b _ => Ex.mul a b) s

/-- FP_FMA: A · B + C, rounded once. -/
def execFpFma (c j : Nat) (u : Upset) (s : State) : Host.Outcome State Fault Refusal :=
  teamRow c j u 1 (· == 0x3) (fpOp fun a b x => Ex.add (Ex.mul a b) x) s

/-- FP_MIN. -/
def execFpMin (c j : Nat) (u : Upset) (s : State) : Host.Outcome State Fault Refusal :=
  teamRow c j u 1 (· == 0x4) (fpOp fun a b _ => ieeeMin a b) s

/-- FP_MAX. -/
def execFpMax (c j : Nat) (u : Upset) (s : State) : Host.Outcome State Fault Refusal :=
  teamRow c j u 1 (· == 0x5) (fpOp fun a b _ => ieeeMax a b) s

/-- FP_RCP. -/
def execFpRcp (c j : Nat) (u : Upset) (s : State) : Host.Outcome State Fault Refusal :=
  teamRow c j u 1 (· == 0x6) (f32Op fun x => encFp32.encodeIeee (Ex.div (Ex.ofNat 1) (ofF32 x))) s

/-- FP_RSQRT. -/
def execFpRsqrt (c j : Nat) (u : Upset) (s : State) : Host.Outcome State Fault Refusal :=
  teamRow c j u 1 (· == 0x7) (f32Op fun x => encFp32.encodeIeee (Ex.rsqrt (ofF32 x))) s

/-- FP_SQRT. -/
def execFpSqrt (c j : Nat) (u : Upset) (s : State) : Host.Outcome State Fault Refusal :=
  teamRow c j u 1 (· == 0x8) (f32Op fun x => encFp32.encodeIeee (Ex.sqrt (ofF32 x))) s

/-- FP_EXP2. -/
def execFpExp2 (c j : Nat) (u : Upset) (s : State) : Host.Outcome State Fault Refusal := teamRow c j u 1 (· == 0x9) (f32Op f32Exp2) s

/-- FP_LOG2. -/
def execFpLog2 (c j : Nat) (u : Upset) (s : State) : Host.Outcome State Fault Refusal := teamRow c j u 1 (· == 0xA) (f32Op f32Log2) s

/-- FP_SIN. -/
def execFpSin (c j : Nat) (u : Upset) (s : State) : Host.Outcome State Fault Refusal := teamRow c j u 1 (· == 0xB) (f32Op (f32Trig 0)) s

/-- FP_COS. -/
def execFpCos (c j : Nat) (u : Upset) (s : State) : Host.Outcome State Fault Refusal := teamRow c j u 1 (· == 0xC) (f32Op (f32Trig 1)) s

/-- FP_NEG: the sign flipped, of a NaN too. -/
def execFpNeg (c j : Nat) (u : Upset) (s : State) : Host.Outcome State Fault Refusal :=
  teamRow c j u 1 (· == 0xD) (fun k d => d.laneOp k (fWords k.w) fun l => k.a (fWords k.w) l ^^^ fSigns (fType k.w)) s

/-- FP_CMP. The spec states no predicate for a packed pair: a free value (log entry 16). -/
def execFpCmp (c j : Nat) (u : Upset) (s : State) : Host.Outcome State Fault Refusal :=
  teamRow c j u 1 (· == 0xE) (fun k d =>
    let n := fWords k.w
    let e := if fType k.w = 1 then encFp64 else encFp32
    let i := d.free
    if 2 ≤ fType k.w then d.fresh.predOp k fun l => Config.freeBool i l
    else d.predOp k fun l => condFp (tCond k.w) (e.decode (k.a n l)) (e.decode (k.b n l))) s

/-- FP_ABS: the sign cleared, of a NaN too. -/
def execFpAbs (c j : Nat) (u : Upset) (s : State) : Host.Outcome State Fault Refusal :=
  teamRow c j u 1 (· == 0xF) (fun k d =>
    let m := fSigns (fType k.w)
    d.laneOp k (fWords k.w) fun l => k.a (fWords k.w) l - (k.a (fWords k.w) l &&& m)) s

/-! ### Move and convert (class 2) -/

/-- Words of a `mov`. -/
def movWords (w : Nat) : Nat := if tImmF w then (if tItype w = 3 then 2 else 1) else if bitOf w 0 then 2 else 1

/-- TEAM_MOV. -/
def execTeamMov (c j : Nat) (u : Upset) (s : State) : Host.Outcome State Fault Refusal :=
  teamRow c j u 2 (· == 0x0) (fun k d =>
    let n := movWords k.w
    d.laneOp k n fun l => if tImmF k.w then toTwos (sgn (tImm k.w) 32) (32 * n) else k.a n l) s

/-- The sources of Table 11.5. -/
def Dev.special (d : Dev) (k : TCtx) (src l : Nat) : Nat :=
  match src with
  | 0 => l
  | 1 => k.x.team
  | 2 => k.t.teams
  | 3 => (d.logOf k.c).getD 0
  | 4 => k.c
  | 5 => dieOf k.c
  | 6 => d.devId
  | 7 => k.t.step
  | 8 => k.t.tag
  | _ => d.tb.time

/-- MOV_S. -/
def execMovS (c j : Nat) (u : Upset) (s : State) : Host.Outcome State Fault Refusal :=
  teamRow c j u 2 (· == 0x1) (fun k d =>
    let src := bitsOf k.w 0 4
    d.laneOp k (if src = 9 then 2 else 1) (d.special k src)) s

/-- TEAM_CVT (R242): a result that the spec does not state is a free value (log entry 15). -/
def execTeamCvt (c j : Nat) (u : Upset) (s : State) : Host.Outcome State Fault Refusal :=
  teamRow c j u 2 (· == 0x2) (fun k d =>
    let dst := cvtDst k.w
    let src := cvtSrc k.w
    let i := d.free
    let sc (l : Nat) : Nat := k.cc 1 l % 256
    d.fresh.laneOp k (if cvtWide dst then 2 else 1) fun l =>
      match cvtOut dst (sc l) (cvtVal src (k.a (if cvtWide src then 2 else 1) l) (sc l)) with
      | some v => v
      | none =>
        let b := match Fmt.ofCode dst with | some f => f.bits | none => if cvtWide dst then 64 else 32
        (Config.freeWord i l).toNat % 2 ^ b) s

/-- SEL. -/
def execSel (c j : Nat) (u : Upset) (s : State) : Host.Outcome State Fault Refusal :=
  teamRow c j u 2 (· == 0x3) (fun k d => d.laneOp k 1 fun l => if k.x.pr (bitsOf k.w 0 3) l then k.a 1 l else k.b 1 l) s

/-- Active lanes whose predicate A[2:0] is 1. -/
def TCtx.polled (k : TCtx) : Nat := k.act &&& k.x.pm (tA k.w % 8)

/-- POLL_ANY. -/
def execPollAny (c j : Nat) (u : Upset) (s : State) : Host.Outcome State Fault Refusal :=
  teamRow c j u 2 (· == 0x4) (fun k d => d.predOp k fun _ => k.polled != 0) s

/-- POLL_ALL. -/
def execPollAll (c j : Nat) (u : Upset) (s : State) : Host.Outcome State Fault Refusal :=
  teamRow c j u 2 (· == 0x5) (fun k d => d.predOp k fun _ => k.polled == k.act) s

/-- POLL_LOW: the lowest-numbered active lane. -/
def execPollLow (c j : Nat) (u : Upset) (s : State) : Host.Outcome State Fault Refusal :=
  teamRow c j u 2 (· == 0x6) (fun k d => d.predOp k fun l => (lanesOf k.act).head? == some l) s

/-- POLL_MASK. -/
def execPollMask (c j : Nat) (u : Upset) (s : State) : Host.Outcome State Fault Refusal :=
  teamRow c j u 2 (· == 0x7) (fun k d => d.laneOp k 1 fun _ => k.polled) s

/-- The lane that `xch.lane` selects, in 32-bit arithmetic; format I has no MOD and takes mode 0 (log entry 17). -/
def xchLane (mode l b : Nat) : Nat :=
  match mode with
  | 0 => b
  | 1 => (l + 2 ^ 32 - b % 2 ^ 32) % 2 ^ 32
  | 2 => (l + b) % 2 ^ 32
  | _ => l ^^^ b

/-- XCH_LANE. -/
def execXchLane (c j : Nat) (u : Upset) (s : State) : Host.Outcome State Fault Refusal :=
  teamRow c j u 2 (· == 0x8) (fun k d => d.laneOp k 1 fun l =>
    let t := xchLane (if tImmF k.w then 0 else bitsOf k.w 0 2) l (if tImmF k.w then tImm k.w else k.b 1 l)
    if t < 32 && bitOf k.act t then k.a 1 t else k.a 1 l) s

/-- PRD: predicate from a bit of A. -/
def execPrd (c j : Nat) (u : Upset) (s : State) : Host.Outcome State Fault Refusal :=
  teamRow c j u 2 (· == 0x9) (fun k d => d.predOp k fun l => bitOf (k.a 1 l) (bitsOf k.w 0 5)) s

/-! ### Control (class 3) -/

/-- Branch target of a lane. -/
def TCtx.target (k : TCtx) (l : Nat) : Nat :=
  pcMask (if tImmF k.w then toTwos ((k.pc : Int) + sgn (tImm k.w) 32) 64 else k.a 2 l)

/-- JMP (R237): the active lanes branch, the others go on. -/
def execJmp (c j : Nat) (u : Upset) (s : State) : Host.Outcome State Fault Refusal :=
  teamRow c j u 3 (· == 0x0) (fun k d =>
    let x := k.x.setPcs k.iss (pcMask (k.pc + 8))
    d.retire k.c k.j ((lanesOf k.act).foldl (fun (x : Slot) l => x.setPcs (2 ^ l) (k.target l)) x)) s

/-- RCV_SET (R237): the 33rd entry parks the team. -/
def execRcvSet (c j : Nat) (u : Upset) (s : State) : Host.Outcome State Fault Refusal :=
  teamRow c j u 3 (· == 0x1) (fun k d =>
    if k.act = 0 then d.goOn k k.x
    else if 32 ≤ k.x.stack.length then d.parkAt k pkRcv 0 k.iss
    else d.goOn k { k.x with stack := (k.target 0, k.act) :: k.x.stack }) s

/-- The launch of a core completes (R225): its furrow's descriptor has run. -/
def Dev.launchDone (d : Dev) (c : Nat) : Dev :=
  let t := d.core c
  ((d.setCore c { t with active := false }).launchEnd c).opDone t.furrow

/-- No team waits any longer for what the team of a slot went on without. -/
def Xact.forget (c j : Nat) (x : Xact) : Xact :=
  match x.kind with
  | .lost c' j' _ => if c' = c && j' = j then { x with kind := .lost c j 0 } else x
  | _ => x

/-- A team ends: its slot is freed; with the last team the launch completes. -/
def Dev.endTeam (d : Dev) (c j : Nat) : Dev :=
  let t := d.core c
  let d := { d.setCore c { t with slots := SMap.erase t.slots j, ended := t.ended + 1 } with xacts := d.xacts.map (Xact.forget c j) }
  if t.teams ≤ t.ended + 1 then d.launchDone c else d

/-- EXIT (R225): the active lanes end. -/
def execExit (c j : Nat) (u : Upset) (s : State) : Host.Outcome State Fault Refusal :=
  teamRow c j u 3 (· == 0x2) (fun k d =>
    let x := { (if k.act = 0 then k.x else k.x.progress d.tb.time) with exited := k.x.exited ||| k.act }
    if x.exited = allLanes then d.endTeam k.c k.j else d.goOn k x) s

/-- BRK (R243). -/
def execBrk (c j : Nat) (u : Upset) (s : State) : Host.Outcome State Fault Refusal :=
  teamRow c j u 3 (· == 0x3) (fun k d => if k.act = 0 then d.goOn k k.x else d.parkAt k pkBreak 0 k.iss) s

/-- STAT_NF (R241). -/
def execStatNf (c j : Nat) (u : Upset) (s : State) : Host.Outcome State Fault Refusal :=
  teamRow c j u 3 (· == 0x4) (fun k d => (if k.polled != 0 then d.stepEvt k.t.step false true else d).goOn k k.x) s

/-- TEAM_NOP. -/
def execTeamNop (c j : Nat) (u : Upset) (s : State) : Host.Outcome State Fault Refusal :=
  teamRow c j u 3 (· == 0x5) (fun k d => d.goOn k k.x) s

end Sys2Proof.Machine
end

