-- ==== Sys2Proof/Machine/TeamMem.lean ====
section
/-! DEFINITION. Team memory instructions: loads, stores, atomics, synchronisation (R233 to R236, R240, R251 to R260), with the team L1, the
cache plots and the private copies. -/
namespace Sys2Proof.Machine
open Sys2Proof

/-- A refused lane is logged by the unit that refuses (R355). -/
def Dev.teamRefuse (d : Dev) (c addr : Nat) : Dev :=
  let t := d.core c
  let a := addr % 2 ^ 48
  d.refuseAt ((d.agentAddr a).getD hbmSize) reqTeam t.tag t.step

/-! ### Caches of loads (R188, R256, R257) -/

/-- Valid bytes of a line at `key`, if it holds all of them. -/
def lineBytes (l : Line) (key n : Nat) : Option (List Byte) :=
  if l.addr ≤ key && key + n ≤ l.addr + l.bytes.length && ((l.mask.drop (key - l.addr)).take n).all id then
    some ((l.bytes.drop (key - l.addr)).take n)
  else none

/-- A load may be served from the L1: TEAM and CORE scope, HBM or plots of this device, HBM of an agreed member. Whether the line is
still resident is left open (log entry 1). -/
def Dev.l1Hit (d : Dev) (c key n scope : Nat) : Option (List Byte) :=
  if scope ≤ 1 && Config.freeBool d.free key then (SMap.get [] d.l1 c).findSome? fun l => lineBytes l key n else none

/-- A load may be served from the die's cache plots: up to DIE scope. -/
def Dev.cpHit (d : Dev) (c key n scope : Nat) : Option (List Byte) :=
  if scope ≤ 2 then (SMap.get [] d.cplot (dieOf c)).findSome? fun l => lineBytes l key n else none

/-- Put bytes into a line, valid. -/
def Line.fill (l : Line) (key : Nat) (bs : List Byte) : Line :=
  let l := Line.patch l key bs
  { l with mask := l.mask.zipIdx.map fun p => p.1 || (decide (key ≤ l.addr + p.2) && decide (l.addr + p.2 < key + bs.length)) }

/-- Add bytes to the line of size `sz` that holds `key`, moved to the front of the list. -/
def fillLines (ls : List Line) (sz key : Nat) (bs : List Byte) : List Line :=
  let base := key / sz * sz
  let l := (ls.find? fun l => l.addr == base).getD ⟨base, List.replicate sz 0, List.replicate sz false⟩
  Line.fill l key bs :: ls.filter fun l => l.addr != base

/-- The L1 holds 1,536 lines of 128 bytes. -/
def Dev.l1Fill (d : Dev) (c key : Nat) (bs : List Byte) : Dev :=
  { d with l1 := SMap.put [] d.l1 c ((fillLines (SMap.get [] d.l1 c) 128 key bs).take 1536) }

/-- Keep the 16 newest lines of a set (R188). -/
def Dev.cpTrim (d : Dev) (die : Nat) (s : Nat × Nat) : Nat → List Line → List Line
  | _, [] => []
  | n, l :: t =>
    if d.cpSet die l.addr = s then (match n with | 0 => d.cpTrim die s 0 t | m + 1 => l :: d.cpTrim die s m t)
    else l :: d.cpTrim die s n t

/-- A read allocates the line in the die's cache plots, if it has any. -/
def Dev.cpFill (d : Dev) (c key : Nat) (bs : List Byte) : Dev :=
  let die := dieOf c
  if (d.cachePlots die).isEmpty then d
  else
    let ls := fillLines (SMap.get [] d.cplot die) 256 key bs
    { d with cplot := SMap.put [] d.cplot die (d.cpTrim die (d.cpSet die key) 16 ls) }

/-- Lines that an acquire load drops (Table 12.5, R188). -/
def Dev.acquireDrop (d : Dev) (c key scope : Nat) : Dev :=
  let drop (ls : List Line) (sz : Nat) : List Line := ls.filter fun l => l.addr != key / sz * sz
  let d := if 2 ≤ scope then { d with l1 := SMap.put [] d.l1 c (drop (SMap.get [] d.l1 c) 128) } else d
  if 3 ≤ scope then { d with cplot := SMap.put [] d.cplot (dieOf c) (drop (SMap.get [] d.cplot (dieOf c)) 256) } else d

/-- A load that a cache serves: from the L1, or from the die's cache plots, where the line becomes the newest of its set and its sector enters
the L1 (R188, R257). -/
def Dev.cachedLoad (d : Dev) (c key n scope : Nat) : Option (Dev × List Byte) :=
  match d.l1Hit c key n scope with
  | some b => some (d, b)
  | none =>
    match d.cpHit c key n scope with
    | none => none
    | some b =>
      let sec := key / 32 * 32
      match d.cpHit c sec 32 scope with
      | some s =>
        let d := d.cpFill c sec s
        some (if scope ≤ 1 then d.l1Fill c sec s else d, b)
      | none => some (d.cpFill c key b, b)

/-- A load of this device's memory by core `c`. -/
def Dev.teamLoad (d : Dev) (c a n scope : Nat) (acq : Bool) : Dev × List Byte :=
  let d := if acq then d.acquireDrop c a scope else d
  match region a with
  | .tile _ => (d, d.read a n)
  | r =>
    match d.cachedLoad c a n scope with
    | some q => q
    | none =>
      let sec := a / 32 * 32
      let d' := if r == .hbm && decide (scope ≤ 2) then d.cpFill c (a / 256 * 256) (d.read (a / 256 * 256) 256) else d
      (if scope ≤ 1 then d'.l1Fill c sec (d.read sec 32) else d', d.read a n)

/-! ### Private copies (R260, log entry 18) -/

/-- Evict the private copy of a sector from a list, writing it back. -/
def Dev.evictCore (d : Dev) (c sec : Nat) : Dev :=
  match (SMap.get [] d.coreCopy c).find? fun l => l.addr == sec with
  | some l => { d with coreCopy := SMap.put [] d.coreCopy c ((SMap.get [] d.coreCopy c).filter fun l => l.addr != sec) }.writeBack c l
  | none => d

def Dev.evictDie (d : Dev) (c sec : Nat) : Dev :=
  match (SMap.get [] d.dieCopy (dieOf c)).find? fun l => l.addr == sec with
  | some l =>
    { d with dieCopy := SMap.put [] d.dieCopy (dieOf c) ((SMap.get [] d.dieCopy (dieOf c)).filter fun l => l.addr != sec) }.writeBack c l
  | none => d

/-- Copies of a sector that an access of core `c` meets are evicted first, so that a team sees its own accesses in order (R254). -/
def Dev.settle (d : Dev) (c a : Nat) : Dev := (d.evictDie c (a / 32 * 32)).evictCore c (a / 32 * 32)

/-- An atomic on memory: at the core's copy (TEAM, CORE), the die's copy (DIE), or the home memory. `f` answers the new value,
if one is written. -/
def Dev.atomicAt (d : Dev) (c scope a n : Nat) (f : Nat → Option Nat) : Dev × Nat :=
  let sec := a / 32 * 32
  let onCopy (d : Dev) (ls : List Line) : List Line × Nat :=
    let l := (ls.find? fun l => l.addr == sec).getD ⟨sec, d.read sec 32, List.replicate 32 false⟩
    let old := leNat ((l.bytes.drop (a - sec)).take n)
    match f old with
    | some v => (Line.fill l a (leBytes n v) :: ls.filter fun l => l.addr != sec, old)
    | none => (l :: ls.filter fun l => l.addr != sec, old)
  -- the atomic's own core keeps its L1 current (R254, R257)
  let own (d : Dev) (old : Nat) : Dev := match f old with | some v => d.l1Patch c a (leBytes n v) | none => d
  if scope ≤ 1 then
    let d := d.evictDie c sec
    let r := onCopy d (SMap.get [] d.coreCopy c)
    (own { d with coreCopy := SMap.put [] d.coreCopy c r.1 } r.2, r.2)
  else if scope = 2 then
    let d := if (SMap.get [] d.coreCopy c).any fun l => l.addr == sec then d.settle c a else d
    let r := onCopy d (SMap.get [] d.dieCopy (dieOf c))
    let spill := r.1.drop 4096
    let d := { d with dieCopy := SMap.put [] d.dieCopy (dieOf c) (r.1.take 4096) }
    (own (spill.foldl (fun d l => d.writeBack c l) d) r.2, r.2)
  else
    let d := d.settle c a
    let old := d.readN a n
    match f old with
    | some v => (d.teamWrite c a (leBytes n v), old)
    | none => (d, old)

/-- A release at a scope: the core's copies at DIE or wider, the die's at DEVICE or wider (R256, R260). -/
def Dev.releaseAt (d : Dev) (c scope : Nat) : Dev :=
  let d := if 2 ≤ scope then d.flushCore c else d
  if 3 ≤ scope then d.flushDie c else d

/-! ### An access under way -/

/-- Sectors that a list of addresses touches (R235). -/
def sectorsOf (as_ : List Nat) : List Nat := (as_.map (· / 32)).eraseDups

/-- What the lanes of an access have met so far: device, values, lanes in error, commands sent, whether something was written. -/
structure Acc where
  d : Dev
  data : List (Nat × Nat)
  err : List Nat
  sent : Nat
  wrote : Bool

def Acc.fail (q : Acc) (c l addr : Nat) (log : Bool) : Acc :=
  { q with d := if log then q.d.teamRefuse c addr else q.d, err := q.err ++ [l] }

/-- A command of a team leaves; none where no route or port takes it, which is logged at the egress port (R248, R282). -/
def Dev.sendTeam (d : Dev) (c : Nat) (op dev addr bytes : Nat) (data : List Byte) (kind : XKind) : Dev × Bool :=
  let t := d.core c
  let (d, xid) := d.newXid
  let h : Cmd := { Cmd.zero with
    op := op, src := d.devId, dst := dev, addr := addr, bytes := bytes, tag := t.tag, jobId := d.jobId, xid := xid }
  match d.egress dev d.devId addr with
  | .up p => ({ d.sendBy p h data with xacts := d.xacts ++ [⟨xid, kind, dev, p, h⟩] }, true)
  | .down p => (d.elogHdl p addr 0x60 t.tag t.step, false)
  | .noRoute => (d.elogHdl (6 * routeDie (d.routeEntry dev)) addr 0x63 t.tag t.step, false)

/-- Send a command for some lanes, which are in error when it cannot leave. -/
def Acc.send (q : Acc) (c op dev addr bytes : Nat) (data : List Byte) (kind : XKind) (lanes : List Nat) : Acc :=
  let r := q.d.sendTeam c op dev addr bytes data kind
  if r.2 then { q with d := r.1, sent := q.sent + 1 } else { q with d := r.1, err := q.err ++ lanes }

/-- Time in ns, rounded up, of `n` cycles of core `c`'s island at its set frequency. -/
def Dev.coreNs (d : Dev) (c n : Nat) : Nat := cdiv (80 * n) (d.fld CLK_CPLL CLK_CPLL_MULT (dieOf c))

/-- Cycles of the memory stage: one for each sector, of a serialised atomic one for each lane (R235, R236). -/
def TCtx.stage (k : TCtx) : Nat :=
  if tCls k.w = 5 && decide (6 ≤ mKind k.w) then (lanesOf k.act).length else (sectorsOf ((lanesOf k.act).map k.addr)).length

/-- Start the access: it occupies the scheduler's memory stage, and the team waits until its responses, and the answers of the sharers of what it
wrote, are there (R235, R263). -/
def Dev.startAccess (k : TCtx) (q : Acc) (rd : Nat) (load prog : Bool) : Dev :=
  let lanes := lanesOf k.act
  let d := q.d.bump TME_SECT TME_SECT_COUNT (sectorsOf (lanes.map k.addr)).length k.c
  let r := d.awaits (.team k.c k.j)
  let a : Access := ⟨rd, mBytes k.w, load, q.data, lanes.map fun l => (l, k.addr l), q.sent + b2n r.isSome, maskOf q.err, k.act, k.iss, mChk k.w,
    mCp k.w, k.pc, mScope k.w, mOrd k.w % 2 == 1, prog⟩
  let d := r.getD d
  let t := d.core k.c
  let d := d.setCore k.c { t with busy := SMap.put 0 t.busy (k.j % 4) (d.tb.time + d.coreNs k.c (TCtx.stage k)) }
  d.setSlot k.c k.j { k.x with access := some a }

/-- The check of R234 before any access: the lowest misaligned lane parks the team. -/
def Dev.aligned (d : Dev) (k : TCtx) (go : Dev → Dev) : Dev :=
  let bad := (lanesOf k.act).filter fun l => k.addr l % mBytes k.w != 0
  match bad with
  | l :: _ => d.parkAt k pkMisaligned (k.addr l) (maskOf bad)
  | [] => if k.act = 0 then d.goOn k k.x else go d

/-- HBM words with errors that the lanes read are corrected, or end the access (R299). A load that a cache serves reads none. -/
def Dev.teamHbm (d : Dev) (k : TCtx) (go : Dev → Dev) : Dev :=
  let n := mBytes k.w
  let hs := (lanesOf k.act).filterMap fun l => match d.target (k.addr l) n with
    | .mem a => if a < hbmSize && !(tCls k.w == 4 && mOrd k.w == 0 && (d.cachedLoad k.c a n (mScope k.w)).isSome) then some a else none
    | _ => none
  match hs.findSome? fun a => d.ueIn a n with
  | some w => d.teamUE k.c w
  | none => go (d.each hs fun d a => d.corrects a n)

/-- Groups of at most ten (R276). -/
def tens {α : Type} : Nat → List α → List (List α)
  | 0, _ => []
  | _ + 1, [] => []
  | n + 1, l => l.take 10 :: tens n (l.drop 10)

/-- Devices that some lanes name, each once. -/
def remoteDevs (ls : List (Nat × Nat × Nat)) : List Nat := (ls.map fun p => p.2.1).eraseDups

/-- Lanes whose target is another device: lane, device, address. -/
def Dev.remoteLanes (d : Dev) (k : TCtx) : List (Nat × Nat × Nat) :=
  (lanesOf k.act).filterMap fun l => match d.target (k.addr l) (mBytes k.w) with | .remote v a => some (l, v, a) | _ => none

/-- An inline sector of a team command: address, byte mask, bytes (R276). -/
def inlineSector (sec mask : Nat) (bs : List Byte) : List Byte := leBytes 8 sec ++ leBytes 4 mask ++ bs

/-- Agreed yoke members, as of the last route epoch (R262, R267). -/
def Dev.agreed (d : Dev) (dev : Nat) : Bool := d.epoch.members.contains dev

/-- May a remote load be served by this device's caches: HBM of an agreed member (R257, R262)? -/
def Dev.yokeHit (d : Dev) (k : TCtx) (v a : Nat) : Option (Dev × List Byte) :=
  if d.agreed v && decide (a < hbmSize) then d.cachedLoad k.c (v * 2 ^ 48 + a) (mBytes k.w) (mScope k.w) else none

/-- A hit or a miss is counted at the cache plot of a line's place. -/
def Dev.cpCount (d : Dev) (c key : Nat) (hit : Bool) : Dev :=
  match (d.cachePlots (dieOf c))[(d.cpSet (dieOf c) key).1]? with
  | some i => d.stick TLT_CACHE (if hit then TLT_CACHE_HITS else TLT_CACHE_MISSES) 1 (16 * dieOf c + i)
  | none => d

/-- The look-up in the die's cache plots that a lane's load of HBM makes, once for each sector of the instruction, unless the L1 serves it
(log entry 11). -/
def Dev.cpLook (d : Dev) (k : TCtx) (l key : Nat) : Dev :=
  let n := mBytes k.w
  if mScope k.w ≤ 2 && (lanesOf k.act).find? (fun m => k.addr m / 32 == k.addr l / 32) == some l &&
      (d.l1Hit k.c key n (mScope k.w)).isNone then d.cpCount k.c key (d.cpHit k.c key n (mScope k.w)).isSome
  else d

/-- The local lanes of a load. -/
def Acc.loadLane (k : TCtx) (q : Acc) (l : Nat) : Acc :=
  let n := mBytes k.w
  match q.d.target (k.addr l) n with
  | .err => q.fail k.c l (k.addr l) true
  | .mem a =>
    let d := q.d.settle k.c a
    let d := if a < hbmSize then d.cpLook k l a else d
    let r := d.teamLoad k.c a n (mScope k.w) (mOrd k.w == 1)
    { q with d := r.1, data := q.data ++ [(l, leNat r.2)] }
  | .sync c i =>
    match q.d.syncLoad c i n with
    | some v => { q with data := q.data ++ [(l, v)] }
    | none => q.fail k.c l (k.addr l) true
  | .remote v a =>
    let d := if mOrd k.w == 1 then q.d.acquireDrop k.c (v * 2 ^ 48 + a) (mScope k.w) else q.d
    let d := if d.agreed v && decide (a < hbmSize) then d.cpLook k l (v * 2 ^ 48 + a) else d
    match d.yokeHit k v a with
    | some r => { q with d := r.1, data := q.data ++ [(l, leNat r.2)] }
    | none => { q with d := d }

/-- The LOAD commands of the lanes that need another device. -/
def Acc.loadRemote (k : TCtx) (q : Acc) : Acc :=
  let ls := (q.d.remoteLanes k).filter fun p => !(q.data.any fun x => x.1 == p.1)
  (remoteDevs ls).foldl (fun q v =>
    let mine := ls.filter fun p => p.2.1 == v
    (tens 32 (sectorsOf (mine.map fun p => p.2.2))).foldl (fun q secs =>
      let lanes := mine.filter fun p => secs.contains (p.2.2 / 32)
      let mask (s : Nat) : Nat := lanes.foldl (fun m p => if p.2.2 / 32 = s then m ||| (2 ^ mBytes k.w - 1) <<< (p.2.2 % 32) else m) 0
      let data := (secs.map fun s => inlineSector (32 * s) (mask s) (List.replicate 32 0)).flatten
      q.send k.c 8 v (32 * (secs.head?.getD 0)) (32 * secs.length) data (.load k.c k.j (lanes.map fun p => (p.1, p.2.2)))
        (lanes.map (·.1))) q) q

/-- LD (R233 to R235). -/
def Dev.teamLd (d : Dev) (k : TCtx) : Dev :=
  d.aligned k fun d => d.teamHbm k fun d =>
    let q := (lanesOf k.act).foldl (Acc.loadLane k) ⟨d, [], [], 0, false⟩
    Dev.startAccess k (q.loadRemote k) (tD k.w) true false |>.fresh

/-- LD. -/
def execLd (c j : Nat) (u : Upset) (s : State) : Host.Outcome State Fault Refusal :=
  teamRow c j u 4 (· == 0) (fun k d => d.teamLd k) s

/-- Store data of a lane. -/
def TCtx.sdata (k : TCtx) (l : Nat) : Nat := k.x.rd false (tB k.w) (max 1 (mBytes k.w / 4)) l % 2 ^ (8 * mBytes k.w)

/-- The local lanes of a store, in ascending order (R254). -/
def Acc.storeLane (k : TCtx) (q : Acc) (l : Nat) : Acc :=
  let n := mBytes k.w
  match q.d.target (k.addr l) n with
  | .err => q.fail k.c l (k.addr l) true
  | .mem a => { q with d := (q.d.settle k.c a).teamWrite k.c a (leBytes n (k.sdata l)) }
  | .sync c i =>
    match q.d.syncOp c i 0 n (k.sdata l) 0 with
    | some (d, _) => { q with d := d }
    | none => q.fail k.c l (k.addr l) true
  | .remote _ _ => q

/-- A sector's bytes and mask as the lanes of a store leave it: the highest lane wins (R254). -/
def storeSector (k : TCtx) (lanes : List (Nat × Nat × Nat)) (s : Nat) : List Byte :=
  let l := lanes.foldl (fun (x : Line) p =>
    if p.2.2 / 32 = s then Line.fill x p.2.2 (leBytes (mBytes k.w) (k.sdata p.1)) else x)
    ⟨32 * s, List.replicate 32 0, List.replicate 32 false⟩
  inlineSector (32 * s) (boolsNat l.mask) l.bytes

/-- The STORE commands of a store. -/
def Acc.storeRemote (k : TCtx) (q : Acc) : Acc :=
  let ls := q.d.remoteLanes k
  (remoteDevs ls).foldl (fun q v =>
    let mine := ls.filter fun p => p.2.1 == v
    (tens 32 (sectorsOf (mine.map fun p => p.2.2))).foldl (fun q secs =>
      let lanes := mine.filter fun p => secs.contains (p.2.2 / 32)
      q.send k.c 9 v (32 * (secs.head?.getD 0)) (32 * secs.length) ((secs.map (storeSector k lanes)).flatten)
        (.store k.c k.j (maskOf (lanes.map (·.1))) (lanes.map fun p => (v * 2 ^ 48 + p.2.2, leBytes (mBytes k.w) (k.sdata p.1))))
        (lanes.map (·.1))) q) q

/-- Words of this device's HBM that the lanes of a store write in part, over all lanes of a sector (R255, R299). -/
def Dev.storeParts (d : Dev) (k : TCtx) : List Nat :=
  let n := mBytes k.w
  let hs := (lanesOf k.act).filterMap fun l => match d.target (k.addr l) n with | .mem a => if a < hbmSize then some a else none | _ => none
  ((hs.map (· / 8)).eraseDups).filter fun w =>
    decide (n < 8) && !(List.range 8).all fun b => hs.any fun a => decide (a ≤ 8 * w + b) && decide (8 * w + b < a + n)

/-- The words that a store must read are corrected, or end it (R299). -/
def Dev.storeHbm (d : Dev) (k : TCtx) (go : Dev → Dev) : Dev :=
  match (d.storeParts k).find? d.eccUE.has with
  | some w => d.teamUE k.c w
  | none => go (d.each ((d.storeParts k).filter d.eccCE.has) Dev.correct)

/-- ST: a release first makes the earlier accesses visible (R256). -/
def Dev.teamSt (d : Dev) (k : TCtx) : Dev :=
  d.aligned k fun d => d.storeHbm k fun d =>
    let d := if mOrd k.w = 2 then d.releaseAt k.c (mScope k.w) else d
    let q := (lanesOf k.act).foldl (Acc.storeLane k) ⟨d, [], [], 0, false⟩
    Dev.startAccess k (q.storeRemote k) 255 false true

/-- ST. -/
def execSt (c j : Nat) (u : Upset) (s : State) : Host.Outcome State Fault Refusal :=
  teamRow c j u 4 (· == 1) (fun k d => d.teamSt k) s

/-! ### Completion (R233, R235) -/

/-- TEAM_ACCESS_COMPLETE: registers are written for the lanes without error; CHK reports the others in CP, otherwise they park the
team. -/
def Dev.accessDone (d : Dev) (c j : Nat) : Dev :=
  let t := d.core c
  match SMap.find t.slots j with
  | none => d
  | some x =>
    match x.access with
    | none => d
    | some a =>
      if a.wait != 0 || x.park.isSome then d
      else
        let good := (lanesOf a.active).filter fun l => !bitOf a.err l
        let x := if a.load then (a.data.filter fun p => good.contains p.1).foldl (fun (x : Slot) p => x.wr a.rd (max 1 (a.size / 4)) p.1 p.2) x else x
        let x := { (if a.prog then x.progress d.tb.time else x) with access := none }
        if a.err = 0 || a.chk then
          let x := if a.chk then x.wp a.cp a.active (maskOf good) else x
          d.retire c j (x.setPcs a.issued (pcMask (a.pc + 8)))
        else
          let addr := match a.addrs.find? fun p => bitOf a.err p.1 with | some p => p.2 | none => 0
          d.parkTeam c j x ⟨pkAccess, a.pc, addr, a.issued, a.err⟩

/-- TEAM_ACCESS_COMPLETE. -/
def execTeamAccessComplete (c j : Nat) (s : State) : Host.Outcome State Fault Refusal := runLive (isSlot c j) (·.accessDone c j) s

/-! ### Atomics (R236) -/

/-- New value of an atomic of kind `kind` and type `ty` on `m` with operand `v`, `n` bytes wide: kinds 0 to 6. -/
def rmwFn (kind ty n m v : Nat) : Nat :=
  let wd := 8 * n
  match kind with
  | 0 => if ty = 2 then encFp32.encodeIeee (Ex.add (ofF32 m) (ofF32 v)) else (m + v) % 2 ^ wd
  | 1 => if ty = 2 then encFp32.encodeIeee (ieeeMin (ofF32 m) (ofF32 v)) else if ty = 1 then (if sgn v wd < sgn m wd then v else m) else min m v
  | 2 => if ty = 2 then encFp32.encodeIeee (ieeeMax (ofF32 m) (ofF32 v)) else if ty = 1 then (if sgn m wd < sgn v wd then v else m) else max m v
  | 3 => m &&& v
  | 4 => m ||| v
  | 5 => m ^^^ v
  | _ => v

/-- Operation of Table 12.3 for an atomic kind, if it may act on flags or counters. -/
def syncKind (kind ty : Nat) : Option Nat :=
  match kind with
  | 0 => if ty = 0 then some 5 else none
  | 3 => some 4
  | 4 => some 3
  | 6 => some 1
  | 7 => some 2
  | _ => none

/-- Operand and, for cas, new value of a lane. -/
def TCtx.rv (k : TCtx) (l : Nat) : Nat := k.sdata l
def TCtx.rv2 (k : TCtx) (l : Nat) : Nat :=
  let n := max 1 (mBytes k.w / 4)
  k.x.rd false (if tB k.w = 255 then 255 else tB k.w + n) n l

/-- Lane operands combined in ascending order, with each lane's prefix (R236). -/
def prefixes (f : Nat → Nat → Nat) : Option Nat → List (Nat × Nat) → List (Nat × Option Nat) × Option Nat
  | acc, [] => ([], acc)
  | acc, (l, v) :: t =>
    let r := prefixes f (some (match acc with | some a => f a v | none => v)) t
    ((l, acc) :: r.1, r.2)

/-- What lane gets back from the old value and its prefix. -/
def afterPrefix (f : Nat → Nat → Nat) (old : Nat) (p : Option Nat) : Nat := match p with | some a => f old a | none => old

/-- One combined operation of the lanes of one address (arithmetic kinds), or one lane's operation (exch, cas). -/
def Acc.rmwGroup (k : TCtx) (q : Acc) (addr : Nat) (lanes : List Nat) : Acc :=
  let n := mBytes k.w
  let kind := mKind k.w
  let f := rmwFn kind (mType k.w) n
  let cas := kind == 7
  let v2 := match lanes with | l :: _ => k.rv2 l | [] => 0
  let ps := prefixes f none (lanes.map fun l => (l, k.rv l))
  let v := ps.2.getD 0
  match q.d.target addr n with
  | .err => lanes.foldl (fun q l => q.fail k.c l addr true) q
  | .mem a =>
    let r := q.d.atomicAt k.c (mScope k.w) a n fun m => if cas then (if m = v then some v2 else none) else some (f m v)
    { q with d := r.1, wrote := q.wrote || !cas || r.2 == v, data := q.data ++ ps.1.map fun p => (p.1, afterPrefix f r.2 p.2) }
  | .sync c i =>
    match syncKind kind (mType k.w) with
    | none => lanes.foldl (fun q l => q.fail k.c l addr true) q
    | some op =>
      let bad := lanes.filter fun l => (q.d.syncOp c i op n (k.rv l) (k.rv2 l)).isNone
      let q := bad.foldl (fun q l => q.fail k.c l addr true) q
      let ps := prefixes f none ((lanes.filter fun l => !bad.contains l).map fun l => (l, k.rv l))
      match ps.2 with
      | none => q
      | some v =>
        match q.d.syncOp c i op n v v2 with
        | some (d, old) =>
          { q with d := d, wrote := q.wrote || !cas || old == v, data := q.data ++ ps.1.map fun p => (p.1, afterPrefix f old p.2) }
        | none => q
  | .remote dev a =>
    q.send k.c 10 dev a (tNum k.w + 256 * mSize k.w + 65536 * mScope k.w) (leBytes 8 v ++ leBytes 8 v2)
      (.atomic k.c k.j ps.1 v v2) lanes

/-- Addresses of the lanes, each once, in the order of their first lanes. -/
def TCtx.addrs (k : TCtx) : List Nat := ((lanesOf k.act).map k.addr).eraseDups

/-- An atomic instruction. Release orders the earlier accesses; acquire drops the cached lines (R256). -/
def Dev.teamRmw (d : Dev) (k : TCtx) : Dev :=
  d.aligned k fun d => d.teamHbm k fun d =>
    let d := if 2 ≤ mOrd k.w then d.releaseAt k.c (mScope k.w) else d
    let q : Acc :=
      if mKind k.w < 6 then
        k.addrs.foldl (fun q a => q.rmwGroup k a ((lanesOf k.act).filter fun l => k.addr l == a)) ⟨d, [], [], 0, false⟩
      else (lanesOf k.act).foldl (fun q l => q.rmwGroup k (k.addr l) [l]) ⟨d, [], [], 0, false⟩
    let q := if mOrd k.w % 2 = 1 then
        k.addrs.foldl (fun q a => match q.d.target a (mBytes k.w) with
          | .mem h => { q with d := q.d.acquireDrop k.c h (mScope k.w) }
          | _ => q) q
      else q
    Dev.startAccess k q (tD k.w) true q.wrote

/-- A row of class 5. -/
def rmwRow (c j : Nat) (u : Upset) (kind : Nat) (s : State) : Host.Outcome State Fault Refusal :=
  teamRow c j u 5 (fun n => n % 8 == kind) (fun k d => d.teamRmw k) s

/-- RMW_ADD. -/
def execRmwAdd (c j : Nat) (u : Upset) (s : State) : Host.Outcome State Fault Refusal := rmwRow c j u 0 s
/-- RMW_MIN. -/
def execRmwMin (c j : Nat) (u : Upset) (s : State) : Host.Outcome State Fault Refusal := rmwRow c j u 1 s
/-- RMW_MAX. -/
def execRmwMax (c j : Nat) (u : Upset) (s : State) : Host.Outcome State Fault Refusal := rmwRow c j u 2 s
/-- RMW_AND. -/
def execRmwAnd (c j : Nat) (u : Upset) (s : State) : Host.Outcome State Fault Refusal := rmwRow c j u 3 s
/-- RMW_OR. -/
def execRmwOr (c j : Nat) (u : Upset) (s : State) : Host.Outcome State Fault Refusal := rmwRow c j u 4 s
/-- RMW_XOR. -/
def execRmwXor (c j : Nat) (u : Upset) (s : State) : Host.Outcome State Fault Refusal := rmwRow c j u 5 s
/-- RMW_EXCH: lanes one at a time in ascending order. -/
def execRmwExch (c j : Nat) (u : Upset) (s : State) : Host.Outcome State Fault Refusal := rmwRow c j u 6 s
/-- RMW_CAS: lanes one at a time in ascending order. -/
def execRmwCas (c j : Nat) (u : Upset) (s : State) : Host.Outcome State Fault Refusal := rmwRow c j u 7 s

/-! ### Synchronisation (R240, R258) -/

/-- Local address of a flag or counter (Table 12.2). -/
def syncAddr (ctr : Bool) (i : Nat) : Nat := ctrlBase + 0x2000_0000 + (if ctr then 0x10_0000 else 0) + 8 * i

/-- A class-6 instruction on a flag or counter, with the operands of the lowest active lane; an undeclared one draws an error
response. -/
def Dev.classSix (d : Dev) (k : TCtx) (ctr : Bool) (go : Nat → Nat → Dev → Dev) : Dev :=
  match lanesOf k.act with
  | [] => d.goOn k k.x
  | l :: _ =>
    let i := k.a 1 l
    if d.declared ctr i then go i l d
    else (d.refuseAt (syncAddr ctr i) reqTeam k.t.tag k.t.step).parkAt k pkAccess (syncAddr ctr i) (2 ^ l)

/-- FLG_SET: a release at DEVICE scope. -/
def execFlgSet (c j : Nat) (u : Upset) (s : State) : Host.Outcome State Fault Refusal :=
  teamRow c j u 6 (· == 0) (fun k d => d.classSix k false fun i _ d => (((d.releaseAt k.c 3).setFlag i).goOn k (k.x.progress d.tb.time))) s

/-- CTR_ADD: a release at DEVICE scope. -/
def execCtrAdd (c j : Nat) (u : Upset) (s : State) : Host.Outcome State Fault Refusal :=
  teamRow c j u 6 (· == 2) (fun k d => d.classSix k true fun i l d => (((d.releaseAt k.c 3).addCtr i (k.b 2 l)).goOn k (k.x.progress d.tb.time))) s

/-- A wait: the team is suspended behind the instruction until the synchronisation unit releases it (R57, R240). -/
def Dev.suspend (d : Dev) (k : TCtx) (ctr : Bool) (i thr : Nat) : Dev :=
  let d := d.setSlot k.c k.j { (k.x.setPcs k.iss (pcMask (k.pc + 8))).still d.tb.time with waiting := true, replay := none }
  d.arrive ⟨true, k.c, k.j, ctr, i, thr, bitOf k.w 0⟩

/-- FLG_WAIT. -/
def execFlgWait (c j : Nat) (u : Upset) (s : State) : Host.Outcome State Fault Refusal :=
  teamRow c j u 6 (· == 1) (fun k d => d.classSix k false fun i _ d => d.suspend k false i 0) s

/-- CTR_WAIT. -/
def execCtrWait (c j : Nat) (u : Upset) (s : State) : Host.Outcome State Fault Refusal :=
  teamRow c j u 6 (· == 3) (fun k d => d.classSix k true fun i l d => d.suspend k true i (k.b 2 l)) s

/-- FENCE (R256): an acquire and a release at its scope. -/
def execFence (c j : Nat) (u : Upset) (s : State) : Host.Outcome State Fault Refusal :=
  teamRow c j u 6 (· == 4) (fun k d =>
    let sc := bitsOf k.w 0 3
    if k.act = 0 then d.goOn k k.x
    else
      let d := d.releaseAt k.c sc
      (if 2 ≤ sc then d.dropL1 k.c else d).goOn k k.x) s

end Sys2Proof.Machine
end

