-- ==== Sys2Proof/Machine/InboundOps.lean ====
section
/-! DEFINITION. Commands that arrive from other devices (R60, R137, R197, R198, R207, R248 to R252, R263, R274 to R278, R282, R284,
R285, R361). -/
namespace Sys2Proof.Machine
open Sys2Proof

def isPort (p : Nat) : Bool := decide (p < 60)

/-! ### Arrival, transit and answers -/

/-- Sequenced flits arrive in order at a port (R275). -/
def Dev.rxFlits (d : Dev) (p n : Nat) : Dev :=
  let x := d.port p
  (d.bump HDL_RX HDL_RX_FLITS n p).setPort p { x with rx := (x.rx + n) % 1024 }

/-- An answer leaves by this device's own table (R280); it is lost where no UP port takes it. -/
def Dev.answer (d : Dev) (c : Cmd) (o : Out) (n : Nat) : Dev :=
  match d.egress c.src d.devId c.addr with
  | .up p => (d.txFlits p (1 + cdiv n 504)).emit o
  | _ => d

/-- The RESPONSE to a command leaves: status and data (R277). -/
def Dev.sendRsp (d : Dev) (c : Cmd) (status : Nat) (data : List Byte) : Dev :=
  d.answer c (.rsp c.src c.xid status data) data.length

/-- The RESPONSE to a command, once every sharer of what it wrote has answered (R263, R277). -/
def Dev.respond (d : Dev) (c : Cmd) (status : Nat) (data : List Byte) : Dev :=
  (d.awaits (.rsp c status data)).getD (d.sendRsp c status data)

/-- STEP of an incoming access in a log (R355). -/
def Cmd.logStep (c : Cmd) : Nat := if bitOf c.flags 1 then c.step else noStep

/-- A command for another device passes on, or fails where it arrived (R274, R282). -/
def Dev.transit (d : Dev) (p : Nat) (c : Cmd) (data : List Byte) : Dev :=
  let fail (cause : Nat) : Dev := (d.elogHdl p c.addr cause c.tag (Cmd.logStep c)).respond c cause []
  if c.hops = d.fld HUB_FAB_CFG HUB_FAB_CFG_HOP_LIMIT then fail 0x62
  else
    match d.egress c.dst c.src c.addr with
    | .up q => d.sendBy q { c with hops := (c.hops + 1) % 256 } data
    | .down _ => fail 0x60
    | .noRoute => fail 0x63

/-- A command arrives: it passes on, is refused after a job fault (R361), or is performed here. -/
def Dev.inbound (d : Dev) (p : Nat) (c : Cmd) (data : List Byte) (echo : Bool) (go : Dev → Dev) : Dev :=
  if !d.portIsUp p then d
  else
    let d := d.rxFlits p (flitsOf c.op data.length)
    if c.dst != d.devId then d.transit p c data
    else if d.job.refuseInbound && !echo then (d.stick ERR_INBOUND ERR_INBOUND_COUNT 1).respond c 0x02 []
    else go d

/-- This device refuses the command at its ingress port, with a port-log entry (R290). -/
def Dev.refusePort (d : Dev) (p : Nat) (c : Cmd) (addr : Nat) : Dev :=
  (d.elogHdl p addr 0x40 c.tag (Cmd.logStep c)).respond c 0x02 []

/-- Does an address lie in the synchronisation region? -/
def isSync (a : Nat) : Bool := decide (ctrlBase + 0x2000_0000 ≤ a ∧ a < ctrlBase + 0x3000_0000)

/-- An access is refused by the unit that owns the address (R129, R248, R355): a stack, a plot, a core for its tile buffer, the ingress port for
flags and counters (Table 13.11), and the global log where none of these does (Table 18.1). -/
def Dev.refuseRemote (d : Dev) (p : Nat) (c : Cmd) (a : Nat) : Dev :=
  match region a with
  | .hbm => (d.elogHrw (stackOf a) a 0x02 c.tag (Cmd.logStep c)).respond c 0x02 []
  | .plot q => (d.elogTlt q a 0x40 c.tag (Cmd.logStep c)).respond c 0x02 []
  | .tile w =>
    match d.physOf w with
    | some k => (d.elogMxa k a 0x40 c.tag (Cmd.logStep c)).respond c 0x02 []
    | none => (d.glog a 0x02 reqRemote c.tag (Cmd.logStep c)).respond c 0x02 []
  | _ =>
    if !isSync a then (d.glog a 0x02 reqRemote c.tag (Cmd.logStep c)).respond c 0x02 []
    else if (syncAt (a - ctrlBase - 0x2000_0000)).isSome then d.refusePort p c a
    else (d.glog a 0x03 reqRemote c.tag (Cmd.logStep c)).respond c 0x02 []

/-- Memory that a remote device reaches: HBM within the reservations, and plots (R248, R250). -/
def Dev.remoteMem (d : Dev) (a n : Nat) : Bool :=
  decide (0 < n) && d.sheafMem a n && (match region a with | .tile _ => false | _ => true)

/-- RCOUNT and RCOUNTER of a command: may its counter grow (R58, R60)? -/
def Cmd.rcount (c : Cmd) : Bool := bitOf c.flags 0
def Dev.rcountOk (d : Dev) (c : Cmd) : Bool := !Cmd.rcount c || d.remoteOk true c.rcounter

/-- A counter grows by the payload of each of the flits of `n` bytes (R285). -/
def Dev.countFlits (d : Dev) (j : Nat) : Nat → Nat → Dev
  | 0, _ => d
  | k + 1, n => if n = 0 then d else (d.addCtr j (min 504 n)).countFlits j k (n - min 504 n)

/-- Bytes that landed in plots, by plot (R199). -/
def Dev.landBytes (d : Dev) (a n : Nat) : Dev :=
  match region a, region (a + n - 1) with
  | .plot x, .plot y =>
    d.each (List.range (y + 1 - x)) fun d i =>
      let lo := plotBase + (x + i) * 0x400_0000
      d.bump TLT_LAND TLT_LAND_BYTES (min (a + n) (lo + 0x400_0000) - max a lo) (x + i)
  | _, _ => d

/-- Data from the fabric is written: plots become PLAIN there (R135, R137). -/
def Dev.landWrite (d : Dev) (a : Nat) (bs : List Byte) : Dev :=
  if bs.length = 0 then d
  else
    let (d, bs) := d.lanes a bs
    let d := d.write a bs
    if isHbm a then d else (d.plain a bs.length).landBytes a bs.length

/-! ### PUT and GET (R285) -/

/-- PUT at its target. -/
def Dev.put (d : Dev) (p : Nat) (c : Cmd) (data : List Byte) : Dev :=
  let bs := data.take c.bytes
  if !d.remoteMem c.addr bs.length then d.refuseRemote p c c.addr
  else if !d.rcountOk c then d.refusePort p c (ctrlBase + 0x2010_0000 + 8 * c.rcounter)
  else if let some w := d.mergeUE c.addr bs.length then (d.readUE w reqRemote c.tag (Cmd.logStep c)).respond c 0x02 []
  else
    let d := (d.mergeFix c.addr bs.length).landWrite c.addr bs
    (if Cmd.rcount c then d.countFlits c.rcounter (cdiv bs.length 504) bs.length else d).respond c 0 []

/-- PUT. -/
def execPut (port : Nat) (h : Cmd) (data : List Byte) (s : State) : Host.Outcome State Fault Refusal :=
  runLive (isPort port) (fun d => d.inbound port { h with op := 1 } data false fun d => d.put port { h with op := 1 } data) s

/-- A read of HBM that combined with one outstanding, or an atomic merged with one queued (R285). -/
def Dev.combReads (d : Dev) (a : Nat) (comb : Bool) : Dev := if comb && isHbm a then d.stick HUB_COMB HUB_COMB_READS 1 else d

/-- A read of memory for another device. An uncorrectable word, one that stood there or one that `u` brings, is an error response and a device
fault (R299, R354); with `comb` the read is attached to another's, which has counted the word and raised the fault (Table 14.5). A parity error is
replayed, or a machine check with an error response (R352, R353). -/
def Dev.readFor (d : Dev) (c : Cmd) (a n : Nat) (u : Upset) (comb : Bool) (go : Dev → Dev) : Dev :=
  let q := d.upsetAt a (if isHbm a && u == .uncorrectable then .none else u)
  if !q.2 then q.1.respond c 0x02 []
  else
    let d := q.1
    match if isHbm a then (if u = .uncorrectable then some (a / 8) else d.ueIn a n) else none with
    | some w => (if comb then d else d.readUE w reqRemote c.tag (Cmd.logStep c)).respond c 0x02 []
    | none => go (if isHbm a then d.corrects a n else d)

/-- GET at its target (R137, R285). -/
def Dev.get (d : Dev) (p : Nat) (c : Cmd) (comb : Bool) (u : Upset) : Dev :=
  if !d.remoteMem c.addr c.bytes then d.refuseRemote p c c.addr
  else if !isHbm c.addr && d.touchesFallow c.addr c.bytes then d.refuseRemote p c c.addr
  else if !d.rcountOk c then d.refusePort p c (ctrlBase + 0x2010_0000 + 8 * c.rcounter)
  else
    d.readFor c c.addr c.bytes u comb fun d =>
      let bs := d.read c.addr c.bytes
      let d := d.combReads c.addr comb
      (if Cmd.rcount c then d.addCtr c.rcounter c.bytes else d).respond c 0 bs

/-- GET. -/
def execGet (port : Nat) (h : Cmd) (comb : Bool) (u : Upset) (s : State) : Host.Outcome State Fault Refusal :=
  runLive (isPort port) (fun d => d.inbound port { h with op := 2 } [] false fun d => d.get port { h with op := 2 } comb u) s

/-! ### ACC (R197, R198, R207) -/

/-- One element combined by the accumulate path: the stored value with the arriving one (R197). -/
def accEl (f : Fmt) (aop old x : Nat) : Enc :=
  f.enc1 (if aop = 1 then Ex.max (f.elem x) (f.elem old) else Ex.add (f.elem x) (f.elem old))

/-- Land a payload element by element: device, saturated and non-finite elements, each with its address. -/
def Dev.accGo (d : Dev) (f : Fmt) (aop : Nat) : Nat → Nat → List Byte → Dev × List (Nat × Enc)
  | 0, _, _ => (d, [])
  | k + 1, a, bs =>
    let n := f.bits / 8
    let e := accEl f aop (d.readN a n) (leNat (bs.take n))
    let r := (d.write a (leBytes n e.code)).accGo f aop k (a + n) (bs.drop n)
    (r.1, (a, e) :: r.2)

/-- Events of the landed elements that a unit counts. -/
def evtsOf (l : List (Nat × Enc)) (mine : Nat → Bool) : Nat × Nat :=
  ((l.filter fun p => mine p.1 && p.2.sat).length, (l.filter fun p => mine p.1 && p.2.nf).length)

/-- Events of a plot's accumulate path (R197): counted, and marked on the step of a STAMP landing. -/
def Dev.plotEvts (d : Dev) (p step : Nat) (e : Nat × Nat) (mark : Bool) : Dev :=
  let d := (d.numCount TLT_SAT p e.1).nfCount TLT_NONFIN p e.2
  if mark then d.numEvt .land step e.1 e.2 else d

/-- ACC element by element at its address: a plot's accumulate path, or a stack without STAMP. -/
def Dev.accPlain (d : Dev) (p : Nat) (c : Cmd) (bs : List Byte) (u : Upset) : Dev :=
  match landBeta c.afmt with
  | none => d.refuseRemote p c c.addr
  | some (_, f) =>
    let n := f.bits / 8
    if 1 < c.aop || c.addr % n != 0 || bs.length % n != 0 then d.refuseRemote p c c.addr
    else
      let stack := isHbm c.addr
      d.readFor c c.addr bs.length u false fun d =>
        let old := d.lanes c.addr (d.read c.addr bs.length)
        let new := old.1.lanes c.addr bs
        let d := if old.1.free = d.free then d else new.1.write c.addr old.2
        let r := d.accGo f c.aop (bs.length / n) c.addr new.2
        let st := bitOf c.flags 1
        let d := r.1
        let d :=
          if stack then
            d.each ((r.2.map fun q => stackOf q.1).eraseDups) fun d s =>
              let mine (a : Nat) : Bool := stackOf a == s
              let e := evtsOf r.2 mine
              (d.bump HRW_LAND HRW_LAND_BYTES (n * (r.2.filter fun q => mine q.1).length) s).hrwCount s c.step e.1 e.2 false
          else
            let d := (d.plain c.addr bs.length).landBytes c.addr bs.length
            d.each ((r.2.map fun q => (q.1 - plotBase) / 0x400_0000).eraseDups) fun d q =>
              d.plotEvts q c.step (evtsOf r.2 fun a => (a - plotBase) / 0x400_0000 == q) st
        (if Cmd.rcount c then d.countFlits c.rcounter (cdiv bs.length 504) bs.length else d).respond c 0 []

/-- ACC at its target. -/
def Dev.accIn (d : Dev) (p : Nat) (c : Cmd) (data : List Byte) (u : Upset) : Dev :=
  let bs := data.take c.bytes
  if !d.rcountOk c then d.refusePort p c (ctrlBase + 0x2010_0000 + 8 * c.rcounter)
  else if isHbm c.addr && bitOf c.flags 1 then
    let r := d.landStamp c bs u
    if r.2 then (if Cmd.rcount c then r.1.countFlits c.rcounter (cdiv bs.length 504) bs.length else r.1).respond c 0 []
    else r.1.respond c 0x02 []
  else if !d.remoteMem c.addr bs.length then d.refuseRemote p c c.addr
  else if !isHbm c.addr && d.touchesFallow c.addr bs.length then
    match region c.addr with
    | .plot q => (d.elogTlt q c.addr 0x41 c.tag (Cmd.logStep c)).respond c 0x02 []
    | _ => d.refuseRemote p c c.addr
  else d.accPlain p c bs u

/-- ACC. -/
def execAcc (port : Nat) (h : Cmd) (data : List Byte) (u : Upset) (s : State) : Host.Outcome State Fault Refusal :=
  runLive (isPort port) (fun d => d.inbound port { h with op := 3 } data false fun d => d.accIn port { h with op := 3 } data u) s

/-! ### SIGNAL (R58, R60) -/

/-- A SIGNAL at its target: a flag or counter that the admitted sheaf declared REMOTE. -/
def Dev.signalIn (d : Dev) (p : Nat) (c : Cmd) (ctr : Bool) : Dev :=
  let i := c.addr % 2 ^ 16
  if !d.remoteOk ctr i then d.refusePort p c (syncAddr ctr i)
  else (if ctr then d.addCtr i c.bytes else d.setFlag i).respond c 0 []

/-- SIGNAL_SET. -/
def execSignalSet (port : Nat) (h : Cmd) (s : State) : Host.Outcome State Fault Refusal :=
  runLive (isPort port) (fun d => d.inbound port { h with op := 4 } [] false fun d => d.signalIn port { h with op := 4 } false) s

/-- SIGNAL_ADD. -/
def execSignalAdd (port : Nat) (h : Cmd) (s : State) : Host.Outcome State Fault Refusal :=
  runLive (isPort port) (fun d => d.inbound port { h with op := 5 } [] false fun d => d.signalIn port { h with op := 5 } true) s

/-! ### Team accesses of other devices (R248, R251, R263, R276) -/

/-- The inline sectors of a team access: address, byte mask, bytes. -/
def sectorsIn : Nat → List Byte → List (Nat × Nat × List Byte)
  | 0, _ => []
  | k + 1, bs =>
    if bs.length < 44 then []
    else (leNat (bs.take 8), leNat ((bs.drop 8).take 4), (bs.drop 12).take 32) :: sectorsIn k (bs.drop 44)

/-- Lowest and one past the highest byte of a mask. -/
def maskLo (m : Nat) : Nat := ((List.range 32).find? fun i => bitOf m i).getD 0
def maskHi (m : Nat) : Nat := ((List.range 32).filter fun i => bitOf m i).foldl (fun a i => max a (i + 1)) 0

/-- The 8-byte words of a sector of the synchronisation region that a mask touches: flag or counter, index, width in bytes,
offset in the sector; none where one is no flag or counter that a remote device may use. -/
def Dev.syncWords (d : Dev) (a m : Nat) : Option (List (Bool × Nat × Nat × Nat)) :=
  (List.range 4).foldl (fun acc i =>
    let b := bitsOf m (8 * i) 8
    match acc with
    | none => none
    | some l =>
      if b = 0 then some l
      else
        match syncAt (a - ctrlBase - 0x2000_0000 + 8 * i) with
        | some (c, j) =>
          let sz := if b = 0xF then 4 else if b = 0xFF then 8 else 0
          if d.remoteOk c j && sz != 0 && (!c || sz == 8) then some (l ++ [(c, j, sz, 8 * i)]) else none
        | none => none) (some [])

/-- The directory records a sharer of a granule; a full one first evicts an entry (R263). -/
def Dev.track (d : Dev) (dev a : Nat) : Dev :=
  if d.agreed dev && isHbm a then
    let g := a / 256
    let l := SMap.get [] d.dir g
    if l.contains dev then d
    else
      let d :=
        if l.isEmpty && decide (1048576 ≤ d.dir.length) then
          match d.dir[Config.freeNat d.free 2 % d.dir.length]? with
          | some (k, ss) =>
            let d := (d.stick HUB_DIR_BACKINV HUB_DIR_BACKINV_COUNT 1).invSharers k ss
            { d with dir := SMap.erase d.dir k }.fresh
          | none => d
        else d
      { d with dir := SMap.put [] d.dir g (l ++ [dev]) }
  else d

/-- May every sector of a command be accessed? -/
def Dev.sectorsOk (d : Dev) (l : List (Nat × Nat × List Byte)) : Bool :=
  l.all fun x =>
    x.2.1 != 0 && x.1 % 32 == 0 &&
      (if isSync x.1 then (d.syncWords x.1 x.2.1).isSome
       else d.remoteMem (x.1 + maskLo x.2.1) (maskHi x.2.1 - maskLo x.2.1))

/-- Refuse a team access by its first bad sector. -/
def Dev.refuseSectors (d : Dev) (p : Nat) (c : Cmd) (l : List (Nat × Nat × List Byte)) : Dev :=
  match l.find? fun x => !d.sectorsOk [x] with
  | some x => d.refuseRemote p c x.1
  | none => d.refusePort p c c.addr

/-- The bytes of a sector as a load sees them. -/
def Dev.sectorBytes (d : Dev) (a m : Nat) : List Byte :=
  if isSync a then
    match d.syncWords a m with
    | some ws => ws.foldl (fun b w => putBytes b w.2.2.2 (leBytes 8 ((d.syncLoad w.1 w.2.1 8).getD 0))) (List.replicate 32 0)
    | none => List.replicate 32 0
  else d.read a 32

/-- LOAD at its target. -/
def Dev.loadIn (d : Dev) (p : Nat) (c : Cmd) (data : List Byte) (comb : Bool) (u : Upset) : Dev :=
  let l := sectorsIn 10 data
  if l.isEmpty || !d.sectorsOk l then d.refuseSectors p c l
  else
    let a0 := match l with | x :: _ => x.1 | [] => 0
    let q := d.upsetAt a0 (if isHbm a0 && u == .uncorrectable then .none else u)
    if !q.2 then q.1.respond c 0x02 []
    else
    let d := q.1
    match if isHbm a0 && u == .uncorrectable then some (a0 / 8) else l.findSome? fun x => if isHbm x.1 then d.ueIn x.1 32 else none with
    | some w => (if comb then d else d.readUE w reqRemote c.tag noStep).respond c 0x02 []
    | none =>
      let d := d.each l fun d x => if isHbm x.1 then (d.corrects x.1 32).track c.src x.1 else d
      let d := d.combReads c.addr comb
      d.respond c 0 (l.map fun x => d.sectorBytes x.1 x.2.1).flatten

/-- LOAD. -/
def execLoad (port : Nat) (h : Cmd) (data : List Byte) (comb : Bool) (u : Upset) (s : State) : Host.Outcome State Fault Refusal :=
  runLive (isPort port) (fun d => d.inbound port { h with op := 8 } data false fun d => d.loadIn port { h with op := 8 } data comb u) s

/-- Value of a word of a stored sector. -/
def storeWord (x : Nat × Nat × List Byte) (w : Bool × Nat × Nat × Nat) : Nat := leNat ((x.2.2.drop w.2.2.2).take w.2.2.1)

/-- Are the values that a sector stores to flags 0 or 1 (Table 12.3)? -/
def Dev.storeOk (d : Dev) (x : Nat × Nat × List Byte) : Bool :=
  if isSync x.1 then
    match d.syncWords x.1 x.2.1 with
    | some ws => ws.all fun w => w.1 || decide (storeWord x w < 2)
    | none => false
  else true

/-- A sector's byte mask as a list. -/
def sectorMask (m : Nat) : List Bool := (List.range 32).map (bitOf m)

/-- First uncorrectable word that a stored sector must read (R299). -/
def Dev.sectorUE (d : Dev) (x : Nat × Nat × List Byte) : Option Nat :=
  if isHbm x.1 then (partMasked x.1 (sectorMask x.2.1)).find? d.eccUE.has else none

/-- Store one sector: its masked bytes (R255), or flags and counters. -/
def Dev.storeSectorIn (d : Dev) (x : Nat × Nat × List Byte) : Dev :=
  if isSync x.1 then
    match d.syncWords x.1 x.2.1 with
    | some ws => ws.foldl (fun (d : Dev) w => match d.syncOp w.1 w.2.1 0 w.2.2.1 (storeWord x w) 0 with | some q => q.1 | none => d) d
    | none => d
  else
    let d := d.writeMasked x.1 x.2.2 (sectorMask x.2.1)
    if isHbm x.1 then d else d.plain (x.1 + maskLo x.2.1) (maskHi x.2.1 - maskLo x.2.1)

/-- STORE at its target. -/
def Dev.storeIn (d : Dev) (p : Nat) (c : Cmd) (data : List Byte) : Dev :=
  let l := sectorsIn 10 data
  if l.isEmpty || !d.sectorsOk l || !(l.all d.storeOk) then d.refuseSectors p c l
  else
    match l.findSome? d.sectorUE with
    | some w => (d.readUE w reqRemote c.tag noStep).respond c 0x02 []
    | none => (d.each l Dev.storeSectorIn).respond c 0 []

/-- STORE. -/
def execStore (port : Nat) (h : Cmd) (data : List Byte) (s : State) : Host.Outcome State Fault Refusal :=
  runLive (isPort port) (fun d => d.inbound port { h with op := 9 } data false fun d => d.storeIn port { h with op := 9 } data) s

/-- May an atomic merge with others: arithmetic kinds at DEVICE or YOKE scope in HBM (R285)? -/
def merges (c : Cmd) : Bool := decide (c.bytes % 8 < 6) && decide (3 ≤ c.bytes / 65536 % 8) && isHbm c.addr

/-- ATOMIC at its target: BYTES holds the operation's number, size code and scope; the data its two operands. It answers the old
value. -/
def Dev.atomicIn (d : Dev) (p : Nat) (c : Cmd) (data : List Byte) (comb : Bool) (u : Upset) : Dev :=
  let num := c.bytes % 256
  let n := 2 ^ (c.bytes / 256 % 8)
  let kind := num % 8
  let ty := num / 8
  let v := leNat (data.take 8)
  let v2 := leNat ((data.drop 8).take 8)
  if c.addr % n != 0 || !(n == 4 || n == 8) then d.refuseRemote p c c.addr
  else if isSync c.addr then
    match syncAt (c.addr - ctrlBase - 0x2000_0000), syncKind kind ty with
    | some (ctr, i), some op =>
      if !d.remoteOk ctr i then d.refusePort p c c.addr
      else
        match d.syncOp ctr i op n (v % 2 ^ (8 * n)) (v2 % 2 ^ (8 * n)) with
        | some (d, old) => d.respond c 0 (leBytes 8 old)
        | none => d.refusePort p c c.addr
    | _, _ => d.refuseRemote p c c.addr
  else if !d.remoteMem c.addr n then d.refuseRemote p c c.addr
  else
    d.readFor c c.addr n u (comb && merges c) fun d =>
      let old := d.readN c.addr n
      let new := if kind = 7 then (if old = v % 2 ^ (8 * n) then v2 else old) else rmwFn kind ty n old (v % 2 ^ (8 * n))
      let d := if kind = 7 && old != v % 2 ^ (8 * n) then d
        else
          let d := d.write c.addr (leBytes n new)
          if isHbm c.addr then d else d.plain c.addr n
      let d := if comb && merges c then d.stick HUB_COMB HUB_COMB_ATOMICS 1 else d
      d.respond c 0 (leBytes 8 old)

/-- ATOMIC. -/
def execAtomic (port : Nat) (h : Cmd) (data : List Byte) (comb : Bool) (u : Upset) (s : State) : Host.Outcome State Fault Refusal :=
  runLive (isPort port)
    (fun d => d.inbound port { h with op := 10 } data false fun d => d.atomicIn port { h with op := 10 } data comb u) s

/-! ### ECHO and transit -/

/-- Does this device take part in a yoke with a device: ENABLE set, listed, with a valid route (R262)? -/
def Dev.lists (d : Dev) (dev : Nat) : Bool :=
  d.bit HUB_YOKE HUB_YOKE_ENABLE && routeValid (d.routeEntry dev) &&
    (List.range 3).any fun i => decide (i < d.fld HUB_YOKE HUB_YOKE_PEERS) && bitsOf (d.reg HUB_YOKE) (16 + 16 * i) 16 == dev

/-- ECHO (R284): stamped with the time base, answered with this device's Y and the hops on arrival. -/
def execEcho (port : Nat) (h : Cmd) (s : State) : Host.Outcome State Fault Refusal :=
  runLive (isPort port) (fun d => d.inbound port { h with op := 16 } [] true fun d =>
    d.answer h (.echoRsp h.src h.xid d.tb.time (d.fld HUB_YOKE_STATE HUB_YOKE_STATE_Y_NS) h.hops (d.lists h.src)) 0) s

/-- Operations of Table 13.4; a command of another is refused (R276). -/
def opAssigned (op : Nat) : Bool := [1, 2, 3, 4, 5, 8, 9, 10, 16, 17].contains op

/-- TRANSIT (R274, R282): a command for another device. One for this device is no transit; of an unassigned operation it is refused where it
arrives (R276, R290). -/
def execTransit (port : Nat) (h : Cmd) (data : List Byte) (s : State) : Host.Outcome State Fault Refusal :=
  runLive (isPort port) (fun d =>
    if !d.portIsUp port || (h.dst == d.devId && opAssigned h.op) then d
    else
      let d := d.rxFlits port (flitsOf h.op data.length)
      if h.dst = d.devId then d.refusePort port h h.addr else d.transit port h data) s

end Sys2Proof.Machine
end

