-- ==== Sys2Proof/Machine/PortOps.lean ====
section
/-! DEFINITION. Headland ports: training, loss and replay (R270, R271, R275). -/
namespace Sys2Proof.Machine
open Sys2Proof

/-- A port's STATE changes, which raises LINK (Table 19.2). -/
def Dev.setPortState (d : Dev) (p st : Nat) : Dev :=
  if d.portState p = st then d else (d.setFld HDL_STATUS HDL_STATUS_STATE st p).irq irqLink

/-- Training starts at step 1 (Table 13.2), after `fails` failed attempts. -/
def Dev.trainPort (d : Dev) (p fails : Nat) : Dev :=
  ((d.setPortState p portTraining).setFld HDL_STATUS HDL_STATUS_FEC_LOCK 0 p).setPort p { Port.off with step := 1, fails := fails }

/-- A training step fails: the sequence starts again, or after the last retry the port is FAILED with the step's cause (R270). -/
def Dev.trainFail (d : Dev) (p cause : Nat) : Dev :=
  let n := (d.port p).fails + 1
  if n ≤ d.fld HDL_CFG HDL_CFG_RETRIES p then d.trainPort p n
  else ((d.setPortState p portFailed).setFld HDL_STATUS HDL_STATUS_CAUSE cause p).setPort p { Port.off with fails := n }

/-- A follower whose parent port is lost keeps its rate and is no longer locked (R288). -/
def Dev.parentLost (d : Dev) (p : Nat) : Dev :=
  if !d.bit CLK_TB_CFG CLK_TB_CFG_ROOT && d.fld CLK_TB_CFG CLK_TB_CFG_PARENT == p then
    { d.setFld CLK_TB_STATUS CLK_TB_STATUS_LOCKED 0 with tb := { d.tb with good := 0, reqT1 := none } }
  else d

/-- A port that is UP goes DOWN (R271): its flits are discarded; an admitted sheaf's job faults, otherwise AUTO_RETRAIN trains again. Without
XIN0 the port stays DOWN until RELOCK or a reset trains it (R331, R333). -/
def Dev.linkDown (d : Dev) (p cause : Nat) : Dev :=
  if !d.portIsUp p then d
  else
    let d := (d.setPortState p portDown).setFld HDL_STATUS HDL_STATUS_CAUSE cause p
    let d := ((d.setFld HDL_STATUS HDL_STATUS_FEC_LOCK 0 p).setPort p Port.off).parentLost p
    if d.admitted then d.jobFault { cause := jfLinkDown, detail := cause, kind := kPort, unit := p }
    else if d.bit HDL_CFG HDL_CFG_AUTO_RETRAIN p && d.clk.xin0 then d.trainPort p 0
    else d

/-- ENABLE is written: set, a port that neither trains nor is UP starts to train; clear, it is OFF (R270, Table 13.10). -/
def Dev.portRun (d : Dev) (p : Nat) (on : Bool) : Dev :=
  if on then
    (if d.portState p = portUp || d.portState p = portTraining then d else d.trainPort p 0)
  else (((d.setPortState p portOff).setFld HDL_STATUS HDL_STATUS_FEC_LOCK 0 p).setPort p Port.off).parentLost p

/-- A write of HDL_CFG; PMD 3 is refused. -/
def Dev.hdlCfg (d : Dev) (p v : Nat) : Dev :=
  if bitsOf v 2 2 = 3 then d.emit .err
  else ((d.setReg HDL_CFG (v % 2 ^ 24) p).portRun p (bitOf v 0)).emit .ok

/-- PORT_ENABLE: HDL_CFG.ENABLE is set. -/
def execPortEnable (who : Who) (port : Nat) (s : State) : Host.Outcome State Fault Refusal :=
  runReg (isPort port) who (fun _ => HDL_CFG.addr port 0) (fun d => d.hdlCfg port (setBits (d.reg HDL_CFG port) 0 1 1)) s

/-- Cause of a training step that exceeds its bound (R270). -/
def trainCause (step : Nat) : Nat := if step = 3 then 0x71 else if step = 5 then 0x74 else if step = 6 then 0x72 else 0x70

/-- TRAINING_TIMEOUT: step `step` (2 to 6; C2M skips 3) exceeds its bound. -/
def execTrainingTimeout (port step : Nat) (s : State) : Host.Outcome State Fault Refusal :=
  runLive (isPort port && decide (2 ≤ step ∧ step ≤ 6)) (fun d =>
    if d.portState port = portTraining && !(step == 3 && d.fld HDL_CFG HDL_CFG_PMD port == 2) then d.trainFail port (trainCause step)
    else d) s

/-- HELLO: each end knows the other (step 5); then the round trip is measured (step 6), and the port is UP (step 7). A port whose loop is not locked,
XIN0 being lost or the loops coasting, does not get so far (R331, R333). -/
def execHello (port dev peer rtt : Nat) (s : State) : Host.Outcome State Fault Refusal :=
  runLive (isPort port && decide (dev < 65536) && isPort peer) (fun d =>
    if d.portState port != portTraining || !d.clk.xin0 || !d.clk.coast.isEmpty then d
    else
      let d := d.setReg HDL_PEER (dev + peer * 2 ^ 16 + 2 ^ 31) port
      if 960 < rtt then d.trainFail port 0x72
      else
        let d := (d.setFld HDL_RTT HDL_RTT_RTT_NS rtt port).setFld HDL_STATUS HDL_STATUS_FEC_LOCK 1 port
        (d.setPortState port portUp).setPort port { Port.off with step := 7 }) s

/-- LOST_FEC (R271). -/
def execLostFec (port : Nat) (s : State) : Host.Outcome State Fault Refusal := runLive (isPort port) (·.linkDown port 0x75) s

/-- LOST_CLOCK (R271). -/
def execLostClock (port : Nat) (s : State) : Host.Outcome State Fault Refusal := runLive (isPort port) (·.linkDown port 0x76) s

/-- NAK (R275): the flits after the named SEQ are sent again; eight replays of one SEQ without progress take the port down. -/
def Dev.nakIn (d : Dev) (p seq : Nat) : Dev :=
  if !d.portIsUp p then d
  else
    let x := d.port p
    let same := x.nakSeq == seq && x.nakRuns != 0
    if same && decide (8 ≤ x.nakRuns) then d.linkDown p 0x73
    else
      let d := { d with ist := { d.ist with rep := SMap.put 0 d.ist.rep p (SMap.get 0 d.ist.rep p + 1) } }
      ((d.setPort p { x with nakSeq := seq, nakRuns := if same then x.nakRuns + 1 else 1, since := if same then x.since else 0 }).stick HDL_REPLAY HDL_REPLAY_COUNT 1 p).emit
        (.replay p seq)

/-- NAK. -/
def execNak (port seq : Nat) (s : State) : Host.Outcome State Fault Refusal :=
  runLive (isPort port && decide (seq < 1024)) (·.nakIn port seq) s

/-- Link header of a flit (Table 13.3), without its CRC. -/
structure LinkHdr where
  vc : Nat
  kind : Nat
  seq : Nat
  ack : Nat
  cvc : Nat
  cred : Nat
deriving DecidableEq, Repr

/-- Bits [31:0] of a link header. -/
def LinkHdr.word (h : LinkHdr) : Nat :=
  h.vc % 4 + 2 ^ 2 * (h.kind % 8) + 2 ^ 5 * (h.seq % 2 ^ 10) + 2 ^ 15 * (h.ack % 2 ^ 10) + 2 ^ 25 * (h.cvc % 4) + 2 ^ 27 * (h.cred % 2 ^ 5)

/-- The link header that bits [31:0] spell. -/
def LinkHdr.of (w : Nat) : LinkHdr := ⟨bitsOf w 0 2, bitsOf w 2 3, bitsOf w 5 10, bitsOf w 15 10, bitsOf w 25 2, bitsOf w 27 5⟩

/-- CRC of a flit: over bits [31:0] of its header and its payload (Table 13.3). -/
def flitCrc (w : Nat) (payload : List Byte) : Nat := crc32c (leBytes 4 w ++ payload)

/-- A NAK leaves, naming the last good SEQ, in a CONTROL flit, which takes no SEQ. -/
def Dev.sendNak (d : Dev) (p : Nat) : Dev := d.emit (.nak p (((d.port p).rx + 1023) % 1024))

/-- A flit as it arrives, whole: bits [31:0] of its link header, its CRC and its payload (R272, R275). One whose CRC fails, or a sequenced one
whose SEQ is not the next expected, is discarded and draws a NAK. A KIND of 5 to 7 is refused: the flit has no effect (DESIGN CHOICE, log
entry 96). Any other flit is good, and the command or response that it carries is a command of its own. -/
def Dev.flitIn (d : Dev) (p w crc : Nat) (payload : List Byte) : Dev :=
  let h := LinkHdr.of w
  if flitCrc w payload != crc then (d.stick HDL_REPLAY HDL_REPLAY_CRC_ERR 1 p).sendNak p
  else if 1 ≤ h.kind && h.kind ≤ 3 && h.seq != (d.port p).rx then d.sendNak p
  else d

/-- FLIT_REJECT (R275). -/
def execFlitReject (port hdr crc : Nat) (payload : List Byte) (s : State) : Host.Outcome State Fault Refusal :=
  runLive (isPort port && decide (hdr < 2 ^ 32) && decide (crc < 2 ^ 32)) (fun d => if d.portIsUp port then d.flitIn port hdr crc payload else d) s

end Sys2Proof.Machine
end

