-- ==== Sys2Proof/Machine/Power.lean ====
section
/-! DEFINITION. The power profile: the sow-in delay (R43), the holdability test (R44, R418), the lower trajectory (R306). Draws are in
milliwatts, but in half milliwatts where estimates take part; times in microseconds; a slew of S W/ms is S mW per microsecond. -/
namespace Sys2Proof.Machine
open Sys2Proof

/-- Sow-in delay D in ns, rounded up (R43). -/
def sowDelay (segs : List Seg) (pstart slew : Nat) : Nat :=
  segs.foldl (fun d s => max d (cdiv (1000000 * (s.w - pstart)) slew - 1000 * s.off)) 0

/-- A bound over `[a, b)` of the grid. -/
structure Piece where
  a : Nat
  b : Nat
  v : Nat
deriving DecidableEq, Repr

/-- Distance of a grid point from a piece. -/
def Piece.dist (p : Piece) (t : Nat) : Nat := if t < p.a then p.a - t else t + 1 - p.b

/-- First grid point at which the rise or fall from lower piece `l` and upper piece `h` cross: the least t at which
`l.v - S·dist(t, l)` exceeds `h.v + S·dist(t, h)`. -/
def crossAt (slew : Nat) (l h : Piece) : Option Nat :=
  if l.v ≤ h.v then none
  else
    let q := cdiv (l.v - h.v) slew - 1
    let m := min l.a h.a
    let x := max l.a h.a
    let e := if l.a ≤ h.a then l.b - 1 else h.b - 1
    if x - m ≤ q then some (cdiv (l.a + h.a - q) 2)
    else if x - q ≤ min e x then some (x - q)
    else none

/-- FLOOR as it binds on the grid: only from the first microsecond that the rise from P_START can reach it (R418). -/
def floorPieces (floor pstart slew total : Nat) : List Piece :=
  let tf := cdiv (floor - pstart) slew
  (if tf = 0 then [] else
    let t := min (tf - 1) (total - 1)
    [⟨t, t + 1, pstart + slew * t⟩]) ++ (if tf < total then [⟨tf, total, floor⟩] else [])

/-- FLOOR's bound at one grid point. -/
def floorAt (floor pstart slew t : Nat) : Nat := min floor (pstart + slew * t)

/-- The test of R44 on the grid of R418: the first microsecond at which the profile cannot be held, if any. Watts and W/ms in,
`profile` as the sheaf holds it. -/
def holdFail (profile : List (Nat × Nat × Nat × Nat)) (total floor ceil slew pstart : Nat) : Option Nat :=
  if total = 0 then none
  else
    let f := 1000 * floor
    let p0 := 1000 * pstart
    let segs := profile.filter fun (s : Nat × Nat × Nat × Nat) => decide (s.1 < min s.2.1 total)
    let lo := (⟨0, 1, p0⟩ : Piece) :: floorPieces f p0 slew total ++ segs.map fun (s : Nat × Nat × Nat × Nat) => ⟨s.1, min s.2.1 total, 1000 * s.2.2.1⟩
    let hi := [(⟨0, 1, p0⟩ : Piece), ⟨0, total, 1000 * ceil⟩] ++
      segs.map fun (s : Nat × Nat × Nat × Nat) => ⟨s.1, min s.2.1 total, 1000 * min ceil (s.2.2.1 + s.2.2.2)⟩
    lo.foldl (fun acc l => hi.foldl (fun acc h =>
      match crossAt slew l h, acc with
      | some t, some u => some (min t u)
      | some t, none => some t
      | none, u => u) acc) none

/-- Lower trajectory of a phase's own profile of `len` µs at `t` (which may lie before its begin), in mW (R306). -/
def loAt (segs : List Seg) (len floor slew : Nat) (t : Int) : Nat :=
  let ends := (segs.map (·.off)).drop 1 ++ [len]
  (segs.zip ends).foldl (fun acc p =>
    let a := p.1.off
    let b := min p.2 len
    if b ≤ a then acc
    else
      let dist := if t < (a : Int) then ((a : Int) - t).toNat else (t + 1 - (b : Int)).toNat
      max acc (1000 * p.1.w - slew * dist)) (1000 * floor)

/-- The run's estimates of every descriptor running or waiting at the gate (R306). -/
def Dev.workMw (d : Dev) : Nat :=
  let run := (d.furrows.map fun (p : Nat × Furrow) => match p.2.cur with | some i => estimate p.1 i.d | none => 0).foldl (· + ·) 0
  let wait := (d.gov.gate.map fun g => match (d.frw g.1).fifo with | i :: _ => estimate g.1 i.d | [] => 0).foldl (· + ·) 0
  run + wait

/-- The lower trajectory of the running phase from its own profile, length and anchor, in half milliwatts (R306). -/
def Dev.phaseLo (d : Dev) (floor slew : Nat) : Nat :=
  match d.sheaf with
  | none => 0
  | some s =>
    let ph := if d.gov.phase = 0 then 0 else if d.gov.phase < 2 ^ 33 then 1 else 2
    let t0 := if d.gov.phase = 0 then d.job.sowEnd else d.gov.phaseT0
    2 * loAt ((s.power[ph]?).getD []) ((s.phaseUs[ph]?).getD 0) floor slew (((d.tb.time : Int) - (t0 : Int)) / 1000)

end Sys2Proof.Machine
end

