-- ==== Sys2Proof/Machine/RouteOps.lean ====
section
/-! DEFINITION. Responses (R277), route epochs (R262, R264, R283, R284), yoke invalidations (R263) and tokens (R211, R214, R278, R362). -/
namespace Sys2Proof.Machine
open Sys2Proof

/-! ### Responses -/

/-- DRAINED sets once commands are held and every one sent has its response (Table 13.6 step 3). -/
def Dev.drain (d : Dev) : Dev :=
  if d.quiesced && d.xacts.isEmpty then d.setFld HUB_EPOCH HUB_EPOCH_DRAINED 1 else d

/-- A headland descriptor's command has its response: the descriptor goes on, or stops with ACCESS (R100, R277). -/
def Dev.hdlRsp (d : Dev) (f : Nat) (x : Xact) (status : Nat) (go : Dev → Dev) : Dev :=
  match (d.frw f).cur with
  | none => d
  | some i =>
    if status = 0 then
      let d := go d
      match d.awaits (.furrow f) with
      | some d => d
      | none => d.setFrw f { d.frw f with held := (d.frw f).held - 1 }
    else (d.elogHdl x.port x.cmd.addr status i.otag i.step).failCur f feAccess i.otag i.step feAccess

/-- A team's command has its response: `upd` changes the access where the data came. -/
def Dev.teamRsp (d : Dev) (c j : Nat) (x : Xact) (status lanes : Nat) (upd : Access → Access) (fill : Access → Dev → Dev) : Dev :=
  let t := d.core c
  let d := if status = 0 then d else d.elogHdl x.port x.cmd.addr status t.tag t.step
  match SMap.find t.slots j with
  | none => d
  | some y =>
    match y.access with
    | none => d
    | some a =>
      let a' := { a with wait := a.wait - 1 }
      let a' := if status = 0 then upd a' else { a' with err := a'.err ||| lanes }
      let d := d.setSlot c j { y with access := some a' }
      if status = 0 then fill a d else d

/-- The sectors of a load's lanes, in the order in which the response holds them. -/
def laneSectors (lanes : List (Nat × Nat)) : List Nat := sectorsOf (lanes.map fun p => p.2)

/-- Values of the lanes of a load, from the data of its response. -/
def laneData (n : Nat) (lanes : List (Nat × Nat)) (data : List Byte) : List (Nat × Nat) :=
  lanes.map fun p => (p.1, leNat ((data.drop (32 * (laneSectors lanes).idxOf (p.2 / 32) + p.2 % 32)).take n))

/-- Lines of an agreed member's HBM enter this core's L1 and its die's cache plots (R257). -/
def Dev.yokeFill (d : Dev) (c dev : Nat) (lanes : List (Nat × Nat)) (data : List Byte) (a : Access) : Dev :=
  if !d.agreed dev then d
  else
    d.each ((laneSectors lanes).zipIdx) fun d p =>
      let key := dev * 2 ^ 48 + 32 * p.1
      let bs := (data.drop (32 * p.2)).take 32
      if !isHbm (32 * p.1) || bs.length != 32 then d
      else
        let d := if a.scope ≤ 2 then d.cpFill c key bs else d
        if a.scope ≤ 1 then d.l1Fill c key bs else d

/-- Every ECHO of a route epoch has its answer: yoke members agree, MEASURED sets and commands flow again (Table 13.6 step 6). -/
def Dev.measured (d : Dev) : Dev :=
  let peers := d.fld HUB_YOKE HUB_YOKE_PEERS
  let member (i : Nat) : Nat := bitsOf (d.reg HUB_YOKE) (16 + 16 * i) 16
  let agreed := (List.range 3).filter fun i =>
    d.bit HUB_YOKE HUB_YOKE_ENABLE && decide (i < peers) && routeValid (d.routeEntry (member i)) && d.epoch.listers.has (member i)
  let lat := (agreed.map fun i => d.fld ADM_ROUTE_LAT ADM_ROUTE_LAT_LAT_NS 0 (member i)).foldl max 0
  let y := if agreed.isEmpty then 0 else 2 * lat + d.fabNs 64
  let d := d.setReg HUB_YOKE_STATE ((agreed.map fun i => 2 ^ i).foldl (· + ·) 0 + (y % 2 ^ 32) <<< 32)
  let d := ((d.setFld HUB_EPOCH HUB_EPOCH_MEASURED 1).setFld HUB_EPOCH HUB_EPOCH_QUIESCED 0).setFld HUB_EPOCH HUB_EPOCH_DRAINED 0
  let ts := d.epoch.tokq
  let d := { d with epoch := { d.epoch with echoes := [], tokq := [], listers := [], members := agreed.map member } }
  let d := d.traceHub trcEpoch 0 noStep []
  d.each ts fun d t => d.sendTok { t with time := d.tb.time }

/-- Contract latency of a route as its ECHO measured it (R284): the stamp may lie before the sending time where the bases differ. -/
def Dev.echoLat (d : Dev) (sent : Nat) (data : List Byte) : Nat :=
  let e : Int := (leNat (data.take 8) : Int) - (sent : Int)
  let y := leNat ((data.drop 8).take 4)
  let h := leNat ((data.drop 12).take 1) + 1
  min (e + (16 * h + d.fabNs 76 + cdiv y 2 : Nat)).toNat (2 ^ 24 - 1)

/-- An ECHO has its answer: time of arrival at the target, its Y, hops on arrival, whether it lists this device in its yoke. -/
def Dev.echoRsp (d : Dev) (dev : Nat) (x : Xact) (status : Nat) (data : List Byte) : Dev :=
  let d :=
    if status != 0 then d.elogHdl x.port 0 status 0 noStep
    else
      let l := d.echoLat x.cmd.ts data
      let old := match d.sheaf with | some s => (s.lats.find? fun p => p.1 == dev).map Prod.snd | none => none
      let d := d.setReg ADM_ROUTE_LAT (l + 2 ^ 31) 0 dev
      let d := if bitOf (leNat ((data.drop 13).take 1)) 0 then
          { d with epoch := { d.epoch with listers := d.epoch.listers.add dev } } else d
      match old with
      | some o => if o < l then d.breach brRoute dev {} else d
      | none => d
  if !d.epoch.echoes.has dev then d
  else
    let d := { d with epoch := { d.epoch with echoes := d.epoch.echoes.del dev } }
    if d.epoch.echoes.isEmpty then d.measured else d

/-- A store or atomic at an agreed member updates a resident copy (R257). -/
def Dev.yokePatch (d : Dev) (c dev key : Nat) (bs : List Byte) : Dev :=
  if d.agreed dev && isHbm (key % 2 ^ 48) then d.cachePatch c key bs else d

/-- Every sharer of a write has answered: its acknowledgement goes out, or the waiter goes on (R263). -/
def Dev.acked (d : Dev) (t : AckTo) : Dev :=
  match t with
  | .ok => d.emit .ok
  | .rsp c status data => d.sendRsp c status data
  | .furrow f => d.setFrw f { d.frw f with held := (d.frw f).held - 1 }
  | .team c j =>
    match SMap.find (d.core c).slots j with
    | some y => d.setSlot c j { y with access := y.access.map fun a => { a with wait := a.wait - 1 } }
    | none => d

/-- A sharer's answer to an invalidation. -/
def Dev.answered (d : Dev) (xid : Nat) : Dev :=
  let l := d.acks.map fun (q : List Nat × AckTo) => (q.1.filter fun y => y != xid, q.2)
  ({ d with acks := l.filter fun q => !q.1.isEmpty }).each ((l.filter fun (q : List Nat × AckTo) => q.1.isEmpty).map Prod.snd) Dev.acked

/-- The effect of a response on what awaits it. -/
def Dev.settleRsp (d : Dev) (x : Xact) (status : Nat) (data : List Byte) : Dev :=
  match x.kind with
  | .put f _ => d.hdlRsp f x status id
  | .acc f _ _ => d.hdlRsp f x status id
  | .get f _ loc ctr =>
      let bs := data.take x.cmd.bytes
      if let some w := (if status = 0 then d.mergeUE loc bs.length else none) then d.hbmUE f w
      else d.hdlRsp f x status fun d =>
      let d := (d.mergeFix loc bs.length).landWrite loc bs
      match ctr with | some j => d.countFlits j (cdiv bs.length 504) bs.length | none => d
  | .signal f step =>
      if status = 0 then d
      else (d.elogHdl x.port x.cmd.addr status x.cmd.tag step).failSignal f x.cmd.tag step
  | .load c j lanes =>
      d.teamRsp c j x status (maskOf (lanes.map fun p => p.1))
        (fun a => { a with data := a.data ++ laneData a.size lanes data }) fun a d => d.yokeFill c x.dst lanes data a
  | .store c j lanes ws => d.teamRsp c j x status lanes id fun _ d => d.each ws fun d w => d.yokePatch c x.dst w.1 w.2
  | .atomic c j lanes v v2 =>
      let n := 2 ^ (x.cmd.bytes / 256 % 8)
      let cas := x.cmd.bytes % 8 = 7
      let f := rmwFn (x.cmd.bytes % 8) (x.cmd.bytes % 256 / 8) n
      let old := leNat (data.take 8)
      let wrote := !cas || old == v
      d.teamRsp c j x status (maskOf (lanes.map fun p => p.1))
        (fun a => { a with
          prog := a.prog || wrote
          data := a.data ++ lanes.map fun p => (p.1, afterPrefix f old p.2) })
        fun _ d => if wrote then d.yokePatch c x.dst (x.dst * 2 ^ 48 + x.cmd.addr) (leBytes n (if cas then v2 else f old v)) else d
  | .lost _ _ w =>
      let d := if status = 0 then d else d.elogHdl x.port x.cmd.addr status x.cmd.tag noStep
      if w = 1 then d.answered x.xid else d
  | .inval => d.answered x.xid
  | .stale => d
  | .echo dev => d.echoRsp dev x status data

/-- The effect of a response after the job's fault: the sender's port records a non-zero status, and nothing else of the failed run acts (R277,
Table 18.4). -/
def Dev.settleAborted (d : Dev) (x : Xact) (status : Nat) (data : List Byte) : Dev :=
  match x.kind with
  | .echo _ | .inval | .lost _ _ _ | .stale => d.settleRsp x status data
  | _ => if status = 0 then d else d.elogHdl x.port x.cmd.addr status x.cmd.tag (Cmd.logStep x.cmd)

/-- A RESPONSE for another device passes on by the route to it; it is lost where no UP port takes it (R274, R280). -/
def Dev.rspTransit (d : Dev) (dst xid status : Nat) (data : List Byte) : Dev :=
  match d.egress dst d.devId 0 with
  | .up q => (d.txFlits q (1 + cdiv data.length 504)).emit (.rsp dst xid status data)
  | _ => d

/-- RESPONSE at a port: it passes on to another device, or ends the transaction that it names; one that ends none is discarded (R277,
Table 18.4). -/
def Dev.rsp (d : Dev) (p dst xid status : Nat) (data : List Byte) : Dev :=
  if !d.portIsUp p then d
  else
    let d := d.rxFlits p (1 + cdiv data.length 504)
    if dst != d.devId then d.rspTransit dst xid status data
    else
      match d.xacts.find? fun x => x.xid == xid with
      | none => d
      | some x =>
        let d := { d with xacts := d.xacts.filter fun y => y.xid != xid }.progress x.port
        (if d.job.aborting then d.settleAborted x status data else d.settleRsp x status data).drain

/-- RESPONSE. -/
def execResponse (port dst xid status : Nat) (data : List Byte) (s : State) : Host.Outcome State Fault Refusal :=
  runLive (isPort port) (·.rsp port dst xid status data) s

/-! ### Route epochs (R283) -/

/-- QUIESCE: no new command leaves. -/
def Dev.quiesce (d : Dev) : Dev :=
  (((d.setFld HUB_EPOCH HUB_EPOCH_QUIESCED 1).setFld HUB_EPOCH HUB_EPOCH_DRAINED 0).setFld HUB_EPOCH HUB_EPOCH_MEASURED 0).drain

/-- QUIESCE. -/
def execQuiesce (who : Who) (s : State) : Host.Outcome State Fault Refusal := runWho true who (fun d => d.quiesce.emit .ok) s

/-- Place of the active and the next route table, and of ADM_ROUTE_LAT, in the control window. -/
def routeAt : Nat := HUB_ROUTE.off
def nextAt : Nat := HUB_ROUTE_NEXT.off

/-- The next table becomes active. -/
def swapRoutes (r : SMap Word) : SMap Word :=
  let next := r.filter fun (p : Nat × Word) => decide (nextAt ≤ p.1) && decide (p.1 < nextAt + 0x40000)
  (r.filter fun (p : Nat × Word) => decide (p.1 < routeAt)) ++
    (next.map fun (p : Nat × Word) => (p.1 - nextAt + routeAt, p.2)) ++
    r.filter fun (p : Nat × Word) => decide (routeAt + 0x40000 ≤ p.1)

/-- ADM_ROUTE_LAT.VALID clears in every entry. -/
def clearLats (r : SMap Word) : SMap Word :=
  r.filterMap fun (p : Nat × Word) =>
    if ADM_ROUTE_LAT.off ≤ p.1 && p.1 < ADM_ROUTE_LAT.off + 0x40000 then
      (if p.2.toNat % 2 ^ 31 = 0 then none else some (p.1, mkW (p.2.toNat % 2 ^ 31)))
    else some p

/-- SWAP, with every command answered (Table 13.6 step 4); no effect and an error response unless DRAINED. -/
def Dev.swap (d : Dev) : Dev :=
  if d.bit HUB_EPOCH HUB_EPOCH_DRAINED then
    let d := { d with regs := clearLats (swapRoutes d.regs), epoch := { d.epoch with swapped := true } }
    (d.bump HUB_EPOCH HUB_EPOCH_EPOCH 1).emit .ok
  else d.emit .err

/-- SWAP. -/
def execSwap (who : Who) (s : State) : Host.Outcome State Fault Refusal := runWho true who (·.swap) s

/-- Devices with a valid entry in the active table; entry 0xFFFF is never used (R279). -/
def Dev.validRoutes (d : Dev) : List Nat :=
  (d.regs.filter fun (p : Nat × Word) =>
    decide (routeAt ≤ p.1) && decide (p.1 < routeAt + 4 * 0xFFFF) && bitOf p.2.toNat 31).map fun p => (p.1 - routeAt) / 4

/-- One ECHO leaves, with the sender's time base; one that cannot leave is logged at its egress port. -/
def Dev.sendEcho (d : Dev) (dev : Nat) : Dev :=
  let (d, xid) := d.newXid
  let c : Cmd := { Cmd.zero with op := 16, src := d.devId, dst := dev, jobId := d.jobId, xid := xid, ts := d.tb.time }
  match d.egress dev d.devId 0 with
  | .up p =>
    let d := d.sendBy p c []
    { d with xacts := d.xacts ++ [⟨xid, .echo dev, dev, p, c⟩], epoch := { d.epoch with echoes := d.epoch.echoes.add dev } }
  | .down p => d.elogHdl p 0 0x60 0 noStep
  | .noRoute => d.elogHdl (6 * routeDie (d.routeEntry dev)) 0 0x63 0 noStep

/-- RESUME: an ECHO to every valid entry (Table 13.6 step 5); no effect and an error response unless swapped. -/
def Dev.resumeEpoch (d : Dev) : Dev :=
  if d.epoch.swapped then
    let d := d.each d.validRoutes Dev.sendEcho
    let d := { d with epoch := { d.epoch with swapped := false, since := d.tb.time } }
    (if d.epoch.echoes.isEmpty then d.measured else d).emit .ok
  else d.emit .err

/-- RESUME. -/
def execResume (who : Who) (s : State) : Host.Outcome State Fault Refusal := runWho true who (·.resumeEpoch) s

/-! ### Yoke (R263) -/

/-- A yoke member invalidates a granule: every L1 and cache plot of this device drops it, and the member has its answer. -/
def Dev.invalidate (d : Dev) (dev line : Nat) : Dev :=
  let lo := dev * 2 ^ 48 + 256 * line
  let keep (ls : List Line) : List Line := ls.filter fun l => decide (l.addr + l.bytes.length ≤ lo) || decide (lo + 256 ≤ l.addr)
  let clean (m : SMap (List Line)) : SMap (List Line) :=
    (m.map fun (p : Nat × List Line) => (p.1, keep p.2)).filter fun p => !p.2.isEmpty
  { d with l1 := clean d.l1, cplot := clean d.cplot }.emit (.invalidated dev line)

/-- YOKE_INVALIDATE. -/
def execYokeInvalidate (dev line : Nat) (s : State) : Host.Outcome State Fault Refusal :=
  runLive (decide (dev < 65536) && decide (line < 0x5000_0000)) (·.invalidate dev line) s

/-! ### Tokens (R278) -/

/-- A discarded token is logged in its ingress port's log. -/
def Dev.dropTok (d : Dev) (p : Nat) (t : Tok) : Dev := d.elogHdl p 0 0x40 0 t.step

/-- A SEAL or DONE token counts for the admitted run alone. -/
def Dev.tokRun (d : Dev) (t : Tok) : Bool := d.admitted && t.jobId == d.jobId && t.gen0 == d.gen0

/-- A FAULT token (R362). -/
def Dev.takeFault (d : Dev) (t : Tok) : Dev :=
  if d.tokRun t then
    if d.job.faulted then d
    else d.jobFault { cause := jfPeer, step := t.step, origin := t.origin, origCause := t.cause }
  else d.glog 0 0x09 reqRemote 0 t.step

/-- A token for this device. -/
def Dev.takeTok (d : Dev) (p : Nat) (t : Tok) : Dev :=
  if t.rsvd then d.dropTok p t
  else
    match t.kind with
    | 1 => if d.tokRun t then d.takeSeal t else d.dropTok p t
    | 2 => if d.tokRun t then d.takeDone t else d.dropTok p t
    | 3 => d.takeFault t
    | _ => d.dropTok p t

/-- A token for another device passes on, drawing no response (R282). -/
def Dev.tokTransit (d : Dev) (p : Nat) (t : Tok) : Dev :=
  if t.hops = d.fld HUB_FAB_CFG HUB_FAB_CFG_HOP_LIMIT then d.elogHdl p 0 0x62 0 t.step
  else
    match d.egress t.dst t.src 0 with
    | .up q => (d.txFlits q 1).emit (.tok q { t with hops := (t.hops + 1) % 256, req1 := t.req1 || routeDateline (d.routeEntry t.dst) })
    | .down _ => d.elogHdl p 0 0x60 0 t.step
    | .noRoute => d.elogHdl p 0 0x63 0 t.step

/-- A token arrives at a port. -/
def Dev.tokIn (d : Dev) (p : Nat) (t : Tok) : Dev :=
  if !d.portIsUp p then d
  else
    let d := d.rxFlits p 1
    if t.dst != d.devId then d.tokTransit p t else d.takeTok p t

/-- TOKEN: any kind. -/
def execToken (port : Nat) (t : Tok) (s : State) : Host.Outcome State Fault Refusal := runLive (isPort port) (·.tokIn port t) s

/-- SEAL_TOKEN (R211, R212). -/
def execSealToken (port : Nat) (t : Tok) (s : State) : Host.Outcome State Fault Refusal :=
  runLive (isPort port) (·.tokIn port { t with kind := 1 }) s

/-- DONE_TOKEN (R214). -/
def execDoneToken (port : Nat) (t : Tok) (s : State) : Host.Outcome State Fault Refusal :=
  runLive (isPort port) (·.tokIn port { t with kind := 2 }) s

/-- FAULT_TOKEN (R362). -/
def execFaultToken (port : Nat) (t : Tok) (s : State) : Host.Outcome State Fault Refusal :=
  runLive (isPort port) (·.tokIn port { t with kind := 3 }) s

end Sys2Proof.Machine
end

