-- ==== Sys2Proof/Machine/PowerOps.lean ====
section
/-! DEFINITION. The governor, the envelope, the thermal trip and the power states (R303 to R318). -/
namespace Sys2Proof.Machine
open Sys2Proof

/-! ### Fill (R308) -/

/-- A watt in the governor's unit. -/
def watt : Nat := 2000

/-- May inserted work be placed on an engine: its furrow is not held, runs no descriptor, and is empty, stopped, in sow-in or has a head that
waits (R43, R74, R75, R308)? -/
def Dev.engineFree (d : Dev) (f : Nat) : Bool :=
  let x := d.frw f
  x.cur.isNone && d.ff f FRW_CTRL FRW_CTRL_HOLD == 0 &&
    (x.fifo.isEmpty || !d.running || d.frwErr f != 0 || x.wait == .pending || x.verdictWait || decide (d.tb.time < d.job.sowEnd))

/-- Physical cores that may take a test slice: not fused off, clocked, and free when mapped; spare cores are tested too (R308, R367). -/
def Dev.sliceCores (d : Dev) : List Nat :=
  (List.range 140).filter fun c =>
    !bitOf (d.reg RST_FUSED 0 (c / 14)) (c % 14) && !d.gated (coreIsland c) &&
      (match d.logOf c with | some l => d.engineFree l | none => true)

/-- Physical cores that may take pattern fill: those that serve a logical core, whose furrow can be empty or waiting (R308). -/
def Dev.fillCores (d : Dev) : List Nat := d.sliceCores.filter fun c => (d.logOf c).isSome

/-- Plots whose mark allows inserted reads (Table 9.1). -/
def Dev.fillPlots (d : Dev) : List Nat :=
  (List.range 160).filter fun p =>
    !d.heldPlot p && !d.gated (plotIsland (p / 16)) &&
      d.engineFree (240 + p)

/-- Test slices that are due start on free cores, one per core, while the fill called for holds 10.5 W more (R308). -/
def Dev.startTests (d : Dev) : Nat → List Nat → Dev × Nat
  | need, [] => (d, need)
  | need, c :: cs =>
    if need < drawSlice then (d, need)
    else
      match d.ist.due.find? fun u => decide (u / 16 = c) && decide (u < 2240) with
      | some u =>
        let d := { d with ist := { d.ist with due := d.ist.due.del u, running := d.ist.running.add u } }
        ((d.showInserted c 2).traceFill 1 trcFillBegin (d.mxaId c)).startTests (need - drawSlice) cs
      | none => d.startTests need cs

/-- Test windows that are due start, one per plot, while the fill called for holds 0.8 W more (R308). -/
def Dev.startWindows (d : Dev) : Nat → List Nat → Dev × Nat
  | need, [] => (d, need)
  | need, p :: ps =>
    if need < drawPlot then (d, need)
    else
      match d.ist.due.find? fun u => decide (2240 ≤ u) && windowOf u == p with
      | some u =>
        let d := { d with ist := { d.ist with due := d.ist.due.del u, running := d.ist.running.add u } }
        ((d.setFrw (240 + p) { d.frw (240 + p) with inserted := 2 }).traceFill 3 trcFillBegin (furrowId (240 + p))).startWindows (need - drawPlot) ps
      | none => d.startWindows need ps

/-- With no sheaf admitted a unit that is due runs at once, one to a core or plot (R368). -/
def Dev.istStart (d : Dev) (u : Nat) : Dev :=
  let c := u / 16
  let p := windowOf u
  if u < 2240 then
    if d.sliceCores.contains c && !(d.testCores).contains c then (d.startTests drawSlice [c]).1 else d
  else if d.windowPlot p && !d.gated (plotIsland (p / 16)) && d.engineFree (240 + p) && !(d.testPlots).contains p then
    (d.startWindows drawPlot [p]).1
  else d

/-- With no sheaf admitted the units that are due run (R368). -/
def Dev.runDue (d : Dev) : Dev := if d.admitted then d else d.each d.ist.due Dev.istStart

/-- Units of 0.75 W of core number `i` among `m` that share `n` units, at most 16 each. -/
def unitsOf (n m i : Nat) : Nat := if m = 0 then 0 else min 16 (n / m + b2n (decide (i < n % m)))

/-- Draw of the tests that run. -/
def Dev.testDraw (d : Dev) : Nat := (d.ist.running.map drawTest).foldl (· + ·) 0

/-- Place `need` of inserted work in the order of R308: tests that go beyond it stop, and due ones start; then patterns, then plot reads. What
no source could take is answered. -/
def Dev.placeFill (d : Dev) (need : Nat) : Dev × Nat :=
  let d := (d.withdrawTests (d.testDraw - need) d.ist.running.reverse).1
  let d := (d.startTests (need - d.testDraw) (d.sliceCores.filter fun c => !(d.testCores).contains c)).1
  let d := (d.startWindows (need - d.testDraw) (d.fillPlots.filter fun p => d.windowPlot p && !(d.testPlots).contains p)).1
  let d := { d with gov := { d.gov with hand := [] } }
  let free := d.fillCores.filter fun c => !(d.testCores).contains c
  let need' := need - d.testDraw
  let n := min (need' / drawLevel) (16 * free.length)
  let d := d.each ((List.range 140).filter fun c => !free.contains c) fun d c => d.setMxaFill c 0
  let d := d.each free.zipIdx fun d p => d.setMxaFill p.1 (unitsOf n free.length p.2)
  let rest := need' - drawLevel * n
  let plots := d.fillPlots.filter fun p => !(d.testPlots).contains p
  let k := min (rest / drawPlot) plots.length
  let on := plots.take k
  let d := d.each (List.range 160) fun d p => d.setPlotFill p (on.contains p)
  ({ d with gov := { d.gov with fill := d.fillDraw } }, rest - drawPlot * k)

/-- Without a target to hold no pattern and no inserted read runs; units that are due run with no sheaf admitted. -/
def Dev.noFill (d : Dev) : Dev :=
  let d := { d with gov := { d.gov with hand := [] } }
  let d := d.each (d.gov.mxaFill.map Prod.fst) fun d c => d.setMxaFill c 0
  let d := (d.each d.gov.plotFill fun d p => d.setPlotFill p false).runDue
  { d with gov := { d.gov with fill := d.fillDraw } }

/-! ### Stretch (R310, R311) -/

/-- Spread depth of a stretch class: the plot island has none (R329). -/
def Dev.classDepth (d : Dev) (k : Nat) : Nat :=
  match k % 3 with
  | 0 => d.fld CLK_SSC CLK_SSC_C_DEPTH (k / 3)
  | 1 => d.fld CLK_SSC CLK_SSC_F_DEPTH (k / 3)
  | _ => 0

/-- Is a class stretched below its bottom-of-spread frequency: (64 - n)/64 below 1 - depth/800? -/
def Dev.belowBottom (d : Dev) (k n : Nat) : Bool := decide (64 * d.classDepth k < 800 * n)

/-- Stretch classes one step further, at most to half; answers whether one went below its bottom of spread. Classes that do so together raise
one event. DESIGN CHOICE, R49 counts events and no rule says whether islands that a single step stretches share one. -/
def Dev.stretchBy (d : Dev) (ks : List Nat) : Dev × Bool :=
  ks.foldl (fun q k =>
    let n := SMap.get 0 q.1.gov.stretch k
    if 32 ≤ n then q
    else
      ({ q.1 with gov := { q.1.gov with stretch := SMap.put 0 q.1.gov.stretch k (n + 1) } },
        q.2 || (!q.1.belowBottom k n && q.1.belowBottom k (n + 1)))) (d, false)

/-- Relax classes one step. -/
def Dev.relaxBy (d : Dev) (ks : List Nat) : Dev :=
  { d with gov := { d.gov with stretch := ks.foldl (fun m k => SMap.put 0 m k (SMap.get 0 m k - 1)) d.gov.stretch } }

def coreClasses : List Nat := (List.range 10).map fun d => 3 * d
def otherClasses : List Nat := (List.range 10).flatMap fun d => [3 * d + 1, 3 * d + 2]

/-- Is every class of a list stretched as far as it goes? -/
def Dev.allDeep (d : Dev) (ks : List Nat) : Bool := ks.all fun k => decide (32 ≤ SMap.get 0 d.gov.stretch k)

/-- Steps of 1/64 by which one microsecond stretches: 64 steps, of the cores and then of the rest, take 16 µs of the 20 µs that R310 allows
(DESIGN CHOICE, log entry 88). -/
def stretchRate : Nat := 4

/-- Stretch the cores, and when they are at the deepest the fabric and plots, by up to `n` steps. -/
def Dev.stretchDown : Nat → Dev × Bool → Dev × Bool
  | 0, q => q
  | n + 1, q =>
    let r := if q.1.allDeep coreClasses then q.1.stretchBy otherClasses else q.1.stretchBy coreClasses
    Dev.stretchDown n (r.1, q.2 || r.2)

/-- One microsecond of the ceiling's throttle: cores first, then fabric and plots; the gate closes above the ceiling at the deepest (R310). -/
def Dev.throttle (d : Dev) (above : Bool) (hot : List Nat) (measured ceil : Nat) : Dev :=
  if above then
    let q := Dev.stretchDown stretchRate (d, false)
    let d := if q.2 then q.1.breach brThrottle 0 {} else q.1
    let closed := d.allDeep coreClasses && d.allDeep otherClasses && decide (ceil < measured)
    let d := { d with gov := { d.gov with closed := closed } }
    if closed then d.stick PWR_EVT PWR_EVT_OVER 1 else d
  else
    let cool (k : Nat) : Bool := !hot.contains (k / 3)
    let os := otherClasses.filter fun k => cool k && SMap.get 0 d.gov.stretch k != 0
    let d := if os.isEmpty then d.relaxBy (coreClasses.filter cool) else d.relaxBy os
    { d with gov := { d.gov with closed := false } }

/-! ### The thermal trip (R311) -/

/-- Unit of a trip source: 0 to 9 die, 10 to 29 stack, 30 hub. -/
def tripUnit (src : Nat) : Nat × Nat := if 10 ≤ src && src < 30 then (kStack, src - 10) else (kHub, src)

/-- Every clock but the always-on domain's stops, THERMTRIP_N is pulled low, the job faults; a record is due. -/
def Dev.trip (d : Dev) (src temp : Nat) : Dev :=
  let r : TripRec := ⟨src, temp, d.tb.time, if d.running then d.jobId else 0, false⟩
  let d := d.setFld PWR_EVT PWR_EVT_TRIP 1
  let d := d.jobFault { cause := jfThermal, kind := (tripUnit src).1, unit := (tripUnit src).2 }
  { d with
    halt := .trip
    pins := { d.pins with thermtrip := true }
    boot := { d.boot with tripDue := some r }
    out := [] }

/-- THERMAL_TRIP. -/
def execThermalTrip (src temp : Nat) (s : State) : Host.Outcome State Fault Refusal :=
  runLive (decide (src ≤ 30) && decide (temp < 256)) (·.trip src temp) s

/-- TRIP_RECORD: the always-on domain appends the record to flash. -/
def execTripRecord (s : State) : Host.Outcome State Fault Refusal :=
  runDev true (fun d =>
    match d.boot.tripDue with
    | some r => { d with boot := { d.boot with trips := d.boot.trips ++ [r], tripDue := none } }
    | none => d) s

/-! ### The governor's tick (R303, R306 to R310, R312, R313) -/

/-- The rails are sampled: PWR_RAIL, the last ten totals, PWR_TEL (R303); a stack is hot while its hottest core die exceeds 85 °C (R297). -/
def Dev.sampleRails (d : Dev) (rails : List (Nat × Nat)) (temps : List Nat) : Dev :=
  let d := d.each (rails.take 27).zipIdx fun d p => d.setReg PWR_RAIL (p.1.1 % 2 ^ 13 + (p.1.2 % 2 ^ 13) <<< 16) 0 p.2
  let w := ((rails.take 27).map fun p => watt * p.1).foldl (· + ·) 0
  let d := { d with gov := { d.gov with meas := (w :: d.gov.meas).take 10, dieTemp := temps.take 10 } }
  d.each ((temps.drop 10).take 20).zipIdx fun d p =>
    { d.setFld HBM_STATUS HBM_STATUS_TEMP p.1 p.2 with hot := if 85 < p.1 then d.hot.add p.2 else d.hot.del p.2 }

/-- P̄: the average of the last ten samples. -/
def Dev.meanMw (d : Dev) : Nat := (d.gov.meas.foldl (· + ·) 0) / max 1 d.gov.meas.length

/-- Dies above PWR_THERM.LIMIT, by their own temperature or a stack's. -/
def Dev.hotDies (d : Dev) (temps : List Nat) : List Nat :=
  let lim := d.fld PWR_THERM PWR_THERM_LIMIT
  (List.range 10).filter fun i => decide (lim < (temps[i]?).getD 0) || decide (lim < (temps[10 + 2 * i]?).getD 0) ||
    decide (lim < (temps[11 + 2 * i]?).getD 0)

/-- Level at which ramp-down stops: the higher of PWR_END and the idle draw (R313). -/
def Dev.rampEnd (d : Dev) : Nat := max (watt * d.fld PWR_END PWR_END_W) d.gov.idle

/-- PWR_SLEW in the governor's unit for each microsecond. -/
def Dev.slewUs (d : Dev) : Nat := 2 * d.fld PWR_SLEW PWR_SLEW_W_PER_MS

/-- The new target: it rises at the slew through sow-in (R312) and follows the profile after it (R306); in ramp-down, and while fill holds the
level that this reached, it falls at the slew towards `rampEnd` and never rises (R313, Table 18.5 step 5); otherwise it is the draw as it is.
Hot dies lower it at the slew (R311). -/
def Dev.newTarget (d : Dev) (now : Nat) (hot : Bool) : Nat :=
  let s := d.slewUs
  let t := d.gov.target
  let ceil := watt * d.fld PWR_CEIL PWR_CEIL_W
  if d.gov.active then
    let want := max (d.phaseLo (d.fld PWR_FLOOR PWR_FLOOR_W) (d.fld PWR_SLEW PWR_SLEW_W_PER_MS)) (d.gov.idle + d.workMw)
    let n := if d.tb.time < d.job.sowEnd then min ceil (t + s) else min ceil (min (t + s) (max want (t - s)))
    if hot then min n (t - s) else n
  else if d.gov.ramp || d.gov.hold then min ceil (if d.rampEnd < t then max (t - s) d.rampEnd else t)
  else now

/-- PWR_TEL and PWR_FILL_J after a tick. -/
def Dev.showPower (d : Dev) (temps : List Nat) : Dev :=
  let d := d.setReg PWR_TEL (d.meanMw / watt % 2 ^ 13 + (d.gov.target / watt % 2 ^ 13) <<< 16 + (d.gov.fill / watt % 2 ^ 13) <<< 32 +
    ((temps.foldl max 0) % 256) <<< 48)
  let e := d.gov.fillE + d.gov.fill
  { d.bump PWR_FILL_J PWR_FILL_J_J (e / 2000000000) with gov := { d.gov with fillE := e % 2000000000 } }

/-- The floor that binds: from the first moment that the sow-in rise can reach it, while the job runs (R305). -/
def Dev.floorNow (d : Dev) : Nat :=
  let f := watt * d.fld PWR_FLOOR PWR_FLOOR_W
  if d.gov.active && decide (f ≤ watt * d.fld PWR_START PWR_START_W + d.slewUs * ((d.tb.time - d.job.start) / 1000)) then f else 0

/-- After the fill is placed: `rest` of the target `t` found no source. The draw is short where it misses the floor or the downward slew from the
last target `t0` (R309). -/
def Dev.countShort (d : Dev) (base t0 rest : Nat) : Dev :=
  if drawPlot ≤ rest && decide (base + d.gov.fill < max d.floorNow (t0 - d.slewUs)) then
    let d := d.stick PWR_EVT PWR_EVT_SHORT 1
    if d.bit PWR_CTRL PWR_CTRL_IRQ_EN then d.irq irqPower else d
  else d

/-- Ramp-down ends where the target has come to `rampEnd`; fill goes on to hold a level above the idle draw. -/
def Dev.rampDone (d : Dev) : Dev :=
  if d.gov.ramp && decide (d.gov.target ≤ d.rampEnd) then
    { d.setFld PWR_STATUS PWR_STATUS_RAMP_DOWN 0 with gov := { d.gov with ramp := false, hold := true } }
  else d

/-- MXA_INSERT of each core that ran inserted work in the microsecond past grows by the core cycles of a microsecond (log entry 92). -/
def Dev.countInserted (d : Dev) : Dev :=
  d.each (d.testCores ++ (d.gov.mxaFill.map Prod.fst).filter fun c => !(d.testCores).contains c) fun d c =>
    d.bump MXA_INSERT MXA_INSERT_CYCLES (d.fld CLK_CPLL CLK_CPLL_MULT (dieOf c) * 125 / 10) c

/-- One microsecond of the governor's regulation. -/
def Dev.regulate (d : Dev) (temps : List Nat) : Dev :=
  let now := (d.gov.meas.head?).getD 0
  let hot := d.hotDies temps
  let base := now - d.gov.fill
  let t0 := d.gov.target
  let governed := d.gov.active || d.gov.ramp || d.gov.hold
  let d := if governed then d else { d with gov := { d.gov with idle := base } }
  let t := d.newTarget now (!hot.isEmpty)
  let q := d.stretchBy (hot.flatMap fun i => [3 * i, 3 * i + 1, 3 * i + 2])
  let d := if q.2 then q.1.breach brThermal 0 {} else q.1
  let d := d.throttle (governed && decide (t < base)) hot now (watt * d.fld PWR_CEIL PWR_CEIL_W)
  let d := { d with gov := { d.gov with target := t, allow := d.slewUs } }
  let p := d.placeFill (t - base)
  ((if governed then p.1.countShort base t0 p.2 else d.noFill).rampDone).showPower temps

/-! ### The envelope (R304, R314) -/

/-- The five envelope registers in order. -/
def envRegs : List RegDef := [PWR_FLOOR, PWR_CEIL, PWR_SLEW, PWR_START, PWR_END]

/-- Is a value in the range of Table 15.5, with FLOOR and CEILING in order? -/
def Dev.envOk (d : Dev) (which v : Nat) : Bool :=
  let ceil := d.fld PWR_CEIL PWR_CEIL_W
  match which with
  | 0 => decide (v ≤ 4400) && decide (v ≤ ceil)
  | 1 => decide (1000 ≤ v) && decide (v ≤ 4400) && decide (d.fld PWR_FLOOR PWR_FLOOR_W ≤ v)
  | 2 => decide (1 ≤ v) && decide (v ≤ 10000)
  | _ => decide (v ≤ ceil)

/-- A write of FLOOR (0), CEILING (1), SLEW (2), START (3) or END (4); `v` is the register's writable field. -/
def Dev.envWrite (d : Dev) (who : Who) (which v : Nat) : Dev :=
  match envRegs[which]? with
  | none => d
  | some r =>
    let a := ctrlBase + r.off
    if 3 ≤ which && d.admitted then d.refuse who a 0x05
    else if !d.envOk which v then d.refuse who a 0x02
    else
      let d := d.setReg r v
      (if d.running && decide (which < 3) then { d with gov := { d.gov with recheck := true } } else d).emit .ok

/-- ENVELOPE_WRITE. -/
def execEnvelopeWrite (who : Who) (which : Nat) (v : Word) (s : State) : Host.Outcome State Fault Refusal :=
  runWho (decide (which < 5)) who (fun d => d.envWrite who which (wnat v % 2 ^ (if which = 2 then 14 else 13))) s

/-- ENVELOPE_RECHECK: the test of R44 against the admitted profile with the new values. -/
def Dev.recheck (d : Dev) : Dev :=
  match d.sheaf with
  | some s =>
    if d.running && d.gov.recheck then
      let d := { d with gov := { d.gov with recheck := false } }
      match holdFail s.profile ((s.profile.map fun (p : Nat × Nat × Nat × Nat) => p.2.1).foldl max 0) (d.fld PWR_FLOOR PWR_FLOOR_W)
          (d.fld PWR_CEIL PWR_CEIL_W) (d.fld PWR_SLEW PWR_SLEW_W_PER_MS) (d.fld PWR_START PWR_START_W) with
      | some _ => d.breach brEnvelope 0 {}
      | none => d
    else d
  | none => d

/-- ENVELOPE_RECHECK. -/
def execEnvelopeRecheck (s : State) : Host.Outcome State Fault Refusal := runLive true (·.recheck) s

/-! ### Stack training (R296, Table 14.3) -/

/-- A stack's contents are written zero with valid check bits. -/
def Dev.zeroStack (d : Dev) (s : Nat) : Dev :=
  { d with
    mem := d.mem.filter fun (p : Nat × Byte) => !(decide (p.1 < hbmSize) && stackOf p.1 == s)
    eccUE := d.eccUE.filter fun w => stackOf (8 * w) != s
    eccCE := d.eccCE.filter fun w => stackOf (8 * w) != s }

/-- The HPLL loop that clocks a stack (Table 16.2). -/
def stackLoop (s : Nat) : Nat := 4 * (s / 2) + 2 + s % 2

/-- Does the stack train through step 5, which zeroes it? -/
def Dev.trainsWhole (d : Dev) (s : Nat) : Bool := SMap.get 0 d.training s == 5

/-- Step 1: the stack trains; it has left self-refresh. -/
def Dev.trainBegin (d : Dev) (s : Nat) : Dev :=
  { d with selfRef := d.selfRef.del s }.setFld HBM_STATUS HBM_STATUS_STATE 1 s

/-- A stack is to train through step `last`: it begins once its HPLL is locked. -/
def Dev.trainDue (d : Dev) (s last : Nat) : Dev :=
  let d := { d with training := SMap.put 0 d.training s last }
  if d.locked (stackLoop s) then d.trainBegin s else d

/-- In the transition out of DEEP the device is in RUN when every stack is TRAINED; then enabled ports train (Table 15.4 steps 8 and 9). -/
def Dev.runReached (d : Dev) : Dev :=
  if d.pwrState == 3 && d.gov.goal.isNone && (List.range 20).all fun s => d.fld HBM_STATUS HBM_STATUS_STATE s == 2 then
    (d.setFld PWR_STATUS PWR_STATUS_STATE 0).each (List.range 60) fun d p => if d.bit HDL_CFG HDL_CFG_ENABLE p then d.portRun p true else d
  else d

/-- The training of a stack ends: FAILED at step `fail` where that is one of its steps, else TRAINED at the rate that HBM_CFG names (R293). Step 3
counts the lanes repaired; step 5 zeroes. -/
def Dev.trainEnd (d : Dev) (s fail repaired : Nat) : Dev :=
  let last := SMap.get 0 d.training s
  let bad := decide (1 ≤ fail) && decide (fail ≤ last)
  let d := if bad && decide (fail < 3) then d else d.setFld HBM_REPAIR HBM_REPAIR_LANES repaired s
  let d := { d with training := SMap.erase d.training s }
  if bad then (d.setFld HBM_STATUS HBM_STATUS_CAUSE fail s).setFld HBM_STATUS HBM_STATUS_STATE 3 s
  else
    let d := if last = 5 then d.zeroStack s else d
    ({ d with rates := SMap.put 0 d.rates s (d.fld HBM_CFG HBM_CFG_RATE s) }.setFld HBM_STATUS HBM_STATUS_STATE 2 s).runReached

/-- HBM_CTRL.RETRAIN on one stack: a FAILED one runs the whole table, any other steps 1 to 4; one that trains begins again. -/
def Dev.retrain (d : Dev) (s : Nat) : Dev :=
  if d.admitted then d.emit .err
  else (d.trainDue s (if d.fld HBM_STATUS HBM_STATUS_STATE s = 3 || d.trainsWhole s then 5 else 4)).emit .ok

/-! ### Power states (R316, R317) -/

/-- Registers of a unit whose fields are not kept by a DEV reset or deeper take their Reset values; the unit's block spans
`[lo, lo + n)` of the control window, and `defs` are its registers. -/
def Dev.dropFields (d : Dev) (defs : List RegDef) (u : Nat) (lvl : Nat) : Dev :=
  d.each defs fun d r =>
    d.each (List.range r.count) fun d i =>
      match SMap.find d.regs (r.addr u i) with
      | none => d
      | some w =>
        d.setReg r (r.flds.foldl (fun v f => if lvl ≤ f.kept.level then v else setBits v f.lo f.w (f.reset i)) w.toNat) u i

/-- A port's block, a core's, and so on lose their state in DEEP (R377). -/
def deepLevel : Nat := Keep.dev.level

/-- Tile buffer of a core zeroed, its headers PLAIN. -/
def Dev.zeroTile (d : Dev) (c : Nat) : Dev :=
  { d with
    mem := SMap.clearRange d.mem (tileAddr c) 0x40_0000
    hdrs := SMap.clearRange d.hdrs (tileAddr c / 512) 0x2000 }

/-- A plot zeroed, its headers PLAIN, nothing kept (R186, R187). -/
def Dev.zeroPlot (d : Dev) (p : Nat) : Dev :=
  { d.setFld TLT_MARK TLT_MARK_KEPT 0 p with
    mem := SMap.clearRange d.mem (plotBase + p * 0x400_0000) 0x400_0000
    hdrs := SMap.clearRange d.hdrs ((plotBase + p * 0x400_0000) / 512) 0x2_0000 }

/-- Cache plots and team L1s invalidated. -/
def Dev.dropCaches (d : Dev) : Dev := { d with l1 := [], cplot := [], coreCopy := [], dieCopy := [] }

/-- A core's island loses its state. -/
def Dev.deepCore (d : Dev) (c : Nat) : Dev :=
  let d := d.zeroTile c
  let d := { d with
    mxa := SMap.erase d.mxa c, tme := SMap.erase d.tme c, l1 := SMap.erase d.l1 c, coreCopy := SMap.erase d.coreCopy c }
  let d := d.dropFields coreRegs c deepLevel
  let d := d.dropFields furrowRegs (coreBase c + 0xE000) deepLevel
  d.dropFields furrowRegs (coreBase c + 0xF000) deepLevel

/-- A plot of a gated island: kept with RETAIN, else zeroed (R189); its registers as R377. -/
def Dev.deepPlot (d : Dev) (p : Nat) : Dev :=
  let keep := d.bit TLT_CFG TLT_CFG_RETAIN p
  let kept := d.fld TLT_MARK TLT_MARK_KEPT p
  let d := (d.dropFields plotRegs p deepLevel).dropFields furrowRegs (Blk.base .plot p + 0x800) deepLevel
  if keep then d.setFld TLT_MARK TLT_MARK_KEPT kept p else d.zeroPlot p

/-- DEEP entry (Table 15.4 steps 4 to 6): ports off, stacks in self-refresh, gated islands without state. A FAILED stack whose retraining is under
way is FAILED again. -/
def Dev.enterDeep (d : Dev) : Dev :=
  let en (i : Nat) : Bool := d.islandEn CLK_EN_DEEP i
  let d := d.dropCaches
  let d := d.each (List.range 60) fun d p =>
    let d := ((d.setPortState p portOff).setFld HDL_STATUS HDL_STATUS_FEC_LOCK 0 p).setPort p Port.off
    if en (fabIsland (p / 6)) then d
    else (d.dropFields portRegs p deepLevel).dropFields furrowRegs (Blk.base .port p + 0xF000) deepLevel
  let d := d.each (List.range 140) fun d c => if en (coreIsland c) then d else d.deepCore c
  let d := d.each (List.range 160) fun d p => if en (plotIsland (p / 16)) then d else d.deepPlot p
  let d := d.each (List.range 40) fun d m =>
    if en (movIsland (m / 4)) then d else (d.dropFields moverRegs m deepLevel).dropFields furrowRegs (Blk.base .mover m + 0xF000) deepLevel
  let d := d.each (List.range 20) fun d s =>
    let st := d.fld HBM_STATUS HBM_STATUS_STATE s
    let rep := d.reg HBM_REPAIR s
    let stat := d.reg HBM_STATUS s
    let d := (d.dropFields stackRegs s deepLevel).dropFields furrowRegs (Blk.base .stack s + 0xF000) deepLevel
    ((d.setReg HBM_STATUS stat s).setReg HBM_REPAIR rep s).setFld HBM_STATUS HBM_STATUS_STATE
      (if st = 2 then 4 else if st = 1 then (if d.trainsWhole s then 3 else 4) else st) s
  { d with
    harrow := []
    gov := { d.gov with goal := none }
    training := d.training.filter fun p => p.2 == 5
    selfRef := (List.range 20).filter fun s => d.fld HBM_STATUS HBM_STATUS_STATE s == 4 }.setFld PWR_STATUS PWR_STATUS_STATE 2

/-- Plots whose island kept its state in DEEP are zeroed on the way out unless RETAIN is set (R189). -/
def Dev.zeroUnretained (d : Dev) : Dev :=
  d.each ((List.range 160).filter fun p => d.islandEn CLK_EN_DEEP (plotIsland (p / 16)) && !d.bit TLT_CFG TLT_CFG_RETAIN p) Dev.zeroPlot

/-- DEEP exit (Table 15.4 steps 7 and 8): islands are powered, stacks leave self-refresh and train once their loops are locked; the device is in RUN
when every stack is TRAINED. -/
def Dev.leaveDeep (d : Dev) : Dev :=
  let d := d.zeroUnretained
  let d := { d with gov := { d.gov with leaves := 0, goal := none } }
  (d.each d.selfRef fun d s => d.trainDue s 4).runReached

/-- Does an access of the job before still land in HBM: a GET whose data is not there (R298)? -/
def Dev.landsDue (d : Dev) : Bool := d.xacts.any fun x => match x.kind with | .get _ _ _ _ => true | _ => false

/-- The power transition under way ends: SLEEP and RUN from SLEEP at the next microsecond, DEEP once nothing is to land (R316, R298; that one
microsecond is what the blocks' switching takes is a DESIGN CHOICE, log entry 86). -/
def Dev.powerStep (d : Dev) : Dev :=
  match d.gov.goal with
  | none => d
  | some g =>
    if g = 2 then (if d.landsDue then d else d.enterDeep)
    else if g = 0 then
      (if d.gov.leaves = 2 then d.leaveDeep
       else { d with gov := { d.gov with goal := none } }.setFld PWR_STATUS PWR_STATUS_STATE 0)
    else { (if d.gov.leaves = 2 then d.leaveDeep else d) with gov := { d.gov with goal := none } }.setFld PWR_STATUS PWR_STATUS_STATE 1

/-- A power request (R316): no effect and an error response while a sheaf is admitted; else the transition begins, unless the device is in the
state already. A request during a transition changes where it goes (DESIGN CHOICE, log entry 86). -/
def Dev.powerReq (d : Dev) (req : Nat) : Dev :=
  if d.admitted then d.emit .err
  else if d.pwrState = req || (d.pwrState == 3 && d.gov.goal == none && req == 0) then d.emit .ok
  else
    let d := { d with gov := { d.gov with leaves := d.pwrMode, goal := some req, hold := false } }
    ((if req = 2 then d.dropCaches else d).setFld PWR_STATUS PWR_STATUS_STATE 3).emit .ok

/-- A reset of depth JOB or less returns the device to RUN from the state `st` with the masks of `mode` in force (R317, R318). -/
def Dev.wake (d : Dev) (st mode : Nat) : Dev :=
  if st = 0 then d
  else if st = 3 && mode = 0 && d.gov.goal.isNone then (d.setFld PWR_STATUS PWR_STATUS_STATE 3).runReached
  else if mode = 2 then (d.setFld PWR_STATUS PWR_STATUS_STATE 3).leaveDeep
  else { d with gov := { d.gov with goal := none } }.setFld PWR_STATUS PWR_STATUS_STATE 0

/-- Step 6 of a route epoch ends 20 ms after RESUME where an ECHO stays unanswered: its route has no latency (Table 13.6; log entry 97). -/
def Dev.epochDue (d : Dev) : Dev :=
  if !d.epoch.echoes.isEmpty && decide (d.epoch.since + 20000000 ≤ d.tb.time) then d.measured else d

/-- REQ_RUN. -/
def execReqRun (who : Who) (s : State) : Host.Outcome State Fault Refusal := runWho true who (·.powerReq 0) s
/-- REQ_SLEEP. -/
def execReqSleep (who : Who) (s : State) : Host.Outcome State Fault Refusal := runWho true who (·.powerReq 1) s
/-- REQ_DEEP. -/
def execReqDeep (who : Who) (s : State) : Host.Outcome State Fault Refusal := runWho true who (·.powerReq 2) s

end Sys2Proof.Machine
end

