-- ==== Sys2Proof/Machine/Boot.lean ====
section
/-! DEFINITION. Boot of the hub (R375, R388, R389), spare mapping (R366), and the clearing of registers by a reset (R9, R371). -/
namespace Sys2Proof.Machine
open Sys2Proof

/-! ### Spare mapping (R366) -/

/-- Is physical core `c` of a die good: not fused off, not suspect? -/
def Dev.goodCore (d : Dev) (die c : Nat) : Bool :=
  !bitOf (d.fld RST_FUSED RST_FUSED_CORES 0 die) c && !bitOf (d.fld RST_SUSPECT RST_SUSPECT_CORES 0 die) c

/-- Good physical cores of a die, lowest first. -/
def Dev.goodCores (d : Dev) (die : Nat) : List Nat := (List.range 14).filter fun c => d.goodCore die c

/-- The value of RST_MAP for a list of twelve physical cores. -/
def mapWord : List Nat → Nat
  | [] => 0
  | c :: t => c % 16 + 16 * mapWord t

/-- The mapping of a die at BRD and POR. -/
def Dev.freshMap (d : Dev) (die : Nat) : List Nat := (List.range 12).map fun l => ((d.goodCores die)[l]?).getD 15

/-- Cores left to hand out, in ascending logical order: each logical core that lost its core takes the lowest. -/
def dealCores : List Nat → List Nat → List Nat
  | [], _ => []
  | 15 :: t, [] => 15 :: dealCores t []
  | 15 :: t, c :: cs => c :: dealCores t cs
  | x :: t, cs => x :: dealCores t cs

/-- The mapping of a die at JOB and DEV: good cores stay, the others take the lowest good core that none holds. -/
def Dev.nextMap (d : Dev) (die : Nat) : List Nat :=
  let cur := (List.range 12).map fun l => bitsOf (d.reg RST_MAP 0 die) (4 * l) 4
  let kept := cur.map fun c => if c < 14 && d.goodCore die c then c else 15
  dealCores kept ((d.goodCores die).filter fun c => !kept.contains c)

/-- Recompute the spare mapping, `fresh` at BRD and POR; the suspect marks take effect (R365). -/
def Dev.remap (d : Dev) (fresh : Bool) : Dev :=
  { d with suspects := (List.range 10).foldl (fun m die => SMap.put 0 m die (d.reg RST_SUSPECT 0 die)) [] }.each (List.range 10) fun d die => d.setReg RST_MAP (mapWord (if fresh then d.freshMap die else d.nextMap die)) 0 die

/-! ### Clearing of registers (R9, R371) -/

/-- Does a field survive a reset of depth `lvl` (R9)? -/
def keeps (f : FldDef) (lvl : Nat) : Bool := decide (lvl ≤ f.kept.level)

/-- A register's value after a reset of depth `lvl`. -/
def resetWord (r : RegDef) (i lvl w : Nat) : Nat :=
  r.flds.foldl (fun v f => if keeps f lvl then v else setBits v f.lo f.w (f.reset i)) w

/-- Is an offset a register of the spare mapping, which resets recompute instead (R366)? -/
def isMapReg (o : Nat) : Bool := decide (RST_MAP.off ≤ o) && decide (o < RST_MAP.off + 80)

/-- Is an offset a register that shows the fuses, which is its Reset value (R378)? -/
def isFuseReg (o : Nat) : Bool := decide (RST_FUSED.off ≤ o) && decide (o < RST_FUSED.off + 80)

/-- A reset of depth `lvl` clears the registers whose offset `sel` names. -/
def Dev.resetRegs (d : Dev) (lvl : Nat) (sel : Nat → Bool) : Dev :=
  { d with regs := d.regs.filterMap fun (p : Nat × Word) =>
      if !sel p.1 || isMapReg p.1 || isFuseReg p.1 then some p
      else
        match regAt p.1 with
        | none => none
        | some q =>
          let v := mkW (resetWord q.1 q.2.2 lvl p.2.toNat)
          if v = mkW (q.1.reset q.2.2) then none else some (p.1, v) }

/-! ### Boot -/

/-- Is a firmware slot valid (R389)? -/
def slotOk (b : Boot) (x : FwSlot) : Bool := x.sigOk && x.keyOk && decide (b.rollback ≤ x.ver)

/-- The slot that the ROM boots: the valid one of the higher version, slot A when they are equal (R389). -/
def pickSlot (b : Boot) : Option Nat :=
  match (b.slots[0]?).filter (slotOk b), (b.slots[1]?).filter (slotOk b) with
  | some x, some y => if x.ver < y.ver then some 1 else some 0
  | some _, none => some 0
  | none, some _ => some 1
  | none, none => none

/-- The ROM has verified the slots: with none valid RECOVERY sets, which raises BOOT (R389, Table 19.2). -/
def Dev.verifySlots (d : Dev) : Dev :=
  match pickSlot d.boot with
  | some _ => d.setFld HUB_BOOT HUB_BOOT_RECOVERY 0
  | none => if d.bit HUB_BOOT HUB_BOOT_RECOVERY then d else (d.setFld HUB_BOOT HUB_BOOT_RECOVERY 1).irq irqBoot

/-- The newest trip record that is not reported is reported: PWR_EVT.TRIP and PWR_TRIP (R311). -/
def Dev.reportTrip (d : Dev) : Dev :=
  match (d.boot.trips.filter fun r => !r.reported).getLast? with
  | none => d
  | some r =>
    let d := (d.setFld PWR_EVT PWR_EVT_TRIP 1).setReg PWR_TRIP (r.temp % 256 + (r.src % 256) <<< 8 + (r.job % 2 ^ 32) <<< 32)
    let n := d.boot.trips.length - 1 - (d.boot.trips.reverse.idxOf r)
    { d with boot := { d.boot with trips := d.boot.trips.zipIdx.map fun (p : TripRec × Nat) => if p.2 = n then { p.1 with reported := true } else p.1 } }

/-- Suspect marks that the flash keeps return into RST_SUSPECT after POR (R375). -/
def Dev.restoreMarks (d : Dev) : Dev := d.each d.boot.marks fun d p => d.setReg RST_SUSPECT p.2 0 p.1

/-- The boot completes once every loop is locked and a slot is valid (Table 19.4 steps 3 to 6): library loaded, marks and trip
restored, cores mapped, READY. -/
def Dev.bootFinish (d : Dev) : Dev :=
  match pickSlot d.boot with
  | none => d
  | some i =>
    let x := (d.boot.slots[i]?).getD ⟨0, false, false, [], []⟩
    let b : Boot := { d.boot with booted := some i, lib := x.lib, bootImage := x.image, booting := false, window := [] }
    let otp := Config.fuseBytes 1 ++ leBytes 4 d.boot.rollback ++ leBytes 1 d.boot.jtagMode
    let d : Dev := { d with boot := b, mgmt := { d.mgmt with meas4 := otp } }
    let d := if d.fld RST_STATUS RST_STATUS_LAST = 5 then d.restoreMarks else d
    let d := (d.reportTrip).remap true
    ((d.setReg HUB_BOOT (1 + 4 * i + (x.ver % 2 ^ 32) <<< 32))).irq irqBoot

end Sys2Proof.Machine
end

