-- ==== Sys2Proof/Machine/Reset.lean ====
section
/-! DEFINITION. The resets: CORE (R373), JOB (R372), DEV (R374), BRD and POR (R375), with what each leaves (Table 18.11). -/
namespace Sys2Proof.Machine
open Sys2Proof

/-! ### What JOB and DEV share (Table 18.7 steps 2 to 5) -/

/-- A furrow after a reset: empty but for inserted fill, which resets do not clear (R313). -/
def Furrow.cleared (x : Furrow) : Furrow := { Furrow.empty with inserted := x.inserted }

/-- Furrows without their work. -/
def Dev.clearFurrows (d : Dev) : SMap Furrow :=
  (d.furrows.map fun (p : Nat × Furrow) => (p.1, Furrow.cleared p.2)).filter fun p => p.2 != Furrow.empty

/-- Test slices and windows that run stop, and run again later (R368). -/
def Dev.stopTests (d : Dev) : Dev := d.each d.ist.running Dev.endTest

/-- Does a reset that keeps the plots of `keep` keep the byte at `a`? -/
def keptAt (keep : Nat → Bool) (a : Nat) : Bool :=
  match region a with
  | .plot p => keep p
  | .tile _ => false
  | _ => true

/-- Sharers of tracked granules are invalidated (R263). -/
def Dev.dropSharers (d : Dev) : Dev :=
  let l := d.dir
  { d with dir := [] }.each l fun d p => d.invSharers p.1 p.2

/-- Work, admission, teams, accumulators, flags, counters, caches and every plot but those of `keep` are cleared, with the registers
that a reset of depth `lvl` clears. -/
def Dev.clearJob (d : Dev) (lvl : Nat) (keep : Nat → Bool) : Dev :=
  let d := if d.checking then d.irq irqAdmission else d
  let d := d.stopTests
  let fs := d.clearFurrows
  let d := d.resetRegs lvl fun _ => true
  let d := { d with
    furrows := fs
    waits := []
    mxa := []
    tme := []
    flags := []
    ctrs := []
    decls := []
    sheaf := none
    copies := []
    capture := none
    acks := []
    hot := []
    mem := d.mem.filter fun (p : Nat × Byte) => keptAt keep p.1
    hdrs := d.hdrs.filter fun (p : Nat × Nat) => keptAt keep (512 * p.1)
    job := { Job.idle with refuseInbound := d.job.refuseInbound }
    mgmt := { d.mgmt with meas5 := [] }
    gov := { d.gov with active := false, gate := [] } }
  let d := d.dropCaches.dropSharers
  d.each (List.range 160) fun d p => d.setFld TLT_MARK TLT_MARK_KEPT (b2n (keep p)) p

/-- A job that runs faults with HOST_RESET before the reset (R371). -/
def Dev.hostResetFault (d : Dev) : Dev := if d.running then d.jobFault { cause := jfHostReset, kind := kHub } else d

/-! ### JOB (R372) -/

/-- Plots that the admitted sheaf marks KEEP. -/
def Dev.keepPlots (d : Dev) : List Nat :=
  (List.range 160).filter fun p => d.admitted && d.bit TLT_MARK TLT_MARK_RESERVED p && d.fld TLT_MARK TLT_MARK_MARK p == 3

/-- A command whose response will be discarded (Table 18.4 step 5): DRAINED still awaits it (R283). -/
def Xact.retire (x : Xact) : Xact :=
  match x.kind with
  | .echo _ => x
  | .inval => x
  | _ => { x with kind := .stale }

/-- A CORE or JOB reset has begun: BUSY is set until it is complete (R372, R373; log entry 99). -/
def Dev.softBegin (d : Dev) (lvl : Nat) : Dev :=
  ({ d with boot := { d.boot with soft := some (lvl, d.tb.time) } }.setFld RST_STATUS RST_STATUS_BUSY 1).setFld RST_STATUS RST_STATUS_LAST lvl

/-- The JOB reset up to step 5 of Table 18.7: verdicts and their headers stay, registrations go (R206, R220). -/
def Dev.jobReset (d : Dev) : Dev :=
  let ks := d.keepPlots
  let st := d.pwrState
  let mode := d.pwrMode
  let d := (d.clearJob 2 fun p => ks.contains p).wake st mode
  let d := { d with
    harrow := (d.harrow.map fun (p : Nat × Harrow) => (p.1, { p.2 with groups := [], own := [], hdrs := p.2.hdrs.filter fun h => h.closed })).filter fun p => p.2 != Harrow.empty
    xacts := d.xacts.map Xact.retire }
  d.softBegin 2

/-! ### CORE (R373) -/

/-- Is logical core `l` one of the admitted sheaf's? -/
def Dev.sheafCore (d : Dev) (l : Nat) : Bool := match d.sheaf with | some s => bitOf s.cores l | none => false

/-- The CORE reset of physical core `c` (window index). -/
def Dev.coreReset (d : Dev) (c : Nat) : Dev :=
  let d := match d.logOf c with
    | some l => if d.sheafCore l then d.jobFault { cause := jfCoreReset, kind := kCore, unit := c } else d
    | none => d
  let fs : List Nat := match d.logOf c with | some l => [l, 120 + l] | none => []
  let keepW (w : Waiter) : Bool := if w.team then w.unit != c else !fs.contains w.unit
  let d := d.each (d.ist.running.filter fun u => decide (u / 16 = c)) Dev.endTest
  let d := d.resetRegs 1 fun o => decide (coreBase c ≤ o) && decide (o < coreBase c + 0xE000)
  let d := { d with
    regs := SMap.clearRange d.regs (coreBase c + 0xE000) 0x2000
    furrows := (d.furrows.map fun (p : Nat × Furrow) => if fs.contains p.1 then (p.1, Furrow.cleared p.2) else p).filter fun p => p.2 != Furrow.empty
    waits := d.waits.filter keepW
    mxa := SMap.erase d.mxa c
    tme := SMap.erase d.tme c
    l1 := SMap.erase d.l1 c
    coreCopy := SMap.erase d.coreCopy c }
  ((d.zeroTile c).softBegin 1).wake d.pwrState d.pwrMode

/-- Is a CORE or JOB reset that began at `t` over: a CORE reset by 10 µs, a JOB reset when its plots are zeroed and the sharers of tracked granules
have answered, which it awaits no longer than twice the latency of the farthest agreed member (R372, R373, Table 18.7)? -/
def Dev.softOver (d : Dev) (lvl t : Nat) : Bool :=
  let lat := (d.epoch.members.map fun m => d.fld ADM_ROUTE_LAT ADM_ROUTE_LAT_LAT_NS 0 m).foldl max 0
  let open_ := d.xacts.any fun x => x.kind == .inval
  !d.tb.on || (if lvl = 1 then decide (t + 9000 ≤ d.tb.time)
    else decide (t + 28000 ≤ d.tb.time) && (!open_ || decide (t + 28000 + 2 * lat ≤ d.tb.time)))

/-- Step 6 of Table 18.7: the spare mapping is recomputed after a JOB reset, and BUSY clears. -/
def Dev.softEnd (d : Dev) : Dev :=
  match d.boot.soft with
  | some (lvl, t) =>
    if d.softOver lvl t then
      let d := { d with boot := { d.boot with soft := none } }
      (if lvl = 2 then d.remap false else d).setFld RST_STATUS RST_STATUS_BUSY 0
    else d
  | none => d

/-! ### DEV (R374) -/

/-- Stacks enter self-refresh; a FAILED one stays FAILED (R296). -/
def Dev.holdStacks (d : Dev) (states : List (Nat × Nat × Nat)) : Dev :=
  d.each states fun d p =>
    let s := p.1
    if p.2.1 = 3 || (p.2.1 = 1 && d.trainsWhole s) then (d.setFld HBM_STATUS HBM_STATUS_CAUSE p.2.2 s).setFld HBM_STATUS HBM_STATUS_STATE 3 s
    else if p.2.1 = 1 || p.2.1 = 2 || p.2.1 = 4 then
      { d.setFld HBM_STATUS HBM_STATUS_STATE 4 s with selfRef := d.selfRef.add s, training := SMap.erase d.training s }
    else d

/-- Loops that a DEV reset relocks: the general loops of every die, and MPLL where it coasts (R330, R333). -/
def Dev.devLoops (d : Dev) : List Nat := List.range 40 ++ (if d.clk.coast.has 40 then [40] else [])

/-- The DEV reset as far as the loops' relocking (Table 18.10 steps 1 and 2); the rest follows the last LOOP_LOCK. -/
def Dev.devReset (d : Dev) : Dev :=
  let governed := d.running || d.gov.active || d.gov.ramp || d.gov.fill != 0
  let d := d.hostResetFault
  let st := (List.range 20).map fun s => (s, d.fld HBM_STATUS HBM_STATUS_STATE s, d.fld HBM_STATUS HBM_STATUS_CAUSE s)
  let up := (List.range 60).any fun p => d.portState p != portOff
  let d := d.clearJob 3 fun _ => false
  let d := d.holdStacks st
  let d := if up then d.irq irqLink else d
  let d := { d with
    furrows := []
    harrow := []
    seals := []
    ls := []
    lsLast := (0, 0, 2000)
    gen0 := 0
    ports := []
    xacts := []
    epoch := ⟨false, [], [], [], [], 0⟩
    gov := { Gov.off with meas := d.gov.meas }
    tb := { d.tb with reqT1 := none, good := 0, rateSub := 0 }
    clk := { d.clk with relock := d.devLoops, coast := [] }
    boot := { d.boot with devReset := true, soft := none } }
  let d := (if governed then d.stick PWR_EVT PWR_EVT_UNCONTROLLED 1 else d).setFld PWR_EVT PWR_EVT_TRIP 0
  (d.setFld RST_STATUS RST_STATUS_LAST 3).setFld RST_STATUS RST_STATUS_BUSY 1

/-- The end of a DEV reset (Table 18.10 step 6). -/
def Dev.devFinish (d : Dev) : Dev :=
  let d := ({ d with boot := { d.boot with devReset := false } }).remap false
  let d := d.setFld RST_STATUS RST_STATUS_BUSY 0
  d.each (List.range 60) fun d p => if d.bit HDL_CFG HDL_CFG_ENABLE p then d.portRun p true else d

/-- Is a DEV reset running, which no reset of depth DEV or less interrupts (R376)? -/
def Dev.resetting (d : Dev) : Bool := d.boot.devReset

/-- Does a reset of depth `lvl` or deeper run: one of depth `lvl` has no effect then (R376)? -/
def Dev.runsReset (d : Dev) (lvl : Nat) : Bool :=
  d.boot.devReset || (match d.boot.soft with | some q => decide (lvl ≤ q.1) | none => false)

/-- Is BUSY set: does any reset run (R372)? -/
def Dev.busyReset (d : Dev) : Bool := d.runsReset 1

/-! ### BRD and POR (R375, R405) -/

/-- Registers that survive BRD: HBM_CFG.RATE and RST_SUSPECT. -/
def Dev.brdRegs (d : Dev) (lvl : Nat) : SMap Word := (d.resetRegs lvl fun _ => true).regs.filter fun (p : Nat × Word) => !isMapReg p.1

/-- The device starts again from reset release, `last` being 4 (BRD) or 5 (POR). Pins, fuses, clocks that are present and the flash
with its marks and trip records stay; memory is written zero when the stacks train. -/
def Dev.coldStart (d : Dev) (last : Nat) : Dev :=
  let d := d.dropSharers
  let r := { Dev.reset with
    regs := d.brdRegs last
    clk := { Dev.reset.clk with xin0 := d.clk.xin0, pcieRef := d.clk.pcieRef, xin1 := d.clk.xin1 }
    pcie := { Dev.reset.pcie with link := d.clk.pcieRef }
    pins := { d.pins with thermtrip := false }
    boot := { d.boot with
      booted := none
      lib := []
      bootImage := []
      window := []
      booting := true
      devReset := false
      soft := none
      tripDue := if last = 5 then none else d.boot.tripDue }
    nextXid := d.nextXid
    out := d.out
    free := d.free }
  (r.setFld RST_STATUS RST_STATUS_LAST last).verifySlots

end Sys2Proof.Machine
end

