-- ==== Sys2Proof/Machine/Image.lean ====
section
/-! DEFINITION. The sheaf image byte by byte (R26 to R41, R69) and the FORMAT check in its order (R417). -/
namespace Sys2Proof

/-- Bytes `[o, o + n)` of an image. -/
def imgBytes (b : List Byte) (o n : Nat) : List Byte := (b.drop o).take n

/-- A little-endian field of an image. -/
def imgNum (b : List Byte) (o n : Nat) : Nat := leNat (imgBytes b o n)

/-- The offset of the first fault of a list of tests. -/
def firstFault (l : List (Bool × Nat)) : Option Nat := (l.find? fun p => p.1).map fun p => p.2

/-- The first answer of a list of checks. -/
def firstOf {α : Type} : List (Option α) → Option α
  | [] => none
  | some a :: _ => some a
  | none :: t => firstOf t

/-! ### Header and directory -/

/-- The header fields that later checks use (Table 2.1). -/
structure Hdr where
  family : List Byte
  jobId : Nat
  steps : Nat
  seed : Nat
  lsInit : Int
  carry : Bool
  lsGrow : Nat
  count : Nat
  dir : Nat
deriving DecidableEq, Repr

def Hdr.of (b : List Byte) : Hdr :=
  ⟨imgBytes b 0x10 16, imgNum b 0x20 4, imgNum b 0x24 4, imgNum b 0x28 8, sgn (imgNum b 0x30 1) 8, bitOf (imgNum b 0x31 1) 0,
   imgNum b 0x34 4, imgNum b 0x38 4, imgNum b 0x40 8⟩

/-- Steps 1 to 3 of R417, over the bytes that were read: with a failed read at `got` nothing from there on was. -/
def headFault (b : List Byte) (len got : Nat) : Option Nat :=
  if len < 256 then some 0x08
  else
    firstFault ([(0, 4, 0x31464853), (4, 2, 1), (6, 2, 0x100), (8, 8, len)].map fun (p : Nat × Nat × Nat) =>
      (decide (p.1 + p.2.1 ≤ got) && imgNum b p.1 p.2.1 != p.2.2, p.1))

/-- CHECK over the image with the field itself as zero (Table 2.1). -/
def imgCheck (b : List Byte) : Nat := crc32c (b.take 0xFC ++ [0, 0, 0, 0] ++ b.drop 0x100)

/-- Step 5 of R417: the other header fields in ascending offset. A DIR_OFFSET inside the header, or with a directory that ends past the
image, is a fault of that field. DESIGN CHOICE (log entry 79). -/
def hdrFault (b : List Byte) : Option Nat :=
  let h := Hdr.of b
  firstFault
    [(imgNum b 0x1C 1 == 0, 0x1C), (imgNum b 0x1D 3 != 0, 0x1D), (decide (h.lsInit < -16) || decide (24 < h.lsInit), 0x30),
     (decide (2 ≤ imgNum b 0x31 1), 0x31), (imgNum b 0x32 2 != 0, 0x32), (h.count == 0 || decide (1024 < h.count), 0x38),
     (imgNum b 0x3C 4 != 0, 0x3C), (decide (h.dir < 256) || decide (b.length < h.dir + 32 * h.count), 0x40),
     (imgNum b 0x48 180 != 0, 0x48)]

/-- A directory entry (Table 2.3) with its own image offset. -/
structure Sec where
  ty : Nat
  eng : Nat
  flags : Nat
  off : Nat
  size : Nat
  count : Nat
  entry : Nat
deriving DecidableEq, Repr

def Sec.of (b : List Byte) (e : Nat) : Sec :=
  ⟨imgNum b e 2, imgNum b (e + 2) 2, imgNum b (e + 4) 4, imgNum b (e + 8) 8, imgNum b (e + 0x10) 8, imgNum b (e + 0x18) 4, e⟩

def Sec.furrow (s : Sec) : Bool := decide (1 ≤ s.ty) && decide (s.ty ≤ 6)
def Sec.phase (s : Sec) : Nat := s.flags % 4
def Sec.phased (s : Sec) : Bool := s.furrow || s.ty == 0x13
def Sec.known (s : Sec) : Bool := s.furrow || (decide (0x10 ≤ s.ty) && decide (s.ty ≤ 0x18))

/-- Bytes of an entry of the section, 0 where they vary (Table 2.4). -/
def Sec.each (s : Sec) : Nat :=
  if s.furrow || s.ty = 0x10 then 64
  else match s.ty with | 0x11 => 8 | 0x12 => 32 | 0x13 => 8 | 0x14 => 8 | 0x16 => 24 | 0x17 => 16 | _ => 0

/-- What a directory may hold once: the type, with the phase of a POWER section and the furrow and phase of a FURROW section (R29). -/
def Sec.key (s : Sec) : Nat × Nat × Nat := if s.furrow then (s.ty, s.eng, s.phase) else if s.ty = 0x13 then (s.ty, 0, s.phase) else (s.ty, 0, 0)

def overlaps (a n b m : Nat) : Bool := decide (0 < n) && decide (0 < m) && decide (a < b + m) && decide (b < a + n)

/-- One directory entry against its own fields, then against the header, the directory and the entries before (R29, R417). -/
def Sec.fault (b : List Byte) (h : Hdr) (before : List Sec) (s : Sec) : Option Nat :=
  let e := s.entry
  firstFault
    [(!s.known, e), (if s.furrow then decide (4096 ≤ s.eng) else s.eng != 0xFFFF, e + 2),
     (decide (4 ≤ s.flags) || (s.phased && s.phase == 3), e + 4), (s.off % 64 != 0, e + 8),
     ((s.each != 0 && s.size != s.each * s.count) || (s.ty == 0x10 && s.count != 1), e + 0x10),
     ((s.furrow && s.phase == 1 && decide (1048576 < s.count)) || (s.ty == 0x13 && decide (4096 < s.count)), e + 0x18),
     (imgNum b (e + 0x1C) 4 != 0, e + 0x1C),
     ((!s.phased && s.phase != 0) || decide (b.length < s.off + s.size) || overlaps s.off s.size 0 256 ||
        overlaps s.off s.size h.dir (32 * h.count) || before.any (fun x => overlaps s.off s.size x.off x.size || x.key == s.key), e)]

/-- Step 6 of R417: the entries in order, each against those before it. -/
def dirFault (b : List Byte) (h : Hdr) : List Sec → List Sec → Option Nat
  | _, [] => none
  | before, s :: t =>
    match s.fault b h before with
    | some o => some o
    | none => dirFault b h (before ++ [s]) t

def secsOf (b : List Byte) (h : Hdr) : List Sec := (List.range h.count).map fun i => Sec.of b (h.dir + 32 * i)

/-! ### Section contents -/

/-- A routine record (Table 3.7) with its place in the image. -/
structure Rec where
  id : Nat
  ver : Nat
  count : Nat
  contract : List Byte
  body : List Desc
  off : Nat
deriving DecidableEq, Repr

/-- The records of a ROUTINES section from its bytes, at most `n`; a record whose DESC_COUNT is out of range is the last. -/
def recsOf : Nat → List Byte → Nat → List Rec
  | 0, _, _ => []
  | n + 1, b, o =>
    if b.length < 64 then []
    else
      let c := imgNum b 4 4
      let body := (List.range (min c (b.length / 64 - 1))).map fun i => Desc.ofBytes (imgBytes b (64 + 64 * i) 64)
      let r : Rec := ⟨imgNum b 0 2, imgNum b 2 2, c, imgBytes b 0x20 32, body, o⟩
      if c = 0 || 65535 < c then [r] else r :: recsOf n (b.drop (64 + 64 * c)) (o + 64 + 64 * c)

/-- Reserved fields of a record, and its body's extent in the section that ends at `stop`. -/
def Rec.fault (b : List Byte) (stop : Nat) (r : Rec) : Option Nat :=
  firstFault
    [(bitsOf r.id 12 3 != 0, r.off), (decide (r.count ≤ 65535) && decide (stop < r.off + 64 + 64 * r.count), r.off + 4),
     (imgNum b (r.off + 8) 24 != 0, r.off + 8), (imgNum b (r.off + 0x33) 13 != 0, r.off + 0x33)]

/-- The peer lists of a section, at most `n` (R41): each with its place and its length field. -/
def peersOf : Nat → List Byte → Nat → List (Nat × Nat × List Nat)
  | 0, _, _ => []
  | n + 1, b, o =>
    if b.length < 2 then []
    else
      let c := imgNum b 0 2
      (o, c, (List.range (min c (b.length / 2 - 1))).map fun i => imgNum b (2 + 2 * i) 2) ::
        peersOf n (b.drop (8 * cdiv (2 + 2 * c) 8)) (o + 8 * cdiv (2 + 2 * c) 8)

/-- Offsets of the first OFFSET_US that breaks the order of R37. -/
def powerFault (b : List Byte) (s : Sec) : Option Nat :=
  let at_ (i : Nat) : Nat := imgNum b (s.off + 8 * i) 4
  firstFault ((s.count != 0 && at_ 0 != 0, s.off) ::
    (List.range (s.count - 1)).map fun i => (decide (at_ (i + 1) < at_ i), s.off + 8 * (i + 1)))

/-- An endpoint of a declared transfer (R40). -/
def endpointOk (v : Nat) : Bool := decide (v < 10) || (decide (0x10 ≤ v) && decide (v < 0x1A)) || v == 0xF0 || v == 0xFE

/-- Step 7 of R417 for one section: the fields of its entries in order. A code that its table does not list (KIND of SYNC, KIND and
PHASE of DEADLINES, KIND and MARK of MEMORY) and a BOUND_NS of 0 are faults of that field. DESIGN CHOICE, the spec names no
refusal code for them (log entry 79). -/
def Sec.content (b : List Byte) (s : Sec) : Option Nat :=
  let f (o n : Nat) : Nat := imgNum b o n
  let each (g : Nat → List (Bool × Nat)) : Option Nat := firstFault ((List.range s.count).flatMap fun i => g (s.off + s.each * i))
  match s.ty with
  | 0x10 => firstFault
      [(f (s.off + 15) 1 != 0, s.off), (bitsOf (f (s.off + 0x10) 8) 60 4 != 0, s.off + 0x10), (f (s.off + 0x2C) 4 != 0, s.off + 0x18),
       (bitsOf (f (s.off + 0x30) 4) 20 12 != 0, s.off + 0x30), (bitsOf (f (s.off + 0x34) 8) 40 24 != 0, s.off + 0x34),
       (f (s.off + 0x3C) 4 != 0, s.off + 0x3C)]
  | 0x11 => each fun o => [(f o 2 != 1 && f o 2 != 2, o), (decide (4 ≤ f (o + 6) 2), o + 6)]
  | 0x12 => each fun o =>
      [(decide (2 < f (o + 2) 1), o + 2), (decide (2 < f (o + 3) 1), o + 3), (f (o + 0x10) 4 == 0, o + 0x10), (f (o + 0x16) 10 != 0, o + 0x16)]
  | 0x13 => powerFault b s
  | 0x14 => each fun o => [(bitsOf (f o 2) 12 3 != 0, o)]
  | 0x15 =>
    let rs := recsOf s.count (imgBytes b s.off s.size) s.off
    let done := match rs.getLast? with | some r => r.off + 64 + 64 * r.count | none => s.off
    let cut := rs.any fun r => r.count == 0 || decide (65535 < r.count)
    firstOf (rs.map (Rec.fault b (s.off + s.size)) ++
      [firstFault [(!cut && decide (rs.length < s.count), done), (!cut && done != s.off + s.size, s.entry + 0x10)]])
  | 0x16 => each fun o =>
      [(f (o + 0x10) 2 != 1 && f (o + 0x10) 2 != 2, o + 0x10), (decide (3 < f (o + 0x12) 2), o + 0x12), (f (o + 0x14) 4 != 0, o + 0x14)]
  | 0x17 => each fun o => [(!endpointOk (f (o + 2) 1), o + 2), (!endpointOk (f (o + 3) 1), o + 3), (f (o + 4) 4 != 0, o + 4)]
  | 0x18 =>
    let ls := peersOf s.count (imgBytes b s.off s.size) s.off
    firstFault (ls.map (fun p => (p.2.1 == 0 || p.2.2.length != p.2.1, p.1)) ++ [(decide (ls.length < s.count), s.entry + 0x10)])
  | _ => none

/-- The FORMAT check (R417): the offset of the first fault, with the read that failed, if any, in place of a later one (R386). -/
def formatFault (b : List Byte) (len : Nat) (fail : Option Nat) : Option (Nat × Bool) :=
  match headFault b len (fail.getD len) with
  | some o => some (o, false)
  | none =>
    match fail with
    | some o => some (o, true)
    | none =>
      let h := Hdr.of b
      let bad : Option Nat :=
        if imgCheck b != imgNum b 0xFC 4 then some 0xFC
        else match hdrFault b with
          | some o => some o
          | none => match dirFault b h [] (secsOf b h) with
            | some o => some o
            | none => firstOf ((secsOf b h).map (Sec.content b))
      bad.map fun o => (o, false)

/-! ### The image as data -/

/-- A declared transfer (R40). -/
structure Xfer where
  ddl : Nat
  src : Nat
  dst : Nat
  bytes : Nat
deriving DecidableEq, Repr

/-- A furrow section: identifier, phase, descriptors. -/
structure FrwSec where
  id : Nat
  phase : Nat
  descs : List Desc
deriving DecidableEq, Repr

/-- A well-formed image. -/
structure Img where
  hdr : Hdr
  frws : List FrwSec
  cores : Nat
  ports : Nat
  plots : Nat
  stackSet : Nat
  movers : Nat
  sync : List SyncDecl
  ddls : List Ddl
  power : List (List Seg)
  refs : List (Nat × Nat × Nat)
  recs : List Rec
  store : List Byte
  mem : List Resv
  xfers : List Xfer
  peers : List (List Nat)
  bytes : List Byte
deriving DecidableEq, Repr

/-- Entries of the section of a type, each as its bytes. -/
def entriesOf (b : List Byte) (ss : List Sec) (p : Sec → Bool) : List (List Byte) :=
  match ss.find? p with
  | some s => (List.range s.count).map fun i => imgBytes b (s.off + s.each * i) s.each
  | none => []

def Img.of (b : List Byte) : Img :=
  let h := Hdr.of b
  let ss := secsOf b h
  let es (t : Nat) : List (List Byte) := entriesOf b ss fun s => s.ty == t
  let r := ((es 0x10)[0]?).getD []
  let st := match ss.find? fun s => s.ty == 0x15 with
    | some s => (imgBytes b s.off s.size, s.count)
    | none => ([], 0)
  let pe := match ss.find? fun s => s.ty == 0x18 with
    | some s => peersOf s.count (imgBytes b s.off s.size) s.off
    | none => []
  { hdr := h
    frws := (ss.filter Sec.furrow).map fun s => ⟨4096 * s.ty + s.eng, s.phase, (List.range s.count).map fun i => Desc.ofBytes (imgBytes b (s.off + 64 * i) 64)⟩
    cores := imgNum r 0 16, ports := imgNum r 0x10 8, plots := imgNum r 0x18 24, stackSet := imgNum r 0x30 4, movers := imgNum r 0x34 8
    sync := (es 0x11).map fun e => ⟨imgNum e 0 2 == 2, imgNum e 2 2, imgNum e 4 2, bitOf (imgNum e 6 2) 0, bitOf (imgNum e 6 2) 1⟩
    ddls := (es 0x12).map fun e =>
      ⟨imgNum e 0 2, imgNum e 2 1, imgNum e 3 1, imgNum e 4 2, imgNum e 6 2, imgNum e 8 4, imgNum e 0xC 4, imgNum e 0x10 4, imgNum e 0x14 2⟩
    power := [0, 1, 2].map fun ph => (entriesOf b ss fun s => s.ty == 0x13 && s.phase == ph).map fun e => ⟨imgNum e 0 4, imgNum e 4 2, imgNum e 6 2⟩
    refs := (es 0x14).map fun e => (imgNum e 0 2, imgNum e 2 2, imgNum e 4 4)
    recs := recsOf st.2 st.1 0
    store := st.1
    mem := (es 0x16).map fun e => ⟨imgNum e 0 8, imgNum e 8 8, imgNum e 0x10 2, imgNum e 0x12 2⟩
    xfers := (es 0x17).map fun e => ⟨imgNum e 0 2, imgNum e 2 1, imgNum e 3 1, imgNum e 8 8⟩
    peers := pe.map fun p => p.2.2
    bytes := b }

/-- Descriptors of a furrow's phase. -/
def Img.phase (m : Img) (id ph : Nat) : List Desc :=
  match m.frws.find? fun s => s.id == id && s.phase == ph with
  | some s => s.descs
  | none => []

/-- Insert into a sorted list of identifiers. -/
def insertId (x : Nat) : List Nat → List Nat
  | [] => [x]
  | y :: t => if x < y then x :: y :: t else if x = y then y :: t else y :: insertId x t

/-- The furrow identifiers of the sheaf, in ascending order. -/
def Img.ids (m : Img) : List Nat := m.frws.foldl (fun l s => insertId s.id l) []

end Sys2Proof
end

