-- ==== Sys2Proof/Machine/TilthOps.lean ====
section
/-! DEFINITION. The tilth units: ELT, RED1, RED2, NRM.B, SMX.B, CVT, CVT.24 and RNG.DROP (R93, R123, R131, R138, R151 to
R159, R178 to R184, R194 to R196). -/
namespace Sys2Proof

/-- A row sum in FP32 in an order the spec leaves open, within the bound of R184 (R196), with the events of its rounded
terms (R152, R154). -/
def rowSum (free idx : Nat) (xs : List V) : V :=
  let l := xs.map V.x
  let r := sumCode free idx (clog2 xs.length + 1) 0 false l (l.foldl Sum.add Sum.zero)
  let x := ofF32 r.1
  ⟨x, r.2 || xs.any V.sat, !x.isFin || xs.any V.nf⟩

/-- n as FP32: exact to 2^24, nearest even above (R196). -/
def nF32 (n : Nat) : V := V.of (fl32 (Ex.ofNat n)).1

/-- MAX over a row (R155). -/
def rowMax : List Ex → Ex
  | [] => Ex.zero
  | [x] => x
  | x :: t => Ex.max x (rowMax t)

/-- ELT's function of x, y and the scalar (R195). -/
def eltF (fn : Nat) (x y s : Ex) : V :=
  match fn with
  | 0x00 => V.of x
  | 0x01 => V.add (V.of x) (V.of y)
  | 0x02 => V.sub (V.of x) (V.of y)
  | 0x03 => V.mul (V.of x) (V.of y)
  | 0x04 => V.of (Ex.max x y)
  | 0x05 => V.of (Ex.min x y)
  | 0x06 => V.fl (Ex.add (Ex.mul x s) y) (V.of x) (V.of y)
  | 0x07 => V.mul (V.of x) (V.of s)
  | 0x08 => V.of (if x.isNan || Ex.lt Ex.zero x then x else Ex.zero)
  | 0x09 => V.of (if x.isNan || y.isNan then .nan else if Ex.lt Ex.zero x then y else Ex.zero)
  | 0x0A => V.exp (V.of x)
  | 0x0B => V.recip (V.of x)
  | 0x0C => V.rsqrt (V.of x)
  | 0x0D => V.gate true (V.of x)
  | 0x0E => V.gate false (V.of x)
  | 0x0F => V.gateD true (V.of x) (V.of y)
  | _ => V.gateD false (V.of x) (V.of y)

/-- RED1's value of a row (R196). -/
def red1F (fn free idx : Nat) (xs : List Ex) : V :=
  match fn with
  | 0 => rowSum free idx (xs.map V.of)
  | 1 => V.of (rowMax xs)
  | 2 => rowSum free idx (xs.map fun x => V.mul (V.of x) (V.of x))
  | _ => V.of (rowMax (xs.map Ex.abs))

/-- Multiply by the gain row, when there is one. -/
def withGain (g : Option (List Ex)) (zs : List V) : List V :=
  match g with
  | some gs => (zs.zip gs).map fun p => V.mul p.1 (V.of p.2)
  | none => zs

/-- LAYERNORM of a row: outputs and the statistic r (R196). -/
def layerNorm (free idx : Nat) (s : Ex) (g : Option (List Ex)) (xs : List Ex) : List V × V :=
  let n := nF32 xs.length
  let mu := V.div (rowSum free (2 * idx) (xs.map V.of)) n
  let ds := xs.map fun x => V.sub (V.of x) mu
  let v := V.div (rowSum free (2 * idx + 1) (ds.map fun d => V.mul d d)) n
  let r := V.rsqrt (V.add v (V.of s))
  (withGain g (ds.map fun d => V.mul d r), r)

/-- RMSNORM of a row. -/
def rmsNorm (free idx : Nat) (s : Ex) (g : Option (List Ex)) (xs : List Ex) : List V × V :=
  let m := V.div (rowSum free (2 * idx) (xs.map fun x => V.mul (V.of x) (V.of x))) (nF32 xs.length)
  let r := V.rsqrt (V.add m (V.of s))
  (withGain g (xs.map fun x => V.mul (V.of x) r), r)

/-- SOFTMAX of a row. -/
def softMax (free idx : Nat) (s : Ex) (g : Option (List Ex)) (xs : List Ex) : List V :=
  let ys := xs.map fun x => V.mul (V.of x) (V.of s)
  let ys : List V := match g with | some gs => (ys.zip gs).map (fun (p : V × Ex) => V.add p.1 (V.of p.2)) | none => ys
  let m := V.of (rowMax (ys.map V.x))
  let es := ys.map fun y => V.exp (V.sub y m)
  let t := rowSum free (2 * idx) es
  es.map fun e => V.div e t

/-- NRM.B of a row (R182). -/
def nrmB (free idx : Nat) (layer : Bool) (r : Ex) (xs gs : List Ex) : List V :=
  let n := nF32 xs.length
  let a := if layer then V.div (rowSum free (2 * idx) (gs.map V.of)) n else V.of Ex.zero
  let b := V.div (rowSum free (2 * idx + 1) ((gs.zip xs).map fun p => V.mul (V.of p.1) (V.of p.2))) n
  (gs.zip xs).map fun p => V.mul (V.of r) (V.sub (V.sub (V.of p.1) a) (V.mul (V.of p.2) b))

/-- SMX.B of a row (R183). -/
def smxB (free idx : Nat) (ys gs : List Ex) : List V :=
  let s := rowSum free (2 * idx) ((gs.zip ys).map fun p => V.mul (V.of p.1) (V.of p.2))
  (gs.zip ys).map fun p => V.mul (V.of p.2) (V.sub (V.of p.1) s)

/-! ### CVT.24 (R121, R123) -/

/-- Does position `a` go before `b` by magnitude: NaN first, then the larger, then the lower position? -/
def mag24 (v : List Ex) (a b : Nat) : Bool :=
  let x := ((v[a]?).getD Ex.zero).abs
  let y := ((v[b]?).getD Ex.zero).abs
  if x.isNan then !y.isNan || decide (a < b)
  else if y.isNan then false
  else Ex.lt y x || (!Ex.lt x y && decide (a < b))

/-- The two kept positions of a group, ascending, and the non-zero elements dropped. -/
def keep24 (prune : Bool) (v : List Ex) : Nat × Nat × Nat :=
  let nz := (List.range 4).filter fun i => !((v[i]?).getD Ex.zero).isZero
  let sel :=
    if prune then ((List.range 4).filter fun i => decide (((List.range 4).filter fun j => j != i && mag24 v j i).length < 2))
    else (nz.take 2 ++ (List.range 4).filter fun i => !nz.contains i).take 2
  let a := (sel[0]?).getD 0
  let b := (sel[1]?).getD 1
  (min a b, max a b, if prune then 0 else nz.length - 2)

/-- One compressed row: kept values, index bytes, scales, dropped elements. Within one format codes and scales are copied; into
another the kept values are converted, at the source's scales where both carry one. -/
def row24 (fx fz : Fmt) (prune : Bool) (o : Opnd) (len i : Nat) : List Enc × List Nat × List Nat × Nat :=
  let sel := (List.range (len / 4)).map fun q => keep24 prune ((List.range 4).map fun s => o.val fx i (4 * q + s))
  let pos := (sel.zipIdx.map fun p => [4 * p.2 + p.1.1, 4 * p.2 + p.1.2.1]).flatten
  let idx := (List.range (len / 8)).map fun q =>
    (match sel[2 * q]? with | some a => a.1 + 4 * a.2.1 | none => 0) +
    16 * (match sel[2 * q + 1]? with | some a => a.1 + 4 * a.2.1 | none => 0)
  let drop := (sel.map fun a => a.2.2).foldl (· + ·) 0
  let scs := (List.range (len / 32)).map fun q => o.scale i (32 * q)
  if fx = fz then (pos.map fun j => ⟨o.code i j, false, !(o.val fx i j).isFin⟩, idx, if fz.scaled then scs else [], drop)
  else if fz.scaled && fx.scaled then
    (pos.map fun j => if o.scale i j = 255 then ⟨0, false, true⟩ else fz.encAt ((o.scale i j : Int) - 127) (o.val fx i j), idx, scs, drop)
  else if fz.scaled then
    let row := (List.range len).map fun j => if pos.contains j then o.val fx i j else Ex.zero
    let e := fz.encRow row
    (pos.map fun j => (e.2[j]?).getD ⟨0, false, false⟩, idx, e.1, drop)
  else (pos.map fun j => fz.enc1 (o.val fx i j), idx, [], drop)

end Sys2Proof

namespace Sys2Proof.Machine
open Sys2Proof

/-- Bytes of Z, or of a region read by header: panels of 128 columns or one footprint (R131, R181). -/
def regionBytes (panels : Bool) (rows len : Nat) (f : Fmt) : Nat :=
  if panels then len / 128 * footprint rows 128 f else footprint rows len f

/-- Count what an operation wrote and mark its step (R159, R160). -/
def Dev.tltCount (d : Dev) (p step sat nf : Nat) : Dev :=
  ((d.numCount TLT_SAT p sat).nfCount TLT_NONFIN p nf).numEvt .cvt step sat nf

/-- Write the rows of Z (R114, R131, R134). -/
def Dev.tltZ (d : Dev) (x : Til) (rows cols : Nat) (fz : Fmt) (out : Rows) : Dev :=
  if x.fmap then
    d.each (List.range (cols / 128)) fun d p =>
      (d.writeMap (x.z + p * footprint rows 128 fz) .rm rows 128 fz
        (out.map fun r => ((r.1.drop (4 * p)).take 4, (r.2.drop (128 * p)).take 128))).1
  else d.writeDense x.z .rm rows cols fz out

/-- Convert rows of values, write them and count them. -/
def Dev.tltOut (d : Dev) (p step : Nat) (x : Til) (cols : Nat) (fz : Fmt) (vs : List (List V)) : Dev :=
  let es := vs.map fun r => (fz.encRow (r.map V.x), r)
  let sat := (es.map fun e => ((e.1.2.zip e.2).filter fun q => q.1.sat || q.2.sat).length).foldl (· + ·) 0
  let nf := (es.map fun e => ((e.1.2.zip e.2).filter fun q => q.1.nf || q.2.nf).length).foldl (· + ·) 0
  (d.tltZ x vs.length cols fz (es.map fun e => (e.1.1, e.1.2.map Enc.code))).tltCount p step sat nf

/-- Write the statistics plane after Z (R181). -/
def Dev.tltStats (d : Dev) (p step : Nat) (x : Til) (fz : Fmt) (rs : List V) : Dev :=
  let a := x.z + regionBytes x.fmap x.rows x.len fz
  let bs := (rs.map fun r => leBytes 4 (toF32 r.x)).flatten
  (((d.write a bs).plain a bs.length)).tltCount p step ((rs.filter V.sat).length) ((rs.filter V.nf).length)

/-- The rows of an operand as exact values. -/
def opRows (o : Opnd) (f : Fmt) (rows len : Nat) : List (List Ex) :=
  (List.range rows).map fun i => (List.range len).map fun j => o.val f i j

/-- What a tilth operation reads: X, and Y where it is used, as rows; the address of a bad panel on a MAP case. -/
def Dev.tltRead (d : Dev) (x : Til) (fx : Fmt) (fy : Option Fmt) : (Opnd × Option Opnd) ⊕ Nat :=
  match d.tilthOp x.x x.rows x.len fx with
  | .inr a => .inr a
  | .inl ox =>
    match fy with
    | none => .inl (ox, none)
    | some f =>
      match d.tilthOp x.y (if x.bcast then 1 else x.rows) x.len f with
      | .inr a => .inr a
      | .inl oy => .inl (ox, some oy)

/-- A tilth operation at plot `p`: its plot must be the sheaf's, its panels well formed; then `k` runs on the operands
(R100, R138, R145, R186). -/
def Dev.tilth (d : Dev) (f p : Nat) (i : FItem) (u : Upset)
    (k : Til → Fmt → Fmt → Opnd → Option (List (List Ex)) → Dev → Dev) : Dev :=
  let x := Til.of i.d
  let q := d.upset f (Upset.onChip u)
  if !q.2 then q.1
  else
    let d := q.1
    match Fmt.ofCode x.xfmt, Fmt.ofCode x.zfmt with
    | some fx, some fz =>
      if !d.plotOk p then d.accessFail f x.x
      else
        let fy := Fmt.ofCode x.yfmt
        match d.tltRead x fx fy with
        | .inr a => d.failOp f feRefused a (some 0x21)
        | .inl (ox, oy) =>
          let off := d.treesOff (p / 16)
          let ox := if off then ox.skewed d.free fx 0 else ox
          let oy := match oy, fy with | some o, some g => some (if off then o.skewed d.free g 1 else o) | _, _ => none
          let d := if off then d.fresh else d
          let ys := match oy, fy with
            | some o, some g =>
              let r := opRows o g (if x.bcast then 1 else x.rows) x.len
              some (if x.bcast then (List.range x.rows).map fun _ => (r[0]?).getD [] else r)
            | _, _ => none
          (k x fx fz ox ys d.fresh).opDone f
    | _, _ => d.failOp f feRefused x.x (some 0x02)

/-- A tilth row: the descriptor in progress at a tilth unit's furrow. -/
def tilthRow (op f : Nat) (u : Upset)
    (k : Nat → FItem → Til → Fmt → Fmt → Opnd → Option (List (List Ex)) → Dev → Dev) (s : State) :
    Host.Outcome State Fault Refusal :=
  runLive (decide (240 ≤ f ∧ f < 400)) (fun d => d.perform f op fun i d => d.tilth f (furrowUnit f) i u (k (furrowUnit f) i)) s

/-- ELT (R195). -/
def execElt (f : Nat) (u : Upset) (s : State) : Host.Outcome State Fault Refusal :=
  tilthRow opElt f u (fun p i x fx fz ox ys d =>
    let xs := opRows ox fx x.rows x.len
    let ys := ys.getD xs
    let sc := ofF32 x.scalar
    d.tltOut p i.step x x.len fz ((xs.zip ys).map fun r => (r.1.zip r.2).map fun e => eltF x.func e.1 e.2 sc)) s

/-- RED1 (R196): one value per row. -/
def execRed1 (f : Nat) (u : Upset) (s : State) : Host.Outcome State Fault Refusal :=
  tilthRow opRed1 f u (fun p i x fx fz ox _ d =>
    d.tltOut p i.step x 1 fz ((opRows ox fx x.rows x.len).zipIdx.map fun r => [red1F x.func (d.free - 1) r.2 r.1])) s

/-- RED2 (R181, R196): LAYERNORM and RMSNORM also write the statistics plane. -/
def execRed2 (f : Nat) (u : Upset) (s : State) : Host.Outcome State Fault Refusal :=
  tilthRow opRed2 f u (fun p i x fx fz ox ys d =>
    let xs := opRows ox fx x.rows x.len
    let sc := ofF32 x.scalar
    let gs : List (Option (List Ex)) := match ys with | some l => l.map some | none => xs.map fun _ => none
    let rs := (xs.zip gs).zipIdx.map fun r =>
      if x.func = 0x10 then layerNorm (d.free - 1) r.2 sc r.1.2 r.1.1
      else if x.func = 0x11 then rmsNorm (d.free - 1) r.2 sc r.1.2 r.1.1
      else (softMax (d.free - 1) r.2 sc r.1.2 r.1.1, V.of Ex.zero)
    let d := d.tltOut p i.step x x.len fz (rs.map Prod.fst)
    if x.func = 0x12 then d else d.tltStats p i.step x fz (rs.map Prod.snd)) s

/-- NRM.B (R181, R182): the statistics lie after X as X's header reckons it. -/
def execNrmB (f : Nat) (u : Upset) (s : State) : Host.Outcome State Fault Refusal :=
  tilthRow opNrmB f u (fun p i x fx fz ox ys d =>
    let xs := opRows ox fx x.rows x.len
    let sa := x.x + regionBytes (d.hdr x.x != hPlain) x.rows x.len fx
    let stat (i : Nat) : Nat := if d.treesOff (p / 16) then Config.freeNat (d.free - 1) i % 2 ^ 32 else d.readN (sa + 4 * i) 4
    d.tltOut p i.step x x.len fz ((xs.zip (ys.getD xs)).zipIdx.map fun r =>
      nrmB (d.free - 1) r.2 (x.func == 0x20) (ofF32 (stat r.2)) r.1.1 r.1.2)) s

/-- SMX.B (R183). -/
def execSmxB (f : Nat) (u : Upset) (s : State) : Host.Outcome State Fault Refusal :=
  tilthRow opSmxB f u (fun p i x fx fz ox ys d =>
    let xs := opRows ox fx x.rows x.len
    d.tltOut p i.step x x.len fz ((xs.zip (ys.getD xs)).zipIdx.map fun r => smxB (d.free - 1) r.2 r.1.1 r.1.2)) s

/-- CVT (R158): exact decode, one conversion. -/
def execCvt (f : Nat) (u : Upset) (s : State) : Host.Outcome State Fault Refusal :=
  tilthRow opCvt f u (fun p i x fx fz ox _ d =>
    d.tltOut p i.step x x.len fz ((opRows ox fx x.rows x.len).map fun r => r.map V.of)) s

/-- CVT.24 (R123): values, indices and scales, row-major in the plot. -/
def execCvt24 (f : Nat) (u : Upset) (s : State) : Host.Outcome State Fault Refusal :=
  tilthRow opCvt24 f u (fun p i x fx fz ox _ d =>
    let rs := (List.range x.rows).map (row24 fx fz x.prune ox x.len)
    let vals := packDense .rm x.rows (x.len / 2) fz (rs.map fun r => ([], r.1.map Enc.code)) 0
    let bs := vals ++ asBytes (rs.map fun r => r.2.1).flatten ++ asBytes (rs.map fun r => r.2.2.1).flatten
    let d := ((d.write x.z bs).plain x.z bs.length).numCount TLT_DROP24 p ((rs.map fun r => r.2.2.2).foldl (· + ·) 0)
    d.tltCount p i.step ((rs.map fun r => (r.1.filter Enc.sat).length).foldl (· + ·) 0)
      ((rs.map fun r => (r.1.filter Enc.nf).length).foldl (· + ·) 0)) s

/-- RNG.DROP (R178, R179). -/
def execRngDrop (f : Nat) (u : Upset) (s : State) : Host.Outcome State Fault Refusal :=
  tilthRow opRng f u (fun p i x fx fz ox _ d =>
    d.tltOut p i.step x x.len fz ((opRows ox fx x.rows x.len).zipIdx.map fun r => r.1.zipIdx.map fun e =>
      dropV d.seed i.step (x.scalar / 65536) (x.y + x.len * r.2 + e.2) (x.scalar % 65536) (V.of e.1))) s

end Sys2Proof.Machine
end

