-- ==== Sys2Proof/Machine/Contract.lean ====
section
/-! DEFINITION. What admission knows of one resolved descriptor (spec 04): whether it is legal for its furrow (R54 to R58, R80 to R99, R107,
R110, R121, R131, R139, R181, R204), the memory it names, its contract latency and its demand on plot ports (R191). -/
namespace Sys2Proof

/-! ### Memory named by operands -/

/-- Bytes of the statistics plane (R181). -/
def statBytes (rows : Nat) : Nat := 512 * cdiv (4 * rows) 512

/-- Does the function read Y (R93, Table 4.7)? -/
def Til.usesY (x : Til) (op : Nat) : Bool :=
  if op = 0x200 then [1, 2, 3, 4, 5, 6, 9, 0xF, 0x10].contains x.func
  else if op = 0x202 then x.bcast
  else op == 0x203 || op == 0x204

/-- Bytes of X as R93's checks reckon it (R181). -/
def Til.xBytes (x : Til) (op : Nat) (f : Fmt) : Nat :=
  let n := Machine.regionBytes false x.rows x.len f
  if op = 0x203 then (if x.len % 128 = 0 then max n (Machine.regionBytes true x.rows x.len f) else n) + statBytes x.rows else n

/-- Bytes of Y. -/
def Til.yBytes (x : Til) (f : Fmt) : Nat := footprint (if x.bcast then 1 else x.rows) x.len f

/-- Bytes of Z (R93, R121, R131, R181). -/
def Til.zBytes (x : Til) (op : Nat) (f : Fmt) : Nat :=
  let n := if op = 0x201 then footprint x.rows 1 f else if op = 0x206 then footprint24 x.rows x.len f
    else Machine.regionBytes x.fmap x.rows x.len f
  if op = 0x202 && x.func != 0x12 then n + statBytes x.rows else n

/-- Output tiles of an MM. -/
def Mm.tiles (x : Mm) : Nat := x.tm * x.tn

/-- Does an MM fill accumulator `n`: the one it names, or under ALT ACC0, and ACC1 when it has several tiles (R113)? -/
def Mm.fills (m : Mm) (n : Nat) : Bool := if m.acc = 0 then n == 0 || decide (1 < m.tiles) else m.acc == n + 1

/-- The accumulator that holds an MM's last tile. -/
def Mm.lastAcc (m : Mm) : Nat := if m.acc = 0 then (m.tiles - 1) % 2 else m.acc - 1

/-- Bytes of the tile-buffer regions of an MM (R81, R87, R115, R121). -/
def Mm.aBytes (x : Mm) (f : Fmt) : Nat := x.tm * footprint x.m x.k f
def Mm.bBytes (x : Mm) (f : Fmt) : Nat := x.tn * (if x.sp24 then footprint24 x.n x.k f else footprint x.n x.k f)
def Mm.biasBytes (x : Mm) : Nat := if x.bias = 0 then 0 else (if x.bias = 1 then x.n else x.m) * (if x.biasF32 then 4 else 2)

/-- Bytes of the output region, none under NODRAIN. -/
def Mm.outBytes (x : Mm) (f : Fmt) : Nat := if x.nodrain then 0 else x.tiles * footprint x.m x.n f

/-- The runs of memory, by address and length, that a resolved descriptor's operands name beside its own tile buffer, in the order of
its operand words. -/
def spans (x : Desc) : List (Nat × Nat) :=
  if Machine.isMm x.op then
    let m := Mm.of x
    match Fmt.ofCode m.ofmt with
    | some f => (if m.nodrain then [] else [(m.dst, m.outBytes f)] ++ (if m.top = 0 then [] else [(m.tensor, m.outBytes f)]))
    | none => []
  else if Machine.isTilth x.op then
    let t := Til.of x
    match Fmt.ofCode t.xfmt, Fmt.ofCode t.zfmt with
    | some fx, some fz =>
      [(t.x, t.xBytes x.op fx)] ++
        (match Fmt.ofCode t.yfmt with | some fy => if t.usesY x.op then [(t.y, t.yBytes fy)] else [] | none => []) ++
        [(t.z, t.zBytes x.op fz)]
    | _, _ => []
  else if x.op = Machine.opMov then
    let m := MovOp.of x
    (List.range m.rows).map (fun r => (m.src + r * m.ss, m.rowBytes)) ++ (List.range m.rows).map (fun r => (m.dst + r * m.ds, m.rowBytes))
  else if Machine.isHdl x.op then [((Hdl.of x).loc, (Hdl.of x).bytes)]
  else if x.op = Machine.opUpd then [(bitsOf x.w1.toNat 0 48, 256)]
  else if x.op = Machine.opSeal then [(bitsOf x.w1.toNat 0 48, 2 * bitsOf x.w2.toNat 0 16)]
  else if x.op = Machine.opLaunch then [(bitsOf x.w0.toNat 0 48, 8), (bitsOf x.w3.toNat 0 48, 256)]
  else []

end Sys2Proof

namespace Sys2Proof.Machine
open Sys2Proof

/-! ### Legality (code DESCRIPTOR) -/

/-- Bits of W0 to W4 that an opcode uses (R65, R80, R84, R87, R93, R95 to R99). -/
def usedBits (op : Nat) : List Nat :=
  let all := 2 ^ 64 - 1
  let lo (n : Nat) : Nat := 2 ^ n - 1
  let run (a n : Nat) : Nat := (2 ^ n - 1) <<< a
  if op = opWait then [lo 32, 0, 0, 0, 0]
  else if op = opSignal then [all, 0, 0, 0, 0]
  else if op = opCall then [lo 45, all, all, all, all]
  else if op = opTrc then [all, all, 0, 0, 0]
  else if op = opFill then [lo 36, 0, 0, 0, 0]
  else if isMm op then [lo 52, lo 15 + run 16 48, all, lo 22 + run 32 32, all]
  else if isTilth op then
    let sc := op == opElt || op == opRed2 || op == opRng
    let y := op == opElt || op == opRed2 || op == opNrmB || op == opSmxB || op == opRng
    let b := op == opElt || op == opRed2 || op == opNrmB || op == opSmxB
    [lo 23 + (if b then run 23 1 else 0) + run 24 1 + (if op = opCvt24 then run 25 1 else 0) + (if sc then run 32 32 else 0), all, lo 48,
     if y then lo 48 else 0, lo 48]
  else if op = opMov then [lo 48, lo 48, all, all, lo 20]
  else if isHdl op then [all, lo 48, lo 40, lo 14 + (if op = opGet then run 16 14 else 0), if op = opAcc then lo 8 else 0]
  else if op = opUpd then [lo 19 + run 32 12, lo 48, lo 32, 0, 0]
  else if op = opSeal then [lo 32 + run 32 12 + run 48 1, lo 48, lo 16, 0, 0]
  else if op = opLaunch then [lo 48, lo 22, lo 32, lo 48, 0]
  else [0, 0, 0, 0, 0]

/-- Are the bits that the opcode does not use zero? -/
def unusedZero (x : Desc) : Bool :=
  ([x.w0, x.w1, x.w2, x.w3, x.w4].zip (usedBits x.op)).all fun p => (p.1.toNat ||| p.2) == p.2

/-- Engine types that run an opcode (Table 4.1): none for IST and unknown codes. -/
def runsOn (op t : Nat) : Bool :=
  if op ≤ 5 then true
  else if op = opFill then t == 1 || t == 3 || t == 4
  else if isMm op then t == 1
  else if isTilth op then t == 3
  else if op = opMov then t == 4
  else if isHdl op then t == 5
  else if op = opUpd || op = opSeal then t == 6
  else op == opLaunch && t == 2

/-- WAIT and SIGNAL fields (R56, R58). -/
def waitLegal (w : Nat) : Bool :=
  match waitKind w with
  | 0 => w == 0
  | 1 => bitsOf w 3 5 == 0 && waitThr w == 0
  | 2 => bitsOf w 3 5 == 0 && decide (waitIndex w < 8192)
  | _ => false
def sigLegal (w : Nat) : Bool :=
  match sigKind w with
  | 0 => w == 0
  | 1 => bitsOf w 2 6 == 0 && sigValue w == 0
  | 2 => bitsOf w 2 6 == 0 && decide (sigIndex w < 8192)
  | _ => false

/-- What a run of operand memory names, core windows by logical core (R82), when it lies in one plot, one tile buffer, or HBM. -/
def spanRegion (a n : Nat) : Region := if region a = region (a + n - 1) then region a else .hole

/-- Is an address in the windows of logical cores 120 to 139 (R82)? -/
def badWindow (a : Nat) : Bool := decide (coreWin + 120 * 0x100_0000 ≤ a) && decide (a < coreWin + 140 * 0x100_0000)

/-- A place for an MM's output or TENSOR: its core's tile buffer or a plot of its die (R88). -/
def mmPlace (l a n : Nat) : Bool :=
  match spanRegion a n with
  | .tile c => c == l
  | .plot p => p / 16 == l / 12
  | _ => false

/-- An MM descriptor of logical core `l` (R88, R90, R107, R110, R121, R131, R139). -/
def mmLegal (l : Nat) (x : Desc) : Bool :=
  let m := Mm.of x
  match Fmt.ofCode m.afmt, Fmt.ofCode m.bfmt, Fmt.ofCode m.ofmt with
  | some fa, some fb, some fo =>
    let tile := coreWin + l * 0x100_0000
    let ins := [(m.aBase * 512, m.aBytes fa), (m.bBase * 512, m.bBytes fb), (m.biasBase * 512, m.biasBytes)]
    let out := m.outBytes fo
    let her (c : Nat) : Bool := decide (1 ≤ c) && decide (c ≤ 4)
    m.shape != 3 && m.acc != 3 && m.bias != 3 && m.top != 3 &&
    decide (1 ≤ m.m ∧ m.m ≤ 128 * m.g) && decide (1 ≤ m.n ∧ m.n ≤ 128 / m.g) && decide (m.k ≤ 65536) &&
    fa.dot != 0 && fa.dot == fb.dot && m.ofmt != 0xC && m.ofmt != 0xD &&
    (!m.heritage || (her m.afmt && her m.bfmt && !m.sp24 && !m.glean)) &&
    (!m.sp24 || (!m.glean && m.afmt != 0 && m.bfmt != 0 && m.k % 32 == 0 && (x.op == opMmF || x.op == opMmBw))) &&
    (!m.glean || (x.op != opMmBw && m.k % 128 == 0 && footprint m.m m.k fa == m.k / 128 * footprint m.m 128 fa)) &&
    !(x.op == opMmBw && fa.scaled) && !((x.op == opMmBd || x.op == opMmBx) && fb.scaled) &&
    (m.acc == 0 || m.tiles == 1) && (m.acc != 0 || (!m.accum && !m.nodrain)) &&
    (!m.nodrain || (x.w3.toNat == 0 && m.dst == 0)) &&
    (ins.all fun p => p.2 == 0 || decide (p.1 + p.2 ≤ 0x40_0000)) &&
    (m.nodrain || (mmPlace l m.dst out && (m.top == 0 || mmPlace l m.tensor out) &&
      (ins.all fun p => !overlaps m.dst out (tile + p.1) p.2) &&
      (!m.fmap || (m.dst % 512 == 0 && (m.top == 0 || !overlaps m.tensor out m.dst out)))))
  | _, _, _ => false

/-- FUNC values of a tilth opcode (Table 4.7). -/
def funcLegal (op fn : Nat) : Bool :=
  if op = opElt then decide (fn ≤ 0x10)
  else if op = opRed1 then decide (fn ≤ 3)
  else if op = opRed2 then decide (0x10 ≤ fn ∧ fn ≤ 0x12)
  else if op = opNrmB then fn == 0x20 || fn == 0x21
  else if op = opSmxB then fn == 0x30
  else if op = opCvt then fn == 0x40
  else if op = opCvt24 then fn == 0x41
  else fn == 0x50

/-- Z coincides exactly with an operand or does not touch it (R93). -/
def zClear (a n z k : Nat) : Bool := (a == z && n == k) || !overlaps a n z k

/-- A tilth descriptor of plot `p` (R93, R123, R131, R181). -/
def tilLegal (p : Nat) (x : Desc) : Bool :=
  let t := Til.of x
  match Fmt.ofCode t.xfmt, Fmt.ofCode t.zfmt with
  | some fx, some fz =>
    let y := t.usesY x.op
    let fy := Fmt.ofCode t.yfmt
    let zn := t.zBytes x.op fz
    let own (a n : Nat) : Bool := spanRegion a n == .plot p
    let block := fx.scaled || fz.scaled || (match fy with | some f => f.scaled | none => false)
    let yOk := match fy with
      | some f => y && own t.y (t.yBytes f) && zClear t.y (t.yBytes f) t.z zn && !(t.fmap && t.z == t.y)
      | none => !y && t.yfmt == 0x1F
    funcLegal x.op t.func && decide (1 ≤ t.rows) && decide (1 ≤ t.len) && (!(block || x.op == opCvt24) || t.len % 32 == 0) &&
    yOk && own t.x (t.xBytes x.op fx) && own t.z zn && zClear t.x (t.xBytes x.op fx) t.z zn &&
    (!t.fmap || (x.op != opRed1 && x.op != opCvt24 && t.len % 128 == 0 && t.z % 512 == 0 && t.z != t.x))
  | _, _ => false

/-- One side of a MOV of die `die`: every row in HBM, every row in plots, or every row in one tile buffer of the die (R95). -/
def movSide (die a n rows stride : Nat) : Bool :=
  let kind (r : Region) : Option Nat :=
    match r with
    | .hbm => some 0
    | .plot _ => some 1
    | .tile c => if c / 12 == die then some (2 + c) else none
    | _ => none
  (kind (region a)).isSome && (List.range rows).all fun r => kind (region (a + r * stride)) == kind (region a) && memRange (a + r * stride) n

/-- A MOV of a mover of die `die` (R95). -/
def movLegal (die : Nat) (x : Desc) : Bool :=
  let m := MovOp.of x
  decide (1 ≤ m.rowBytes) && decide (1 ≤ m.rows) && movSide die m.src m.rowBytes m.rows m.ss && movSide die m.dst m.rowBytes m.rows m.ds &&
  ((Fmt.ofCode m.sqFmt).isSome || (!m.squares && m.sqFmt == 0x1F)) &&
  (!m.squares || (match region m.dst with | .tile _ => true | _ => false))

/-- A headland descriptor (R96), which must name another device: 0xFFFF names this one (R248); its route is checked beside (R280). -/
def hdlLegal (own : Nat) (x : Desc) : Bool :=
  let h := Hdl.of x
  let e := if h.afmt = 0 then 4 else if h.afmt = 1 then 2 else 1
  h.dev != own && h.dev != 0xFFFF && decide (1 ≤ h.bytes) && memRange h.loc h.bytes && (match region h.loc with | .tile _ => false | _ => true) &&
  (x.op != opAcc || ((h.afmt == 0 || h.afmt == 1 || h.afmt == 4) && decide (h.aop ≤ 1) && h.bytes % e == 0 && h.remote % e == 0 && h.loc % e == 0))

/-- UPD and SEAL operands (R97, R98, R204). -/
def updLegal (x : Desc) : Bool :=
  let w := x.w0.toNat
  let rule := bitsOf w 0 2
  let wf := bitsOf w 4 5
  let mf := bitsOf w 9 5
  let cf := bitsOf w 14 5
  let rec_ := bitsOf x.w1.toNat 0 48
  (wf == 0xC || wf == 0) && (mf == 0xC || mf == 0xD) && (cf == 1 || cf == 5 || cf == 0x1F) && (rule == 0 || !bitOf w 2) &&
  !(wf == 0 && rule == 1 && mf == 0xC) && rec_ % 256 == 0 && decide (rec_ + 256 ≤ hbmSize)
def sealLegal (x : Desc) : Bool :=
  let n := bitsOf x.w2.toNat 0 16
  decide (1 ≤ n) && decide (bitsOf x.w1.toNat 0 48 + 2 * n ≤ hbmSize)

/-- LAUNCH operands (R99). -/
def launchLegal (x : Desc) : Bool :=
  let w1 := x.w1.toNat
  bitsOf x.w0.toNat 0 3 == 0 && decide (1 ≤ bitsOf w1 0 16) && decide (1 ≤ bitsOf w1 16 6 ∧ bitsOf w1 16 6 ≤ 32)

/-- Is a resolved descriptor legal on the furrow with identifier `id`, `rtn` saying that it stands in a routine body? Chains, routes,
groups and CALL's engines are checked beside. -/
def descLegal (own id : Nat) (rtn : Bool) (x : Desc) : Bool :=
  let u := id % 4096
  bitsOf x.ctrl 9 7 == 0 && (if rtn then x.tag == 0 else x.tag != 0 && bitsOf x.ctrl 3 6 == 0 && x.op != opRet) &&
  runsOn x.op (id / 4096) && waitLegal x.wait.toNat && sigLegal x.sig.toNat && unusedZero x && !(spans x).any (fun p => badWindow p.1) &&
  (if x.op = opSignal then sigKind x.sig.toNat == 2 && sigValue x.sig.toNat == 0
   else if x.op = opFill then bitsOf x.w0.toNat 0 32 != 0
   else if isMm x.op then mmLegal u x
   else if isTilth x.op then tilLegal u x
   else if x.op = opMov then movLegal (u / 4) x
   else if isHdl x.op then hdlLegal own x
   else if x.op = opUpd then updLegal x
   else if x.op = opSeal then sealLegal x
   else if x.op = opLaunch then launchLegal x
   else true)

/-! ### Contract latency (R84 to R99) -/

/-- Bridges on the row-first path between two dies (R13), each as its pair of dies in the direction of travel; 15 is the hub. -/
def rowPath : Nat → Nat → Nat → List (Nat × Nat)
  | 0, _, _ => []
  | n + 1, a, b =>
    if a = b then []
    else
      let c := if a % 5 = b % 5 then b else if a % 5 < b % 5 then a + 1 else a - 1
      (a, c) :: rowPath n c b

def bridges (a b : Nat) : List (Nat × Nat) :=
  if a = 15 && b = 15 then []
  else if a = 15 then (15, b / 5 * 5) :: rowPath 8 (b / 5 * 5) b
  else if b = 15 then rowPath 8 a (a / 5 * 5) ++ [(a / 5 * 5, 15)]
  else rowPath 8 a b

/-- Die of an engine by its identifier. -/
def dieOfId (id : Nat) : Nat :=
  let u := id % 4096
  match id / 4096 with | 1 => u / 12 | 2 => u / 12 | 3 => u / 16 | 4 => u / 4 | 5 => u / 6 | _ => u / 2

/-- MM (R89), in core cycles. -/
def mmCycles (x : Desc) : Nat :=
  let m := Mm.of x
  let dot := match Fmt.ofCode m.afmt with | some f => f.dot | none => 1
  let d := if m.sp24 then 2 * dot else dot
  let fac := if m.heritage then 8 else if m.afmt = 0 then 6 else 1
  let drain := if m.nodrain then 0 else cdiv (m.m * m.n) 256
  if m.k = 0 then 32 + m.tiles * drain else 192 + m.tiles * (cdiv m.k d * m.c * fac) + drain

/-- Passes of a tilth function (Table 4.7). -/
def tilPasses (op : Nat) (t : Til) : Nat :=
  if op = opElt then (if t.func ≤ 9 then 1 else 2)
  else if op = opRed2 then (if t.func = 0x11 then 2 else 3)
  else if op = opNrmB || op = opSmxB then 2
  else if op = opCvt24 then (if t.prune then 2 else 1)
  else 1

/-- Bytes of an element in units of 1/32 (R94). -/
def elem32 (c : Nat) : Nat := match Fmt.ofCode c with | some f => 4 * f.bits + b2n f.scaled | none => 0

/-- Tilth operations (R94), in plot cycles. -/
def tilCycles (x : Desc) : Nat :=
  let t := Til.of x
  let z := if x.op = opRed1 then 0
    else if x.op = opCvt24 then 2 * codeBits t.zfmt + 4 + (elem32 t.zfmt - 4 * codeBits t.zfmt)
    else elem32 t.zfmt
  let s := elem32 t.xfmt + (if t.usesY x.op && !t.bcast then elem32 t.yfmt else 0) + z
  let lam := if t.xfmt = 0 || t.yfmt = 0 || t.zfmt = 0 then 256 else 512
  let e := min lam (65536 / max 1 s)
  let r := if x.op = opRed1 then 1 else if x.op = opRed2 || x.op = opNrmB || x.op = opSmxB then 2 else 0
  88 + tilPasses x.op t * cdiv (t.rows * t.len) e + 32 * r

/-- MOV (R95), in fabric cycles, from a mover of die `die`. Where the rows of one side lie in plots of several dies, the bridges counted
are those to the die of the first row's plot. DESIGN CHOICE, the spec names one die (log entry 78). -/
def movCycles (die : Nat) (x : Desc) : Nat :=
  let m := MovOp.of x
  let far (a : Nat) : Nat := match region a with | .plot p => (bridges die (p / 16)).length | _ => 0
  let h (a : Nat) : Bool := region a == .hbm
  let fix := if h m.src && h m.dst then 1216 else if h m.src || h m.dst then 976 else 240
  let rate := if h m.src && h m.dst then 512 else 1024
  fix + m.rows * cdiv m.rowBytes rate + 12 * (far m.src + far m.dst)

/-- Contract latency in the cycles of the engine's island (R42, R83); CALL and RET take none of their own. -/
def latCycles (id : Nat) (x : Desc) : Nat :=
  if x.op = opCall || x.op = opRet then 0
  else if x.op = opTrc then 8
  else if x.op = opFill then bitsOf x.w0.toNat 0 32 + 32
  else if isMm x.op then mmCycles x
  else if isTilth x.op then tilCycles x
  else if x.op = opMov then movCycles (dieOfId id) x
  else if isHdl x.op then 512 + cdiv (4096 * cdiv (Hdl.of x).bytes 504) 1000
  else if x.op = opUpd then
    640 + (match bitsOf x.w0.toNat 0 2 with | 0 => 6 | 1 => 8 | 2 => 5 | _ => 10) * cdiv (bitsOf x.w2.toNat 0 32) 64
  else if x.op = opSeal then 256
  else if x.op = opLaunch then 64 + bitsOf x.w2.toNat 0 32
  else 4

/-- Does the descriptor write this device's HBM (R264)? -/
def writesHbm (x : Desc) : Bool :=
  (x.op == opMov && region (MovOp.of x).dst == .hbm) || (x.op == opGet && region (Hdl.of x).loc == .hbm) || x.op == opUpd

/-! ### Demand on plots' external ports (Table 9.2) -/

/-- Numbers of the windows of `size` bytes, from `base` to `stop`, that a run of memory touches. -/
def windowsOf (base stop size a n : Nat) : List Nat :=
  let lo := max a base
  let hi := min (a + n) stop
  if hi ≤ lo then [] else (List.range ((hi - 1 - base) / size + 1 - (lo - base) / size)).map ((lo - base) / size + ·)

/-- Plots that a run of memory touches. -/
def plotsOf (a n : Nat) : List Nat := windowsOf plotBase plotEnd 0x400_0000 a n

/-- Logical cores whose windows a run of operand memory touches. -/
def coresOf (a n : Nat) : List Nat := windowsOf coreWin (coreWin + 120 * 0x100_0000) 0x100_0000 a n

def movPlots (a n rows stride : Nat) : List Nat := ((List.range rows).flatMap fun r => plotsOf (a + r * stride) n).foldl (fun l p => insertId p l) []

/-- Demand of a descriptor by plot. -/
def plotDemand (x : Desc) : List (Nat × Nat) :=
  if isMm x.op then
    let m := Mm.of x
    match Fmt.ofCode m.ofmt with
    | some f =>
      let v := cdiv (48 * (4 * f.bits + b2n f.scaled)) 4
      if m.nodrain then []
      else (plotsOf m.dst (m.outBytes f)).map (fun p => (p, v)) ++
        (if m.top = 0 then [] else (plotsOf m.tensor (m.outBytes f)).map fun p => (p, v))
    | none => []
  else if x.op = opMov then
    let m := MovOp.of x
    ((movPlots m.src m.rowBytes m.rows m.ss) ++ (movPlots m.dst m.rowBytes m.rows m.ds)).map fun p => (p, 1366)
  else if x.op = opPut || x.op = opAcc then (plotsOf (Hdl.of x).loc (Hdl.of x).bytes).map fun p => (p, 167)
  else []

end Sys2Proof.Machine
end

