-- ==== Sys2Proof/Machine/Checks.lean ====
section
/-! DEFINITION. The admission checks from FAMILY to CALL_DEPTH (Table 2.9): what each refuses and the details it reports (R28, R33 to R39,
R54, R66 to R68, R80, R90, R206, R215, R250, R280, R293, R354, R365, R393). -/
namespace Sys2Proof

/-- A refusal: code, DETAIL0, DETAIL1 (Table 2.9). -/
structure Refuse where
  code : Nat
  d0 : Nat
  d1 : Nat
deriving DecidableEq, Repr

/-! ### Descriptors as admission resolves them (R66, R70) -/

/-- A descriptor as it will run: resolved, with the tag of R71, its call depth, the index of its outermost descriptor in its section, its
routine and position, the INDEX of its WAIT and SIGNAL before any wrap, and for a CALL or a RET the routine's contract, whether it
is in ROM, and the resolved CALL. -/
structure CItem where
  d : Desc
  tag : Nat
  depth : Nat
  top : Nat
  rtn : Nat
  pos : Nat
  wIdx : Nat
  sIdx : Nat
  con : List Byte
  rom : Bool
  call : Desc
deriving DecidableEq, Repr

/-- A routine that a CALL can reach: contract entry and body. -/
abbrev Lib := Nat → Option (List Byte × List Desc)

/-- INDEX of a raw WAIT or SIGNAL with the bases of its frame, not wrapped (R66). -/
def relRaw (frames : List Frame) (rel : Bool) (w : Nat) : Nat :=
  match frames with
  | fr :: _ => if rel then bitsOf w 8 16 + (if bitsOf w 0 2 = 1 then fr.fBase else if bitsOf w 0 2 = 2 then fr.cBase else 0) else bitsOf w 8 16
  | [] => bitsOf w 8 16

/-- One descriptor of a section or body, resolved in its frames. -/
def itemOf (frames : List Frame) (rtn tag top : Nat) (con : List Byte) (pos : Nat) (y : Desc) : CItem :=
  let x := match frames with | fr :: _ => Machine.resolve fr y | [] => y
  let c := match frames with | fr :: _ => fr.call | [] => Desc.zero
  ⟨x, if frames.isEmpty then y.tag else tag, frames.length, if frames.isEmpty then pos else top, rtn, pos,
   relRaw frames y.rel y.wait.toNat, relRaw frames y.rel y.sig.toNat, con, rtn != 0xFFFF && !bitOf rtn 15, c⟩

/-- A body with the bodies of its CALLs in their places, at most `n` deeper. -/
def expandGo (lib : Lib) : Nat → List Frame → Nat → Nat → Nat → List Byte → List Desc → List CItem
  | 0, fr, rtn, tag, top, con, b => b.zipIdx.map fun p => itemOf fr rtn tag top con p.2 p.1
  | n + 1, fr, rtn, tag, top, con, b =>
    b.zipIdx.flatMap fun p =>
      let it := itemOf fr rtn tag top con p.2 p.1
      if it.d.op = Machine.opCall then
        let id := Machine.callRoutine it.d
        match lib id with
        | some r =>
          let nf := Machine.pushFrame fr it.d id (p.2 + 1) it.tag 0 0
          { it with con := r.1, rom := !bitOf id 15 } :: expandGo lib n (nf :: fr) id it.tag it.top r.1 r.2
        | none => [it]
      else [it]

/-- The descriptors of one furrow's phase as they will run; a fifth CALL is not followed. -/
def expand (lib : Lib) (b : List Desc) : List CItem := expandGo lib 4 [] 0xFFFF 0 0 [] b

/-- The furrows and phases of an image in order, each with its descriptors as they will run. -/
structure Run where
  id : Nat
  phase : Nat
  items : List CItem
deriving DecidableEq, Repr

def Img.runs (m : Img) (lib : Lib) : List Run :=
  m.ids.flatMap fun id => [0, 1, 2].map fun ph => ⟨id, ph, expand lib (m.phase id ph)⟩

/-- The first answer of a check over every descriptor in order. -/
def overItems {α : Type} (rs : List Run) (g : Run → CItem → Option α) : Option α :=
  rs.findSome? fun r => r.items.findSome? (g r)

/-- A refusal when a test holds. -/
def refuseIf (b : Bool) (code d0 d1 : Nat) : Option Refuse := if b then some ⟨code, d0, d1⟩ else none

end Sys2Proof

namespace Sys2Proof.Machine
open Sys2Proof

/-- The routines that a sheaf can call: its own records, and the library ROM. -/
def Dev.libOf (d : Dev) (m : Img) : Lib := fun id =>
  if bitOf id 15 then (m.recs.find? fun r => r.id == id).map fun r => (r.contract, r.body)
  else (d.boot.lib.find? fun r => r.id == id).map fun r => (r.contract, r.body)

/-! ### FAMILY, STEPPING (R28) -/

/-- Bytes 0 to 11 of the family descriptor that the device expects (Table 2.2). -/
def familyBytes : List Nat := [0x51, 0x0A, 0x28, 0x01, 10, 14, 12, 16, 2, 64, 6, 4]

def Dev.checkFamily (d : Dev) (m : Img) : Option Refuse :=
  let f (i : Nat) : Nat := imgNum m.hdr.family i 1
  match familyBytes.zipIdx.find? fun p => f p.2 != p.1 with
  | some p => some ⟨2, p.2, f p.2⟩
  | none => refuseIf (decide (d.fld HUB_PART HUB_PART_STEP < f 12)) 3 (f 12) (d.fld HUB_PART HUB_PART_STEP)

/-! ### RESOURCES (R33) -/

/-- The mask of an engine type. -/
def imgMaskOf (m : Img) (t : Nat) : Nat :=
  if t = 1 || t = 2 then m.cores else if t = 3 then m.plots else if t = 4 then m.movers else if t = 5 then m.ports else m.stackSet

/-- Plots that a MEMORY entry covers. -/
def resvPlots (r : Resv) : List Nat :=
  (List.range 160).filter fun p => r.kind == 2 && overlaps r.base r.size (plotBase + p * 0x400_0000) 0x400_0000

/-- Engines of the masks that are not available now, by identifier: an unmapped core (R366), a port that is not UP or is suspect, a
suspect plot, as marked at the last reset (R365), and any whose island is not to be clocked in RUN (R317). -/
def Dev.checkUnits (d : Dev) (m : Img) : Option Refuse :=
  let off (i : Nat) : Bool := !d.islandEn CLK_EN_RUN i
  let sus (f : FldDef) (die i : Nat) : Bool := bitOf (SMap.get 0 d.suspects die) (f.lo + i)
  let core := (List.range 120).findSome? fun l =>
    match d.physOf l with
    | some p => refuseIf (bitOf m.cores l && off (coreIsland p)) 5 (0x1000 + l) 0
    | none => refuseIf (bitOf m.cores l) 5 (0x1000 + l) 0
  let port := (List.range 60).findSome? fun p =>
    refuseIf (bitOf m.ports p && (!d.portIsUp p || sus RST_SUSPECT_PORTS (p / 6) (p % 6) || off (fabIsland (p / 6)))) 5 (0x5000 + p) 0
  let plot := (List.range 160).findSome? fun p =>
    refuseIf ((bitOf m.plots p && off (plotIsland (p / 16))) ||
      ((bitOf m.plots p || m.mem.any fun r => (resvPlots r).contains p) && sus RST_SUSPECT_PLOTS (p / 16) (p % 16))) 5 (0x3000 + p) 0
  let stack := (List.range 20).findSome? fun s => refuseIf (bitOf m.stackSet s && off (fabIsland (s / 2))) 5 (0x6000 + s) 0
  let mov := (List.range 40).findSome? fun v => refuseIf (bitOf m.movers v && off (movIsland (v / 4))) 5 (0x4000 + v) 0
  firstOf [core, port, plot, stack, mov]

/-- Does a run of operand memory reach a plot or a core window outside the masks? -/
def imgOutside (m : Img) (a n : Nat) : Bool :=
  (plotsOf a n).any (fun p => !bitOf m.plots p) || (coresOf a n).any fun l => !bitOf m.cores l

def Dev.checkResources (d : Dev) (m : Img) (rs : List Run) : Option Refuse :=
  firstOf [
    refuseIf (d.bit ERR_MCHK ERR_MCHK_DEV_FAULT) 5 0xFFFF 0,
    (List.range 20).findSome? fun s => refuseIf (d.fld HBM_STATUS HBM_STATUS_STATE s != 2 || d.selfRef.has s || SMap.get 0 d.rates s != 0) 5 (0x6000 + s) 0,
    d.checkUnits m,
    m.ids.findSome? fun id => refuseIf (decide (typeCount (id / 4096) ≤ id % 4096) || !bitOf (imgMaskOf m (id / 4096)) (id % 4096)) 5 id 0,
    overItems rs fun r i => refuseIf ((spans i.d).any fun p => imgOutside m p.1 p.2) 5 r.id i.tag]

/-! ### DECLARATION (R34, R35, R66) -/

/-- First index of a SYNC entry that is out of range or declared before. -/
def syncFault (before : List SyncDecl) (x : SyncDecl) : Option Nat :=
  let top := if x.ctr then 8192 else 65536
  let clash := before.filterMap fun y =>
    if y.ctr == x.ctr && overlaps x.first x.count y.first y.count then some (max x.first y.first) else none
  let out := if top < x.first + x.count && 0 < x.count then [max x.first top] else []
  (clash ++ out).foldl (fun a i => match a with | some j => some (min i j) | none => some i) none

def syncFaults : List SyncDecl → List SyncDecl → Option Refuse
  | _, [] => none
  | b, x :: t => match syncFault b x with | some i => some ⟨6, i, 0⟩ | none => syncFaults (b ++ [x]) t

/-- Faults of the deadline entries in order (R35). -/
def ddlFaults (m : Img) : List Ddl → List Ddl → Option Refuse
  | _, [] => none
  | b, x :: t =>
    let times (id tag : Nat) : Nat := ((m.phase id x.phase).filter fun y => y.tag == tag).length
    let bad := (b.any fun y => y.id == x.id) ||
      (if x.kind = 2 then x.plist == 0xFFFF || decide (m.peers.length ≤ x.plist) else x.plist != 0xFFFF)
    match firstOf [refuseIf bad 6 x.id 0, refuseIf (x.kind != 1 && times x.sf x.stag != 1) 6 x.id x.stag,
        refuseIf (x.kind != 1 && times x.ef x.etag != 1) 6 x.id x.etag] with
    | some r => some r
    | none => ddlFaults m (b ++ [x]) t

/-- Is a flag or counter declared by the image? -/
def imgDeclared (m : Img) (ctr : Bool) (i : Nat) : Bool :=
  m.sync.any fun x => x.ctr == ctr && decide (x.first ≤ i) && decide (i < x.first + x.count)

/-- The flags and counters of this device that a descriptor names: WAIT, a local SIGNAL, a MOV's COUNTER, a GET's LCOUNTER. -/
def namesOf (own : Nat) (i : CItem) : List (Bool × Nat) :=
  let w := i.d.wait.toNat
  let s := i.d.sig.toNat
  let loc := sigDevice s == 0xFFFF || sigDevice s == own
  (if waitKind w = 1 || waitKind w = 2 then [(waitKind w == 2, i.wIdx)] else []) ++
  (if (sigKind s = 1 || sigKind s = 2) && loc then [(sigKind s == 2, i.sIdx)] else []) ++
  (if i.d.op = opMov && (MovOp.of i.d).count then [(true, (MovOp.of i.d).counter)] else []) ++
  (if i.d.op = opGet && (Hdl.of i.d).lcount then [(true, (Hdl.of i.d).lctr)] else [])

/-- The index of a REL SIGNAL to another device that resolves outside its range (R66): whether the target has declared it is the
target's to check (R60). -/
def remoteOut (own : Nat) (i : CItem) : Option Nat :=
  let s := i.d.sig.toNat
  let top := if sigKind s = 2 then 8192 else 65536
  if (sigKind s = 1 || sigKind s = 2) && sigDevice s != 0xFFFF && sigDevice s != own && i.depth != 0 && i.d.rel && decide (top ≤ i.sIdx) then
    some i.sIdx
  else none

def Dev.checkDeclarations (d : Dev) (m : Img) (rs : List Run) : Option Refuse :=
  firstOf [syncFaults [] m.sync, ddlFaults m [] m.ddls,
    overItems rs fun _ i =>
      match (namesOf d.devId i).find? fun p => !imgDeclared m p.1 p.2 with
      | some p => some ⟨6, p.2, i.tag⟩
      | none => (remoteOut d.devId i).map fun x => ⟨6, x, i.tag⟩]

/-! ### MEMORY (R39, R250, R393) -/

/-- Is a MEMORY entry well formed by itself (R39)? -/
def resvOk (r : Resv) : Bool :=
  r.size != 0 &&
  (if r.kind = 1 then r.base % 0x20_0000 == 0 && r.size % 0x20_0000 == 0 && decide (r.base + r.size ≤ hbmSize) && r.mark != 1
   else decide (plotBase ≤ r.base) && (r.base - plotBase) % 0x400_0000 == 0 && r.size % 0x400_0000 == 0 &&
     decide (r.base + r.size ≤ plotBase + 160 * 0x400_0000))

def resvFaults : Nat → List Resv → List Resv → Option Refuse
  | _, _, [] => none
  | n, b, r :: t =>
    if !resvOk r || b.any (fun x => overlaps x.base x.size r.base r.size) then some ⟨7, n, 0⟩ else resvFaults (n + 1) (b ++ [r]) t

/-- The enabled trace rings, by number, base and size (R393). -/
def Dev.rings (d : Dev) : List (Nat × Nat × Nat) :=
  ((List.range 4).filter fun r => d.fld TRC_SIZE TRC_SIZE_LOG2_SIZE 0 r != 0).map fun r =>
    (r, d.fld TRC_BASE TRC_BASE_BASE 0 r * 4096, 2 ^ d.fld TRC_SIZE TRC_SIZE_LOG2_SIZE 0 r)

/-- Ring size of a furrow as its log2 (R64). -/
def ringLog2 (p b e : Nat) : Nat := max 16 (clog2 (64 * (max p e + 2 * b)))

/-- What the loader places: for every furrow its ring, and its step-body and epilogue source copies; the library store (R39, R386). -/
def imgPlaces (m : Img) : List Nat :=
  (m.ids.flatMap fun id =>
    let n (ph : Nat) : Nat := (m.phase id ph).length
    [2 ^ ringLog2 (n 0) (n 1) (n 2), 64 * n 1, 64 * n 2]) ++ [m.store.length]

/-- The unreserved HBM outside the rings, as gaps of base and end on 4 KiB bounds. -/
def gapsOf (used : List (Nat × Nat)) : List (Nat × Nat) :=
  let up (x : Nat) : Nat := 4096 * cdiv x 4096
  used.foldl (fun gs u => gs.flatMap fun g =>
    if u.2 = 0 || g.2 ≤ u.1 || u.1 + u.2 ≤ g.1 then [g]
    else ([(g.1, min g.2 (u.1 / 4096 * 4096)), (min g.2 (up (u.1 + u.2)), g.2)].filter fun h => decide (h.1 < h.2))) [(0, hbmSize)]

def Dev.gaps (d : Dev) (m : Img) : List (Nat × Nat) :=
  gapsOf (((m.mem.filter fun r => r.kind == 1).map fun r => (r.base, r.size)) ++ (d.rings.map fun p => (p.2.1, p.2.2)))

/-- First fit of a list of sizes on 4 KiB bounds; an entry without place is none. -/
def fit : List (Nat × Nat) → List Nat → List (Option Nat)
  | _, [] => []
  | gs, n :: t =>
    match gs.find? fun g => decide (n ≤ g.2 - g.1) with
    | some g => some g.1 :: fit (gs.map fun h => if h == g then (g.1 + 4096 * cdiv n 4096, max g.2 (g.1 + 4096 * cdiv n 4096)) else h) t
    | none => none :: fit gs t

/-- Shortfall of unreserved HBM in bytes (R39): what is needed above what is left, or what finds no place. -/
def Dev.shortfall (d : Dev) (m : Img) : Nat :=
  let need := (imgPlaces m).foldl (· + ·) 0
  let left := ((d.gaps m).map fun g => g.2 - g.1).foldl (· + ·) 0
  if left < need then need - left
  else (((imgPlaces m).zip (fit (d.gaps m) (imgPlaces m))).filter fun p => p.2.isNone).foldl (fun a p => a + p.1) 0

/-- May the sheaf reach a run of operand memory: reserved HBM, reserved plots that are no cache (R186, R188, R250)? A run may span
adjacent reservations, and one that leaves the HBM or the plots is outside them. -/
def imgMayReach (m : Img) (a n : Nat) : Bool :=
  if n = 0 then true
  else
    match region a with
    | .hbm => hbmCovered m.mem a n
    | .plot _ => decide (a + n ≤ plotEnd) && (plotsOf a n).all fun p => m.mem.any fun r => r.mark != 1 && (resvPlots r).contains p
    | _ => true

def Dev.checkMemory (d : Dev) (m : Img) (rs : List Run) : Option Refuse :=
  firstOf [
    resvFaults 0 [] m.mem,
    d.rings.findSome? fun p => refuseIf (m.mem.any fun r => r.kind == 1 && overlaps r.base r.size p.2.1 p.2.2) 7 (0xFFF0 + p.1) 0,
    refuseIf (d.shortfall m != 0) 7 0xFFFFFFFF (d.shortfall m),
    overItems rs fun r i => refuseIf ((spans i.d).any fun p => !imgMayReach m p.1 p.2) 7 r.id (2 ^ 63 + i.tag)]

/-! ### LIBRARY (R38, R67) -/

/-- Is RET the last descriptor of a body, and only that (R67)? -/
def retLast (b : List Desc) : Bool :=
  match b.reverse with
  | x :: t => x.op == opRet && t.all fun y => y.op != opRet
  | [] => false

def Dev.refOk (d : Dev) (m : Img) (r : Nat × Nat × Nat) : Bool :=
  if bitOf r.1 15 then m.recs.any fun x => x.id == r.1
  else d.boot.lib.any fun x => x.id == r.1 && x.ver == r.2.1 && crc32c x.contract == r.2.2

/-- Is a routine record well formed beside its reserved fields (R38)? -/
def recOk (r : Rec) : Bool :=
  bitOf r.id 15 && decide (1 ≤ r.count ∧ r.count ≤ 65535) && decide (imgNum r.contract 0x10 1 < 64) && decide (imgNum r.contract 0x11 1 ≤ 3) &&
  decide (imgNum r.contract 0x12 1 ≤ 4) && retLast r.body

def recFaults : Nat → List Rec → List Rec → Option Refuse
  | _, _, [] => none
  | n, b, r :: t =>
    if !recOk r || b.any (fun x => x.id == r.id) || decide (4096 ≤ b.length) || decide (0x1000_0000 < n + 64 + 64 * r.count) then some ⟨8, r.id, 0⟩
    else recFaults (n + 64 + 64 * r.count) (b ++ [r]) t

def Dev.checkLibrary (d : Dev) (m : Img) (rs : List Run) : Option Refuse :=
  firstOf [
    m.refs.findSome? fun r => refuseIf (!d.refOk m r) 8 r.1 0,
    recFaults 0 [] m.recs,
    overItems rs fun _ i =>
      let id := callRoutine i.d
      refuseIf (i.d.op == opCall && !(m.refs.any fun r => r.1 == id)) 8 id 0,
    overItems rs fun _ i =>
      let id := callRoutine i.d
      refuseIf (i.d.op == opCall && !(match d.libOf m id with | some r => retLast r.2 | none => false)) 8 id 0]

/-! ### DESCRIPTOR -/

/-- A chain that admission sees open: accumulator, M, N, SHAPE, depth and tag of its opener (R90). -/
structure Chain where
  acc : Nat
  m : Nat
  n : Nat
  shape : Nat
  depth : Nat
  tag : Nat
deriving DecidableEq, Repr

/-- Chains after a descriptor, or none for a clash (R90, R185). An operation with ACC = ALT names the accumulators that its tiles fill.
A chain of an outer depth may stay open over a routine's RET: RET refuses only chains opened at its own depth or deeper.
DESIGN CHOICE for both, the spec says neither (log entry 77). -/
def chainStep (cs : List Chain) (i : CItem) : Option (List Chain) :=
  if i.d.op = opRet then (if cs.any fun c => decide (i.depth ≤ c.depth) then none else some cs)
  else if !isMm i.d.op then some cs
  else
    let m := Mm.of i.d
    let uses := if m.acc != 0 then [m.acc - 1] else if m.tiles = 1 then [0] else [0, 1]
    let open_ := cs.filter fun c => uses.contains c.acc
    if m.accum then
      match open_ with
      | c :: _ => if c.m = m.m && c.n = m.n && c.shape = m.shape then some (if m.nodrain then cs else cs.filter fun x => x.acc != c.acc) else none
      | [] => none
    else if !open_.isEmpty then none
    else if m.nodrain then some (cs ++ [⟨m.acc - 1, m.m, m.n, m.shape, i.depth, i.tag⟩])
    else some cs

/-- Tag of the descriptor that breaks the rules of chains in a phase, or of the opener of a chain left open. -/
def chainFault : List Chain → List CItem → Option Nat
  | cs, [] => cs.head?.map fun c => c.tag
  | cs, i :: t => match chainStep cs i with | some c => chainFault c t | none => some i.tag

/-- GROUP of a UPD or SEAL. -/
def groupOf (x : Desc) : Nat := bitsOf x.w0.toNat 32 12

/-- Groups that a furrow's prologue updates (R206). -/
def regGroups (rs : List Run) (id : Nat) : List Nat :=
  rs.flatMap fun r => if r.id = id && r.phase = 0 then (r.items.filter fun i => i.d.op == opUpd).map fun i => groupOf i.d else []

/-- Does a UPD or SEAL break R206 or R215, `before` being the items before it in its phase? -/
def groupBad (rs : List Run) (r : Run) (before : List CItem) (i : CItem) : Bool :=
  let g := groupOf i.d
  (i.d.op == opUpd || i.d.op == opSeal) && r.phase != 0 &&
    (!(regGroups rs r.id).contains g ||
      (r.phase == 1 && i.d.op == opUpd && !(before.any fun j => j.d.op == opSeal && groupOf j.d == g)))

/-- May the engine type of a furrow call the routine (R68)? -/
def callOk (lib : Lib) (id : Nat) (i : CItem) : Bool :=
  i.d.op != opCall ||
    (bitsOf (callRoutine i.d) 12 3 == 0 &&
      match lib (callRoutine i.d) with | some r => bitOf (imgNum r.1 0x10 1) (id / 4096 - 1) | none => false)

/-- Does a headland descriptor leave by a port of its target's active route (R280)? -/
def Dev.routeOk (d : Dev) (id : Nat) (x : Desc) : Bool :=
  !isHdl x.op ||
    let e := d.routeEntry (Hdl.of x).dev
    routeValid e && routeDie e == id % 4096 / 6 && bitOf (routePorts e) (id % 4096 % 6)

/-- The first descriptor of a phase that is not legal. -/
def Dev.descFault (d : Dev) (lib : Lib) (rs : List Run) (r : Run) : List CItem → List CItem → Option Nat
  | _, [] => none
  | b, i :: t =>
    if descLegal d.devId r.id (i.rtn != 0xFFFF) i.d && callOk lib r.id i && d.routeOk r.id i.d && !groupBad rs r b i then d.descFault lib rs r (b ++ [i]) t
    else some i.tag

def Dev.checkDescriptors (d : Dev) (lib : Lib) (rs : List Run) : Option Refuse :=
  rs.findSome? fun r =>
    (match d.descFault lib rs r [] r.items with | some t => some t | none => if r.id / 4096 = 1 then chainFault [] r.items else none).map fun t =>
      ⟨9, r.id, t⟩

/-! ### CALL_DEPTH (R68) -/

def checkDepth (rs : List Run) : Option Refuse := overItems rs fun r i => refuseIf (i.d.op == opCall && decide (4 ≤ i.depth)) 0xA r.id i.tag

/-- The checks of Table 2.9 from FAMILY to CALL_DEPTH, in the order of its rows. -/
def Dev.checkStatic (d : Dev) (m : Img) (rs : List Run) : Option Refuse :=
  firstOf [d.checkFamily m, d.checkResources m rs, d.checkDeclarations m rs, d.checkMemory m rs, d.checkLibrary m rs,
    d.checkDescriptors (d.libOf m) rs, checkDepth rs]

end Sys2Proof.Machine
end

