-- ==== Sys2Proof/Machine/WorstCase.lean ====
section
/-! DEFINITION. The worst-case evaluation of a sheaf (R42, R63, R70, R72, R192, R264): prologue, two step bodies and epilogue as a
sequence of begins and completions in nanoseconds from START; the deadlines' worst cases (R36, R40) and the profile's places (R418). -/
namespace Sys2Proof.Machine
open Sys2Proof

/-- A furrow in the evaluation: what it still holds with its segment (0 prologue, 1 and 2 step bodies, 3 epilogue), when each fetched
descriptor has arrived, what it does next and when (0 tests its WAIT, 1 waits for a delivery, 2 begins, 3 completes, 4 has ended, 5 waits
for verdicts), the begin times of its open CALLs, and the descriptor in progress with its plot demand. -/
structure SFur where
  id : Nat
  items : List (Nat × CItem)
  arr : List Nat
  st : Nat
  t : Nat
  calls : List Nat
  dem : List (Nat × Nat)
  cur : Option (Nat × CItem)
deriving DecidableEq, Repr

/-- A wait that is not satisfied, in the order of the tests (R57). -/
structure SWait where
  ctr : Bool
  idx : Nat
  id : Nat
  t : Nat
  consume : Bool
  thr : Nat
deriving DecidableEq, Repr

/-- State of the evaluation. Flags hold when and by which furrow they were set; counters their value and the deliveries still counted in
it. Begins and completions of section descriptors are kept by furrow, segment and tag; those of the segments as a whole beside. `seals`
counts the SEALs of the step bodies that have not completed, `sealT` is when the last did (R164). -/
structure Sim where
  furs : List SFur
  flags : SMap (Option (Nat × Nat))
  ctrs : SMap (Nat × List (Nat × Nat × Nat))
  waits : List SWait
  begins : List ((Nat × Nat × Nat) × Nat)
  ends : List ((Nat × Nat × Nat) × Nat)
  segB : SMap (Option Nat)
  segE : SMap Nat
  dem : SMap Nat
  hits : List (Nat × Nat)
  overSub : Option (Nat × Nat)
  seals : Nat
  sealT : Nat
deriving DecidableEq, Repr

/-- A COLLECTIVE deadline with the places of its START and END, the last CALL up to its END with that routine's hops, and its Lmax
(R42 step 6). -/
structure Coll where
  id : Nat
  phase : Nat
  sf : Nat
  stag : Nat
  sTop : Nat
  ef : Nat
  eTop : Nat
  last : Option (Nat × Nat)
  lmax : Nat
  bound : Nat
  far : Nat
deriving DecidableEq, Repr

/-- What the evaluation is given: the image, the COLLECTIVE deadlines, the smallest STEP bound of each phase, the sow-in delay, the worst
case of each COLLECTIVE by its ID (none in the evaluation that finds them), and whether the step bodies hold a SEAL. -/
structure Ctx where
  img : Img
  colls : List Coll
  steps : List (Option Nat)
  sow : Nat
  worst : List (Nat × Nat)
  sealed : Bool
deriving DecidableEq, Repr

/-- Phase of a segment. -/
def segPhase (s : Nat) : Nat := if s = 0 then 0 else if s = 3 then 2 else 1

/-- Value listed for a key. -/
def lookup3 (l : List ((Nat × Nat × Nat) × Nat)) (k : Nat × Nat × Nat) : Option Nat := (l.find? fun p => p.1 == k).map fun p => p.2

/-- Hops of a routine for P peers (R70). -/
def routineHops (con : List Byte) (p : Nat) : Nat := imgNum con 0xC 2 * clog2 p + imgNum con 0xE 2 * (p - 1)

/-- Contract latency of a routine in the calling engine's cycles (R70). -/
def routineCycles (con : List Byte) (c : Desc) : Nat :=
  imgNum con 0 4 + cdiv (imgNum con 4 4 * bitsOf c.w3.toNat 0 32) 256 + cdiv (imgNum con 8 4 * bitsOf c.w4.toNat 0 32) 256

/-! ### Time (R42 steps 1 to 3, R287, R328) -/

/-- 10^9 times the time-base factor. -/
def Dev.factor (d : Dev) : Nat := 1000000000 + (d.tb.rateSub + 10000).toNat

/-- Frequencies in Hz at the bottom of the spread. -/
def Dev.coreHz (d : Dev) (die : Nat) : Nat := d.fld CLK_CPLL CLK_CPLL_MULT die * 15625 * (800 - d.fld CLK_SSC CLK_SSC_C_DEPTH die)
def Dev.fabHz (d : Dev) (die : Nat) : Nat := d.fabSpeed die * 15625
def Dev.movHz (d : Dev) (die : Nat) : Nat := d.fld CLK_FPLL CLK_FPLL_MOV_MULT die * 15625 * (800 - d.fld CLK_SSC CLK_SSC_F_DEPTH die)

/-- Cycles at a frequency of `num / den` Hz as ns, rounded up. -/
def Dev.cycAt (d : Dev) (n num den : Nat) : Nat := cdiv (n * d.factor * den) num

/-- Cycles of an engine's island. -/
def Dev.islNs (d : Dev) (id n : Nat) : Nat :=
  let die := dieOfId id
  match id / 4096 with
  | 1 => d.cycAt n (d.coreHz die) 1
  | 2 => d.cycAt n (d.coreHz die) 1
  | 3 => d.cycAt n 4800000000 (max (d.fld CLK_HPLL CLK_HPLL_PLOT_DIV die) (d.fld CLK_HPLL CLK_HPLL_TLT_DIV die))
  | 4 => d.cycAt n (d.movHz die) 1
  | 5 => d.cycAt n (d.fabHz die) 1
  | _ => d.cycAt n 192000000 1

/-- Fabric cycles at the slowest of some dies. -/
def Dev.fabAt (d : Dev) (dies : List Nat) (n : Nat) : Nat :=
  d.cycAt n (dies.foldl (fun a x => min a (d.fabHz x)) (d.fabHz (dies.headD 0))) 1

/-- Do two engines share an island? -/
def sameIsland (a b : Nat) : Bool :=
  let ta := a / 4096
  let tb := b / 4096
  if (ta = 1 || ta = 2) && (tb = 1 || tb = 2) then a % 4096 == b % 4096
  else ta == tb && (if ta = 6 then a == b else dieOfId a == dieOfId b)

/-- Path terms from the engine that signals to the engine that waits (R42 step 3). -/
def Dev.pathNs (d : Dev) (a b : Nat) : Nat :=
  let br := bridges (dieOfId a) (dieOfId b)
  let dies := dieOfId a :: br.map fun p => p.2
  d.fabAt dies 16 + (if sameIsland a b then 0 else d.islNs b 6) + br.length * d.fabAt dies 12

/-- ADM_ROUTE_LAT of a device, none where it is not VALID. -/
def Dev.routeLat (d : Dev) (dev : Nat) : Option Nat :=
  if d.bit ADM_ROUTE_LAT ADM_ROUTE_LAT_VALID 0 dev then some (d.fld ADM_ROUTE_LAT ADM_ROUTE_LAT_LAT_NS 0 dev) else none

/-- Y of R264. -/
def Dev.yokeNs (d : Dev) : Nat :=
  let ms := (List.range 3).filter fun i => bitOf (d.fld HUB_YOKE_STATE HUB_YOKE_STATE_AGREED) i
  if ms.isEmpty then 0
  else 2 * (ms.map fun i => (d.routeLat (bitsOf (d.reg HUB_YOKE) (16 + 16 * i) 16)).getD 0).foldl max 0 + d.fabAt (List.range 10) 64

/-- Contract latency of a descriptor in ns, without the hop term (R42, R83, R84, R96, R264). -/
def Dev.latNs (d : Dev) (id : Nat) (x : Desc) : Nat :=
  d.islNs id (latCycles id x) + (if x.op = opWait then bitsOf x.w0.toNat 0 32 else 0) +
    (if isHdl x.op then 2 * (d.routeLat (Hdl.of x).dev).getD 0 else 0) + (if writesHbm x then d.yokeNs else 0)

/-! ### COLLECTIVE deadlines -/

/-- Place of a tag in a section. -/
def topOf (b : List Desc) (tag : Nat) : Nat := (b.findIdx? fun x => x.tag == tag).getD 0

/-- The peers of a list but this device, with their latencies. -/
def Dev.peerLats (d : Dev) (l : List Nat) : List (Nat × Nat) := (l.filter fun p => p != d.devId).map fun p => (p, (d.routeLat p).getD 0)

/-- A COLLECTIVE deadline of an image. Where routines nest, the CALL of R42 step 6 is the outermost one, which the section holds.
DESIGN CHOICE, the spec does not say which (log entry 80). -/
def Dev.collOf (d : Dev) (m : Img) (x : Ddl) : Coll :=
  let es := m.phase x.ef x.phase
  let e := topOf es x.etag
  let s := topOf (m.phase x.sf x.phase) x.stag
  let ps := (m.peers[x.plist]?).getD []
  let lats := d.peerLats ps
  let lm := (lats.map fun p => p.2).foldl max 0
  let calls := (es.take (e + 1)).zipIdx.filter fun p => p.1.op == opCall && (x.sf != x.ef || decide (s ≤ p.2))
  let last := match calls.getLast? with
    | some p => (d.libOf m (callRoutine p.1)).map fun r => (p.2, routineHops r.1 ps.length)
    | none => none
  ⟨x.id, x.phase, x.sf, x.stag, s, x.ef, e, last, lm, x.bound, ((lats.find? fun p => p.2 == lm).map fun p => p.1).getD 0⟩

/-- Does a descriptor lie in a COLLECTIVE's span: from its START on the START furrow, up to its END on the END furrow? -/
def Coll.spans (c : Coll) (id ph top : Nat) : Bool :=
  c.phase == ph &&
    (if c.sf = c.ef then id == c.sf && decide (c.sTop ≤ top) && decide (top ≤ c.eTop)
     else (id == c.sf && decide (c.sTop ≤ top)) || (id == c.ef && decide (top ≤ c.eTop)))

/-- H x Lmax that a completing section descriptor carries, with the COLLECTIVEs whose CALL it is: the last CALL inside the interval
carries its routine's hops, else END carries one (R42 step 6). `cb` is the CALL's begin. -/
def Sim.hop (s : Sim) (c : Ctx) (id seg top : Nat) (call : Bool) (cb : Nat) : Nat × List (Nat × Nat) :=
  (c.colls.filter fun x => x.ef == id && x.phase == segPhase seg).foldl (fun a x =>
    let began := match lookup3 s.begins (x.sf, seg, x.stag) with | some t => decide (t ≤ cb) | none => false
    match x.last with
    | some (lt, h) =>
      if call && top == lt && began then (a.1 + h * x.lmax, (x.id, seg) :: a.2)
      else if top == x.eTop && !(s.hits.contains (x.id, seg)) then (a.1 + x.lmax, a.2)
      else a
    | none => if top = x.eTop then (a.1 + x.lmax, a.2) else a) (0, [])

/-! ### Fetch (R62, R63) -/

/-- Descriptors of the next burst: up to 64, up to and including the next CALL or RET. -/
def burstLen : Nat → List (Nat × CItem) → Nat
  | 0, _ => 0
  | _, [] => 0
  | n + 1, p :: t => if p.2.d.op = opCall || p.2.d.op = opRet then 1 else 1 + burstLen n t

/-- Bursts issued at `t`. -/
def Dev.simFetch (d : Dev) (t : Nat) : Nat → SFur → SFur
  | 0, f => f
  | n + 1, f =>
    let rest := f.items.drop f.arr.length
    match rest with
    | [] => f
    | p :: _ =>
      if 256 ≤ (f.arr.filter fun a => decide (a ≤ t)).length || 512 < f.arr.length + 64 then f
      else
        let first := if p.2.rtn != 0xFFFF && !bitOf p.2.rtn 15 then 2048 else 1024
        let die := [dieOfId f.id]
        let k := burstLen 64 rest
        d.simFetch t n { f with arr := f.arr ++ (t + d.fabAt die first) :: List.replicate (k - 1) (t + d.fabAt die (first + 64)) }

/-! ### Waits and deliveries (R56 to R58) -/

/-- Put a furrow back. -/
def Sim.put (s : Sim) (f : SFur) : Sim := { s with furs := s.furs.map fun x => if x.id == f.id then f else x }

/-- Deliveries that bring a counter to a threshold, oldest first. -/
def upTo : Nat → List (Nat × Nat × Nat) → List (Nat × Nat × Nat)
  | _, [] => []
  | n, x :: t => if n ≤ x.2.2 then [x] else x :: upTo (n - x.2.2) t

/-- Deliveries left after `n` bytes are taken, oldest first. -/
def dropBytes : Nat → List (Nat × Nat × Nat) → List (Nat × Nat × Nat)
  | _, [] => []
  | n, x :: t => if n < x.2.2 then (x.1, x.2.1, x.2.2 - n) :: t else dropBytes (n - x.2.2) t

/-- The test of a WAIT with its CONSUME: what delivered it, by time and furrow. -/
def Sim.test (s : Sim) (ctr : Bool) (i thr : Nat) (consume : Bool) : Option (Sim × List (Nat × Nat)) :=
  if ctr then
    let c := SMap.get (0, []) s.ctrs i
    if c.1 < thr then none
    else some (if consume then { s with ctrs := SMap.put (0, []) s.ctrs i (c.1 - thr, dropBytes thr c.2) } else s,
      (upTo thr c.2).map fun x => (x.1, x.2.1))
  else
    match SMap.get none s.flags i with
    | none => none
    | some x => some (if consume then { s with flags := SMap.put none s.flags i none } else s, [x])

/-- When a waiter at `id` sees deliveries. -/
def Dev.seen (d : Dev) (id t : Nat) (by_ : List (Nat × Nat)) : Nat := by_.foldl (fun a p => max a (p.1 + d.pathNs p.2 id)) t

/-- When a wait on a REMOTE or HOST flag or counter that COLLECTIVEs cover is taken as satisfied: the begin of their START plus their worst
case (R42). Before START has begun it counts from the earliest time at which the waiting descriptor could otherwise begin, as R42 has
it for STEP bounds. DEDUCED (log entry 29). -/
def collWait (c : Ctx) (s : Sim) (cs : List Coll) (seg t : Nat) : Nat :=
  cs.foldl (fun a x =>
    let w := match c.worst.find? fun p => p.1 == x.id with | some p => p.2 | none => 0
    max a ((match lookup3 s.begins (x.sf, seg, x.stag) with | some b => b | none => max t c.sow) + w)) t

/-- Does a descriptor wait for verdicts (R164): in the epilogue while a SEAL of the step bodies has not completed; in a step body, when
steps from 2 on need the SEAL of step k - 2 and there is none? A SEAL of step k - 2 itself lies before the bodies evaluated. -/
def verdictBlocks (c : Ctx) (s : Sim) (seg : Nat) (x : Desc) : Bool :=
  usesLs x && ((seg == 3 && s.seals != 0) ||
    (segPhase seg == 1 && !c.sealed && (c.img.hdr.steps == 0 || decide (3 ≤ c.img.hdr.steps))))

/-- A SEAL of a step body completes at `t`: with the last of them the furrows that wait for verdicts go on. -/
def Sim.sealDone (s : Sim) (t : Nat) : Sim :=
  let s := { s with seals := s.seals - 1, sealT := max s.sealT t }
  if s.seals = 0 then
    { s with furs := s.furs.map fun f => if f.st = 5 then { f with st := 2, t := max f.t s.sealT } else f }
  else s

/-- Waiters in the order of their tests, after a delivery to one flag or counter. -/
def Dev.simServe (d : Dev) (c : Ctx) (ctr : Bool) (i : Nat) (s : Sim) : Sim :=
  let ws := s.waits
  ws.foldl (fun s w =>
    if w.ctr == ctr && w.idx == i then
      match s.test ctr i w.thr w.consume with
      | some (s, by_) =>
        let s := match s.furs.find? fun f => f.id == w.id with
          | some f =>
            let t := max (d.seen w.id w.t by_) c.sow
            match f.items with
            | (seg, i) :: _ =>
              s.put { f with st := if verdictBlocks c s seg i.d then 5 else 2, t := if usesLs i.d && seg = 3 then max t s.sealT else t }
            | [] => s.put { f with st := 2, t := t }
          | none => s
        { s with waits := s.waits.filter fun x => x != w }
      | none => s
    else s) s

/-- A SET or ADD at `t` from furrow `src`; a SET of a set flag is lost (R58, R73). -/
def Dev.deliver (d : Dev) (c : Ctx) (s : Sim) (ctr : Bool) (i n src t : Nat) : Sim :=
  let s := if ctr then
      let x := SMap.get (0, []) s.ctrs i
      { s with ctrs := SMap.put (0, []) s.ctrs i ((x.1 + n) % 2 ^ 64, x.2 ++ [(t, src, n)]) }
    else if (SMap.get none s.flags i).isSome then s
    else { s with flags := SMap.put none s.flags i (some (t, src)) }
  d.simServe c ctr i s

/-- A descriptor's SIGNAL to this device. -/
def Dev.simSignal (d : Dev) (c : Ctx) (s : Sim) (x : Desc) (src t : Nat) : Sim :=
  let w := x.sig.toNat
  if sigKind w = 0 || d.sigRemote w then s
  else d.deliver c s (sigKind w == 2) (sigIndex w) (if x.op = opSignal then x.w0.toNat else sigValue w) src t

/-! ### Events -/

/-- Descriptors of one step body that `g` counts, routines included. -/
def countBody (rs : List Run) (g : Desc → Bool) : Nat :=
  ((rs.filter fun r => r.phase == 1).map fun r => (r.items.filter fun i => g i.d).length).foldl (· + ·) 0

/-- Is a flag or counter declared REMOTE or HOST? -/
def imgOuter (m : Img) (ctr : Bool) (i : Nat) : Bool :=
  m.sync.any fun x => x.ctr == ctr && decide (x.first ≤ i) && decide (i < x.first + x.count) && (x.remote || x.host)

/-- A furrow's head is tested: when it has arrived and its predecessor has completed (R42 step 4, R63); a wait that this device does not
satisfy is taken as R42 states; a descriptor that uses the loss scale waits for its verdicts besides (R164). -/
def Dev.simTry (d : Dev) (c : Ctx) (s : Sim) (f : SFur) : Sim :=
  let f := d.simFetch f.t 512 f
  match f.items, f.arr with
  | (seg, i) :: _, a :: _ =>
    if f.t < a then s.put { f with t := a }
    else
      let w := i.d.wait.toNat
      let ctr := waitKind w == 2
      let go (s : Sim) (t : Nat) : Sim :=
        let t := max t (if usesLs i.d && seg = 3 then max c.sow s.sealT else c.sow)
        s.put { f with st := if verdictBlocks c s seg i.d then 5 else 2, t := t }
      if waitKind w = 0 || (ctr && waitThr w == 0) then go s f.t
      else if imgOuter c.img ctr (waitIndex w) then
        let cs := c.colls.filter fun x => x.spans f.id (segPhase seg) i.top
        if !cs.isEmpty then go s (collWait c s cs seg f.t)
        else
          match (c.steps[segPhase seg]?).getD none with
          | none => go s f.t
          | some b =>
            match SMap.get none s.segB seg with
            | some t0 => go s (max f.t (t0 + b))
            | none => go s (max f.t c.sow + b)
      else
        match s.test ctr (waitIndex w) (waitThr w) (waitConsume w) with
        | some (s, by_) => go s (d.seen f.id f.t by_)
        | none => { s.put { f with st := 1 } with waits := s.waits ++ [⟨ctr, waitIndex w, f.id, f.t, waitConsume w, waitThr w⟩] }
  | _, _ => s.put { f with st := 4 }

/-- A descriptor begins: its plot demand is added, and the first begin that takes a plot above its share is kept (R192); it completes after
its latency. A CALL's body follows at once; its RET completes the CALL at L for a ROM routine, at the larger of L and the body for a
store routine (R67, R70). -/
def Dev.simBegin (d : Dev) (c : Ctx) (s : Sim) (f : SFur) : Sim :=
  match f.items with
  | [] => s.put { f with st := 4 }
  | (seg, i) :: _ =>
    let t := f.t
    let dem := plotDemand i.d
    let sums := dem.foldl (fun m p => SMap.put 0 m p.1 (SMap.get 0 m p.1 + p.2)) s.dem
    let full := dem.any fun p => decide (3072 < SMap.get 0 sums p.1)
    let s := { s with
      segB := if (SMap.get none s.segB seg).isSome then s.segB else SMap.put none s.segB seg (some t)
      begins := if i.depth = 0 then s.begins ++ [((f.id, seg, i.tag), t)] else s.begins
      dem := sums
      overSub := if full && s.overSub.isNone then some (f.id, i.tag) else s.overSub }
    let r : Nat × List Nat × List (Nat × Nat) :=
      if i.d.op = opCall then (t, t :: f.calls, [])
      else if i.d.op = opRet then
        let cb := f.calls.headD t
        let base := cb + d.islNs f.id (routineCycles i.con i.call)
        let h := if i.depth = 1 then s.hop c f.id seg i.top true cb else (0, [])
        ((if i.rom then base else max t base) + h.1, f.calls.drop 1, h.2)
      else
        let h := if i.depth = 0 then s.hop c f.id seg i.top false t else (0, [])
        (t + d.latNs f.id i.d + h.1, f.calls, h.2)
    { s with hits := r.2.2 ++ s.hits }.put (d.simFetch t 512 { f with arr := f.arr.drop 1, items := f.items.drop 1, st := 3, t := r.1, calls := r.2.1, dem := dem, cur := some (seg, i) })

/-- A descriptor completes: counted data is delivered, then its SIGNAL, for a RET also its CALL's (R58, R59, R67). A segment ends with its
section's descriptors: a routine's own completions count in its CALL's alone (R70). -/
def Dev.simDone (d : Dev) (c : Ctx) (s : Sim) (f : SFur) : Sim :=
  let t := f.t
  let s := { s with dem := f.dem.foldl (fun (m : SMap Nat) (p : Nat × Nat) => SMap.put 0 m p.1 (SMap.get 0 m p.1 - p.2)) s.dem }
  match f.cur with
  | none => s.put { f with st := 4 }
  | some (seg, i) =>
    let s := s.put { f with st := if f.items.isEmpty then 4 else 0, dem := [], cur := none }
    let outer := (i.depth == 0 && i.d.op != opCall) || (i.depth == 1 && i.d.op == opRet)
    let s := if outer then { s with segE := SMap.put 0 s.segE seg (max (SMap.get 0 s.segE seg) t) } else s
    let s := if i.d.op = opSeal && segPhase seg = 1 then s.sealDone t else s
    let end_ (s : Sim) (tag : Nat) : Sim := { s with ends := s.ends ++ [((f.id, seg, tag), t)] }
    if i.d.op = opCall then s
    else
      let m := MovOp.of i.d
      let h := Hdl.of i.d
      let s := if i.d.op = opMov && m.count then d.deliver c s true m.counter (m.rows * m.rowBytes) f.id t else s
      let s := if i.d.op = opGet && h.lcount then d.deliver c s true h.lctr h.bytes f.id t else s
      let s := d.simSignal c s i.d f.id t
      if i.d.op = opRet then
        let s := d.simSignal c s i.call f.id t
        if i.depth = 1 then end_ s i.tag else s
      else if i.depth = 0 then end_ s i.tag else s

/-- Order of what happens at one time: completions, tests, begins, each by furrow identifier (R57). -/
def SFur.rank (f : SFur) : Nat := if f.st = 3 then 0 else if f.st = 0 then 1 else 2

/-- Does `a` come before `b`? -/
def SFur.before (a b : SFur) : Bool :=
  decide (a.t < b.t) || (a.t == b.t && (decide (a.rank < b.rank) || (a.rank == b.rank && decide (a.id < b.id))))

/-- The furrow whose turn is next. -/
def Sim.next (s : Sim) : Option SFur :=
  (s.furs.filter fun f => f.st != 1 && f.st != 4 && f.st != 5).foldl (fun a f => match a with | some g => if f.before g then some f else some g | none => some f) none

/-- Run until nothing can happen, at most `n` events. -/
def Dev.simRun (d : Dev) (c : Ctx) : Nat → Sim → Sim
  | 0, s => s
  | n + 1, s =>
    match s.next with
    | none => s
    | some f =>
      d.simRun c n (if f.st = 3 then d.simDone c s f else if f.st = 0 then d.simTry c s f else d.simBegin c s f)

/-- The sequence of R42 step 8 of a furrow: prologue, two consecutive step bodies, epilogue, whatever STEPS holds. -/
def seqOf (rs : List Run) (id : Nat) : List (Nat × CItem) :=
  let of (ph : Nat) : List CItem := ((rs.find? fun r => r.id == id && r.phase == ph).map fun r => r.items).getD []
  (of 0).map (fun i => (0, i)) ++ (of 1).map (fun i => (1, i)) ++ (of 1).map (fun i => (2, i)) ++ (of 2).map fun i => (3, i)

/-- Smallest STEP bound of a phase. -/
def stepBound (m : Img) (ph : Nat) : Option Nat :=
  m.ddls.foldl (fun a x => if x.kind = 1 && x.phase = ph then (match a with | some b => some (min b x.bound) | none => some x.bound) else a) none

/-- One run over the sequence of an image. -/
def Dev.evalRun (d : Dev) (rs : List Run) (c : Ctx) : Sim :=
  let all := c.img.ids.map fun id => (id, seqOf rs id)
  let furs := all.map fun p => d.simFetch 0 512 ⟨p.1, p.2, [], if p.2.isEmpty then 4 else 0, 0, [], [], none⟩
  let n := (all.map fun p => p.2.length).foldl (· + ·) 0
  d.simRun c (6 * n + 8) ⟨furs, [], [], [], [], [], [], [], [], [], none, 2 * countBody rs fun x => x.op == opSeal, 0⟩

/-! ### WAIT_CYCLE and PLOT_RATE -/

/-- WAIT_CYCLE and PLOT_RATE (R72, R192). -/
def checkSim (s : Sim) : Option Refuse :=
  match s.furs.find? fun f => f.st != 4 with
  | some f => some ⟨0xB, f.id, (f.items.head?.map fun p => p.2.tag).getD 0⟩
  | none => s.overSub.map fun p => ⟨0xF, p.1, p.2⟩

/-! ### ROUTE (R41, R42) -/

def Dev.checkRoutes (d : Dev) (m : Img) (c : Ctx) (s : Sim) : Option Refuse :=
  let lists := m.peers.zipIdx.findSome? fun p =>
    (p.1.find? fun dev => dev != d.devId && (d.routeLat dev).isNone).map fun dev =>
      (⟨0xC, ((m.ddls.find? fun x => x.kind == 2 && x.plist == p.2).map fun x => x.id).getD (0x10000 + p.2), dev⟩ : Refuse)
  let hops := c.colls.findSome? fun x =>
    let h := match x.last with | some p => if s.hits.any fun q => q.1 == x.id then p.2 else 1 | none => 1
    refuseIf (decide (x.bound < h * x.lmax)) 0xC x.id x.far
  firstOf [lists, hops]

/-! ### Deadlines (R36, R40, R64) -/

/-- Dies and hub that an endpoint stands for, each with its share in tenths. -/
def endsOf (v : Nat) : List (Nat × Nat) :=
  if v < 10 then [(v, 10)] else if v < 0x1A then [(v - 0x10, 10)] else if v = 0xF0 then [(15, 10)] else (List.range 10).map fun i => (i, 1)

/-- Demand of a deadline's transfers on each bridge, in hundredths of a byte. An entry whose DEADLINE_ID names no deadline stretches nothing.
DESIGN CHOICE, the spec names no refusal for it (log entry 81). -/
def xferDemand (xs : List Xfer) (id : Nat) : SMap Nat :=
  (xs.filter fun x => x.ddl == id).foldl (fun m x =>
    (endsOf x.src).foldl (fun m a => (endsOf x.dst).foldl (fun m b => (bridges a.1 b.1).foldl (fun m g =>
      let k := 16 * g.1 + g.2
      SMap.put 0 m k (SMap.get 0 m k + x.bytes * a.2 * b.2)) m) m) m) []

/-- Stretch of an interval of `w` ns in ns: the largest excess over a bridge's capacity (R40). -/
def Dev.stretchOf (d : Dev) (xs : List Xfer) (id w : Nat) : Nat :=
  (xferDemand xs id).foldl (fun a (p : Nat × Nat) =>
    let x := p.1 / 16
    let y := p.1 % 16
    let hz := if x = 15 then d.fabHz y else if y = 15 then d.fabHz x else min (d.fabHz x) (d.fabHz y)
    let rate := (if x = 15 || y = 15 then 512 else 4096) * hz * 100
    max a (cdiv (p.2 * 1000000000 - rate * w) (max 1 rate))) 0

/-- Time to append one step body of every furrow at 256 GB/s, in ns (R64). -/
def appendNs (m : Img) : Nat := cdiv ((m.ids.map fun id => 64 * (m.phase id 1).length).foldl (· + ·) 0) 256

/-- Worst case of a deadline's interval in ns on the evaluated copies of its phase, with its stretch but without the sow-in delay, which
its transfers have besides in the prologue (R36, R40). -/
def Dev.spanOf (d : Dev) (m : Img) (c : Ctx) (s : Sim) (x : Ddl) : Nat :=
  let segs := if x.phase = 0 then [0] else if x.phase = 2 then [3] else [1, 2]
  let one (g : Nat) : Nat :=
    if x.kind = 1 then (match SMap.get none s.segB g with | some b => SMap.get 0 s.segE g - b | none => 0)
    else
      match lookup3 s.begins (x.sf, g, x.stag), lookup3 s.ends (x.ef, g, x.etag) with
      | some b, some e => e - b
      | _, _ => 0
  let w := (segs.map one).foldl max 0
  w + d.stretchOf m.xfers x.id (if x.phase = 0 then w + c.sow else w)

/-- Worst case of a deadline in ns. A COLLECTIVE's is the one that sets the waits it covers (R42, log entry 29); the prologue's intervals
include the sow-in delay (R36); a STEP deadline's is at least the time to append one step body (R64). -/
def Dev.worstOf (d : Dev) (m : Img) (c : Ctx) (s : Sim) (x : Ddl) : Nat :=
  let w := match c.worst.find? fun p => p.1 == x.id with | some p => p.2 | none => d.spanOf m c s x
  let w := if x.phase = 0 then w + c.sow else w
  if x.kind = 1 then max w (appendNs m) else w

/-- The evaluation of an image with sow-in delay `sow` in ns: with COLLECTIVEs first a run in which the waits they cover are satisfied at
once, which gives their worst cases, then the run in which those waits are satisfied as R42 states (log entry 29). -/
def Dev.evaluate (d : Dev) (m : Img) (rs : List Run) (sow : Nat) : Ctx × Sim :=
  let cs := m.ddls.filter fun x => x.kind == 2
  let c : Ctx := ⟨m, cs.map (d.collOf m), [0, 1, 2].map (stepBound m), sow, [], (countBody rs fun x => x.op == opSeal) != 0⟩
  let s := d.evalRun rs c
  if cs.isEmpty then (c, s)
  else
    let c := { c with worst := cs.map fun x => (x.id, d.spanOf m c s x) }
    (c, d.evalRun rs c)

/-- DEADLINE: the first deadline whose worst case exceeds its bound. -/
def Dev.checkDeadlines (d : Dev) (m : Img) (c : Ctx) (s : Sim) : Option Refuse :=
  m.ddls.findSome? fun x => refuseIf (decide (x.bound < d.worstOf m c s x)) 0xE x.id (d.worstOf m c s x)

/-- Least slack over all deadlines, a free value with none (log entry 35). -/
def Dev.leastSlack (d : Dev) (m : Img) (c : Ctx) (s : Sim) : Nat :=
  match m.ddls.map fun x => x.bound - d.worstOf m c s x with
  | [] => Config.freeNat d.free 0 % 2 ^ 64
  | a :: t => t.foldl min a

/-! ### POWER (R43, R44, R418) -/

/-- Begin and end of each evaluated segment, in ns. -/
def Sim.segments (s : Sim) : List (Nat × Nat × Nat) :=
  [0, 1, 2, 3].filterMap fun g => (SMap.get none s.segB g).map fun b => (g, b, SMap.get 0 s.segE g)

/-- The profile on the grid: each phase's segments from its worst-case begin to its worst-case end or the next phase's begin, in
microseconds, none before the sow-in delay ends. -/
def profileOf (m : Img) (c : Ctx) (s : Sim) : List (Nat × Nat × Nat × Nat) :=
  let d := cdiv c.sow 1000
  s.segments.flatMap fun g =>
    let segs := (m.power[segPhase g.1]?).getD []
    let stop := (s.segments.filter fun h => decide (g.1 < h.1) && !((m.power[segPhase h.1]?).getD []).isEmpty).foldl
      (fun e h => min e (max g.2.1 h.2.1)) g.2.2
    let nexts := (segs.map fun x => g.2.1 / 1000 + x.off).drop 1 ++ [cdiv stop 1000]
    (segs.zip nexts).filterMap fun p =>
      let a := max (g.2.1 / 1000 + p.1.off) d
      let b := min p.2 (cdiv stop 1000)
      if g.2.1 + 1000 * p.1.off < stop && a < b then some (a, b, p.1.w, p.1.fill) else none

/-- Length of the grid in microseconds. -/
def Sim.totalUs (s : Sim) : Nat := cdiv ((s.segments.map fun g => g.2.2).foldl max 0) 1000

/-- Phase that a microsecond of the grid belongs to: the last that has begun. -/
def Sim.phaseAt (s : Sim) (us : Nat) : Nat :=
  (s.segments.filter fun g => decide (g.2.1 / 1000 ≤ us)).foldl (fun _ g => segPhase g.1) 0

def Dev.checkPower (d : Dev) (m : Img) (c : Ctx) (s : Sim) : Option Refuse :=
  let floor := d.fld PWR_FLOOR PWR_FLOOR_W
  let ceil := d.fld PWR_CEIL PWR_CEIL_W
  if ceil < floor then some ⟨0xD, 0, 0⟩
  else
    (holdFail (profileOf m c s) s.totalUs floor ceil (d.fld PWR_SLEW PWR_SLEW_W_PER_MS) (d.fld PWR_START PWR_START_W)).map fun t =>
      ⟨0xD, s.phaseAt t, t⟩

end Sys2Proof.Machine
end

