-- ==== Sys2Proof/Machine/Admit.lean ====
section
/-! DEFINITION. SUBMIT, the admission check's result, the loader's copies, START and FINISH (R25, R31, R32, R39, R43, R45, R64, R162, R210, R312,
R386, R417). -/
namespace Sys2Proof.Machine
open Sys2Proof

/-! ### SUBMIT (R45) -/

/-- Report a result in ADM_STATUS.CODE and the details. -/
def Dev.admResult (d : Dev) (r : Refuse) : Dev :=
  ((d.setFld ADM_STATUS ADM_STATUS_CODE r.code).setReg ADM_DETAIL0 (r.d0 % 2 ^ 32)).setReg ADM_DETAIL1 (r.d1 % 2 ^ 64)

/-- Does SUBMIT act: no reset runs, no sheaf is admitted or being checked (R25, R372)? -/
def Dev.submitOk (d : Dev) : Bool := !d.busyReset && !d.admitted && !d.checking

/-- SUBMIT: refused with BUSY while a sheaf is admitted or a check runs, which changes nothing but the result; without effect while a
reset runs (R372). -/
def Dev.submit (d : Dev) : Dev :=
  if d.busyReset then d.emit .err
  else if d.admitted || d.checking then (d.admResult ⟨4, 0, 0⟩).emit .err
  else
    let d := (d.setFld ADM_STATUS ADM_STATUS_CHECKING 1).setReg SEQ_STATUS 0
    { d with
      snap := d.bit HUB_SNAP HUB_SNAP_ENABLE
      tb := { d.tb with rateSub := sgn (d.fld CLK_TB_RATE CLK_TB_RATE_PPB) 32 } }.emit .ok

/-- SUBMIT. -/
def execSubmit (who : Who) (s : State) : Host.Outcome State Fault Refusal := runWho true who (·.submit) s

/-! ### The check -/

/-- A checked image with its evaluation. -/
structure Checked where
  img : Img
  runs : List Run
  ctx : Ctx
  sim : Sim

/-- The checks after FORMAT, in the order of Table 2.9. -/
def Dev.checkImage (d : Dev) (b : List Byte) : Refuse ⊕ Checked :=
  let m := Img.of b
  let rs := m.runs (d.libOf m)
  match d.checkStatic m rs with
  | some r => .inl r
  | none =>
    let sow := sowDelay ((m.power[0]?).getD []) (d.fld PWR_START PWR_START_W) (d.fld PWR_SLEW PWR_SLEW_W_PER_MS)
    let e := d.evaluate m rs sow
    match firstOf [checkSim e.2, d.checkRoutes m e.1 e.2, d.checkPower m e.1 e.2, d.checkDeadlines m e.1 e.2] with
    | some r => .inl r
    | none => .inr ⟨m, rs, e.1, e.2⟩

/-- Length that the loader reads, and the offset of the first read that brought nothing (R386). -/
def Dev.seqLen (d : Dev) : Nat := d.fld SEQ_LEN SEQ_LEN_BYTES
def readFail (len got : Nat) (fail : Option Nat) : Option Nat :=
  match fail with
  | some o => some (min o got)
  | none => if got < len then some got else none

/-! ### An admitted sheaf -/

/-- Place the furrows' rings and copies and the library store in unreserved HBM (R64, R386). -/
def placed (m : Img) (at_ : List (Option Nat)) : List FrwImg × Nat :=
  let a (i : Nat) : Nat := ((at_[i]?).getD none).getD 0
  ((m.ids.zipIdx.filterMap fun p =>
    (furrowOfId p.1).map fun f =>
      let n (ph : Nat) : Nat := (m.phase p.1 ph).length
      ⟨f, n 0, n 1, n 2, a (3 * p.2), ringLog2 (n 0) (n 1) (n 2), a (3 * p.2 + 1), a (3 * p.2 + 2)⟩),
   a (3 * m.ids.length))

/-- Bytes of a section's descriptors. -/
def descBytes (l : List Desc) : List Byte := l.flatMap Desc.bytes

/-- What the loader copies: each furrow's prologue into its ring, its step body and epilogue beside it, the library store. -/
def copiesOf (m : Img) (p : List FrwImg × Nat) : List (Nat × List Byte) :=
  ((p.1.flatMap fun g =>
    let id := furrowId g.f
    [(g.ring, descBytes (m.phase id 0)), (g.srcBody, descBytes (m.phase id 1)), (g.srcEpi, descBytes (m.phase id 2))]) ++
    [(p.2, m.store)]).filter fun c => !c.2.isEmpty

/-- The sheaf as the device holds it. -/
def Dev.sheafOf (d : Dev) (k : Checked) (at_ : List FrwImg × Nat) : Sheaf :=
  let m := k.img
  let us (ph : Nat) : Nat := ((k.sim.segments.filter fun g => segPhase g.1 == ph).map fun g => cdiv (g.2.2 - g.2.1) 1000).foldl max 0
  { jobId := m.hdr.jobId, steps := m.hdr.steps, seed := m.hdr.seed, lsInit := m.hdr.lsInit, carry := m.hdr.carry, lsGrow := m.hdr.lsGrow
    cores := m.cores, ports := m.ports, plots := m.plots, stackSet := m.stackSet, movers := m.movers, sync := m.sync, ddls := m.ddls
    power := m.power, mem := m.mem, peers := m.peers
    store := m.recs.map fun r => ⟨r.id, at_.2 + r.off + 64, r.count, r.contract⟩
    frws := at_.1, lats := m.peers.flatMap d.peerLats, sowNs := k.ctx.sow, profile := profileOf m k.ctx k.sim, phaseUs := [us 0, us 1, us 2]
    nStamp := countBody k.runs isStamp, nSeal := countBody k.runs fun x => x.op == opSeal, nUpd := countBody k.runs fun x => x.op == opUpd
    digest := Config.sha384 m.bytes }

/-- TLT_MARK of every plot from the reservations; kept contents stay (R39, R187). -/
def Dev.markPlots (d : Dev) (m : Img) : Dev :=
  d.each (List.range 160) fun d p =>
    let mark := match m.mem.find? fun r => (resvPlots r).contains p with | some r => 1 + 2 * r.mark | none => 0
    d.setReg TLT_MARK (d.fld TLT_MARK TLT_MARK_KEPT p * 8 + mark) p

/-- Ring registers of every furrow: those of the sheaf, and nothing elsewhere (R64, R78). -/
def Dev.setRings (d : Dev) (s : Sheaf) : Dev :=
  d.each (List.range 520) fun d f =>
    let d := (d.setFr f FRW_HEAD 0).setFr f FRW_TAIL 0
    match s.frws.find? fun g => g.f == f with
    | some g => (d.setFr f FRW_RING_BASE g.ring).setFr f FRW_RING_CFG g.log2
    | none => (d.setFr f FRW_RING_BASE 0).setFr f FRW_RING_CFG 0

/-- Admit a checked image: the loader's copies begin, and nothing runs until START. -/
def Dev.takeSheaf (d : Dev) (k : Checked) : Dev :=
  let at_ := placed k.img (fit (d.gaps k.img) (imgPlaces k.img))
  let s := d.sheafOf k at_
  let d := (d.admResult ⟨0, 0, d.leastSlack k.img k.ctx k.sim⟩).fresh
  let d := (d.setFld ADM_STATUS ADM_STATUS_ADMITTED 1).setReg ADM_SOW (cdiv s.sowNs 1000 % 2 ^ 32)
  let d := (d.markPlots k.img).setRings s
  let d := d.each (d.ist.running.filter fun u => decide (2240 ≤ u) && !d.windowPlot (windowOf u)) Dev.endTest
  let d := d.each (d.gov.plotFill.filter fun p => d.heldPlot p) fun d p => d.setPlotFill p false
  { d with
    decls := s.sync
    sheaf := some s
    copies := copiesOf k.img at_
    furrows := d.clearFurrows
    waits := []
    seals := []
    ls := []
    cplot := []
    gen0 := d.fld HUB_GEN HUB_GEN_GEN
    job := Job.idle
    mgmt := { d.mgmt with meas5 := s.digest } }

/-- The check ends: CHECKING clears, the result shows, the ADMISSION interrupt is raised (R45, R386, R417). -/
def Dev.admissionDone (d : Dev) (image : List Byte) (fail : Option Nat) : Dev :=
  if !d.checking then d
  else
    let len := d.seqLen
    let b := image.take len
    let bad := readFail len b.length fail
    let d := d.setFld ADM_STATUS ADM_STATUS_CHECKING 0
    let d := if 256 ≤ len && 0x24 ≤ bad.getD len then d.setFld ADM_STATUS ADM_STATUS_JOB_ID (imgNum b 0x20 4) else d
    let d := match formatFault b len bad with
      | some f =>
        let d := d.admResult ⟨1, f.1, 0⟩
        if f.2 then d.setFld SEQ_STATUS SEQ_STATUS_PCIE_ERR 1 else d
      | none =>
        match d.checkImage b with
        | .inl r => d.admResult r
        | .inr k => d.takeSheaf k
    d.irq irqAdmission

/-- ADMISSION_COMPLETE: `image` is what the loader's reads brought, `fail` the offset of one that failed. -/
def execAdmissionComplete (image : List Byte) (fail : Option Nat) (s : State) : Host.Outcome State Fault Refusal :=
  runLive true (fun d => d.admissionDone image fail) s

/-! ### The copies -/

/-- The copies end: rings hold the prologue and what R64 places at START, COPIED sets (R386). -/
def Dev.copyDone (d : Dev) : Dev :=
  match d.sheaf with
  | some s =>
    if d.bit SEQ_STATUS SEQ_STATUS_COPIED || d.running then d
    else
      let l := d.copies
      let d := { d with copies := [] }.each l fun d c => d.write c.1 c.2
      let d := d.each s.frws fun d g => d.setFr g.f FRW_TAIL g.nPro
      (d.appendStart s).setFld SEQ_STATUS SEQ_STATUS_COPIED 1
  | none => d

/-- SHEAF_COPY_COMPLETE. -/
def execSheafCopyComplete (s : State) : Host.Outcome State Fault Refusal := runLive true (·.copyDone) s

/-! ### START (R43, R162, R210, R312) -/

/-- LS and the clean-step count at START, with the effective growth interval (R162). Under RESUME the EXP that HUB_LS_COMMIT holds is taken
as it is, also outside -16 to 24, where only a host's write can have put it. DESIGN CHOICE, no rule bounds it (log entry 83). -/
def Dev.lsStart (d : Dev) (s : Sheaf) : Dev :=
  let go := d.bit HUB_LS_CTRL HUB_LS_CTRL_RESUME && d.bit HUB_LS_COMMIT HUB_LS_COMMIT_VALID
  let l := if go then sgn (d.fld HUB_LS_COMMIT HUB_LS_COMMIT_EXP) 8 else s.lsInit
  let n := if go then d.fld HUB_LS_COMMIT HUB_LS_COMMIT_CLEAN else 0
  { d.setReg HUB_LS_STATE (toTwos l 8 + (n % 2 ^ 32) <<< 32) with
    ls := [(0, some l), (1, some l)]
    lsLast := (l, n, if s.lsGrow = 0 then 2000 else s.lsGrow) }

/-- The sheaf's flags are clear and its counters zero (R34). -/
def Dev.clearSync (d : Dev) (s : Sheaf) : Dev :=
  let named (ctr : Bool) (i : Nat) : Bool := s.sync.any fun x => x.ctr == ctr && decide (x.first ≤ i) && decide (i < x.first + x.count)
  { d with flags := d.flags.filter fun i => !named false i, ctrs := d.ctrs.filter fun (p : Nat × Word) => !named true p.1 }

/-- The run of an admitted sheaf begins. -/
def Dev.startJob (d : Dev) (s : Sheaf) : Dev :=
  let d := d.copyDone
  let d := ((d.setFld ERR_FAULT ERR_FAULT_VALID 0).setFld ERR_FAULT_U ERR_FAULT_U_MORE 0).setFld ADM_STATUS ADM_STATUS_RUNNING 1
  let d := ((d.setFld PWR_STATUS PWR_STATUS_RAMP_DOWN 0).lsStart s).clearSync s
  let d := { d with
    gen0 := d.fld HUB_GEN HUB_GEN_GEN
    job := { Job.idle with start := d.tb.time, sowEnd := d.tb.time + s.sowNs }
    gov := { d.gov with
      target := max (2000 * d.fld PWR_START PWR_START_W) ((d.gov.meas.foldl (· + ·) 0) / max 1 d.gov.meas.length)
      active := true, ramp := false, hold := false, phase := 0, phaseT0 := d.tb.time } }
  (d.tlySend s.jobId 1).each s.frws fun d g => d.issue g.f

/-- Does START act: a sheaf is admitted and has not run, and no reset runs (R372)? -/
def Dev.startOk (d : Dev) : Bool := d.sheaf.isSome && d.admitted && !d.running && !d.job.faulted && !d.busyReset

/-- START: without effect unless ADMITTED. -/
def Dev.start (d : Dev) : Dev :=
  match d.sheaf with
  | some s => if d.startOk then (d.startJob s).emit .ok else d.emit .err
  | none => d.emit .err

/-- START. -/
def execStart (who : Who) (s : State) : Host.Outcome State Fault Refusal := runWho true who (·.start) s

/-! ### FINISH (R32) -/

/-- FINISH fixes the last step as the highest whose body has been appended to any furrow. -/
def Dev.finishStep (d : Dev) : Dev :=
  match d.sheaf with
  | some s =>
    let n := (s.frws.map fun g => (d.frw g.f).bodies).foldl max 0
    if d.running && d.job.last.isNone && 0 < n then { d with job := { d.job with last := some (n - 1) } } else d
  | none => d

/-- FINISH. -/
def execFinish (who : Who) (s : State) : Host.Outcome State Fault Refusal := runWho true who (fun d => d.finishStep.emit .ok) s

end Sys2Proof.Machine
end

