-- ==== Sys2Proof/Machine/FurrowOps.lean ====
section
/-! DEFINITION. Furrow commands and control operations (R55 to R67, R75, R84 to R86). -/
namespace Sys2Proof.Machine
open Sys2Proof

/-- There are 520 furrows (Table 2.5). -/
def isFurrow (f : Nat) : Bool := decide (f < 520)

/-- LOADER_APPEND (R31, R32, R64): the append that is due at a furrow. An empty epilogue may be the end of the furrow's work, and
of the job. -/
def execLoaderAppend (f : Nat) (s : State) : Host.Outcome State Fault Refusal :=
  runLive (isFurrow f) (fun d =>
    let d' := d.append f
    if !(d.frw f).epi && (d'.frw f).epi then (d'.dropCarried f).jobEnd else d') s

/-- FETCH_BURST_ARRIVAL (R62, R63): the oldest burst in flight enters the FIFO. -/
def execFetchBurstArrival (f : Nat) (s : State) : Host.Outcome State Fault Refusal :=
  runLive (isFurrow f) (·.burstArrive f) s

/-- The head begins, if it may; `u` is what its words meet on the way out of the FIFO (R352, R353). -/
def Dev.beginWith (d : Dev) (f : Nat) (u : Upset) : Dev :=
  let e := d.begin_ f
  if (d.frw f).cur.isNone && (e.frw f).cur.isSome then (e.upset f u.onChip).1 else e

/-- DESCRIPTOR_BEGIN (R55). -/
def execDescriptorBegin (f : Nat) (u : Upset) (s : State) : Host.Outcome State Fault Refusal := runLive (isFurrow f) (·.beginWith f u) s

/-- DESCRIPTOR_COMPLETE (R59). -/
def execDescriptorComplete (f : Nat) (s : State) : Host.Outcome State Fault Refusal := runLive (isFurrow f) (·.complete f) s

/-- HOLD of a furrow set or cleared (R75); no inserted work runs under it. -/
def Dev.hold (d : Dev) (f : Nat) (h : Bool) : Dev :=
  let d := d.setFf f FRW_CTRL FRW_CTRL_HOLD (b2n h)
  if h then d.stopInserted f else d

/-- Does the furrow have a register block: a core's furrow only while its core is mapped (R77)? -/
def Dev.hasFrw (d : Dev) (f : Nat) : Bool := decide (240 ≤ f) || (d.physOf (furrowUnit f)).isSome

/-- FRW_HOLD (R75): a write of FRW_CTRL.HOLD. -/
def execFrwHold (who : Who) (f : Nat) (h : Bool) (s : State) : Host.Outcome State Fault Refusal :=
  runReg (isFurrow f) who (·.frwBase f) (fun d => if d.hasFrw f then (d.hold f h).emit .ok else d.refuse who (ctrlBase + d.frwBase f) 0x02) s

/-- NOP (R84): it carries a WAIT and a SIGNAL only. -/
def execNop (f : Nat) (s : State) : Host.Outcome State Fault Refusal :=
  runLive (isFurrow f) (fun d => d.perform f opNop fun _ d => d.opDone f) s

/-- Has a timed pause run its time (Table 4.3)? -/
def Dev.pauseOver (d : Dev) (f : Nat) (i : FItem) : Bool := decide ((d.frw f).t0 + bitsOf i.d.w0.toNat 0 32 ≤ d.tb.time)

/-- WAIT (R84): a pause of DELAY_NS ticks; one of 0 is over at once. -/
def execWaitOp (f : Nat) (s : State) : Host.Outcome State Fault Refusal :=
  runLive (isFurrow f) (fun d => d.perform f opWait fun i d => if d.pauseOver f i then d.opDone f else d) s

/-- WAIT_DELAY_EXPIRY (R84): the time base has advanced DELAY_NS ticks past the begin. -/
def execWaitDelayExpiry (f : Nat) (s : State) : Host.Outcome State Fault Refusal :=
  runLive (isFurrow f) (fun d => d.perform f opWait fun i d => if d.pauseOver f i then d.opDone f else d) s

/-- SIGNAL (R84): the counter gains the 64-bit VALUE64. -/
def execSignal (f : Nat) (s : State) : Host.Outcome State Fault Refusal :=
  runLive (isFurrow f) (fun d => d.perform f opSignal fun i d =>
    if d.quiesced && d.sigRemote i.d.sig.toNat then d
    else
      let d := d.signal f i.otag i.step i.d.sig.toNat i.d.w0.toNat
      if d.frwErr f != 0 then d else d.opDone f) s

/-- CALL (R66, R67): the call depth grows; the routine's first descriptor follows. -/
def execCall (f : Nat) (s : State) : Host.Outcome State Fault Refusal :=
  runLive (isFurrow f) (fun d => d.perform f opCall fun _ d =>
    (d.setFf f FRW_STATUS FRW_STATUS_DEPTH (d.ff f FRW_STATUS FRW_STATUS_DEPTH + 1)).opDone f) s

/-- RET (R67): its own SIGNAL, then the CALL's. -/
def execRet (f : Nat) (s : State) : Host.Outcome State Fault Refusal :=
  runLive (isFurrow f) (fun d => d.perform f opRet fun i d =>
    if d.quiesced && (d.sigRemote i.d.sig.toNat || d.sigRemote i.call.sig.toNat) then d
    else
      let d := d.signal f i.otag i.step i.d.sig.toNat (sigValue i.d.sig.toNat)
      if d.frwErr f != 0 then d
      else
        let d := d.signal f i.otag i.step i.call.sig.toNat (sigValue i.call.sig.toNat)
        if d.frwErr f != 0 then d
        else (d.setFf f FRW_STATUS FRW_STATUS_DEPTH (d.ff f FRW_STATUS FRW_STATUS_DEPTH - 1)).opDone f) s

/-- TRC.MARK (R84): a user record with the 128-bit payload, for which the engine does not wait. -/
def execTrcMark (f : Nat) (s : State) : Host.Outcome State Fault Refusal :=
  runLive (isFurrow f) (fun d => d.perform f opTrc fun i d =>
    (d.opDone f).traceItem f trcMarkK i (leBytes 8 i.d.w0.toNat ++ leBytes 8 i.d.w1.toNat)) s

/-- On an array a sheaf FILL is active for its CYCLES and the 32 cycles of the ramp (R85, R86, R111, Table 5.6). -/
def Dev.countFill (d : Dev) (f : Nat) (i : FItem) : Dev :=
  if furrowType f = 1 then
    match d.physOf (furrowUnit f) with
    | some p => d.bump MXA_ACT MXA_ACT_CYCLES (bitsOf i.d.w0.toNat 0 32 + 32) p
    | none => d
  else d

/-- FILL (R85, R86): scheduled dummy work; it writes nothing and leaves the accumulators as they are. -/
def execFill (f : Nat) (s : State) : Host.Outcome State Fault Refusal :=
  runLive (isFurrow f) (fun d => d.perform f opFill fun i d => (d.countFill f i).opDone f) s

end Sys2Proof.Machine
end

