-- ==== Sys2Proof/Machine/IstOps.lean ====
section
/-! DEFINITION. The in-service test (R367 to R370). Units: slice `16·core + s`, window `2,240 + 64·plot + w`. -/
namespace Sys2Proof.Machine
open Sys2Proof

/-- A unit falls due: it runs at once with no sheaf admitted, else at the governor's next fill (R368). -/
def Dev.istDue (d : Dev) (u : Nat) : Dev :=
  if !d.bit IST_CFG IST_CFG_ENABLE || d.ist.due.has u || d.ist.running.has u then d
  else { d with ist := { d.ist with due := d.ist.due.add u } }.runDue

/-- IST_DUE. -/
def execIstDue (unit : Nat) (s : State) : Host.Outcome State Fault Refusal :=
  runLive (decide (unit < 12480)) (fun d => d.istDue unit) s

/-- Write an entry of IST_FAIL (Table 18.15, R129). -/
def Dev.istFail (d : Dev) (kind unit part : Nat) : Dev :=
  let n := d.fld IST_FAIL_CNT IST_FAIL_CNT_COUNT
  if 16 ≤ n then d.setFld IST_FAIL_CNT IST_FAIL_CNT_OVERFLOW 1
  else
    let d := d.setReg IST_FAIL_A (kind + unit * 16 + part * 2 ^ 16 + 2 ^ 32) 0 n
    let d := d.setReg IST_FAIL_B d.tb.time 0 n
    d.setFld IST_FAIL_CNT IST_FAIL_CNT_COUNT (n + 1)

/-- Kind, unit number and part of a test unit (Table 18.15). -/
def istUnit (u : Nat) : Nat × Nat × Nat :=
  if u < 2240 then (kCore, u / 16, u % 16) else (kPlot, windowOf u, (u - 2240) % 64)

/-- A unit fails for the second time: suspect mark, entry, interrupt (R369). -/
def Dev.istSuspect (d : Dev) (kind unit part : Nat) : Dev := ((d.suspect kind unit).istFail kind unit part).irq irqIst

/-- The 1 MiB that a window test leaves zero, headers PLAIN; a cache plot's lines in it are invalid (R368, Table 9.1). -/
def Dev.zeroWindow (d : Dev) (u : Nat) : Dev :=
  let p := windowOf u
  let a := plotBase + p * 0x400_0000 + (u - 2240) % 64 * 0x10_0000
  let d := { d with mem := SMap.clearRange d.mem a 0x10_0000, hdrs := SMap.clearRange d.hdrs (a / 512) 0x800 }
  if d.cachePlot p then d.dropWindow p ((u - 2240) % 64) else d

/-- A unit's result counts as done: the cycle completes with its last unit (R368, R370). -/
def Dev.istCount (d : Dev) (u : Nat) : Dev :=
  let d := if u < 2240 then d.bump IST_PROGRESS IST_PROGRESS_SLICES 1 else d.bump IST_PROGRESS IST_PROGRESS_WINDOWS 1
  if 2240 ≤ d.fld IST_PROGRESS IST_PROGRESS_SLICES && 10240 ≤ d.fld IST_PROGRESS IST_PROGRESS_WINDOWS then
    ((((d.setFld IST_PROGRESS IST_PROGRESS_SLICES 0).setFld IST_PROGRESS IST_PROGRESS_WINDOWS 0).bump IST_STATUS IST_STATUS_CYCLES 1)).setReg IST_LAST d.tb.time
  else d

/-- The result of a unit that has ended: one that passes, or fails again, is no longer due (R369). -/
def Dev.istResult (d : Dev) (u : Nat) (pass : Bool) : Dev :=
  let k := istUnit u
  let again := d.ist.failed.has u
  let d' := { d with ist := { d.ist with due := d.ist.due.del u, failed := d.ist.failed.del u } }
  if pass then (if again then d'.stick IST_STATUS IST_STATUS_TRANSIENT 1 else d').istCount u
  else if again then (d'.istSuspect k.1 k.2.1 k.2.2).istCount u
  else { d with ist := { d.ist with failed := d.ist.failed.add u } }

/-- A slice or window completes: it passes, fails and is due again, passes on repeat as a transient, or fails again (R369). The units that wait
run at once with no sheaf admitted (R368). -/
def Dev.istComplete (d : Dev) (u : Nat) (pass : Bool) : Dev :=
  if !d.ist.running.has u then d
  else
    let d := d.endTest u
    let d := if u < 2240 then d else d.zeroWindow u
    (d.istResult u pass).runDue

/-- IST_SLICE_COMPLETE. -/
def execIstSliceComplete (unit : Nat) (pass : Bool) (s : State) : Host.Outcome State Fault Refusal :=
  runLive (decide (unit < 12480)) (fun d => d.istComplete unit pass) s

/-- One hour of the time base. -/
def hourNs : Nat := 3600000000000

/-- The second's error counts of a port: corrected and uncorrected codewords enter HDL_FEC, and the hour's counts are held against the limits
(R369). -/
def Dev.linkCheck (d : Dev) (p ce ue : Nat) : Dev :=
  let d := (d.stick HDL_FEC HDL_FEC_CORRECTED ce p).stick HDL_FEC HDL_FEC_UNCORRECTED ue p
  let u0 := SMap.get 0 d.ist.ue p
  let r0 := SMap.get 0 d.ist.rep p
  let d := { d with ist := { d.ist with ue := SMap.put 0 d.ist.ue p (u0 + ue) } }
  let bad := decide (d.fld IST_LINK IST_LINK_UE_LIMIT < u0 + ue) || decide (d.fld IST_LINK IST_LINK_REPLAY_LIMIT < r0)
  if bad && !bitOf (d.fld RST_SUSPECT RST_SUSPECT_PORTS 0 (p / 6)) (p % 6) then d.istSuspect kPort p 0 else d

/-- The hour's counts start anew with each clock hour of the time base. -/
def Dev.newHour (d : Dev) : Dev :=
  if d.ist.hour = d.tb.time / hourNs then d
  else { d with ist := { d.ist with hour := d.tb.time / hourNs, ue := [], rep := [] } }

/-- IST_LINK_CHECK: corrected and uncorrected codewords of each port in the second past. -/
def execIstLinkCheck (fec : List (Nat × Nat)) (s : State) : Host.Outcome State Fault Refusal :=
  runLive true (fun d => (d.newHour).each (fec.take 60).zipIdx fun d p => d.linkCheck p.2 p.1.1 p.1.2) s

/-- IST_CTRL.RUN_ALL: every slice and window, with `fails` those that fail twice; tests that ran end (R370). -/
def Dev.runAll (d : Dev) (fails : List Nat) : Dev :=
  if d.admitted then d.emit .err
  else
    let d := d.each d.ist.running Dev.endTest
    let plots := (List.range 160).filter fun p => !d.bit TLT_MARK TLT_MARK_KEPT p
    let d := d.each plots Dev.zeroPlot
    let d := { d with ist := { d.ist with due := [], running := [], failed := [] } }
    let d := d.each (fails.filter fun u => decide (u < 2240) || plots.contains (windowOf u)) fun d u =>
      let k := istUnit u
      d.istSuspect k.1 k.2.1 k.2.2
    let d := ((d.setFld IST_PROGRESS IST_PROGRESS_SLICES 0).setFld IST_PROGRESS IST_PROGRESS_WINDOWS 0).bump IST_STATUS IST_STATUS_CYCLES 1
    (d.setReg IST_LAST d.tb.time).emit .ok

/-- RUN_ALL. -/
def execRunAll (who : Who) (fails : List Nat) (s : State) : Host.Outcome State Fault Refusal :=
  runWho (fails.all fun u => decide (u < 12480)) who (fun d => d.runAll fails) s

end Sys2Proof.Machine
end

