-- ==== Sys2Proof/Machine/ClockOps.lean ====
section
/-! DEFINITION. Clock sources and loops (R320 to R337), and the time base's exchange (R286 to R288). -/
namespace Sys2Proof.Machine
open Sys2Proof

/-! ### Sources and loops -/

/-- A number in `[lo, hi]` that nothing else fixes (log entry 1). -/
def freeIn (x lo hi : Nat) : Nat := lo + x % (hi - lo + 1)

/-- XO_SETTLE elapses with edges on XIN0: it is accepted, MPLL locks, the time base counts from zero and the loops of every die
lock (Table 16.4 steps 2 to 4). FOSC and SOSC are measured; their values are free within their tolerance (R320, R336). SOSC's shows while the
copy of XIN1 toggles. -/
def Dev.xoSettle (d : Dev) : Dev :=
  if d.boot.booting && !d.clk.settled && d.clk.xin0 then
    let fosc := freeIn (Config.freeNat d.free 0) 380000 420000
    let sosc := freeIn (Config.freeNat d.free 1) 28800 35200
    let d := (d.setReg CLK_MEAS (fosc + sosc * 2 ^ 32)).fresh
    { d with clk := { d.clk with settled := true, relock := List.range 40 }, tb := { d.tb with on := true } }
  else d

/-- XO_SETTLE. -/
def execXoSettle (s : State) : Host.Outcome State Fault Refusal := runLive true (·.xoSettle) s

/-- The stack behind an HPLL loop, none for the other loops. -/
def loopStack (n : Nat) : Option Nat := if n < 40 && 2 ≤ n % 4 then some (2 * (n / 4) + (n % 4 - 2)) else none

/-- The boot or the DEV reset completes once no loop relocks and no stack trains (Tables 18.10, 19.4). -/
def Dev.clocked (d : Dev) : Dev :=
  if d.clk.relock.isEmpty && (List.range 20).all fun s => d.fld HBM_STATUS HBM_STATUS_STATE s != 1 then
    if d.boot.booting then d.bootFinish else if d.boot.devReset then d.devFinish else d
  else d

/-- The loop of stack `s` has locked: the stack trains, whole at boot, steps 1 to 4 out of self-refresh unless the device is in DEEP, and as it was
to (Tables 14.3, 16.4, 18.10, R333). -/
def Dev.loopStackUp (d : Dev) (s : Nat) : Dev :=
  if d.boot.booting then d.trainDue s 5
  else if d.pwrMode = 2 then d
  else if d.selfRef.has s then d.trainDue s 4
  else if (SMap.find d.training s).isSome then d.trainBegin s
  else d

/-- A loop of the relock list locks, and behind an HPLL its stack's training starts. On an HPLL that is locked while its stack trains, the event is
the end of that training: the table has no other row for it (DESIGN CHOICE, log entry 87). -/
def Dev.loopLock (d : Dev) (n fail repaired : Nat) : Dev :=
  if d.clk.relock.has n then
    if !d.clk.xin0 then d
    else
      let d := { d with clk := { d.clk with relock := d.clk.relock.del n } }
      (match loopStack n with | some s => d.loopStackUp s | none => d).clocked
  else
    match loopStack n with
    | some s =>
      if d.locked n && d.fld HBM_STATUS HBM_STATUS_STATE s == 1 && (SMap.find d.training s).isSome then (d.trainEnd s fail repaired).clocked
      else d
    | none => d

/-- LOOP_LOCK: `trainFail` is the step at which the stack's training fails, `repaired` the lanes that it repairs. -/
def execLoopLock (loop trainFail repaired : Nat) (s : State) : Host.Outcome State Fault Refusal :=
  runLive (decide (loop ≤ 40)) (·.loopLock loop trainFail repaired) s

/-- LOSS bits of a die's four loops. -/
def Dev.dieLoss (d : Dev) (die : Nat) : Dev := d.setReg CLK_DSTAT (d.reg CLK_DSTAT die ||| 0xF00) die

/-- A port whose loop loses lock is DOWN: from UP with all that this brings, from training at once (R271, R331). -/
def Dev.portClkLoss (d : Dev) (p : Nat) : Dev :=
  if d.portState p = portTraining then
    ((d.setPortState p portDown).setFld HDL_STATUS HDL_STATUS_CAUSE 0x76 p).setPort p Port.off
  else d.linkDown p 0x76

/-- A stack's base die coasts: a TRAINED stack enters self-refresh, as does one in training whose contents count; the training that was to zero a
stack has failed its purpose: at boot it starts again with the loop, else the stack is FAILED as before (R332, R296). -/
def Dev.stackCoast (d : Dev) (s : Nat) : Dev :=
  let st := d.fld HBM_STATUS HBM_STATUS_STATE s
  if st = 2 || (st = 1 && !d.trainsWhole s) then
    { d.setFld HBM_STATUS HBM_STATUS_STATE 4 s with selfRef := d.selfRef.add s, training := SMap.erase d.training s }
  else if st = 1 then d.setFld HBM_STATUS HBM_STATUS_STATE (if d.boot.booting then 0 else 3) s
  else d

/-- XIN0 loses its edges for 320 ns: every general loop coasts, also one that was relocking (R331, R332, R315). -/
def Dev.clkLoss (d : Dev) : Dev :=
  if !(d.clk.xin0 && d.clk.settled) then { d with clk := { d.clk with xin0 := false } }
  else
    let governed := d.running || d.gov.ramp || d.gov.fill != 0
    let d := if d.running then d.jobFault { cause := jfClkLoss, kind := kHub } else d
    let d : Dev := { d with clk := { d.clk with xin0 := false } }
    let d := d.each (List.range 60) Dev.portClkLoss
    let d := (d.each (List.range 10) Dev.dieLoss).setFld CLK_STATUS CLK_STATUS_LOSS 1
    let d := d.each (List.range 20) Dev.stackCoast
    let d := (d.setFld CLK_TB_STATUS CLK_TB_STATUS_LOCKED 0)
    let d := if governed then d.stick PWR_EVT PWR_EVT_UNCONTROLLED 1 else d
    { d with
      clk := { d.clk with coast := List.range 41, relock := [] }
      tb := { d.tb with good := 0, reqT1 := none } }

/-- CLK_LOSS. -/
def execClkLoss (s : State) : Host.Outcome State Fault Refusal := runLive true (·.clkLoss) s

/-- XIN0_RETURN: XIN0 has edges again; the loops coast on until RELOCK (R333). -/
def execXin0Return (s : State) : Host.Outcome State Fault Refusal :=
  runDev true (fun d => { d with clk := { d.clk with xin0 := true } }) s

/-- CLK_CTRL.RELOCK (R333): every loop relocks; as it locks, a stack that the coast had put into self-refresh trains, but in DEEP none does; enabled
ports train, but none in DEEP; the time-base exchange starts again. With XIN0_OK clear it has no effect. -/
def Dev.relock (d : Dev) : Dev :=
  if !(d.clk.xin0 && d.clk.settled) then d.emit .err
  else
    let d := { d with
      clk := { d.clk with relock := List.range 41, coast := [] }
      tb := { d.tb with good := 0, reqT1 := none } }
    (if d.pwrMode = 2 then d
     else d.each (List.range 60) fun d p => if d.bit HDL_CFG HDL_CFG_ENABLE p then d.portRun p true else d).emit .ok

/-- RELOCK. -/
def execRelock (who : Who) (s : State) : Host.Outcome State Fault Refusal := runWho true who (·.relock) s

/-- The register of a loop setting: CLK_CPLL, CLK_FPLL and CLK_HPLL of a die, and CLK_MPLL, with the loops that a write relocks and whether
the fields are in range (R324, R325, Tables 16.7, 16.8). -/
def loopSetting (off v : Nat) : Option (RegDef × Nat × List Nat × Bool) :=
  let within (x lo hi : Nat) : Bool := decide (lo ≤ x) && decide (x ≤ hi)
  if off = CLK_MPLL.off then some (CLK_MPLL, 0, [40], within (bitsOf v 0 4) 2 16)
  else
    let die := (off - 0x1000_0000) / 0x100_0000
    if off < 0x1000_0000 || 10 ≤ die then none
    else
      match (off - 0x1000_0000) % 0x100_0000 with
      | 0x00 => some (CLK_CPLL, die, [4 * die], within (bitsOf v 0 8) 32 144)
      | 0x08 => some (CLK_FPLL, die, [4 * die + 1], within (bitsOf v 0 8) 64 128 && within (bitsOf v 8 8) 64 144)
      | 0x10 => some (CLK_HPLL, die, [4 * die + 2], within (bitsOf v 0 4) 4 8 && within (bitsOf v 4 4) 4 8)
      | _ => none

/-- A write of a loop setting (R325). -/
def Dev.loopWrite (d : Dev) (who : Who) (off v : Nat) : Dev :=
  match loopSetting off v with
  | none => d.refuse who (ctrlBase + off) 0x02
  | some (r, u, loops, ok) =>
    if d.admitted then d.refuse who (ctrlBase + off) 0x05
    else if !ok then d.emit .err
    else
      let w := r.flds.foldl (fun a f => setBits a f.lo f.w (bitsOf v f.lo f.w)) (d.reg r u)
      let d := d.setReg r w u
      { d with clk := { d.clk with relock := (loops.filter fun n => !d.clk.coast.has n).foldl NSet.add d.clk.relock } }.emit .ok

/-- LOOP_SETTING_WRITE: `off` is the register's offset in the control window. -/
def execLoopSettingWrite (who : Who) (off : Nat) (v : Word) (s : State) : Host.Outcome State Fault Refusal :=
  runReg (loopSetting off 0).isSome who (fun _ => off) (fun d => d.loopWrite who off (wnat v)) s

/-- A write of CLK_SSC (R329, R47). -/
def Dev.spreadWrite (d : Dev) (who : Who) (die v : Nat) : Dev :=
  if d.admitted then d.refuse who (ctrlBase + CLK_SSC.addr die 0) 0x05
  else if 16 < bitsOf v 0 5 || 16 < bitsOf v 16 5 then d.emit .err
  else (d.setReg CLK_SSC (CLK_SSC.flds.foldl (fun a f => setBits a f.lo f.w (bitsOf v f.lo f.w)) (d.reg CLK_SSC die)) die).emit .ok

/-- SPREAD_WRITE. -/
def execSpreadWrite (who : Who) (die : Nat) (v : Word) (s : State) : Host.Outcome State Fault Refusal :=
  runReg (decide (die < 10)) who (fun _ => CLK_SSC.addr die 0) (fun d => d.spreadWrite who die (wnat v)) s

/-- PCIE_LOSS (R323). -/
def execPcieLoss (s : State) : Host.Outcome State Fault Refusal :=
  runDev true (fun d =>
    let d := { d with clk := { d.clk with pcieRef := false }, pcie := { d.pcie with link := false } }
    if d.live then d.setFld CLK_STATUS CLK_STATUS_PCIE_LOSS 1 else d) s

/-- PCIE_REFCLK_RETURN (R323). -/
def execPcieRefclkReturn (s : State) : Host.Outcome State Fault Refusal :=
  runDev true (fun d => { d with clk := { d.clk with pcieRef := true }, pcie := { d.pcie with link := true } }) s

/-! ### Time base (R286 to R288) -/

/-- Does this device follow a parent whose port is UP? -/
def Dev.follows (d : Dev) : Bool := d.tb.on && !d.bit CLK_TB_CFG CLK_TB_CFG_ROOT && d.portIsUp (d.fld CLK_TB_CFG CLK_TB_CFG_PARENT)

/-- TB_EXCHANGE: the follower sends TB_REQ. -/
def execTbExchange (s : State) : Host.Outcome State Fault Refusal :=
  runLive true (fun d =>
    if d.follows then { d with tb := { d.tb with reqT1 := some d.tb.time } }.emit (.tbReq (d.fld CLK_TB_CFG CLK_TB_CFG_PARENT) d.tb.time)
    else d) s

/-- TB_REQ: the parent replies with its times. -/
def execTbReq (port t1 : Nat) (s : State) : Host.Outcome State Fault Refusal :=
  runLive (isPort port && decide (t1 < 2 ^ 64)) (fun d =>
    if d.portIsUp port && d.tb.on then d.emit (.tbReply port d.tb.time d.tb.time) else d) s

/-- The rate in force, two's complement. -/
def Dev.rate (d : Dev) : Int := sgn (d.fld CLK_TB_RATE CLK_TB_RATE_PPB) 32

/-- A new rate within ±100,000 ppb, which the control law leaves free (log entry 1). While a sheaf is admitted, or is being checked to be, a rate
more than 10,000 ppb from its value at SUBMIT is not taken and sets DRIFT (R287, log entry 94). -/
def Dev.newRate (d : Dev) : Dev :=
  let r : Int := (freeIn (Config.freeNat d.free 0) 0 200000 : Int) - 100000
  let d := d.fresh
  if (d.admitted || d.checking) && decide (10000 < (r - d.tb.rateSub).natAbs) then d.setFld CLK_TB_STATUS CLK_TB_STATUS_DRIFT 1
  else d.setFld CLK_TB_RATE CLK_TB_RATE_PPB ((r + 2 ^ 32).toNat)

/-- Step the time base by a signed number of ticks. -/
def Dev.stepTime (d : Dev) (n : Int) : Dev := { d with tb := { d.tb with time := (((d.tb.time : Int) + n) % 2 ^ 64).toNat } }

/-- The follower takes its parent's reply (R286, R287): offset, delay, lock, depth, rate. -/
def Dev.tbReply (d : Dev) (t2 t3 depth : Nat) : Dev :=
  match d.tb.reqT1 with
  | none => d
  | some t1 =>
    if !d.follows then d
    else
      let up : Int := (t2 : Int) - (t1 : Int)
      let down : Int := (d.tb.time : Int) - (t3 : Int)
      let off : Int := (up - down) / 2
      let delay : Int := (up + down) / 2
      let good := if off.natAbs ≤ 16 then d.tb.good + 1 else 0
      let p := d.fld CLK_TB_CFG CLK_TB_CFG_PARENT
      let d := d.setFld CLK_TB_OFFSET CLK_TB_OFFSET_OFFSET_NS ((off % 2 ^ 32).toNat)
      let d := d.setFld HDL_RTT HDL_RTT_DELAY_NS ((delay % 2 ^ 16).toNat) p
      let d := (d.setFld CLK_TB_STATUS CLK_TB_STATUS_LOCKED (b2n (decide (8 ≤ good)))).setFld CLK_TB_STATUS CLK_TB_STATUS_DEPTH (depth + 1)
      let d := { d with tb := { d.tb with reqT1 := none, good := good } }
      if !d.admitted && decide (1000 < off.natAbs) then d.stepTime off else d.newRate

/-- TB_REPLY: the parent's times and its DEPTH. -/
def execTbReply (t2 t3 depth : Nat) (s : State) : Host.Outcome State Fault Refusal :=
  runLive (decide (t2 < 2 ^ 64) && decide (t3 < 2 ^ 64) && decide (depth < 256)) (·.tbReply t2 t3 depth) s

/-- Is this the root that disciplines itself to PPS_IN? -/
def Dev.disciplined (d : Dev) : Bool := d.bit CLK_TB_CFG CLK_TB_CFG_ROOT && d.bit CLK_TB_CFG CLK_TB_CFG_DISCIPLINE

/-- Ticks from the time base to the nearest multiple of 10^9. -/
def toSecond (t : Nat) : Int := if t % 1000000000 < 500000000 then -((t % 1000000000 : Nat) : Int) else ((1000000000 - t % 1000000000 : Nat) : Int)

/-- A rising edge of PPS_IN (R288). -/
def Dev.ppsIn (d : Dev) : Dev :=
  let d := d.setReg CLK_TB_PPS d.tb.time
  if !d.disciplined then d
  else
    let d := d.setFld CLK_TB_STATUS CLK_TB_STATUS_PPS_LOST 0
    match d.tb.pps with
    | none => { d with tb := { d.tb with pps := some d.tb.time } }
    | some t =>
      if 1000000 < ((d.tb.time : Int) - (t : Int) - 1000000000).natAbs then
        { d.stick CLK_TB_PPS_BAD CLK_TB_PPS_BAD_COUNT 1 with tb := { d.tb with pps := some d.tb.time } }
      else
        let d := d.newRate
        let d := if d.admitted then d else d.stepTime (toSecond d.tb.time)
        { d with tb := { d.tb with pps := some d.tb.time } }

/-- PPS_IN. -/
def execPpsIn (s : State) : Host.Outcome State Fault Refusal := runLive true (fun d => if d.tb.on then d.ppsIn else d) s

/-- PPS_LOST: the root has had no edge for 2 s. -/
def execPpsLost (s : State) : Host.Outcome State Fault Refusal :=
  runLive true (fun d =>
    if d.disciplined then { d.setFld CLK_TB_STATUS CLK_TB_STATUS_PPS_LOST 1 with tb := { d.tb with pps := none } } else d) s

end Sys2Proof.Machine
end

