-- ==== Sys2Proof/Machine/ResetOps.lean ====
section
/-! DEFINITION. Meanings of the reset commands, of the PCIe function's reset and power states, and of the governor's microsecond, at which a reset
ends (R303, R360, R371 to R376, R384, R405). -/
namespace Sys2Proof.Machine
open Sys2Proof

/-- One microsecond of the governor: the rails are sampled; at 110 °C on a compute die or a stack the trip comes before all else (R311); else it
regulates, and a power transition goes on. -/
def Dev.governorTick (d : Dev) (rails : List (Nat × Nat)) (temps : List Nat) : Dev :=
  let d := d.sampleRails rails temps
  match (List.range 30).find? fun i => decide (110 ≤ (temps[i]?).getD 0) with
  | some i => d.trip i ((temps[i]?).getD 0)
  | none => (d.countInserted.regulate temps).powerStep.epochDue.softEnd

/-- GOVERNOR_TICK: the rails' draw in W with their voltage in mV, and the temperatures of the dies and stacks. -/
def execGovernorTick (rails : List (Nat × Nat)) (temps : List Nat) (s : State) : Host.Outcome State Fault Refusal :=
  runLive true (·.governorTick rails temps) s

/-- RST_CTRL.CORE; a die above 9 or a core above 13 is an error (R378), as is a reset no deeper than the one running (R376). -/
def Dev.ctrlCore (d : Dev) (die phys : Nat) : Dev :=
  if d.runsReset 1 || 10 ≤ die || 14 ≤ phys then d.emit .err else (d.coreReset (14 * die + phys)).emit .ok

/-- CORE. -/
def execResetCore (who : Who) (die phys : Nat) (s : State) : Host.Outcome State Fault Refusal :=
  runWho (decide (die < 16) && decide (phys < 16)) who (·.ctrlCore die phys) s

/-- RST_CTRL.JOB. -/
def Dev.ctrlJob (d : Dev) : Dev := if d.runsReset 2 then d.emit .err else (d.hostResetFault.jobReset).emit .ok

/-- JOB. -/
def execResetJob (who : Who) (s : State) : Host.Outcome State Fault Refusal := runWho true who Dev.ctrlJob s

/-- RST_CTRL.DEV. -/
def Dev.ctrlDev (d : Dev) : Dev := if d.resetting then d.emit .err else d.devReset.emit .ok

/-- DEV. -/
def execResetDev (who : Who) (s : State) : Host.Outcome State Fault Refusal := runWho true who Dev.ctrlDev s

/-- AUTO_JOB (Table 18.4 step 5): after the responses to every command sent, or 1 ms after the abort. -/
def Dev.autoJob (d : Dev) : Dev :=
  let open_ := d.xacts.any fun x => match x.kind with | .echo _ | .stale => false | _ => true
  if d.job.aborting && d.bit RST_CFG RST_CFG_AUTO_JOB && !d.runsReset 2 && (!open_ || decide (d.job.abortAt + 1000000 ≤ d.tb.time)) then d.jobReset
  else d

/-- AUTO_JOB. -/
def execAutoJob (s : State) : Host.Outcome State Fault Refusal := runLive true (·.autoJob) s

/-- Does a low pulse of `lowNs` reset the board level: from 10 µs on; below 1 µs never; between them, which the board must not drive, a free choice
(R371, Table 20.8; log entry 1)? -/
def Dev.brdTakes (d : Dev) (lowNs : Nat) : Bool :=
  if lowNs < 1000 then false else if 10000 ≤ lowNs then true else Config.freeBool d.free 0

/-- BRD: PERST_N, or RESET_N, was low for `lowNs`. While power-on reset is asserted nothing else resets. -/
def Dev.brd (d : Dev) (lowNs : Nat) : Dev :=
  if d.halt = .por then d
  else if d.brdTakes lowNs then d.fresh.coldStart 4
  else d.fresh

/-- BRD. -/
def execResetBrd (lowNs : Nat) (s : State) : Host.Outcome State Fault Refusal := runDev true (·.brd lowNs) s

/-- POR: a package rail is not good, which asserts it at once, or every rail is good again, which releases it (R405). -/
def Dev.por (d : Dev) (good : Bool) : Dev :=
  if good then (if d.halt = .por then d.coldStart 5 else d)
  else { d with halt := .por, pins := { d.pins with thermtrip := false }, pcie := { d.pcie with link := false } }

/-- POR. -/
def execResetPor (good : Bool) (s : State) : Host.Outcome State Fault Refusal := runDev true (·.por good) s

/-- The PCIe function's own state as reset leaves it. -/
def Dev.functionReset (d : Dev) : Dev := { d with pcie := { Dev.reset.pcie with link := d.pcie.link } }

/-- Does the function answer configuration requests: the device runs and has booted, and the link is up? -/
def Dev.function (d : Dev) : Bool := d.live && d.bit HUB_BOOT HUB_BOOT_READY && d.pcie.link

/-- FLR (R384). -/
def execFlr (s : State) : Host.Outcome State Fault Refusal :=
  runDev true (fun d => if d.function then (if d.resetting then d.functionReset else d.functionReset.devReset) else d) s

/-- D3HOT_ENTRY: refused while a sheaf is admitted; else the device sleeps (R384). -/
def execD3hotEntry (s : State) : Host.Outcome State Fault Refusal :=
  runDev true (fun d =>
    if !d.function || d.pcie.d3 then d
    else if d.admitted then d.emit .err
    else ({ d with pcie := { d.pcie with d3 := true } }).powerReq 1) s

/-- D0_RETURN. -/
def execD0Return (s : State) : Host.Outcome State Fault Refusal :=
  runDev true (fun d => if d.function && d.pcie.d3 then ({ d with pcie := { d.pcie with d3 := false } }).powerReq 0 else d) s

end Sys2Proof.Machine
end

