-- ==== Sys2Proof/Machine/BootOps.lean ====
section
/-! DEFINITION. Recovery (R389), the management endpoint (R391) and the SPDM responder (R390). -/
namespace Sys2Proof.Machine
open Sys2Proof

/-! ### Recovery -/

/-- HUB_BOOT.RETRY: the slots are verified again; `img` is the slot image that the recovery window holds, which slot A takes. In recovery a
valid slot lets the boot go on once the loops are locked and no stack trains. -/
def Dev.retry (d : Dev) (img : Option FwSlot) : Dev :=
  if !d.bit HUB_BOOT HUB_BOOT_RECOVERY then d.emit .ok
  else
    let d := match img with
      | some x => { d with boot := { d.boot with slots := x :: d.boot.slots.drop 1 } }
      | none => d
    let d := d.verifySlots
    (if d.boot.booting && d.clk.settled then d.clocked else d).emit .ok

/-- Does the function answer with BAR0 while the device is in recovery (R389)? -/
def Dev.inRecovery (d : Dev) (who : Who) : Bool := d.live && d.bit HUB_BOOT HUB_BOOT_RECOVERY && who == .host && d.pcie.link

/-- RETRY. -/
def execRetry (who : Who) (img : Option FwSlot) (s : State) : Host.Outcome State Fault Refusal :=
  runDev true (fun d => if d.reach who || d.inRecovery who then d.retry img else d.unreached who) s

/-! ### Management endpoint -/

/-- Does hub firmware run: the device runs and has booted? -/
def Dev.firmware (d : Dev) : Bool := d.live && d.boot.booted.isSome

/-- A message to the management endpoint, unanswered while no firmware runs. -/
def runMgmt (f : Dev → Dev) (s : State) : Host.Outcome State Fault Refusal := runDev true (fun d => if d.firmware then f d else d) s

/-- An MCTP message comes over the peripheral bus (R391). -/
def runMctp (f : Dev → Dev) (s : State) : Host.Outcome State Fault Refusal := runMgmt (fun d => d.bus f) s

/-- MCTP control: command code 1 sets the endpoint identifier, 2 returns it, 5 lists the message types; others answer code 5, unsupported
(PRESUMED of DSP0236; log entry 53). -/
def Dev.mctpControl (d : Dev) (cmd arg : Nat) : Dev :=
  if cmd = 1 then { d with mgmt := { d.mgmt with eid := arg % 256 } }.emit (.mctp (leBytes 1 0 ++ leBytes 1 arg))
  else if cmd = 2 then d.emit (.mctp (leBytes 1 0 ++ leBytes 1 d.mgmt.eid))
  else if cmd = 5 then d.emit (.mctp (leBytes 1 0 ++ leBytes 1 3 ++ leBytes 1 0 ++ leBytes 1 1 ++ leBytes 1 5))
  else d.emit (.mctp (leBytes 1 5))

/-- MCTP_CONTROL. -/
def execMctpControl (cmd arg : Nat) (s : State) : Host.Outcome State Fault Refusal := runMctp (·.mctpControl cmd arg) s

/-- Is a logical core unmapped (RST_STATUS.DEGRADED)? -/
def Dev.degraded (d : Dev) : Bool := (List.range 120).any fun l => (d.physOf l).isNone

/-- The monitored values of R391 by sensor: draw, target, fill, dies 3 to 12, stacks 13 to 32, HUB_GEN, ADM_STATUS, ERR_FAULT.CAUSE, DEGRADED
(numbering of the model; log entry 53). -/
def Dev.sensor (d : Dev) (n : Nat) : Option Nat :=
  if n = 0 then some (d.fld PWR_TEL PWR_TEL_MEASURED_W)
  else if n = 1 then some (d.fld PWR_TEL PWR_TEL_TARGET_W)
  else if n = 2 then some (d.fld PWR_TEL PWR_TEL_FILL_W)
  else if n < 13 then some ((d.gov.dieTemp[n - 3]?).getD 0)
  else if n < 33 then some (d.fld HBM_STATUS HBM_STATUS_TEMP (n - 13))
  else if n = 33 then some (d.reg HUB_GEN)
  else if n = 34 then some (d.reg ADM_STATUS)
  else if n = 35 then some (d.fld ERR_FAULT ERR_FAULT_CAUSE)
  else if n = 36 then some (b2n d.degraded)
  else none

/-- PLDM_MONITORING. -/
def execPldmMonitoring (sensor : Nat) (s : State) : Host.Outcome State Fault Refusal :=
  runMctp (fun d => match d.sensor sensor with
    | some v => d.emit (.mctp (leBytes 1 0 ++ leBytes 8 v))
    | none => d.emit (.mctp (leBytes 1 0x80))) s

/-- PLDM type 5 (R391): the slot that did not boot is written and verified; one that is invalid is reported. -/
def Dev.pldmUpdate (d : Dev) (img : FwSlot) : Dev :=
  let i := if d.boot.booted = some 0 then 1 else 0
  let ok := slotOk d.boot img
  { d with boot := { d.boot with slots := d.boot.slots.set i img, pldm := if ok then 1 else 2 } }.emit
    (.mctp (leBytes 1 (if ok then 0 else 1)))

/-- PLDM_FIRMWARE_UPDATE. -/
def execPldmFirmwareUpdate (img : FwSlot) (s : State) : Host.Outcome State Fault Refusal := runMctp (·.pldmUpdate img) s

/-- PLDM activation (R389): the rollback counter takes the version of the updated slot; the slot boots at the next BRD or POR. With no verified
update it answers an error. -/
def Dev.pldmActivate (d : Dev) : Dev :=
  if d.boot.pldm != 1 then d.emit (.mctp (leBytes 1 1))
  else
    let i := if d.boot.booted = some 0 then 1 else 0
    let v := match d.boot.slots[i]? with | some x => x.ver | none => 0
    { d with boot := { d.boot with rollback := max d.boot.rollback v, pldm := 0 } }.emit (.mctp (leBytes 1 0))

/-- PLDM_ACTIVATION. -/
def execPldmActivation (s : State) : Host.Outcome State Fault Refusal := runMctp Dev.pldmActivate s

/-! ### SPDM (R390): requests in the order of the standard; one out of order is answered with ERROR (PRESUMED of DSP0274; log entry 53) -/

/-- SPDM ERROR. -/
def Dev.spdmError (d : Dev) (code : Nat) : Dev := d.emit (.spdm 0x7F (leBytes 1 code))

/-- A request that needs what `ok` says first. -/
def Dev.spdm (d : Dev) (ok : Bool) (go : Dev → Dev) : Dev := if ok then go d else d.spdmError 4

/-- Is the connection negotiated? -/
def Dev.negotiated (d : Dev) : Bool := d.mgmt.version && d.mgmt.caps && d.mgmt.algs

/-- Bytes of the library memory. -/
def Dev.libBytes (d : Dev) : List Byte := d.boot.lib.flatMap fun r => r.body.flatMap Desc.bytes

/-- Measurements of Table 19.5; index 5 is zero with no sheaf admitted. -/
def Dev.measurement (d : Dev) (n : Nat) : Option (List Byte) :=
  match n with
  | 1 => some (Config.sha384 (Config.fuseBytes 0))
  | 2 => some (Config.sha384 d.boot.bootImage)
  | 3 => some (Config.sha384 d.libBytes)
  | 4 => some (Config.sha384 d.mgmt.meas4)
  | 5 => some (if d.mgmt.meas5.isEmpty then List.replicate 48 0 else d.mgmt.meas5)
  | 6 => some (Config.sha384 d.mgmt.meas6)
  | _ => none

/-- The certificate chain of slot 0. -/
def Dev.chain (d : Dev) : List Byte := Config.certChain (Config.sha384 d.boot.bootImage)

/-- An answer that ends in a signature: 96 free bytes (log entry 1). -/
def Dev.signed (d : Dev) (code : Nat) (body : List Byte) : Dev :=
  (d.emit (.spdm code (body ++ (Config.freeBytes d.free 0).take 96))).fresh

/-- GET_VERSION: the exchange starts anew; version 1.3. -/
def execGetVersion (s : State) : Host.Outcome State Fault Refusal :=
  runMgmt (fun d => { d with mgmt := { d.mgmt with version := true, caps := false, algs := false, keyEx := false, session := false } }.emit
    (.spdm 0x04 (leBytes 1 1 ++ leBytes 2 0x1300))) s

/-- GET_CAPABILITIES. -/
def execGetCapabilities (s : State) : Host.Outcome State Fault Refusal :=
  runMgmt (fun d => d.spdm d.mgmt.version fun d => { d with mgmt := { d.mgmt with caps := true } }.emit (.spdm 0x61 [])) s

/-- NEGOTIATE_ALGORITHMS. -/
def execNegotiateAlgorithms (s : State) : Host.Outcome State Fault Refusal :=
  runMgmt (fun d => d.spdm (d.mgmt.version && d.mgmt.caps) fun d => { d with mgmt := { d.mgmt with algs := true } }.emit (.spdm 0x63 [])) s

/-- GET_DIGESTS: the digest of slot 0's chain. -/
def execGetDigests (s : State) : Host.Outcome State Fault Refusal :=
  runMgmt (fun d => d.spdm d.negotiated fun d => d.emit (.spdm 0x01 (leBytes 1 1 ++ Config.sha384 d.chain))) s

/-- GET_CERTIFICATE: slot 0 alone holds a chain. -/
def execGetCertificate (slot : Nat) (s : State) : Host.Outcome State Fault Refusal :=
  runMgmt (fun d => d.spdm d.negotiated fun d => if slot = 0 then d.emit (.spdm 0x02 d.chain) else d.spdmError 1) s

/-- CHALLENGE. -/
def execChallenge (slot : Nat) (nonce : List Byte) (s : State) : Host.Outcome State Fault Refusal :=
  runMgmt (fun d => d.spdm d.negotiated fun d => if slot = 0 then d.signed 0x03 (Config.sha384 d.chain ++ nonce) else d.spdmError 1) s

/-- GET_MEASUREMENTS: index 0 asks for their number, 255 for all, else for one; signed. -/
def execGetMeasurements (idx : Nat) (nonce : List Byte) (s : State) : Host.Outcome State Fault Refusal :=
  runMgmt (fun d => d.spdm d.negotiated fun d =>
    if idx = 0 then d.signed 0x60 (leBytes 1 6 ++ nonce)
    else if idx = 255 then d.signed 0x60 ((((List.range 6).filterMap fun i => d.measurement (i + 1))).flatten ++ nonce)
    else match d.measurement idx with
      | some m => d.signed 0x60 (m ++ nonce)
      | none => d.spdmError 1) s

/-- KEY_EXCHANGE: a session is prepared; the responder's share is free. -/
def execKeyExchange (share : List Byte) (s : State) : Host.Outcome State Fault Refusal :=
  runMgmt (fun d => d.spdm d.negotiated fun d =>
    { d with mgmt := { d.mgmt with keyEx := true } }.signed 0x64 ((Config.freeBytes d.free 1).take 96 ++ share)) s

/-- FINISH: the session is established where the requester's verify data are good. -/
def execSpdmFinish (good : Bool) (s : State) : Host.Outcome State Fault Refusal :=
  runMgmt (fun d => d.spdm d.mgmt.keyEx fun d =>
    if good then { d with mgmt := { d.mgmt with keyEx := false, session := true } }.emit (.spdm 0x65 [])
    else { d with mgmt := { d.mgmt with keyEx := false } }.spdmError 6) s

/-- END_SESSION. -/
def execEndSession (s : State) : Host.Outcome State Fault Refusal :=
  runMgmt (fun d => d.spdm d.mgmt.session fun d => { d with mgmt := { d.mgmt with session := false } }.emit (.spdm 0x6C [])) s

end Sys2Proof.Machine
end

