-- ==== Sys2Proof/Machine/HarrowOps.lean ====
section
/-! DEFINITION. Harrow commands: UPD (R97, R206, R215 to R220), SEAL (R98, R210), the header time-out (R209), the sending of a device
token (R211), FORCE_COMMIT (R221) and the arming of a snapshot (R222). -/
namespace Sys2Proof.Machine
open Sys2Proof

/-! ### UPD -/

/-- Statistics of FACT: row and column counts, and the place of stack `s`'s partial sums (R217). -/
def GRec.rows (g : GRec) : Nat := g.nrec / g.rowBlks
def GRec.cols (g : GRec) : Nat := 32 * g.rowBlks
def factSums (g : GRec) (s : Nat) : Nat :=
  g.statBase + 4 * (g.nrec / g.rowBlks + 32 * g.rowBlks + 1 + s * (g.nrec / g.rowBlks + 32 * g.rowBlks))

/-- The statistics that element `e` of record `r` uses. -/
def Dev.factAt (d : Dev) (g : GRec) (r e : Nat) : FactSt :=
  let rows := g.nrec / g.rowBlks
  let cols := 32 * g.rowBlks
  let w (i : Nat) : Ex := ofF32 (d.readN (g.statBase + 4 * i) 4)
  ⟨w (r / g.rowBlks), w (rows + 32 * (r % g.rowBlks) + e), w (rows + cols)⟩

/-- What an application of a verdict works on: the operation, its record, the step's slot, divisor and loss scale, whether it
commits, whether pre-images are written, and the generation they hold. -/
structure Applying where
  u : Upd
  p : GRec
  s : Nat
  slot : Nat
  dv : Nat
  ls : Int
  commit : Bool
  snap : Bool
  gen : Nat

/-- APPLIED of a record (Table 10.1). -/
def Dev.appliedOf (d : Dev) (g : GRec) (r : Nat) : Nat := d.readN (g.base + 512 * r + 0x1F4) 4

/-- Does FREEZE or FROZEN hold the record (R219)? -/
def Dev.frozenRec (d : Dev) (a : Applying) (r : Nat) : Bool := a.u.frozen || bitOf (d.readN (a.p.base + 512 * r + 0x1F3) 1) 0

/-- Is record `r` written by this update? -/
def Dev.writesRec (d : Dev) (a : Applying) (r : Nat) : Bool := a.commit && d.appliedOf a.p r == a.p.stepc && !d.frozenRec a r

/-- The compute copy of a record (R205). -/
def Dev.writeCopy (d : Dev) (a : Applying) (r : Nat) (o : RecOut) : Dev :=
  match a.u.cfmt with
  | none => d
  | some .bf16 => d.write (a.p.copyBase + 64 * r) o.copy
  | some _ => (d.write (a.p.copyBase + 32 * r) o.copy).write (a.p.copyBase + 32 * a.p.nrec + r) [BitVec.ofNat 8 o.copyScale]

/-- One visited record (R215, R216, R218, R219, R222): the pre-image, the update, the counter, and the zeroed slot. -/
def Dev.visit (d : Dev) (a : Applying) (r : Nat) : Dev :=
  let base := a.p.base + 512 * r
  let b := d.read base 512
  let zero (b : List Byte) : List Byte := putBytes b (128 * a.slot) (List.replicate 128 0)
  if !a.commit then d.write base (zero b)
  else
    let ap := d.appliedOf a.p r
    let d := if a.snap then d.write (a.p.snapBase + 256 + 256 * r) ((b.drop 0x100).take 256) else d
    if ap != a.p.stepc then d.write base (zero b)
    else
      let done (b : List Byte) : List Byte := putBytes b 0x1F4 (leBytes 4 (a.p.stepc + 1))
      if d.frozenRec a r then d.write base (zero (done b))
      else
        let o := updRecord a.u a.p a.p.stepc d.seed a.slot a.dv a.ls (d.factAt a.p r) r b
        ((d.write base (zero (done o.bytes))).writeCopy a r o).hrwCount a.s 0 o.sat o.nf false

/-- g·g of the elements of a record with their rows and columns (R217). -/
def Dev.ggOf (d : Dev) (a : Applying) (r : Nat) : List (Nat × Nat × Ex) :=
  let b := d.read (a.p.base + 512 * r) 512
  (List.range 32).map fun e =>
    let g := gradOf (leNat ((b.drop (128 * a.slot + 4 * e)).take 4)) a.dv a.ls
    (r / a.p.rowBlks, 32 * (r % a.p.rowBlks) + e, Ex.mul g.x g.x)

/-- The partial sums PR and PC of the stack, in an order left open (R217, log entry 1). -/
def Dev.writeFact (d : Dev) (a : Applying) (gg : List (Nat × Nat × Ex)) : Dev :=
  let rows := a.p.nrec / a.p.rowBlks
  let put (d : Dev) (at_ idx : Nat) (xs : List Ex) : Dev :=
    let c := sumCode d.free idx (xs.length + 1) xs.length false xs (xs.foldl Sum.add Sum.zero)
    (d.write at_ (leBytes 4 c.1)).hrwCount a.s 0 (b2n c.2) (b2n !(ofF32 c.1).isFin) false
  let d := (List.range rows).foldl (fun d i =>
    put d (factSums a.p a.s + 4 * i) i ((gg.filter fun x => x.1 == i).map fun x => x.2.2)) d
  ((List.range (32 * a.p.rowBlks)).foldl (fun d j =>
    put d (factSums a.p a.s + 4 * (rows + j)) (rows + j) ((gg.filter fun x => x.2.1 == j).map fun x => x.2.2)) d).fresh

/-- The snapshot's copy of the group record (R222): this stack's COUNT and STEP, and from the stack of record 0 the rest. -/
def Dev.snapRecord (d : Dev) (a : Applying) (record : Nat) : Dev :=
  if !a.snap then d
  else
    let d := (d.write (a.p.snapBase + 0x50 + 4 * a.s) (leBytes 4 a.p.count)).write (a.p.snapBase + 0xA0 + 4 * a.s) (leBytes 4 a.p.stepc)
    if stackOf a.p.base = a.s then
      (d.write a.p.snapBase (d.read record 0x50)).write (a.p.snapBase + 0xF0)
        (leBytes 4 a.gen ++ leBytes 1 (d.fld HUB_LS_COMMIT HUB_LS_COMMIT_EXP) ++ leBytes 3 0 ++
          leBytes 4 (d.fld HUB_LS_COMMIT HUB_LS_COMMIT_CLEAN) ++ leBytes 4 0)
    else d

/-- First place outside the sheaf's reservations that the application would touch (R250). -/
def Dev.applyBad (d : Dev) (a : Applying) (rs : List Nat) : Option Nat :=
  let bad (x n : Nat) : Option Nat := if d.reserved x n then none else some x
  let ws := rs.filter (d.writesRec a)
  let copy := ws.findSome? fun r =>
    match a.u.cfmt with
    | none => none
    | some .bf16 => bad (a.p.copyBase + 64 * r) 64
    | some _ => (bad (a.p.copyBase + 32 * r) 32).or (bad (a.p.copyBase + 32 * a.p.nrec + r) 1)
  let fact := if a.commit && a.u.rule == 3 then
      let n := a.p.nrec / a.p.rowBlks + 32 * a.p.rowBlks
      bad a.p.statBase (4 * (n + 1 + 20 * n))
    else none
  let snap := if a.commit && a.snap then bad a.p.snapBase (256 + 256 * a.p.nrec) else none
  (copy.or fact).or snap

/-- Ranges that an application reads beside its records, or writes in part words: the statistics, the copy's scale bytes, the snapshot's group
record (R217, R205, R222). -/
def Dev.applyReads (d : Dev) (a : Applying) (rs : List Nat) : List (Nat × Nat) :=
  let n := a.p.nrec / a.p.rowBlks + 32 * a.p.rowBlks
  if !a.commit then []
  else
    (if a.u.rule == 3 then [(a.p.statBase, 4 * (n + 1 + 20 * n))] else []) ++
      (match a.u.cfmt with
       | none => []
       | some .bf16 => []
       | some _ => (rs.filter (d.writesRec a)).map fun r => (a.p.copyBase + 32 * a.p.nrec + r, 1)) ++
      (if a.snap then [(a.p.snapBase, 256)] else [])

/-- A verdict is applied to the records of the stack (R215). The furrow stops where a record's counter is wrong or its bytes may not
be used; which of the other records are done by then is left open (log entry 1). -/
def Dev.applyUpd (d : Dev) (f : Nat) (a : Applying) : Dev :=
  let rs := recordsIn a.p a.s
  let reads := d.applyReads a rs
  match (rs.findSome? fun r => d.ueIn (a.p.base + 512 * r) 512).or (reads.findSome? fun q => d.ueIn q.1 q.2) with
  | some w => d.hbmUE f w
  | none =>
    match d.applyBad a rs with
    | some x => d.accessFail f x
    | none =>
      let d := (d.each rs fun d r => d.corrects (a.p.base + 512 * r) 512).each reads fun d q => d.corrects q.1 q.2
      let bad := if a.commit then rs.filter fun r => d.appliedOf a.p r != a.p.stepc && d.appliedOf a.p r != a.p.stepc + 1 else []
      if bad.isEmpty then
        let gg := if a.commit && a.u.rule == 3 then ((rs.filter (d.writesRec a)).map fun r => d.ggOf a r).flatten else []
        let d := d.each rs fun d r => d.visit a r
        let d := if a.commit && a.u.rule == 3 then d.writeFact a gg else d
        let d := if a.commit then d.snapRecord a a.u.record else d
        let d := if a.commit then d.write (a.u.record + 0xA0 + 4 * a.s) (leBytes 4 (a.p.stepc + 1)) else d
        let h := d.hrw a.s
        d.setHrw a.s { h with
          verds := SMap.put HVerd.none h.verds a.u.group { SMap.get HVerd.none h.verds a.u.group with applied := true }
          own := SMap.put none h.own (2 * a.u.group + a.slot) none }
      else
        let x := (bad[Config.freeNat d.free 0 % bad.length]?).getD 0
        let d' := d.each (rs.filter fun r => !bad.contains r && Config.freeBool d.free r) fun d r => d.visit a r
        d'.fresh.failOp f feRefused (a.p.base + 512 * x) (some 0x33)

/-- Are pre-images written: was ENABLE set at SUBMIT (R222)? -/
def Dev.snapOn (d : Dev) (p : GRec) : Bool := d.snap && p.snapBase != 0

/-- The roll-forward of a COMMIT verdict that has not been fully applied (R220). -/
def Dev.rollForward (d : Dev) (f : Nat) (u : Upd) (p : GRec) (s : Nat) : Dev :=
  let v := SMap.get HVerd.none (d.hrw s).verds u.group
  if v.state == vCommit && !v.applied then
    d.applyUpd f ⟨u, p, s, v.step % 2, v.d, v.ls, true, d.snapOn p, (d.gen0 + 2 ^ 32 - 1) % 2 ^ 32⟩
  else d

/-- Registration of a group with the harrow unit (R206): none where a limit or another group's array stands against it. -/
def Dev.register (d : Dev) (s : Nat) (u : Upd) (p : GRec) : Option Dev :=
  let h := d.hrw s
  let others := h.groups.filter fun q => q.1 != u.group
  let pairs := (others.map fun q => q.2.contribs.length).foldl (· + ·) 0
  if decide (4096 ≤ others.length) || decide (65536 < pairs + p.contribs) ||
      others.any fun q => decide (p.base < q.2.base + 512 * q.2.nrec) && decide (q.2.base < p.base + 512 * p.nrec) then none
  else
    let cs := (List.range p.contribs).map fun i => d.readN (p.contribBase + 2 * i) 2
    some (d.setHrw s { h with
      groups := SMap.insert u.group ⟨u.record, p.base, p.nrec, p.count, cs, p.window, p.drain⟩ h.groups
      hdrs := h.hdrs.filter fun x => x.g != u.group })

/-- Both slots of every record are zeroed (R220). -/
def Dev.zeroSlots (d : Dev) (s : Nat) (u : Upd) (p : GRec) : Dev :=
  let d := d.each (recordsIn p s) fun d r => d.write (p.base + 512 * r) (List.replicate 256 0)
  let h := d.hrw s
  d.setHrw s { h with own := SMap.put none (SMap.put none h.own (2 * u.group) none) (2 * u.group + 1) none }

/-- UPD, by phase: a step body applies its SEAL's verdict, a prologue registers, rolls forward and zeroes, an epilogue rolls
forward (R215, R220). -/
def Dev.updPhase (d : Dev) (f : Nat) (i : FItem) (g : FrwImg) (u : Upd) (p : GRec) : Dev :=
  let s := furrowUnit f
  match g.phaseOf i with
  | 0 =>
    if !d.reserved p.contribBase (2 * p.contribs) then d.accessFail f p.contribBase
    else if let some w := d.ueIn p.contribBase (2 * p.contribs) then d.hbmUE f w
    else
      match (d.corrects p.contribBase (2 * p.contribs)).register s u p with
      | none => d.failOp f feRefused u.record (some 0x33)
      | some d =>
        let d := d.rollForward f u p s
        if d.frwErr f != 0 then d else (d.zeroSlots s u p).opDone f
  | 1 =>
    let v := SMap.get HVerd.none (d.hrw s).verds u.group
    let commit := v.step == i.step && v.state == vCommit
    let d := d.applyUpd f ⟨u, p, s, i.step % 2, v.d, v.ls, commit, d.snapOn p, d.jOf i.step⟩
    if d.frwErr f != 0 then d else d.opDone f
  | _ =>
    let d := d.rollForward f u p s
    if d.frwErr f != 0 then d else d.opDone f

/-- UPD's checks of its group record (R100, R206). -/
def Dev.upd (d : Dev) (f : Nat) (i : FItem) (x : Upset) : Dev :=
  let u := Upd.of i.d
  if !d.reserved u.record 256 then d.accessFail f u.record
  else
    let q := d.upset f x u.record
    if !q.2 then q.1
    else
      let d := q.1
      match d.ueIn u.record 256, d.frwImg f with
      | some w, _ => d.hbmUE f w
      | none, some g =>
        let d := d.corrects u.record 256
        let p := GRec.of (d.read u.record 256) (furrowUnit f)
        if p.stepc = 0xFFFFFFFF then d.failOp f feRefused u.record (some 0x31)
        else if u.nblk != p.count then d.failOp f feRefused u.record (some 0x32)
        else if !p.ok u then d.failOp f feRefused u.record (some 0x33)
        else if !d.reserved p.base (512 * p.nrec) then d.accessFail f p.base
        else d.updPhase f i g u p
      | none, none => d

/-- UPD. -/
def execUpd (f : Nat) (u : Upset) (s : State) : Host.Outcome State Fault Refusal :=
  runLive (decide (500 ≤ f ∧ f < 520)) (fun d => d.perform f opUpd fun i d => d.upd f i u) s

/-! ### SEAL -/

/-- The header of a group and step, closed where every contributor's bit is set. -/
def Dev.sealHdr (d : Dev) (s g k : Nat) : Option (HGroup × HHdr) :=
  match SMap.find (d.hrw s).groups g with
  | some gp =>
    let x := (d.hrw s).hdr g k
    some (gp, if !x.closed && allBits gp x then closeHdr gp x else x)
  | none => none

/-- A SEAL's comparison and deposit, once its header is closed (R210 steps 1 to 3). -/
def Dev.sealDeposit (d : Dev) (f : Nat) (i : FItem) (s g : Nat) (gp : HGroup) (x : HHdr) : Dev :=
  let k := i.step
  let want := bitsOf i.d.w0.toNat 0 32
  let at_ := gp.record + 0xA0 + 4 * s
  let peers := bitsOf i.d.w1.toNat 0 48
  let n := bitsOf i.d.w2.toNat 0 16
  if !d.reserved peers (2 * n) then d.accessFail f peers
  else
    match (d.ueIn peers (2 * n)).or (d.ueIn at_ 4) with
    | some w => d.hbmUE f w
    | none =>
      let d := (d.corrects peers (2 * n)).corrects at_ 4
      let bad := want != 0xFFFFFFFF && d.readN at_ 4 != (want + d.jOf k) % 2 ^ 32
      let d := if bad then d.elogHrw s at_ 0x55 i.otag k else d
      let x := { x with faults := x.faults + (if bad then 4 else 0), deposited := true }
      let h := (d.hrw s).setHdr x
      let d := d.setHrw s { h with verds := SMap.put HVerd.none h.verds g ⟨k, vUnknown, false, HHdr.dOf gp x, 0⟩ }
      d.deposit k x.ovf x.nf (x.faults != 0) (bitOf i.d.w0.toNat 48) ((List.range n).map fun j => d.readN (peers + 2 * j) 2)

/-- SEAL (R210): it waits for the header, deposits it, waits for the verdict, and completes on COMMIT or DISCARD. In the prologue or
epilogue no header or verdict is awaited (log entry 34). -/
def Dev.sealOp (d : Dev) (f : Nat) (i : FItem) : Dev :=
  let s := furrowUnit f
  let g := bitsOf i.d.w0.toNat 32 12
  if i.step = noStep then d.opDone f
  else
    match d.sealHdr s g i.step with
    | none => d
    | some (gp, x) =>
      if !x.closed then d
      else
        let d := if x.deposited then d else d.sealDeposit f i s g gp x
        let v := (d.seal i.step).verdict
        if d.frwErr f != 0 then d
        else if v = vCommit || v = vDiscard then d.opDone f
        else d

/-- A SEAL under way, with what its words meet on the way (R352, R353, R299). -/
def Dev.sealWith (d : Dev) (f : Nat) (i : FItem) (u : Upset) : Dev :=
  let q := d.upset f u (bitsOf i.d.w1.toNat 0 48)
  if q.2 then q.1.sealOp f i else q.1

/-- SEAL. -/
def execSeal (f : Nat) (u : Upset) (s : State) : Host.Outcome State Fault Refusal :=
  runLive (decide (500 ≤ f ∧ f < 520)) (fun d => d.perform f opSeal fun i d => d.sealWith f i u) s

/-! ### Events and registers of the seal -/

/-- HEADER_CLOSE_TIMEOUT (R209). -/
def execHeaderCloseTimeout (st g k : Nat) (s : State) : Host.Outcome State Fault Refusal :=
  runLive (decide (st < 20 ∧ g < 4096)) (·.closeTimeout st g k) s

/-- SEAL_TOKEN_SEND (R211). -/
def execSealTokenSend (k : Nat) (s : State) : Host.Outcome State Fault Refusal := runLive true (·.sendSeal k) s

/-- FORCE_COMMIT (R221). -/
def execForceCommit (who : Who) (s : State) : Host.Outcome State Fault Refusal := runWho true who (·.forceCommit) s

/-- SNAP_ARM (R222, R224): a write of HUB_SNAP. STEP arms a capture; ENABLE takes the written value only while no sheaf is
admitted, and such a write is refused whole where it would change it. -/
def Dev.snapArm (d : Dev) (who : Who) (v : Word) : Dev :=
  let w := v.toNat
  if d.admitted && (bitOf w 0) != d.bit HUB_SNAP HUB_SNAP_ENABLE then d.refuse who (ctrlBase + 0x2018) 0x05
  else
    ((d.setFld HUB_SNAP HUB_SNAP_ENABLE (b2n (bitOf w 0))).setFld HUB_SNAP HUB_SNAP_STEP (bitsOf w 32 32)).setFld
      HUB_SNAP HUB_SNAP_DONE 0 |>.emit .ok

/-- SNAP_ARM. -/
def execSnapArm (who : Who) (v : Word) (s : State) : Host.Outcome State Fault Refusal := runWho true who (·.snapArm who v) s

end Sys2Proof.Machine
end

