-- ==== Sys2Proof/Machine/TeamOps.lean ====
section
/-! DEFINITION. LAUNCH and residency (R99, R225, R226), the budget (R49), the no-progress watchdog (R239) and the actions on parked
teams (R244). -/
namespace Sys2Proof.Machine
open Sys2Proof

/-- LAUNCH (R99, R225): the arguments are read and the launch begins; its L1 is dropped. -/
def Dev.launch (d : Dev) (f : Nat) (i : FItem) (u : Upset) : Dev :=
  match d.physOf (furrowUnit f) with
  | none => d
  | some c =>
    let t := d.core c
    if t.active then d
    else
      let w1 := i.d.w1.toNat
      let args := bitsOf i.d.w3.toNat 0 48
      match d.agentAddr args with
      | none => d.accessFail f args
      | some a =>
        if !d.sheafMem a 256 then d.accessFail f args
        else
          let q := d.upset f (if a < hbmSize then u else u.onChip) a
          if !q.2 then q.1
          else
            let d := q.1
            match if a < hbmSize then d.ueIn a 256 else none with
            | some w => d.hbmUE f w
            | none =>
              let b := d.read a 256
              let d := (d.corrects a 256).dropL1 c
              d.setCore c ⟨true, f, i.otag, i.step, bitsOf i.d.w0.toNat 0 48, bitsOf w1 0 16, bitsOf w1 16 6, bitsOf i.d.w2.toNat 0 32,
                b, 0, 0, false, [], t.last, t.busy⟩

/-- LAUNCH. -/
def execLaunch (f : Nat) (u : Upset) (s : State) : Host.Outcome State Fault Refusal :=
  runLive (decide (120 ≤ f ∧ f < 240)) (fun d => d.perform f opLaunch fun i d => d.launch f i u) s

/-- Teams that a launch keeps resident (R226). -/
def residentMax (regs : Nat) : Nat := min 64 (65536 / (32 * (8 * regs)))

/-- The lowest free slot (log entry 19). -/
def freeSlot (t : Tme) : Option Nat := (List.range 64).find? fun j => (SMap.find t.slots j).isNone

/-- A team as it becomes resident (R225): every lane active at PROGRAM, v registers and predicates zero, u registers from ARGS. -/
def freshSlot (t : Tme) (team now : Nat) : Slot :=
  let u : SMap Nat := (List.range 64).foldl (fun (m : SMap Nat) i => SMap.put 0 m i (leNat ((t.args.drop (4 * i)).take 4))) []
  ⟨team, List.replicate 32 (pcMask t.program), 0, [], [], u, List.replicate 7 0, none, false, none, false, none, some now, 0⟩

/-- TEAM_RESIDENT (R225): the next team becomes resident when a slot and its registers are free. -/
def Dev.resident (d : Dev) (c : Nat) : Dev :=
  let t := d.core c
  match freeSlot t with
  | some j =>
    if t.active && decide (t.started < t.teams) && decide (t.slots.length < residentMax t.regs) then
      d.setCore c { t with slots := SMap.insert j (freshSlot t t.started d.tb.time) t.slots, started := t.started + 1 }
    else d
  | none => d

/-- TEAM_RESIDENT. -/
def execTeamResident (c : Nat) (s : State) : Host.Outcome State Fault Refusal := runLive (decide (c < 140)) (·.resident c) s

/-- LAUNCH_OVERRUN (R49, R99): a launch still running at L breaches the contract, once, and goes on. -/
def execLaunchOverrun (c : Nat) (s : State) : Host.Outcome State Fault Refusal :=
  runLive (decide (c < 140)) (fun d =>
    let t := d.core c
    if t.active && !t.overrun then (d.setCore c { t with overrun := true }).breach brOverrun (furrowId t.furrow) (d.launchAt c) else d) s

/-- Has the no-progress count of a team reached 2^LIMIT_LOG2 cycles of its core's island at its set frequency (R239)? -/
def Dev.stuck (d : Dev) (c : Nat) (x : Slot) : Bool :=
  decide (80 * 2 ^ d.fld TME_WDOG TME_WDOG_LIMIT_LOG2 c ≤ x.idleNs d.tb.time * d.fld CLK_CPLL CLK_CPLL_MULT (dieOf c))

/-- NO_PROGRESS (R239): the team whose count has reached the limit parks at its next instruction, or at the access that never completes
(R266). -/
def Dev.noProgress (d : Dev) (c j : Nat) : Dev :=
  let t := d.core c
  match SMap.find t.slots j with
  | none => d
  | some x =>
    if !t.active || x.park.isSome || x.waiting || !d.stuck c x then d
    else
      let d := d.stick TME_NOPROG TME_NOPROG_COUNT 1 c
      match x.access, Slot.pick x.stack x with
      | some a, _ => d.parkTeam c j x ⟨pkNoProgress, a.pc, 0, a.issued, a.issued⟩
      | none, some (x, pc, iss) => d.parkTeam c j x ⟨pkNoProgress, pc, 0, iss, iss⟩
      | none, none => d

/-- NO_PROGRESS. -/
def execNoProgress (c j : Nat) (s : State) : Host.Outcome State Fault Refusal := runLive (isSlot c j) (·.noProgress c j) s

/-! ### Actions on a parked team (R244) -/

/-- The slot that TME_PARK_SEL names. -/
def Dev.parkSel (d : Dev) (c : Nat) : Nat := d.fld TME_PARK_SEL TME_PARK_SEL_SLOT c

/-- Act on the selected team while it is parked in a running launch; otherwise there is no effect and an error response. -/
def Dev.onParked (d : Dev) (c : Nat) (go : Nat → Slot → Park → Dev → Dev) : Dev :=
  let t := d.core c
  let j := d.parkSel c
  match SMap.find t.slots j with
  | some x =>
    match x.park with
    | some p => if t.active then (go j x p d).emit .ok else d.emit .err
    | none => d.emit .err
  | none => d.emit .err

/-- The access of a team that goes on without it: its responses write nothing, and releases of the team wait for its writes (R244, R259). -/
def Dev.dropAccess (d : Dev) (c j : Nat) : Dev :=
  let d := { d with
    xacts := d.xacts.map fun x => match x.kind with
      | .load c' j' _ => if c' = c && j' = j then { x with kind := .lost c j 0 } else x
      | .store c' j' _ _ => if c' = c && j' = j then { x with kind := .lost c j 2 } else x
      | .atomic c' j' _ _ _ => if c' = c && j' = j then { x with kind := .lost c j 2 } else x
      | .inval => if d.acks.any fun q => q.2 == .team c j && q.1.contains x.xid then { x with kind := .lost c j 1 } else x
      | _ => x
    acks := d.acks.filter fun q => q.2 != .team c j }
  let t := d.core c
  match SMap.find t.slots j with
  | some x => d.setSlot c j { x with access := none }
  | none => d

/-- The team resumes (Table 11.7): its access goes on, or the lanes that were active go on at the parked PC, or behind a BREAK; after ACCESS
only the failing lanes re-execute, and after NO_PROGRESS the count starts anew. -/
def resume (x : Slot) (p : Park) (step : Bool) (now : Nat) : Slot :=
  let x := if x.access.isSome then x else x.setPcs p.active (pcMask (if p.cause = pkBreak then p.pc + 8 else p.pc))
  let x := if p.cause = pkNoProgress then x.progress now else x.runs now
  { x with park := none, step1 := step, replay := if p.cause = pkAccess then some p.fault else none }

/-- The selected team resumes at TME_PARK_PC; an access under way is left where that names another instruction (R244). -/
def Dev.resumeTeam (d : Dev) (c : Nat) (step : Bool) : Dev :=
  d.onParked c fun j x p d =>
    let away := match x.access with | some a => a.pc != p.pc | none => false
    let d := if away then d.dropAccess c j else d
    d.setSlot c j (resume (if away then { x with access := none } else x) p step d.tb.time)

/-- REPLAY of the selected team. -/
def Dev.replayTeam (d : Dev) (c : Nat) : Dev := d.resumeTeam c false

/-- REPLAY. -/
def execReplay (who : Who) (c : Nat) (s : State) : Host.Outcome State Fault Refusal :=
  runReg (decide (c < 140)) who (fun _ => coreBase c) (·.replayTeam c) s

/-- SKIP of the selected team: it resumes at PC + 8; destinations of lanes not performed stay as they are. -/
def Dev.skipTeam (d : Dev) (c : Nat) : Dev :=
  d.onParked c fun j x p d =>
    let x := if p.cause = pkNoProgress then x.progress d.tb.time else x.runs d.tb.time
    (d.dropAccess c j).setSlot c j
      { x.setPcs p.active (pcMask (p.pc + 8)) with park := none, access := none, replay := none, step1 := false }

/-- SKIP. -/
def execSkip (who : Who) (c : Nat) (s : State) : Host.Outcome State Fault Refusal :=
  runReg (decide (c < 140)) who (fun _ => coreBase c) (·.skipTeam c) s

/-- STEP of the selected team: as REPLAY, then parked again after one instruction with cause STEPPED. -/
def Dev.stepTeam (d : Dev) (c : Nat) : Dev := d.resumeTeam c true

/-- STEP. -/
def execStepTeam (who : Who) (c : Nat) (s : State) : Host.Outcome State Fault Refusal :=
  runReg (decide (c < 140)) who (fun _ => coreBase c) (·.stepTeam c) s

/-- KILL: every team of the launch ends, its furrow stops with LAUNCH_KILLED and the job faults. -/
def Dev.killTeams (d : Dev) (c : Nat) : Dev :=
  d.onParked c fun _ _ _ d =>
    let f := (d.core c).furrow
    ((d.endTeams c).launchEnd c).failOp f feKilled 0 none

/-- KILL. -/
def execKill (who : Who) (c : Nat) (s : State) : Host.Outcome State Fault Refusal :=
  runReg (decide (c < 140)) who (fun _ => coreBase c) (·.killTeams c) s

/-- Write the register that TME_REG_SEL selects in a parked team: FILE 0 v, 1 u, 2 p. An index that no register has draws an error
response (log entry 20). -/
def Dev.writeTeamReg (d : Dev) (c v : Nat) : Dev :=
  let t := d.core c
  let r := d.fld TME_REG_SEL TME_REG_SEL_REG c
  let l := d.fld TME_REG_SEL TME_REG_SEL_LANE c
  let file := d.fld TME_REG_SEL TME_REG_SEL_FILE c
  let ok := if file = 0 then r == 255 || decide (r < 8 * t.regs) else if file = 1 then decide (r < 64) else decide (r < 8)
  if !ok then d.emit .err
  else
    d.onParked c fun j x _ d =>
      d.setSlot c j (if file = 0 then x.wv r l v else if file = 1 then x.wu r v else x.wp r (2 ^ l) (if bitOf v 0 then 2 ^ l else 0))

/-- TME_REG_DATA. -/
def execTmeRegData (who : Who) (c : Nat) (v : Word) (s : State) : Host.Outcome State Fault Refusal :=
  runReg (decide (c < 140)) who (fun _ => coreBase c) (fun d => d.writeTeamReg c (v.toNat % 2 ^ 32)) s

end Sys2Proof.Machine
end

