-- ==== Sys2Proof/Machine/RegView.lean ====
section
/-! DEFINITION. What a register read shows: stored fields, and fields that show the state of a unit as it is (Tables 3.11, 5.6, 6.3, 9.5, 10.7,
11.10, 12.8, 15.5, 16.7, 16.8, 18.13, 18.15). -/
namespace Sys2Proof.Machine
open Sys2Proof

/-! ### Furrows -/

/-- The furrow whose register block lies at a window offset, none for the furrows of an unmapped core. -/
def Dev.frwAt (d : Dev) (b : Nat) : Option Nat :=
  let die := (b - 0x1000_0000) / 0x100_0000
  let x := (b - 0x1000_0000) % 0x100_0000
  if x < 0x40_0000 then
    (d.logOf (14 * die + (x - 0x10_0000) / 0x1_0000)).map fun l => if x % 0x1_0000 < 0xF000 then l else 120 + l
  else if x < 0x50_0000 then some (240 + 16 * die + (x - 0x40_0000) / 0x1000)
  else if x < 0x60_0000 then some (400 + 4 * die + (x - 0x50_0000) / 0x1_0000)
  else if x < 0x70_0000 then some (440 + 6 * die + (x - 0x60_0000) / 0x1_0000)
  else some (500 + 2 * die + (x - 0x70_0000) / 0x1_0000)

/-- FRW_STATUS (Table 3.11). DEPTH is the call depth that CALL and RET count. -/
def Dev.frwStatus (d : Dev) (f : Nat) : Nat :=
  let x := d.frw f
  let idle := x.cur.isNone && x.fifo.isEmpty
  let verdict := x.verdictWait && d.awaitsVerdict f
  let waits := x.cur.isNone && !x.fifo.isEmpty && (x.wait == .pending || verdict)
  let more := !x.infl.isEmpty || !x.frames.isEmpty || d.ff f FRW_HEAD FRW_HEAD_HEAD != d.ff f FRW_TAIL FRW_TAIL_TAIL
  let depth := d.ff f FRW_STATUS FRW_STATUS_DEPTH
  x.fifo.length + 2 ^ 10 * b2n idle + 2 ^ 11 * b2n waits + 2 ^ 12 * b2n x.cur.isSome + 2 ^ 13 * b2n (idle && more) +
    2 ^ 14 * b2n (x.cur.isNone && d.ff f FRW_CTRL FRW_CTRL_HOLD != 0) + 2 ^ 15 * b2n (d.frwErr f != 0) + 2 ^ 16 * (depth % 8) +
    2 ^ 19 * b2n (x.inserted != 0) + 2 ^ 20 * b2n verdict

/-- FRW_WAITING: the head's WAIT. -/
def Dev.frwWaiting (d : Dev) (f : Nat) : Nat := match (d.frw f).fifo with | i :: _ => i.d.wait.toNat | [] => 0

/-! ### Cores -/

/-- The descriptor in progress at a physical core's MXA. -/
def Dev.mxaCur (d : Dev) (c : Nat) : Option FItem := match d.logOf c with | some l => (d.frw l).cur | none => none

/-- State of accumulator `n`: 0 free, 1 filling, 2 draining, 3 with its chain open (R113). An MM fills until its operation is performed;
from there to its completion its last tile drains, but under NODRAIN, which leaves the chain open (log entry 69). -/
def Dev.accState (d : Dev) (c n : Nat) : Nat :=
  let a := if n = 0 then (d.mx c).acc0 else (d.mx c).acc1
  let rest := if a.owned then 3 else 0
  match d.mxaCur c with
  | some i =>
    let m := Mm.of i.d
    if !isMm i.d.op then rest
    else if !(d.frw ((d.logOf c).getD 0)).done then (if m.fills n then 1 else rest)
    else if !m.nodrain && m.lastAcc = n then 2
    else rest
  | none => rest

/-- MXA_STATUS (Table 5.6). -/
def Dev.mxaStatus (d : Dev) (c : Nat) : Nat :=
  let mm := match d.mxaCur c with | some i => opMmF ≤ i.d.op && i.d.op ≤ opMmBx | none => false
  let fill := match d.mxaCur c with | some i => i.d.op == opFill | none => false
  let her := match d.mxaCur c with | some i => mm && (Mm.of i.d).heritage | none => false
  let ins := SMap.get 0 d.gov.mxaFill c != 0 || d.ist.running.any fun u => decide (u < 2240) && u / 16 == c
  b2n (mm || fill) + 2 * b2n ins + 4 * d.accState c 0 + 16 * d.accState c 1 + 64 * b2n her + 2 ^ 32 * d.fld MXA_STATUS MXA_STATUS_TAG c

/-- MXA_CHAIN of an accumulator. -/
def chainView (a : AccTile) : Nat :=
  if a.owned then a.m % 2 ^ 10 + 2 ^ 10 * (a.n % 2 ^ 8) + 2 ^ 18 * (a.shape % 4) + 2 ^ 20 * min a.ksum (2 ^ 32 - 1) else 0

/-- TME_STATUS. -/
def Dev.tmeStatus (d : Dev) (c : Nat) : Nat :=
  let t := d.core c
  t.slots.length + 2 ^ 8 * (t.slots.filter fun p => p.2.park.isSome).length + 2 ^ 15 * b2n t.active + 2 ^ 32 * t.tag

/-- TME_LAUNCH. -/
def Dev.tmeLaunch (d : Dev) (c : Nat) : Nat :=
  let t := d.core c
  t.started % 2 ^ 16 + 2 ^ 16 * (t.ended % 2 ^ 16) + 2 ^ 32 * (t.regs % 64)

/-- TME_PARK_MASK. -/
def Dev.parkMask (d : Dev) (c : Nat) : Nat :=
  ((d.core c).slots.map fun p => if p.2.park.isSome then 2 ^ p.1 else 0).foldl (· + ·) 0

/-- A register of the selected slot's park record; 0 where that slot holds no parked team. -/
def Dev.parkView (d : Dev) (c : Nat) (g : Tme → Slot → Park → Nat) : Nat :=
  match SMap.find (d.core c).slots (d.parkSel c) with
  | some x => match x.park with | some p => g (d.core c) x p | none => 0
  | none => 0

/-- TME_REG_DATA: the selected register of the parked team; an index that no register has reads 0. -/
def Dev.teamReg (d : Dev) (c : Nat) : Nat :=
  let r := d.fld TME_REG_SEL TME_REG_SEL_REG c
  let l := d.fld TME_REG_SEL TME_REG_SEL_LANE c
  let file := d.fld TME_REG_SEL TME_REG_SEL_FILE c
  d.parkView c fun t x _ =>
    if file = 0 then (if r < 8 * t.regs then x.rv r l else 0)
    else if file = 1 then (if r < 64 then x.ru r else 0)
    else (if r < 8 then b2n (x.pr r l) else 0)

/-- A core block's register, where it shows the state of the core. -/
def Dev.coreView (d : Dev) (c off : Nat) : Option Nat :=
  if off = MXA_STATUS.off then some (d.mxaStatus c)
  else if off = MXA_CHAIN0.off then some (chainView (d.mx c).acc0)
  else if off = MXA_CHAIN1.off then some (chainView (d.mx c).acc1)
  else if off = MXA_HDR.off then some (d.hdr (tileAddr c + 512 * d.fld MXA_HDR_ADDR MXA_HDR_ADDR_BLOCK c))
  else if off = TME_STATUS.off then some (d.tmeStatus c)
  else if off = TME_LAUNCH.off then some (d.tmeLaunch c)
  else if off = TME_PARK_MASK.off then some (d.parkMask c)
  else if off = TME_PARK_CAUSE.off then
    some (d.parkView c fun t x p => p.cause % 256 + 2 ^ 8 * (x.stack.length % 64) + 2 ^ 16 * (x.team % 2 ^ 16) + 2 ^ 32 * t.tag)
  else if off = TME_PARK_PC.off then some (d.parkView c fun _ _ p => p.pc % 2 ^ 48 / 8 * 8)
  else if off = TME_PARK_ADDR.off then some (d.parkView c fun _ _ p => p.addr % 2 ^ 64)
  else if off = TME_PARK_LANES.off then some (d.parkView c fun _ _ p => p.active % 2 ^ 32 + 2 ^ 32 * (p.fault % 2 ^ 32))
  else if off = TME_REG_DATA.off then some (d.teamReg c)
  else none

/-! ### Plots and stacks -/

/-- Is an operation in progress at a furrow one of those from `lo` to `hi`? -/
def Dev.runs (d : Dev) (f lo hi : Nat) : Bool := match (d.frw f).cur with | some i => decide (lo ≤ i.d.op) && decide (i.d.op ≤ hi) | none => false

/-- A plot block's register. -/
def Dev.plotView (d : Dev) (p off : Nat) : Option Nat :=
  if off = TLT_STATUS.off then
    some (b2n (d.runs (240 + p) opElt opRng) +
      8 * b2n (d.gov.plotFill.has p || d.ist.running.any fun u => decide (2240 ≤ u) && (u - 2240) / 64 == p))
  else if off = TLT_HDR.off then some (d.hdr (plotBase + p * 0x400_0000 + 512 * d.fld TLT_HDR_ADDR TLT_HDR_ADDR_BLOCK p))
  else none

/-- What HRW_VERD shows of a group: its last closed step, with that step's verdict, none where no SEAL has deposited it (Table 10.7;
log entry 95). -/
def Dev.verdView (d : Dev) (s g : Nat) : HVerd :=
  let v := SMap.get HVerd.none (d.hrw s).verds g
  let steps := ((d.hrw s).hdrs.filter fun x => x.g == g && x.closed).map HHdr.k
  match steps.filter fun k => v.state == 0 || decide (v.step < k) with
  | [] => v
  | k :: ks => { HVerd.none with step := ks.foldl max k }

/-- A stack block's register. -/
def Dev.stackView (d : Dev) (s off : Nat) : Option Nat :=
  if off = HRW_STATUS.off then
    some (b2n (d.runs (500 + s) opUpd opSeal) + 8 * b2n d.capture.isSome + 16 * (d.hrw s).groups.length)
  else if off = HRW_VERD.off then
    let v := d.verdView s (d.fld HRW_VERD_SEL HRW_VERD_SEL_GROUP s)
    some (v.step % 2 ^ 32 + 2 ^ 32 * (v.state % 8) + 2 ^ 35 * b2n v.applied + 2 ^ 36 * (v.d % 2 ^ 12))
  else if off = HBM_STATUS.off then some (setBits (d.reg HBM_STATUS s) 24 1 (b2n (d.hot.has s)))
  else none

/-! ### Hub and dies -/

/-- XO_SETTLE in use: OTP, or the XO_SET straps (R321). -/
def Dev.xoTicks (d : Dev) : Nat :=
  match d.boot.xoOtp with
  | some n => n
  | none => if d.pins.xoSet = 0 then 0 else if d.pins.xoSet = 1 then 1024 else if d.pins.xoSet = 2 then 8192 else 65535

/-- A hub register. -/
def Dev.hubView (d : Dev) (off : Nat) : Option Nat :=
  if off = CLK_XO.off then some (d.xoTicks % 2 ^ 16 + 2 ^ 16 * b2n d.pins.cmos + 2 ^ 17 * b2n d.boot.xoOtp.isSome)
  else if off = CLK_STATUS.off then
    some (d.fld CLK_STATUS CLK_STATUS_LOSS * 2 + d.fld CLK_STATUS CLK_STATUS_PCIE_LOSS * 8 + b2n (d.clk.settled && d.clk.xin0) +
      4 * b2n d.clk.xin1 + 16 * b2n (d.locked 40))
  else if off = RST_STATUS.off then some (setBits (d.reg RST_STATUS) 4 1 (b2n d.degraded))
  else if off = HUB_DIR_STAT.off then some d.dir.length
  else if off = IST_PROGRESS.off then some (setBits (d.reg IST_PROGRESS) 32 16 (min d.ist.due.length 65535))
  else if off = CLK_MEAS.off then some (if d.clk.xin1 then d.reg CLK_MEAS else d.reg CLK_MEAS % 2 ^ 32)
  else if off = PWR_STATUS.off then
    some (d.pwrState + 4 * b2n (d.running && decide (d.tb.time < d.job.sowEnd)) + 8 * b2n d.gov.ramp + 16 * b2n (d.gov.fill != 0) +
      32 * b2n (!d.gov.stretch.isEmpty) + 64 * b2n (!d.gov.gate.isEmpty))
  else none

/-- A die clock register. -/
def Dev.dieView (d : Dev) (die off : Nat) : Option Nat :=
  if off = CLK_DSTAT.off then
    some (d.reg CLK_DSTAT die / 256 * 256 + b2n (d.locked (4 * die)) + 2 * b2n (d.locked (4 * die + 1)) + 4 * b2n (d.locked (4 * die + 2)) +
      8 * b2n (d.locked (4 * die + 3)))
  else none

/-- A furrow block's register. -/
def Dev.furrowView (d : Dev) (b off : Nat) : Option Nat :=
  match d.frwAt b with
  | some f => if off = FRW_STATUS.off then some (d.frwStatus f) else if off = FRW_WAITING.off then some (d.frwWaiting f) else none
  | none => none

/-- What a read of register `r` of unit `u`, index `i`, shows. -/
def Dev.regView (d : Dev) (r : RegDef) (u i : Nat) : Nat :=
  let live : Option Nat := match r.blk with
    | .core => d.coreView u r.off
    | .plot => d.plotView u r.off
    | .stack => d.stackView u r.off
    | .hub => d.hubView r.off
    | .die => d.dieView u r.off
    | .furrow => d.furrowView u r.off
    | _ => none
  live.getD (d.reg r u i)

/-! ### Reads -/

/-- The register that holds the bytes from an offset: the register, unit, index and the byte of it that the offset names. -/
def regCell (off : Nat) : Option (RegDef × Nat × Nat × Nat) :=
  match regAt off with
  | some (r, u, i) => some (r, u, i, 0)
  | none =>
    if off % 8 = 4 then
      match regAt (off - 4) with
      | some (r, u, i) => if r.w32 then none else some (r, u, i, 4)
      | none => none
    else none

/-- Mask of `n` bytes from byte `b` up. -/
def byteMask (b n : Nat) : Nat := (2 ^ (8 * n) - 1) * 2 ^ (8 * b)

/-- RC fields that a read of the bytes of mask `m` touches are cleared (R8). -/
def Dev.rcClear (d : Dev) (r : RegDef) (u i m : Nat) : Dev :=
  if r.flds.any fun f => f.ty == .rc then
    d.setReg r (r.flds.foldl (fun v f => if f.ty == .rc && bitsOf m f.lo f.w != 0 then setBits v f.lo f.w 0 else v) (d.reg r u i)) u i
  else d

/-- Read `n` bytes (4 or 8, aligned) of one register at an offset; none where the offset is unassigned. -/
def Dev.cellRead (d : Dev) (off n : Nat) : Option (Dev × Nat) :=
  match regCell off with
  | none => none
  | some (r, u, i, b) =>
    let w := if r.w32 then 4 else 8
    let k := min n (w - b)
    some (d.rcClear r u i (byteMask b k), d.regView r u i / 2 ^ (8 * b) % 2 ^ (8 * k))

/-- Read 4 or 8 bytes: eight bytes of 32-bit registers are two of them. -/
def Dev.regRead (d : Dev) (off n : Nat) : Option (Dev × Nat) :=
  match regCell off with
  | some (r, _, _, _) =>
    if r.w32 && n = 8 then
      match d.cellRead off 4 with
      | some (d, lo) => (match d.cellRead (off + 4) 4 with | some (d, hi) => some (d, lo + 2 ^ 32 * hi) | none => none)
      | none => none
    else d.cellRead off n
  | none => none

end Sys2Proof.Machine
end

