-- ==== Sys2Proof/Machine/StackOps.lean ====
section
/-! DEFINITION. The HBM stacks' own events: retraining, refresh, scrubbing (R296, R297, R300). -/
namespace Sys2Proof.Machine
open Sys2Proof

/-- RETRAIN: HBM_CTRL.RETRAIN of stack `st`. -/
def execRetrain (who : Who) (st : Nat) (s : State) : Host.Outcome State Fault Refusal :=
  runReg (decide (st < 20)) who (fun _ => HBM_CTRL.addr st 0) (fun d => d.retrain st) s

/-- Does a stack refresh itself under its base die: it is TRAINED? -/
def Dev.stackTrained (d : Dev) (s : Nat) : Bool := d.fld HBM_STATUS HBM_STATUS_STATE s == 2

/-- A bit of word `w` flips in the stack: a single-bit error of a good word, an uncorrectable one of a word that has one already (R299). -/
def Dev.flip (d : Dev) (w : Nat) : Dev :=
  if d.eccUE.has w then d
  else if d.eccCE.has w then { d with eccCE := d.eccCE.del w, eccUE := d.eccUE.add w }
  else { d with eccCE := d.eccCE.add w }

/-- REFRESH: refresh goes on, with `rfm` refresh-management commands; `flips` are words of the stack in which a bit flipped meanwhile (an event of
the cells, log entry 89). -/
def Dev.refresh (d : Dev) (s : Nat) (flips : List Nat) (rfm : Nat) : Dev :=
  if !d.stackTrained s then d
  else (d.bump HBM_RFM HBM_RFM_COUNT rfm s).each (flips.filter fun w => decide (8 * w < hbmSize) && stackOf (8 * w) == s) Dev.flip

/-- REFRESH. -/
def execRefresh (st : Nat) (flips : List Nat) (rfm : Nat) (s : State) : Host.Outcome State Fault Refusal :=
  runLive (decide (st < 20)) (fun d => d.refresh st flips rfm) s

/-- The last 64-bit word of a stack in address order: one pair of each 10,240-byte block lies on each stack (R294). -/
def lastWord (a : Nat) : Bool := decide (hbmSize - 10240 ≤ a) && decide (a % 512 = 504)

/-- The scrubber reads the word at `a` of stack `s` (R300): a single-bit error is corrected and counted, an uncorrectable one is counted and
logged. -/
def Dev.scrub (d : Dev) (s a : Nat) (u : Upset) : Dev :=
  if !(d.bit HBM_CFG HBM_CFG_SCRUB_EN s && d.stackTrained s) then d
  else
    let w := a / 8
    let d := if d.eccCE.has w then d.correct w else d
    let d := if d.eccUE.has w || u == .uncorrectable then (d.countUE w).glog a 0x07 reqHw 0 noStep else d
    if lastWord a then d.bump HBM_SCRUB HBM_SCRUB_PASSES 1 s else d

/-- SCRUB: `a` is the word's address. -/
def execScrub (st a : Nat) (u : Upset) (s : State) : Host.Outcome State Fault Refusal :=
  runLive (decide (a < hbmSize) && decide (a % 8 = 0) && decide (stackOf a = st)) (fun d => d.scrub st a u) s

end Sys2Proof.Machine
end

