-- ==== Sys2Proof/Machine/TallyOps.lean ====
section
/-! DEFINITION. The tally energy meter (spec 17): samples, pulses, copies, self-test, seal, log, annotations, I2C and the
mirror. -/
namespace Sys2Proof

/-- Current full scale of a channel in amperes (Table 17.1). -/
def tlyFs (c : Nat) : Int :=
  ([640, 640, 640, 640, 640, 128, 128, 128, 128, 128, 400, 560, 640, 512, 384, 8] : List Int).getD c 1

/-- A quotient whose rounding the spec leaves open: the floor, or one more when it is not exact (log entry 10). -/
def roundOpen (fn num den : Nat) : Nat := num / den + b2n (num % den != 0 && Config.roundUp fn num)

/-- Corrected voltage of a reading as a numerator over 2^53·10^5 V (R340, Table 17.4). -/
def tlyV (c : Cal) (r : Reading) : Int :=
  r.v * (bitsOf c.a.toNat 0 32 : Nat) * 250000 + sgn (bitsOf c.b.toNat 0 16) 16 * (2 ^ 53 : Nat)

/-- Corrected current of a reading as a numerator over 2^53·10^7 A (R340, Table 17.4). -/
def tlyI (ch : Nat) (c : Cal) (r : Reading) : Int :=
  r.i * tlyFs ch * (bitsOf c.a.toNat 32 32 : Nat) *
    (10000000 + sgn (bitsOf c.b.toNat 32 16) 16 * (r.temp - Config.tlyTref)) +
  sgn (bitsOf c.b.toNat 16 16) 16 * 10000 * (2 ^ 53 : Nat)

/-- One ampere in the units of `tlyI`. -/
def tlyAmp : Int := (2 ^ 53 * 10 ^ 7 : Nat)

/-- Is the current beyond full scale (R340)? -/
def tlyOver (ch : Nat) (i : Int) : Bool := decide (tlyFs ch * tlyAmp < i)

/-- The current as metered: zero under 0.02 % of full scale, at most full scale (R340). -/
def tlyLimit (ch : Nat) (i : Int) : Int :=
  if (i.natAbs : Int) * 5000 < tlyFs ch * tlyAmp then 0 else if tlyOver ch i then tlyFs ch * tlyAmp else i

/-- Energy of one sample period in µWh with 32 fraction bits: v·i·125 µs, not negative (R340). -/
def tlyEnergyOf (v i : Int) : Nat := roundOpen 20 ((v * i).toNat * 10) (288 * 2 ^ 74 * 10 ^ 12)

/-- Whole µWh of the package (TLY_ENERGY). -/
def Tally.uwh (t : Tally) : Nat := t.energy / 2 ^ 32

/-- Calibration bytes +0x100 to +0x1FF. -/
def Tally.calBytes (t : Tally) : List Byte := t.cal.flatMap fun c => leBytes 8 c.a.toNat ++ leBytes 8 c.b.toNat

/-- TLY_CAL_CRC. -/
def Tally.calCrc (t : Tally) : Nat := crc32c t.calBytes

/-- LOG_FULL: all 1,024 entries are in use (R346). -/
def Tally.logFull (t : Tally) : Bool := decide (1024 ≤ t.log.length)

/-- Log an event: entry 1,023 becomes LOG_FULL, later events only count (R346). -/
def Tally.event (t : Tally) (code detail : Nat) : Tally :=
  if t.log.length < 1023 then { t with log := t.log ++ [⟨code, t.secs, t.uwh, detail⟩] }
  else if t.log.length = 1023 then { t with log := t.log ++ [⟨0x7F, t.secs, t.uwh, code⟩] }
  else { t with lost := min (t.lost + 1) 0xFFFFFFFF }

/-- Add a sample period's energies per channel: channel sums, package sum, test pulses (R340, R342). -/
def Tally.addEnergy (t : Tally) (es : List Nat) : Tally :=
  let sum := es.foldl (· + ·) 0
  let e := t.energy + sum
  let n := e / (2 ^ 32 * 10000) - t.energy / (2 ^ 32 * 10000)
  { t with
    energy := e
    ch := (t.ch.zip es).map fun p => p.1 + p.2
    wsum := t.wsum + sum
    pulses := t.pulses + n
    pulseLow := t.pulseLow || decide (0 < n) }

/-- A sample period ends: 8,000 make a second, which moves TLY_TIME, the 1 s mean and the token allowance (R340, R346,
R347). -/
def Tally.period (t : Tally) : Tally :=
  if t.samples + 1 < 8000 then { t with samples := t.samples + 1 }
  else
    { t with
      samples := 0
      secs := (t.secs + 1) % 2 ^ 48
      xtalSecs := if t.xtal then t.xtalSecs else t.xtalSecs + 1
      watts := roundOpen 21 (t.wsum * 36) (2 ^ 32 * 10 ^ 4)
      wsum := 0
      annRate := 0 }

/-- One channel's sample: its latest reading and energy, and whether it is over range (R340). -/
def Tally.sampleCh (t : Tally) (c : Nat) (r : Reading) : ChNow × Bool :=
  let cal := t.cal.getD c .factory
  let v := tlyV cal r
  let i0 := tlyI c cal r
  let i := tlyLimit c i0
  (⟨roundOpen 22 (v.toNat * 1000) (2 ^ 53 * 10 ^ 5), roundOpen 23 (i.toNat * 100) (2 ^ 53 * 10 ^ 7), (r.temp % 256).toNat,
    tlyEnergyOf v i⟩, tlyOver c i0)

/-- Note the channels over range: CH_FAULT sets and each episode is logged once (R340). -/
def Tally.noteOver (t : Tally) : List (Nat × Bool) → Tally
  | [] => t
  | (c, true) :: l =>
    let t := if t.overRange.has c then t else ({ t with overRange := t.overRange.add c, chFault := true }).event 0x20 c
    t.noteOver l
  | (c, false) :: l => ({ t with overRange := t.overRange.del c }).noteOver l

/-- Is a channel out of service: is one of its converters (R344)? -/
def Tally.deadCh (t : Tally) (c : Nat) : Bool := t.dead.has (2 * c) || t.dead.has (2 * c + 1)

/-- One sample period (R340): every channel in service is read, a channel out of service counts zero. -/
def Tally.sample (t : Tally) (rs : List Reading) : Tally :=
  if !t.powered then t
  else if t.romBad then t.period
  else
    let xs : List (ChNow × Bool) := (List.range 16).map fun (c : Nat) =>
      if t.deadCh c then ((⟨0, 0, 0, 0⟩ : ChNow), false) else t.sampleCh c (rs.getD c ⟨0, 0, 0⟩)
    let t := ({ t with chNow := xs.map (fun (x : ChNow × Bool) => x.1) }).noteOver ((List.range 16).zip (xs.map fun (x : ChNow × Bool) => x.2))
    (t.addEnergy (xs.map fun (x : ChNow × Bool) => x.1.prev)).period

/-- Write the older of the two non-volatile copies (R343). -/
def Tally.writeCopy (t : Tally) (atLoss : Bool) : Tally :=
  { t with nvSeq := t.nvSeq + 1, nv := ⟨t.energy, t.ch, t.secs, t.nvSeq, atLoss, true⟩ :: t.nv.take 1 }

/-- Converters that fail the self-test go out of service, each with its entries (R344): converter `2·c` measures the voltage of channel `c`,
`2·c + 1` its current (R340). -/
def Tally.failConv (t : Tally) : List Nat → Tally
  | [] => t
  | k :: l =>
    if k < 32 && !t.dead.has k then
      ((({ t with stFail := true, dead := t.dead.add k, chFault := true }).event 0x40 (0x100 + k / 2)).event 0x21 (k / 2)).failConv l
    else t.failConv l

/-- The copies as a check reads them, newest first, those named failing their CRC. -/
def markBad (bad : List Nat) : Nat → List NvCopy → List NvCopy
  | _, [] => []
  | i, c :: l => { c with good := c.good && !bad.contains i } :: markBad bad (i + 1) l

/-- The checks of R344: ROM, non-volatile copies, converters. A copy that fails is not restored (R343). -/
def Tally.check (t : Tally) (romOk : Bool) (badNv badConv : List Nat) : Tally :=
  let t := if romOk then t else ({ t with stFail := true, romBad := true, pulseLow := false }).event 0x40 1
  let t := { t with nv := markBad badNv 0 t.nv }
  let t := if t.nv.all (·.good) then t else ({ t with stFail := true }).event 0x40 2
  t.failConv badConv

/-- The hourly self-test (R344): its sample period counts each channel's previous sample. -/
def Tally.selfTest (t : Tally) (romOk : Bool) (badNv badConv : List Nat) : Tally :=
  if !t.powered then t
  else
    let t := t.check romOk badNv badConv
    if t.romBad then t.period
    else (t.addEnergy ((List.range 16).map fun c => if t.deadCh c then 0 else (t.chNow.getD c ⟨0, 0, 0, 0⟩).prev)).period

/-- VDD_TLY falls (R343): a copy is written and POWER_DOWN logged. -/
def Tally.powerDown (t : Tally) : Tally :=
  if t.powered then { (t.writeCopy true).event 0x02 0 with powered := false, pulseLow := false, sealKey := false } else t

/-- Fields that take their Reset value at the tally's own power-on (R351). -/
def Tally.volatile (t : Tally) (addrHigh : Bool) : Tally :=
  { t with
    powered := true, samples := 0, wsum := 0, watts := 0, ann := [], annCnt := 0, annBad := 0, annRate := 0
    pulseLow := false, sealKey := false, chFault := false, stFail := false, romBad := false, restored := false
    calen := false, xtal := false, dead := [], overRange := [], chSel := 0, logSel := 0, annSel := 0, xtalSecs := 0
    chNow := List.replicate 16 ⟨0, 0, 0, 0⟩, addrHigh := addrHigh }

/-- The tally's power-on (R343, R344): the newer valid copy is restored; RESTORE_BAD where it is not the one written at this power loss, which is
the newest of all. The copies are written alternately, so number 0 and 1 by turns (R346); with none restored the detail is 0 (DESIGN CHOICE,
log entry 10). -/
def Tally.powerOn (t : Tally) (romOk : Bool) (badNv badConv : List Nat) (addrHigh : Bool) : Tally :=
  if t.powered then t
  else
    let was := t.secs
    let t := t.volatile addrHigh
    let t := { t with nv := markBad badNv 0 t.nv }
    let t :=
      match t.nv.find? (·.good) with
      | some c =>
        let t := ({ t with energy := c.energy, ch := c.ch, secs := c.secs, restored := true }).event 0x01 (c.seq % 2)
        if c.atLoss && decide (c.seq + 1 = t.nvSeq) then t else t.event 0x03 (was - c.secs)
      | none => ({ t with energy := 0, ch := List.replicate 16 0, secs := 0 }).event 0x01 0
    t.check romOk [] badConv

/-- An annotation frame (R347, Table 17.3). -/
def Tally.frame (t : Tally) (f : List Byte) : Tally :=
  if !t.powered then t
  else
    let kind := leNat ((f.drop 12).take 1)
    let ok := decide (f.length = 16) && leNat (f.drop 13) == crc32c (f.take 13) % 2 ^ 24 && decide (1 ≤ kind ∧ kind ≤ 4) &&
      decide (t.annRate < 1000)
    if ok then
      { t with
        ann := (⟨leNat (f.take 8), leNat ((f.drop 8).take 4), kind, t.secs % 2 ^ 24, t.uwh⟩ :: t.ann).take 4096
        annCnt := (t.annCnt + 1) % 2 ^ 32
        annRate := t.annRate + 1 }
    else { t with annBad := (t.annBad + 1) % 2 ^ 32 }

/-- TLY_STATUS. -/
def Tally.status (t : Tally) : Nat :=
  b2n t.sealed + 2 * b2n t.calen + 4 * b2n t.xtal + 8 * b2n t.logFull + 16 * b2n t.chFault + 32 * b2n t.stFail +
  64 * b2n t.restored

/-- Value of the tally register at an 8-byte-aligned offset (Table 17.4). -/
def Tally.regv (t : Tally) (off : Nat) : Nat :=
  let e := t.log.getD t.logSel ⟨0, 0, 0, 0⟩
  let a := t.ann.getD t.annSel ⟨0, 0, 0, 0, 0⟩
  let n := t.chNow.getD t.chSel ⟨0, 0, 0, 0⟩
  match off with
  | 0x00 => t.fwVer % 2 ^ 16 + (t.fwCrc % 2 ^ 32) <<< 16 + 16 <<< 48
  | 0x08 => t.uwh % 2 ^ 64
  | 0x10 => t.status
  | 0x18 => t.secs
  | 0x20 => t.watts % 2 ^ 13
  | 0x28 => t.calCrc
  | 0x30 => t.log.length + t.lost <<< 32
  | 0x38 => t.annCnt + t.annBad <<< 32
  | 0x40 => t.pulses % 2 ^ 64
  | 0x60 => t.chSel
  | 0x68 => n.mv % 2 ^ 16 + (n.ma % 2 ^ 20) <<< 16 + n.temp <<< 40
  | 0x70 => (t.ch.getD t.chSel 0 / 2 ^ 32) % 2 ^ 64
  | 0x80 => t.logSel
  | 0x88 => e.code % 256 + (e.time % 2 ^ 48) <<< 8
  | 0x90 => e.uwh % 2 ^ 64
  | 0x98 => e.detail % 2 ^ 64
  | 0xA0 => t.annSel
  | 0xA8 => a.tb % 2 ^ 64
  | 0xB0 => a.job % 2 ^ 32 + (a.kind % 256) <<< 32 + (a.secs % 2 ^ 24) <<< 40
  | 0xB8 => a.uwh % 2 ^ 64
  | o =>
    if 0x100 ≤ o && o < 0x200 then
      let c := t.cal.getD ((o - 0x100) / 16) .factory
      (if o % 16 = 0 then c.a else c.b).toNat
    else 0

/-- One byte at an offset. -/
def Tally.byteAt (t : Tally) (off : Nat) : Byte := BitVec.ofNat 8 (t.regv (off / 8 * 8) >>> (8 * (off % 8)))

/-- I2C target address (R348). -/
def Tally.i2cAddr (t : Tally) : Nat := if t.addrHigh then 0x3B else 0x3A

/-- An I2C read (R348): the data bytes and the PEC over the whole transaction; not acknowledged at another address. -/
def Tally.i2cRead (t : Tally) (addr off len : Nat) : Out :=
  if t.powered && addr == t.i2cAddr then
    let ds := (List.range len).map fun i => t.byteAt (off + i)
    .i2c (ds ++ [BitVec.ofNat 8 (crc8 (leBytes 1 (2 * addr) ++ leBytes 2 off ++ leBytes 1 (2 * addr + 1) ++ ds))])
  else .nack

/-- A seal-key write (R345). -/
def Tally.sealWrite (t : Tally) (key : Nat) : Tally :=
  if t.sealed || !t.calen then { t with sealKey := false }
  else if t.sealKey && key == 0x0F5E then
    ({ t with sealed := true, sealKey := false }).event 0x11 (t.calCrc <<< 32)
  else { t with sealKey := !t.sealKey && key == 0x5EA1 }

/-- A calibration write, where R345 accepts one. -/
def Tally.calWrite (t : Tally) (off v : Nat) : Tally :=
  let i := (off - 0x100) / 16
  let c := t.cal.getD i .factory
  let w : Word := BitVec.ofNat 64 (if off % 16 = 0 then v else v % 2 ^ 48)
  let t := { t with cal := setAt t.cal i (if off % 16 = 0 then { c with a := w } else { c with b := w }), sealKey := false }
  t.event 0x10 (off + t.calCrc <<< 32)

/-- Does a register take a write, calibration under R345 apart (Table 17.4)? -/
def tlyRw (off : Nat) : Bool := off == 0x60 || off == 0x80 || off == 0xA0 || off == 0x78

/-- A write of the accepted 64-bit value (R349). -/
def Tally.put (t : Tally) (off v : Nat) : Tally :=
  if off = 0x60 then { t with chSel := v % 16, sealKey := false }
  else if off = 0x80 then { t with logSel := v % 1024, sealKey := false }
  else if off = 0xA0 then { t with annSel := v % 4096, sealKey := false }
  else if off = 0x78 then t.sealWrite (v % 2 ^ 16)
  else t.calWrite off v

/-- An I2C write (R348, R349) with the level of TLY_CALEN at it: the tally after it and its answer. -/
def Tally.i2cWrite (t : Tally) (addr off : Nat) (bs : List Byte) (pec : Byte) (calen : Bool) : Tally × Out :=
  if !t.powered then (t, .nack)
  else
    let t := { t with calen := calen }
    let cal := decide (0x100 ≤ off ∧ off < 0x200 ∧ off % 8 = 0)
    let good := addr == t.i2cAddr && pec.toNat == crc8 (leBytes 1 (2 * addr) ++ leBytes 2 off ++ bs) &&
      decide (bs.length = 8) && (tlyRw off || (cal && calen && !t.sealed))
    if good then (t.put off (leNat bs), .ok) else (t, .nack)

end Sys2Proof

namespace Sys2Proof.Machine
open Sys2Proof

/-- TALLY_SAMPLE (R340, R341, R342). -/
def execTallySample (rs : List Reading) (s : State) : Host.Outcome State Fault Refusal := runTally (·.sample rs) s

/-- PULSE_END (R342): TLY_PULSE_N goes high. -/
def execPulseEnd (s : State) : Host.Outcome State Fault Refusal := runTally (fun t => { t with pulseLow := false }) s

/-- NV_COPY (R343). -/
def execNvCopy (s : State) : Host.Outcome State Fault Refusal := runTally (fun t => if t.powered then t.writeCopy false else t) s

/-- POWER_DOWN (R343): the copy of XIN1 falls flat and mirror frames end. -/
def execPowerDown (s : State) : Host.Outcome State Fault Refusal :=
  .next { s with
    tally := s.tally.powerDown
    dev :=
      let d := { s.dev with out := [], clk := { s.dev.clk with xin1 := false } }
      if d.live then d.setFld TLY_MIRROR_STAT TLY_MIRROR_STAT_LINK 0 else d }

/-- POWER_UP (R343, R344, R351): the crystal has yet to start, so no copy of XIN1 goes out until XTAL_BACK. -/
def execPowerUp (romOk : Bool) (badNv badConv : List Nat) (addrHigh : Bool) (s : State) : Host.Outcome State Fault Refusal :=
  .next { s with
    tally := s.tally.powerOn romOk badNv badConv addrHigh
    dev := { s.dev with out := [], clk := { s.dev.clk with xin1 := s.dev.clk.xin1 && s.tally.powered } } }

/-- SELFTEST (R344). -/
def execSelftest (romOk : Bool) (badNv badConv : List Nat) (s : State) : Host.Outcome State Fault Refusal :=
  runTally (·.selfTest romOk badNv badConv) s

/-- XTAL_LOST (R341, R346): XIN1 stops, and its copy with it (R322). -/
def execXtalLost (s : State) : Host.Outcome State Fault Refusal :=
  let t := s.tally
  .next { s with
    tally := if t.powered && t.xtal then ({ t with xtal := false, xtalSecs := 0 }).event 0x30 0 else { t with xtal := false }
    dev := { s.dev with out := [], clk := { s.dev.clk with xin1 := false } } }

/-- XTAL_BACK (R341, R346). -/
def execXtalBack (s : State) : Host.Outcome State Fault Refusal :=
  let t := s.tally
  .next { s with
    tally := if t.powered && !t.xtal then ({ t with xtal := true }).event 0x31 t.xtalSecs else { t with xtal := true }
    dev := { s.dev with out := [], clk := { s.dev.clk with xin1 := t.powered } } }

/-- I2C_READ (R348). -/
def execI2cRead (addr off len : Nat) (s : State) : Host.Outcome State Fault Refusal :=
  .next { s with dev := { s.dev with out := [s.tally.i2cRead addr off len] } }

/-- I2C_WRITE (R345, R348, R349). -/
def execI2cWrite (addr off : Nat) (bytes : List Byte) (pec : Byte) (calen : Bool) (s : State) :
    Host.Outcome State Fault Refusal :=
  let r := s.tally.i2cWrite addr off bytes pec calen
  .next { s with tally := r.1, dev := { s.dev with out := [r.2] } }

/-- TLY_SEAL_CMD (R345): a seal-key write that the port has accepted. -/
def execTlySealCmd (key : Word) (calen : Bool) (s : State) : Host.Outcome State Fault Refusal :=
  runTally (fun t => if t.powered then ({ t with calen := calen }).sealWrite (key.toNat % 2 ^ 16) else t) s

/-- SEAL_KEY_TIMEOUT (R345). -/
def execSealKeyTimeout (s : State) : Host.Outcome State Fault Refusal := runTally (fun t => { t with sealKey := false }) s

/-- TOKEN_FRAME (R347). -/
def execTokenFrame (frame : List Byte) (s : State) : Host.Outcome State Fault Refusal := runTally (·.frame frame) s

/-- The registers that the mirror shows (R350). -/
def mirrored : List RegDef :=
  [TLY_ID, TLY_ENERGY, TLY_STATUS, TLY_TIME, TLY_POWER, TLY_CAL_CRC, TLY_LOG_CNT, TLY_ANN_CNT, TLY_PULSES]

/-- The image of a good mirror frame; LINK sets, and measurement 6 is taken as it does (R350, Table 19.5). -/
def Dev.mirrorImage (d : Dev) (t : Tally) : Dev :=
  let d := d.each mirrored fun d r => d.setReg r (t.regv r.off)
  let d :=
    if d.bit TLY_MIRROR_STAT TLY_MIRROR_STAT_LINK then d
    else { d with mgmt := { d.mgmt with meas6 := leBytes 2 t.fwVer ++ leBytes 4 t.fwCrc } }
  (d.setFld TLY_MIRROR_STAT TLY_MIRROR_STAT_LINK 1).setFld TLY_MIRROR_STAT TLY_MIRROR_STAT_AGE_MS 0

/-- MIRROR_FRAME (R350): a frame that fails its CRC, or does not come over the bus, is discarded and the image grows older; one that is read above
the bus's limit may be the previous one, which leaves the image as it is (Table 16.5). -/
def execMirrorFrame (good : Bool) (s : State) : Host.Outcome State Fault Refusal :=
  runLive true (fun d =>
    if s.tally.powered && good && !d.gated 171 then d.bus fun d => d.mirrorImage s.tally else d.stick TLY_MIRROR_STAT TLY_MIRROR_STAT_AGE_MS 1) s

/-- HUB_TLY_TOKEN (R347): a HOST token leaves for the tally. -/
def Dev.hostToken (d : Dev) (v : Nat) : Dev := (d.tlySend (bitsOf v 0 32) 4).emit .ok

/-- HUB_TLY_TOKEN. -/
def execHubTlyToken (who : Who) (v : Word) (s : State) : Host.Outcome State Fault Refusal :=
  runWho true who (·.hostToken v.toNat) s

end Sys2Proof.Machine
end

