-- ==== Sys2Proof/Machine/RegWrite.lean ====
section
/-! DEFINITION. Register writes: by the types of the fields (R8, R416), and the effects and ranges of the registers that have some of their own
(Tables 2.10, 3.11, 7.7, 10.9, 11.10, 12.8, 13.10, 13.12, 14.4, 15.5, 16.7, 16.8, 18.13 to 18.15, 19.8 to 19.10). -/
namespace Sys2Proof.Machine
open Sys2Proof

/-! ### Writes by type -/

/-- Types that a requester can write (R416). -/
def FTy.writable : FTy → Bool
  | .rw => true
  | .rw1c => true
  | .wo => true
  | .ro => false
  | .rc => false
  | .rwl => false

/-- Does the register hold a field that a requester can write? -/
def canWrite (r : RegDef) : Bool := r.flds.any fun f => FTy.writable f.ty

/-- A field's new value: bits of `w` under mask `m` replace an RW field's and clear an RW1C field's (R8); WO fields hold nothing. -/
def fieldWrite (f : FldDef) (old m w : Nat) : Nat :=
  let o := bitsOf old f.lo f.w
  let k := bitsOf m f.lo f.w
  let x := bitsOf w f.lo f.w
  match f.ty with
  | .rw => (o - (o &&& k)) + (x &&& k)
  | .rw1c => o - (o &&& (x &&& k))
  | _ => o

/-- A register's new value: fields by type; RO and RC fields and reserved bits keep their values (R416). -/
def mergeWrite (r : RegDef) (old m w : Nat) : Nat := r.flds.foldl (fun v f => setBits v f.lo f.w (fieldWrite f old m w)) old

/-! ### One write, one response -/

/-- Is an entry of the output a response? -/
def isRsp (o : Out) : Bool := o == .ok || o == .err

/-- A write that acts in several parts has one response: an error where a part drew one. -/
def Dev.oneRsp (d : Dev) : Dev := { d with out := (d.out.filter fun o => !isRsp o) ++ [if d.out.contains .err then .err else .ok] }

/-- Act where a WO bit is written with 1. -/
def Dev.onBit (d : Dev) (b : Bool) (f : Dev → Dev) : Dev := if b then f d else d

/-- No effect while a sheaf is admitted: logged with cause LOCKED. -/
def Dev.unlocked (d : Dev) (who : Who) (a : Nat) (go : Dev → Dev) : Dev := if d.admitted then d.refuse who a 0x05 else go d

/-- No effect while a sheaf is admitted or being checked. -/
def Dev.unchecked (d : Dev) (who : Who) (a : Nat) (go : Dev → Dev) : Dev :=
  if d.admitted || d.checking then d.refuse who a 0x05 else go d

/-- No effect outside the range, which is not logged (R416). -/
def Dev.inRange (d : Dev) (ok : Bool) (go : Dev → Dev) : Dev := if ok then go d else d.emit .err

/-- The register takes its new value. -/
def Dev.putReg (d : Dev) (r : RegDef) (u i v : Nat) : Dev := (d.setReg r v u i).emit .ok

/-! ### The hub's registers -/

/-- TRC_SIZE in range: LOG2_SIZE 0 or 16 to 34, WATERMARK 1 to 15. -/
def trcSizeOk (v : Nat) : Bool :=
  (bitsOf v 0 6 == 0 || (decide (16 ≤ bitsOf v 0 6) && decide (bitsOf v 0 6 ≤ 34))) && bitsOf v 16 4 != 0

/-- TRC_SEL in range: every ring 0 to 4. -/
def trcSelOk (v : Nat) : Bool := (List.range 7).all fun t => decide (bitsOf v (3 * t) 3 ≤ 4)

/-- Islands 170 and 173 stay enabled, and bits 46 to 63 of the third word are reserved (R334, R336). -/
def enableWord (i v : Nat) : Nat := if i = 2 then setBits (setBits (v % 2 ^ 46) 42 1 1) 45 1 1 else v

/-- ADM_CTRL: a write one of whose bits has no effect has none at all (R416). A refused SUBMIT shows BUSY (R45). -/
def Dev.admCtrl (d : Dev) (w : Nat) : Dev :=
  if bitOf w 0 && !d.submitOk then d.submit
  else if bitOf w 1 && !d.startOk then d.emit .err
  else ((d.onBit (bitOf w 0) Dev.submit).onBit (bitOf w 1) Dev.start).onBit (bitOf w 2) fun d => d.finishStep.emit .ok

/-- HUB_EPOCH: as for ADM_CTRL, SWAP needs DRAINED and RESUME a swapped table (R416, Table 13.6). -/
def Dev.epochCtrl (d : Dev) (w : Nat) : Dev :=
  if (bitOf w 1 && !d.bit HUB_EPOCH HUB_EPOCH_DRAINED) || (bitOf w 2 && !d.epoch.swapped) then d.emit .err
  else ((d.onBit (bitOf w 0) fun d => d.quiesce.emit .ok).onBit (bitOf w 1) Dev.swap).onBit (bitOf w 2) Dev.resumeEpoch

/-- RST_CTRL: a die or core out of range makes the write void (R378); the deepest of the resets written runs. -/
def Dev.rstCtrl (d : Dev) (w : Nat) : Dev :=
  if 10 ≤ bitsOf w 8 4 || 14 ≤ bitsOf w 16 4 then d.emit .err
  else if bitOf w 1 then d.ctrlDev
  else if bitOf w 0 then d.ctrlJob
  else if bitOf w 2 then d.ctrlCore (bitsOf w 8 4) (bitsOf w 16 4)
  else d.emit .ok

/-- PWR_CTRL (Table 15.5, R316). -/
def Dev.pwrCtrl (d : Dev) (m w nv : Nat) : Dev :=
  let q := bitsOf w 0 2
  if bitsOf m 0 2 != 3 then d.putReg PWR_CTRL 0 0 nv
  else if q = 3 || d.admitted then d.emit .err
  else (d.setReg PWR_CTRL nv).powerReq q

/-- HUB_GEN: the host's write ends a pending DONE round (R221). -/
def Dev.genWrite (d : Dev) (v : Nat) : Dev := (d.putReg HUB_GEN 0 0 v).setFld HUB_SEAL HUB_SEAL_PEND 0

/-- RST_SUSPECT of a die: the flash keeps the marks (R365, R375). -/
def Dev.suspectWrite (d : Dev) (die v : Nat) : Dev :=
  let d := d.putReg RST_SUSPECT 0 die v
  { d with boot := { d.boot with marks := SMap.put 0 d.boot.marks die v } }

/-- CLK_EN_RUN, CLK_EN_SLEEP, CLK_EN_DEEP: only in RUN with no sheaf admitted (R334). -/
def Dev.enableWrite (d : Dev) (who : Who) (a : Nat) (r : RegDef) (i nv : Nat) : Dev :=
  if d.admitted || d.pwrState != 0 then d.refuse who a 0x05 else d.putReg r 0 i (enableWord i nv)

/-- A hub register written: `w` the bits written under mask `m`, `nv` the new value by type, `a` its address. -/
def Dev.hubWrite (d : Dev) (who : Who) (r : RegDef) (i a m w nv : Nat) : Dev :=
  let o := r.off
  if o = ADM_CTRL.off then d.admCtrl w
  else if o = ADM_WDOG.off then d.inRange (nv != 0) (·.putReg r 0 i nv)
  else if o = HUB_LS_CTRL.off || o = HUB_LS_COMMIT.off || o = HUB_YOKE.off then d.unlocked who a (·.putReg r 0 i nv)
  else if o = HUB_ROUTE_NEXT.off then d.unlocked who a fun d => d.inRange (decide (routeDie nv < 10)) (·.putReg r 0 i (routeWord nv))
  else if o = HUB_GEN.off then d.unlocked who a (·.genWrite nv)
  else if o = HUB_SEAL.off then (if bitOf w 36 then d.forceCommit else d.emit .ok)
  else if o = HUB_SNAP.off then d.snapArm who (mkW nv)
  else if o = HUB_DEVID.off then
    d.inRange (bitsOf nv 0 16 != 0xFFFF && !(List.range 60).any fun p => d.portIsUp p) (·.putReg r 0 i nv)
  else if o = HUB_FAB_CFG.off then d.unlocked who a fun d => d.inRange (nv != 0) (·.putReg r 0 i nv)
  else if o = CLK_TB_CFG.off then d.unlocked who a fun d => d.inRange (decide (bitsOf nv 8 6 < 60)) (·.putReg r 0 i nv)
  else if o = HUB_EPOCH.off then d.epochCtrl w
  else if o = HUB_TLY_TOKEN.off then d.hostToken w
  else if o = HUB_BOOT.off then (if bitOf w 3 then d.retry none else d.emit .ok)
  else if o = PWR_FLOOR.off then d.envWrite who 0 nv
  else if o = PWR_CEIL.off then d.envWrite who 1 nv
  else if o = PWR_SLEW.off then d.envWrite who 2 nv
  else if o = PWR_START.off then d.envWrite who 3 nv
  else if o = PWR_END.off then d.envWrite who 4 nv
  else if o = PWR_THERM.off then if decide (85 ≤ bitsOf nv 0 7) && decide (bitsOf nv 0 7 ≤ 105) then d.putReg r 0 i nv else d.refuse who a 0x02
  else if o = PWR_CTRL.off then d.pwrCtrl m w nv
  else if o = CLK_CTRL.off then (if bitOf w 0 then d.relock else d.emit .ok)
  else if o = CLK_MPLL.off then d.loopWrite who o nv
  else if o = CLK_EN_RUN.off || o = CLK_EN_SLEEP.off || o = CLK_EN_DEEP.off then d.enableWrite who a r i nv
  else if o = RST_CTRL.off then d.rstCtrl w
  else if o = RST_SUSPECT.off then d.suspectWrite i nv
  else if o = IST_CFG.off then d.unlocked who a fun d => d.inRange (decide (3600 ≤ bitsOf nv 8 24)) (·.putReg r 0 i nv)
  else if o = IST_CTRL.off then (if bitOf w 0 then d.runAll [] else d.emit .ok)
  else if o = SEQ_SRC.off || o = SEQ_LEN.off || o = TRC_BASE.off then d.unchecked who a (·.putReg r 0 i nv)
  else if o = TRC_SIZE.off then d.unchecked who a fun d => d.inRange (trcSizeOk nv) (·.putReg r 0 i nv)
  else if o = TRC_SEL.off then d.unchecked who a fun d => d.inRange (trcSelOk nv) (·.putReg r 0 i nv)
  else d.putReg r 0 i nv

/-! ### The units' registers -/

/-- TME_PARK_CTRL of core `c`. -/
def Dev.parkCtrl (d : Dev) (c w : Nat) : Dev :=
  match bitsOf w 0 2 with
  | 0 => d.emit .ok
  | 1 => if bitOf w 2 then d.stepTeam c else d.replayTeam c
  | 2 => d.skipTeam c
  | _ => d.killTeams c

/-- TME_PARK_PC: the selected team resumes elsewhere; at a slot that is not parked the write has no effect and draws an error (R244). -/
def Dev.parkPc (d : Dev) (c m w : Nat) : Dev :=
  d.onParked c fun j x p d => d.setSlot c j { x with park := some { p with pc := (p.pc - (p.pc &&& m)) + (w &&& m) / 8 * 8 % 2 ^ 48 } }

/-- A core register written. -/
def Dev.coreWrite (d : Dev) (r : RegDef) (c i m w nv : Nat) : Dev :=
  let o := r.off
  if o = TME_WDOG.off then d.inRange (decide (16 ≤ nv) && decide (nv ≤ 30)) (·.putReg r c i nv)
  else if o = TME_REG_SEL.off then d.inRange (bitsOf nv 13 2 != 3) (·.putReg r c i nv)
  else if o = TME_PARK_CTRL.off then d.parkCtrl c w
  else if o = TME_PARK_PC.off then d.parkPc c m w
  else if o = TME_REG_DATA.off then (if bitsOf m 0 32 = 0 then d.emit .ok else d.writeTeamReg c (w % 2 ^ 32))
  else d.putReg r c i nv

/-- FRW_CTRL: HOLD (R75) and IRQ_EN. -/
def Dev.furrowWrite (d : Dev) (r : RegDef) (b i nv : Nat) : Dev :=
  let d := d.putReg r b i nv
  match d.frwAt b with
  | some f => d.hold f (bitOf nv 0)
  | none => d

/-- CLEAR of an error log's or of the test log's count register empties the log (R129). -/
def clearsLog (r : RegDef) (w : Nat) : Bool := r.flds.any fun f => f.ty == .wo && f.lo == 16 && f.w == 1 && r.flds.length == 3 && bitOf w 16

/-- The logs of 16 entries: count register and the two words of an entry (R129, R357, Table 18.15). -/
def logRegs : List (RegDef × RegDef × RegDef) :=
  [(MXA_ELOG_CNT, MXA_ELOG_A, MXA_ELOG_B), (TLT_ELOG_CNT, TLT_ELOG_A, TLT_ELOG_B), (HRW_ELOG_CNT, HRW_ELOG_A, HRW_ELOG_B),
   (HDL_ELOG_CNT, HDL_ELOG_A, HDL_ELOG_B), (MOV_ELOG_CNT, MOV_ELOG_A, MOV_ELOG_B), (ERR_GLOG_CNT, ERR_GLOG_A, ERR_GLOG_B),
   (IST_FAIL_CNT, IST_FAIL_A, IST_FAIL_B)]

/-- Empty the log whose count register is `r`: no entry is left. -/
def Dev.emptyLog (d : Dev) (r : RegDef) (u : Nat) : Dev :=
  match logRegs.find? fun q => q.1 == r with
  | some q => d.each (List.range 16) fun d i => (d.setReg q.2.1 0 u i).setReg q.2.2 0 u i
  | none => d

/-- Write the bytes under mask `m` of register `r` of unit `u`, index `i`, at address `a` of the local map. -/
def Dev.regAct (d : Dev) (who : Who) (r : RegDef) (u i a m w : Nat) : Dev :=
  let nv := mergeWrite r (d.reg r u i) m w
  if clearsLog r w then (d.emptyLog r u).putReg r u i (setBits nv 0 5 0)
  else match r.blk with
    | .hub => d.hubWrite who r i a m w nv
    | .core => d.coreWrite r u i m w nv
    | .port => if r.off = HDL_CFG.off then d.hdlCfg u nv else d.putReg r u i nv
    | .stack =>
      if r.off = HBM_CFG.off then d.inRange (bitsOf nv 0 2 != 3) (·.putReg r u i nv)
      else if r.off = HBM_CTRL.off then (if bitOf w 0 then d.retrain u else d.emit .ok)
      else d.putReg r u i nv
    | .die =>
      if r.off = CLK_CPLL.off || r.off = CLK_FPLL.off || r.off = CLK_HPLL.off then d.loopWrite who (r.addr u i) nv
      else if r.off = CLK_SSC.off then d.spreadWrite who u nv
      else d.putReg r u i nv
    | .furrow => d.furrowWrite r u i nv
    | _ => d.putReg r u i nv

/-! ### The window -/

/-- Base of the synchronisation region in the control window (Table 1.4). -/
def syncBase : Nat := 0x2000_0000

/-- Is an offset in the tally mirror's block? -/
def inMirror (off : Nat) : Bool := decide (0x100_0000 ≤ off) && decide (off < 0x200_0000)

/-- Is an offset in the synchronisation region? -/
def inSync (off : Nat) : Bool := decide (syncBase ≤ off) && decide (off < 0x3000_0000)

/-- May `who` write a declared flag or counter: the host needs HOST (R60)? -/
def Dev.syncMay (d : Dev) (who : Who) (ctr : Bool) (i : Nat) : Bool := if who = .host then d.hostOk ctr i else d.declared ctr i

/-- A store or atomic of `who` on a flag or counter (Table 12.3), at address `a`: one that the table or the declaration does not allow is
refused. The old value answers an atomic. -/
def Dev.syncWrite (d : Dev) (who : Who) (ctr : Bool) (i a op size v v2 : Nat) : Dev :=
  if !d.syncMay who ctr i then d.refuse who a 0x02
  else
    match d.syncOp ctr i op size v v2 with
    | some q => if op = 0 then q.1.emit .ok else q.1.emit (.value (mkW q.2))
    | none => d.refuse who a 0x02

/-- A write of `n` bytes to one register. -/
def Dev.cellWrite (d : Dev) (who : Who) (off n v : Nat) : Dev :=
  match regCell off with
  | none => d.refuse who (ctrlBase + off) 0x03
  | some (r, u, i, b) =>
    d.atReg who (r.addr u i) fun d =>
      let k := min n ((if r.w32 then 4 else 8) - b)
      if canWrite r then d.regAct who r u i (ctrlBase + off) (byteMask b k) (v % 2 ^ (8 * k) * 2 ^ (8 * b))
      else d.refuse who (ctrlBase + off) 0x02

/-- Is the access one that a register answers: 4 or 8 bytes, aligned? -/
def regShape (off n : Nat) : Bool := (n == 4 || n == 8) && off % n == 0

/-- A write of `n` bytes to the control window at an offset. -/
def Dev.regWrite (d : Dev) (who : Who) (off n v : Nat) : Dev :=
  if !regShape off n then d.refuse who (ctrlBase + off) 0x02
  else if inMirror off then d.refuse who (ctrlBase + off) 0x06
  else if inSync off then
    match syncAt (off - syncBase) with
    | some (ctr, i) =>
      if off % 8 = 0 then d.syncWrite who ctr i (ctrlBase + off) 0 n (v % 2 ^ (8 * n)) 0 else d.refuse who (ctrlBase + off) 0x02
    | none => d.refuse who (ctrlBase + off) 0x03
  else
    match regCell off with
    | some (r, _, _, _) =>
      if r.w32 && n = 8 then ((d.cellWrite who off 4 (v % 2 ^ 32)).cellWrite who (off + 4) 4 (v / 2 ^ 32 % 2 ^ 32)).oneRsp
      else (d.cellWrite who off n v).oneRsp
    | none => d.refuse who (ctrlBase + off) 0x03

/-- A read of `n` bytes of the control window at an offset. -/
def Dev.regLoad (d : Dev) (who : Who) (off n : Nat) : Dev :=
  if !regShape off n then d.refuse who (ctrlBase + off) 0x02
  else if inSync off then
    match syncAt (off - syncBase) with
    | some (ctr, i) =>
      match if off % 8 = 0 && d.declared ctr i then d.syncLoad ctr i n else none with
      | some v => d.emit (.value (mkW v))
      | none => d.refuse who (ctrlBase + off) 0x02
    | none => d.refuse who (ctrlBase + off) 0x03
  else
    d.atReg who off fun d =>
      match d.regRead off n with
      | some q => q.1.emit (.value (mkW q.2))
      | none => d.refuse who (ctrlBase + off) 0x03

end Sys2Proof.Machine
end

