-- ==== Sys2Proof/Machine/Access.lean ====
section
/-! DEFINITION. Accesses of the host, JTAG and the management cores to the control window and to local memory (R8, R20, R60, R247 to R253,
R317, R382, R383, R389, R416). -/
namespace Sys2Proof.Machine
open Sys2Proof

/-! ### Memory (R247, R249, R253) -/

/-- Is a part of `[a, a + n)` in a gated island (R317)? HBM answers through the fabric island of its stack's die. -/
def Dev.memGated (d : Dev) (a n : Nat) : Bool :=
  match region a with
  | .plot p => (List.range ((a + n - 1 - plotBase) / 0x400_0000 - p + 1)).any fun i => d.gated (plotIsland ((p + i) / 16))
  | .tile c => d.gated (coreIsland c)
  | .hbm =>
    let l := (List.range 10).filter fun die => d.gated (fabIsland die)
    !l.isEmpty && (List.range ((a + n - 1) / 512 - a / 512 + 1)).any fun i => l.contains (stackOf (512 * (a / 512 + i)) / 2)
  | _ => false

/-- Does a part of `[a, a + n)` name a cache plot's own range (R188)? -/
def Dev.inCachePlot (d : Dev) (a n : Nat) : Bool :=
  match region a with
  | .plot p => (List.range ((a + n - 1 - plotBase) / 0x400_0000 - p + 1)).any fun i => d.cachePlot (p + i)
  | _ => false

/-- May the bytes `[a, a + n)` be accessed: they are one kind of memory, nothing gates them, no cache plot holds them, their stacks serve? -/
def Dev.memServes (d : Dev) (a n : Nat) : Bool :=
  memRange a n && !d.memGated a n && !d.inCachePlot a n && d.hbmServes a n

/-- An access of `who` to local memory is refused: a tile buffer's or a plot's log holds every access refused there, the global log those of
the host and JTAG besides (R129, R355, Tables 5.7 and 9.5). -/
def Dev.refuseMem (d : Dev) (who : Who) (a : Nat) : Dev :=
  (match region a with
   | .tile c => d.elogMxa c a 0x40 0 noStep
   | .plot p => d.elogTlt p a 0x40 0 noStep
   | _ => d).refuse who a 0x02

/-- A read of memory by `who`: an uncorrectable word, one that stood there or one that `u` brings, is a device fault (R299, R354), a parity error
of the words or of their path is replayed or a machine check (R352, R353). -/
def Dev.memRead (d : Dev) (who : Who) (a n : Nat) (u : Upset := .none) : Dev :=
  if n = 0 then d.emit (.data [])
  else if !d.memServes a n then d.refuseMem who a
  else
    let q := d.upsetAt a (if a < hbmSize && u == .uncorrectable then .none else u)
    if !q.2 then q.1.emit .err
    else
    let d := q.1
    match if a < hbmSize then (if u = .uncorrectable then some (a / 8) else d.ueIn a n) else none with
    | some w => (d.readUE w who.req 0 noStep).emit .err
    | none => let d := if a < hbmSize then d.corrects a n else d; d.emit (.data (d.read a n))

/-- A write of memory by `who`: headers of the blocks touched turn PLAIN, yoke sharers are invalidated (R135, R263). -/
def Dev.memWrite (d : Dev) (who : Who) (a : Nat) (bs : List Byte) : Dev :=
  let n := bs.length
  if n = 0 then d.emit .ok
  else if !d.memServes a n then d.refuseMem who a
  else if hbmSize ≤ a then ((d.write a bs).plain a n).okAck
  else
    match d.mergeUE a n with
    | some w => (d.readUE w who.req 0 noStep).emit .err
    | none => ((d.mergeFix a n).write a bs).okAck

/-! ### The library-store alias (R250, R382) -/

/-- First byte of the loader-placed store and the byte behind its last routine. -/
def Dev.storeSpan (d : Dev) : Option (Nat × Nat) :=
  match d.sheaf with
  | some s =>
    match s.store with
    | [] => none
    | r :: rs => some (rs.foldl (fun m x => min m (x.addr - 64)) (r.addr - 64), (r :: rs).foldl (fun m x => max m (x.addr + 64 * x.count)) 0)
  | none => none

/-- A read of the alias. -/
def Dev.aliasRead (d : Dev) (who : Who) (off n : Nat) (u : Upset := .none) : Dev :=
  match d.storeSpan with
  | some p => if p.1 + off + n ≤ p.2 then d.memRead who (p.1 + off) n u else d.refuse who (libBase + off) 0x02
  | none => d.refuse who (libBase + off) 0x02

/-- A read at a local address, in the host view. -/
def Dev.localRead (d : Dev) (who : Who) (a n : Nat) (u : Upset := .none) : Dev :=
  match region a with
  | .ctrl off => d.regLoad who off n
  | .lib off => d.aliasRead who off n u
  | .hole => d.refuse who a 0x02
  | _ => d.memRead who a n u

/-- A write at a local address, in the host view. -/
def Dev.localWrite (d : Dev) (who : Who) (a : Nat) (bs : List Byte) : Dev :=
  match region a with
  | .ctrl off => d.regWrite who off bs.length (leNat bs)
  | .lib _ => d.refuse who a 0x02
  | .hole => d.refuse who a 0x02
  | _ => d.memWrite who a bs

/-! ### The doorbell (R383) -/

/-- A 32-bit write of the doorbell sets a flag as a host store of 1 does; with bits [31:16] not zero it has no effect and is logged. -/
def Dev.bell (d : Dev) (v : Nat) : Dev :=
  if bitsOf v 16 16 = 0 then d.syncWrite .host false (bitsOf v 0 16) (ctrlBase + syncBase + 8 * bitsOf v 0 16) 0 8 1 0
  else d.refuse .host 0x2000 0x02

/-- DOORBELL. -/
def execDoorbell (v : Word) (s : State) : Host.Outcome State Fault Refusal := runWho true .host (fun d => d.bell (wnat v % 2 ^ 32)) s

/-! ### MSI-X (R385) -/

/-- Bytes of the MSI-X table: 12 vectors of 16 bytes. -/
def msixBytes : Nat := 192

/-- A byte of the table. Bit 0 of an entry's byte 12 is its mask; bytes 13 to 15 are reserved (PRESUMED of PCI Express; log entry 23). -/
def Dev.msixByte (d : Dev) (o : Nat) : Byte :=
  if o % 16 = 12 then BitVec.ofNat 8 (b2n (bitOf d.pcie.mask (o / 16)))
  else if 12 < o % 16 then 0
  else (Mem.read d.pcie.table o 1).headD 0

/-- Write a byte of the table: a vector that is unmasked while its message is pending sends it. -/
def Dev.msixPut (d : Dev) (o : Nat) (b : Byte) : Dev :=
  if o % 16 = 12 then
    let n := o / 16
    let d : Dev := { d with pcie := { d.pcie with mask := setBits d.pcie.mask n 1 (b.toNat % 2) } }
    if b.toNat % 2 = 0 && bitOf d.pcie.pend n then
      ({ d with pcie := { d.pcie with pend := setBits d.pcie.pend n 1 0 } }).emit (.msi n)
    else d
  else if 12 < o % 16 then d
  else { d with pcie := { d.pcie with table := Mem.write d.pcie.table o [b] } }

/-! ### The BARs (R382) -/

/-- A read through BAR4/5. -/
def Dev.bar4Read (d : Dev) (off n : Nat) (u : Upset) : Dev :=
  if 0x1000_0000 ≤ off && off + n ≤ 0x2000_0000 then d.aliasRead .host (off - 0x1000_0000) n u
  else if off + n ≤ msixBytes then d.emit (.data ((List.range n).map fun i => d.msixByte (off + i)))
  else if 0x1000 ≤ off && off + n ≤ 0x1008 then d.emit (.data (((leBytes 8 d.pcie.pend).drop (off - 0x1000)).take n))
  else d.refuse .host off 0x02

/-- A write through BAR4/5. The pending-bit array is read-only. -/
def Dev.bar4Write (d : Dev) (off : Nat) (bs : List Byte) : Dev :=
  let n := bs.length
  if off + n ≤ msixBytes then (d.each bs.zipIdx fun d p => d.msixPut (off + p.2) p.1).emit .ok
  else if 0x1000 ≤ off && off + n ≤ 0x1008 then d.emit .ok
  else if off = 0x2000 && n = 4 then d.bell (leNat bs)
  else d.refuse .host (if 0x1000_0000 ≤ off then libBase + (off - 0x1000_0000) else off) 0x02

/-- A host read of `n` bytes at an offset of a BAR: 0 control window, 2 memory, 4 the rest. -/
def Dev.barRead (d : Dev) (bar off n : Nat) (u : Upset) : Dev :=
  if bar = 0 then d.regLoad .host off n else if bar = 2 then d.localRead .host off n u else d.bar4Read off n u

/-- A host write. -/
def Dev.barWrite (d : Dev) (bar off : Nat) (bs : List Byte) : Dev :=
  if bar = 0 then d.regWrite .host off bs.length (leNat bs) else if bar = 2 then d.localWrite .host off bs else d.bar4Write off bs

/-- Does an access lie in its BAR? -/
def inBar (bar off n : Nat) : Bool :=
  match bar with
  | 0 => decide (off + n ≤ 2 ^ 32)
  | 2 => decide (off + n ≤ 2 ^ 42)
  | 4 => decide (off + n ≤ 2 ^ 29)
  | _ => false

/-! ### Recovery (R389): HUB_BOOT and the recovery window alone answer -/

/-- The recovery window, up to the next register. -/
def recWindow (off n : Nat) : Bool := decide (0x8000 ≤ off) && decide (off + n ≤ 0x80000)

/-- A host read of BAR0 in recovery. -/
def Dev.recRead (d : Dev) (off n : Nat) : Dev :=
  if recWindow off n then d.emit (.data (Mem.read d.boot.window off n))
  else if off / 8 * 8 = HUB_BOOT.off && regShape off n then d.regLoad .host off n
  else d.emit .err

/-- A host write of BAR0 in recovery. -/
def Dev.recWrite (d : Dev) (off : Nat) (bs : List Byte) : Dev :=
  if recWindow off bs.length then { d with boot := { d.boot with window := Mem.write d.boot.window off bs } }.emit .ok
  else if off / 8 * 8 = HUB_BOOT.off && regShape off bs.length then d.regWrite .host off bs.length (leNat bs)
  else d.emit .err

/-- An access of `who`: `f` where it reaches the window, `g` in recovery, else an error response. -/
def runAccess (ok : Bool) (who : Who) (f g : Dev → Dev) (s : State) : Host.Outcome State Fault Refusal :=
  runDev ok (fun d => if d.reach who then f d else if d.inRecovery who then g d else d.unreached who) s

/-! ### Meanings -/

/-- REGISTER_WRITE: a write of `size` bytes at an offset of the control window. -/
def execRegisterWrite (who : Who) (off size : Nat) (v : Word) (s : State) : Host.Outcome State Fault Refusal :=
  runAccess (decide (off < 2 ^ 32) && decide (size ≤ 8)) who (fun d => d.regWrite who off size (wnat v)) (fun d => d.recWrite off (leBytes size (wnat v))) s

/-- RC_READ: a register read; RC fields that it touches clear (R8). -/
def execRcRead (who : Who) (off size : Nat) (s : State) : Host.Outcome State Fault Refusal :=
  runAccess (decide (off < 2 ^ 32) && decide (size ≤ 8)) who (fun d => d.regLoad who off size) (fun d => d.recRead off size) s

/-- HOST_READ; `u` is what memory's words meet on the way (R299, R352). -/
def execHostRead (bar off len : Nat) (u : Upset) (s : State) : Host.Outcome State Fault Refusal :=
  runAccess (inBar bar off len) .host (fun d => d.barRead bar off len u) (fun d => if bar = 0 then d.recRead off len else d.emit .err) s

/-- HOST_WRITE. -/
def execHostWrite (bar off : Nat) (bytes : List Byte) (s : State) : Host.Outcome State Fault Refusal :=
  runAccess (inBar bar off bytes.length) .host (fun d => d.barWrite bar off bytes) (fun d => if bar = 0 then d.recWrite off bytes else d.emit .err) s

/-- Is an offset the count register of an error log? -/
def isLogCnt (off : Nat) : Bool := match regAt off with | some q => clearsLog q.1 (2 ^ 16) | none => false

/-- ELOG_CLEAR: a write of a log's count register. -/
def execElogClear (who : Who) (off : Nat) (v : Word) (s : State) : Host.Outcome State Fault Refusal :=
  runWho (isLogCnt off) who (fun d => d.regWrite who off 8 (wnat v)) s

/-- FLAG_COUNTER_STORE: a store or an atomic of `who` on a flag or counter; `op` as in `Dev.syncOp`. -/
def execFlagCounterStore (who : Who) (ctr : Bool) (idx op size : Nat) (v v2 : Word) (s : State) : Host.Outcome State Fault Refusal :=
  runWho (decide (idx < if ctr then 8192 else 65536) && decide (op < 6)) who
    (fun d => d.syncWrite who ctr idx (ctrlBase + syncBase + (if ctr then 0x10_0000 else 0) + 8 * idx) op size (wnat v) (wnat v2)) s

end Sys2Proof.Machine
end

