-- ==== Sys2Proof/Machine/JobOps.lean ====
section
/-! DEFINITION. The deadlines of a running job: the breach LATE (R36, R49) and the watchdog (R51). -/
namespace Sys2Proof.Machine
open Sys2Proof

/-- The deadline of the admitted sheaf with an identifier. -/
def Dev.ddlOf (d : Dev) (id : Nat) : Option Ddl :=
  match d.sheaf with
  | some s => s.ddls.find? fun x => x.id == id
  | none => none

/-- DEADLINE_LATE (R49): the interval of deadline `id` for step `k` passes its bound, which breaches the contract once. -/
def execDeadlineLate (id k : Nat) (s : State) : Host.Outcome State Fault Refusal :=
  runLive true (fun d => match d.ddlOf id with | some x => d.lateIval x k | none => d) s

/-- Ticks of the watchdog's grace (R51). -/
def Dev.grace (d : Dev) : Nat := 1000 * d.fld ADM_WDOG ADM_WDOG_GRACE_US

/-- The watchdog: an open interval that reaches its bound plus the grace faults the job (R51). -/
def Dev.watchdog (d : Dev) (id k : Nat) : Dev :=
  match d.ddlOf id, d.job.ivals.find? fun v => v.id == id && v.k == k with
  | some x, some v =>
    if d.tb.time < v.start + x.bound + d.grace then d
    else
      let d := d.lateIval x k
      d.jobFault { cause := jfDeadline, furrow := if x.kind = 1 then 0xFFFF else x.ef, tag := if x.kind = 1 then 0 else x.etag,
                   step := k, detail := id, kind := kHub }
  | _, _ => d

/-- DEADLINE (R51). -/
def execDeadline (id k : Nat) (s : State) : Host.Outcome State Fault Refusal := runLive true (·.watchdog id k) s

end Sys2Proof.Machine
end

