-- ==== Sys2Proof/Machine/JtagOps.lean ====
section
/-! DEFINITION. The TAP of R392: instructions of IEEE 1149.1 and 1149.6, and REGACC. Instruction codes are the model's own: 1 BYPASS, 2 IDCODE,
3 SAMPLE/PRELOAD, 4 EXTEST, 5 CLAMP, 6 HIGHZ, 7 EXTEST_PULSE, 8 EXTEST_TRAIN, 9 REGACC. -/
namespace Sys2Proof.Machine
open Sys2Proof

/-- A TAP instruction, which is available but while power-on reset is asserted. -/
def runTap (f : Dev → Dev) (s : State) : Host.Outcome State Fault Refusal := runDev true (fun d => if d.halt = .por then d else f d) s

/-- Load an instruction. -/
def Dev.tap (d : Dev) (ir : Nat) : Dev := { d with jtag := { d.jtag with ir := ir } }

/-- BYPASS: the bypass register captures 0. -/
def execBypass (s : State) : Host.Outcome State Fault Refusal :=
  runTap (fun d => { d with jtag := { d.jtag with ir := 1, dr := 0 } }.emit (.jtag [0])) s

/-- IDCODE: version 1, part 0x1280, manufacturer code 0x2D1. -/
def execIdcode (s : State) : Host.Outcome State Fault Refusal :=
  runTap (fun d => { d with jtag := { d.jtag with ir := 2, dr := 0x1128_05A3 } }.emit (.jtag (leBytes 4 0x1128_05A3))) s

/-- SAMPLE/PRELOAD: `pins` are the bits shifted into the boundary register; the levels captured at the pins, which no rule fixes, are free
(log entry 1). The device goes on. -/
def execSamplePreload (pins : List Byte) (s : State) : Host.Outcome State Fault Refusal :=
  runTap (fun d => ({ d.tap 3 with jtag := { d.jtag with ir := 3, bsr := pins } }.emit (.jtag ((Config.freeBytes d.free 0).take pins.length))).fresh) s

/-- Load an instruction that takes the pins over: a job whose sheaf is admitted faults first with HOST_RESET; the device resumes after a BRD
only. -/
def Dev.boundary (d : Dev) (ir : Nat) : Dev :=
  let d := if d.live && d.admitted then d.jobFault { cause := jfHostReset, kind := kHub } else d
  { d.tap ir with halt := if d.halt = .run then .boundary else d.halt }

/-- EXTEST: the pins take the boundary register, which `pins` loads. -/
def execExtest (pins : List Byte) (s : State) : Host.Outcome State Fault Refusal :=
  runTap (fun d => let d := d.boundary 4; { d with jtag := { d.jtag with bsr := pins } }) s

/-- CLAMP: the pins keep the boundary register's levels. -/
def execClamp (s : State) : Host.Outcome State Fault Refusal := runTap (·.boundary 5) s

/-- HIGHZ: no pin is driven. -/
def execHighz (s : State) : Host.Outcome State Fault Refusal := runTap (·.boundary 6) s

/-- EXTEST_PULSE. -/
def execExtestPulse (s : State) : Host.Outcome State Fault Refusal := runTap (·.boundary 7) s

/-- EXTEST_TRAIN. -/
def execExtestTrain (s : State) : Host.Outcome State Fault Refusal := runTap (·.boundary 8) s

/-- REGACC: a 32-bit access at a local address with JTAG's rights; with OTP JTAG mode 1 it reads zero with status 0b11. -/
def Dev.regacc (d : Dev) (a : Nat) (write : Bool) (v : Nat) : Dev :=
  let d := d.tap 9
  if d.boot.jtagMode = 1 then d.emit (.jtag (leBytes 4 0 ++ leBytes 1 3))
  else if !d.reach .jtag then d.emit .err
  else if a % 4 != 0 then d.refuse .jtag a 0x02
  else if write then d.localWrite .jtag a (leBytes 4 (v % 2 ^ 32))
  else d.localRead .jtag a 4

/-- REGACC. -/
def execRegacc (addr : Nat) (write : Bool) (v : Word) (s : State) : Host.Outcome State Fault Refusal :=
  runDev (decide (addr < 2 ^ 48)) (fun d => if d.halt = .por then d else d.regacc addr write (wnat v)) s

end Sys2Proof.Machine
end

