-- ==== Sys2Proof/Machine/Dispatch.lean ====
section
/-! DEFINITION. Which meaning each command has. -/
namespace Sys2Proof.Machine

/-- The effect of a command on everything but the queue. -/
def exec (i : Instr) (s : State) : Host.Outcome State Fault Refusal :=
  match i with
  | .registerWrite who off size v => Sys2Proof.Machine.execRegisterWrite who off size v s
  | .rcRead who off size => Sys2Proof.Machine.execRcRead who off size s
  | .hostRead bar off len u => Sys2Proof.Machine.execHostRead bar off len u s
  | .hostWrite bar off bytes => Sys2Proof.Machine.execHostWrite bar off bytes s
  | .elogClear who off v => Sys2Proof.Machine.execElogClear who off v s
  | .submit who => Sys2Proof.Machine.execSubmit who s
  | .admissionComplete image fail => Sys2Proof.Machine.execAdmissionComplete image fail s
  | .sheafCopyComplete => Sys2Proof.Machine.execSheafCopyComplete s
  | .start who => Sys2Proof.Machine.execStart who s
  | .finish who => Sys2Proof.Machine.execFinish who s
  | .loaderAppend f => Sys2Proof.Machine.execLoaderAppend f s
  | .fetchBurstArrival f => Sys2Proof.Machine.execFetchBurstArrival f s
  | .descriptorBegin f u => Sys2Proof.Machine.execDescriptorBegin f u s
  | .descriptorComplete f => Sys2Proof.Machine.execDescriptorComplete f s
  | .frwHold who f hold => Sys2Proof.Machine.execFrwHold who f hold s
  | .nop f => Sys2Proof.Machine.execNop f s
  | .waitOp f => Sys2Proof.Machine.execWaitOp f s
  | .waitDelayExpiry f => Sys2Proof.Machine.execWaitDelayExpiry f s
  | .signal f => Sys2Proof.Machine.execSignal f s
  | .call f => Sys2Proof.Machine.execCall f s
  | .ret f => Sys2Proof.Machine.execRet f s
  | .trcMark f => Sys2Proof.Machine.execTrcMark f s
  | .fill f => Sys2Proof.Machine.execFill f s
  | .mmF f u => Sys2Proof.Machine.execMmF f u s
  | .mmBd f u => Sys2Proof.Machine.execMmBd f u s
  | .mmBw f u => Sys2Proof.Machine.execMmBw f u s
  | .mmBx f u => Sys2Proof.Machine.execMmBx f u s
  | .elt f u => Sys2Proof.Machine.execElt f u s
  | .red1 f u => Sys2Proof.Machine.execRed1 f u s
  | .red2 f u => Sys2Proof.Machine.execRed2 f u s
  | .nrmB f u => Sys2Proof.Machine.execNrmB f u s
  | .smxB f u => Sys2Proof.Machine.execSmxB f u s
  | .cvt f u => Sys2Proof.Machine.execCvt f u s
  | .cvt24 f u => Sys2Proof.Machine.execCvt24 f u s
  | .rngDrop f u => Sys2Proof.Machine.execRngDrop f u s
  | .mov f u => Sys2Proof.Machine.execMov f u s
  | .hdlPut f u => Sys2Proof.Machine.execHdlPut f u s
  | .hdlGet f u => Sys2Proof.Machine.execHdlGet f u s
  | .hdlAcc f u => Sys2Proof.Machine.execHdlAcc f u s
  | .upd f u => Sys2Proof.Machine.execUpd f u s
  | .seal f u => Sys2Proof.Machine.execSeal f u s
  | .launch f u => Sys2Proof.Machine.execLaunch f u s
  | .teamResident c => Sys2Proof.Machine.execTeamResident c s
  | .launchOverrun c => Sys2Proof.Machine.execLaunchOverrun c s
  | .intAdd c j u => Sys2Proof.Machine.execIntAdd c j u s
  | .intSub c j u => Sys2Proof.Machine.execIntSub c j u s
  | .intMul c j u => Sys2Proof.Machine.execIntMul c j u s
  | .intMulhi c j u => Sys2Proof.Machine.execIntMulhi c j u s
  | .intMad c j u => Sys2Proof.Machine.execIntMad c j u s
  | .intDiv c j u => Sys2Proof.Machine.execIntDiv c j u s
  | .intRem c j u => Sys2Proof.Machine.execIntRem c j u s
  | .intMin c j u => Sys2Proof.Machine.execIntMin c j u s
  | .intMax c j u => Sys2Proof.Machine.execIntMax c j u s
  | .intAnd c j u => Sys2Proof.Machine.execIntAnd c j u s
  | .intOr c j u => Sys2Proof.Machine.execIntOr c j u s
  | .intXor c j u => Sys2Proof.Machine.execIntXor c j u s
  | .intShl c j u => Sys2Proof.Machine.execIntShl c j u s
  | .intShr c j u => Sys2Proof.Machine.execIntShr c j u s
  | .intCmp c j u => Sys2Proof.Machine.execIntCmp c j u s
  | .intBit c j u => Sys2Proof.Machine.execIntBit c j u s
  | .fpAdd c j u => Sys2Proof.Machine.execFpAdd c j u s
  | .fpSub c j u => Sys2Proof.Machine.execFpSub c j u s
  | .fpMul c j u => Sys2Proof.Machine.execFpMul c j u s
  | .fpFma c j u => Sys2Proof.Machine.execFpFma c j u s
  | .fpMin c j u => Sys2Proof.Machine.execFpMin c j u s
  | .fpMax c j u => Sys2Proof.Machine.execFpMax c j u s
  | .fpRcp c j u => Sys2Proof.Machine.execFpRcp c j u s
  | .fpRsqrt c j u => Sys2Proof.Machine.execFpRsqrt c j u s
  | .fpSqrt c j u => Sys2Proof.Machine.execFpSqrt c j u s
  | .fpExp2 c j u => Sys2Proof.Machine.execFpExp2 c j u s
  | .fpLog2 c j u => Sys2Proof.Machine.execFpLog2 c j u s
  | .fpSin c j u => Sys2Proof.Machine.execFpSin c j u s
  | .fpCos c j u => Sys2Proof.Machine.execFpCos c j u s
  | .fpNeg c j u => Sys2Proof.Machine.execFpNeg c j u s
  | .fpCmp c j u => Sys2Proof.Machine.execFpCmp c j u s
  | .fpAbs c j u => Sys2Proof.Machine.execFpAbs c j u s
  | .teamMov c j u => Sys2Proof.Machine.execTeamMov c j u s
  | .movS c j u => Sys2Proof.Machine.execMovS c j u s
  | .teamCvt c j u => Sys2Proof.Machine.execTeamCvt c j u s
  | .sel c j u => Sys2Proof.Machine.execSel c j u s
  | .pollAny c j u => Sys2Proof.Machine.execPollAny c j u s
  | .pollAll c j u => Sys2Proof.Machine.execPollAll c j u s
  | .pollLow c j u => Sys2Proof.Machine.execPollLow c j u s
  | .pollMask c j u => Sys2Proof.Machine.execPollMask c j u s
  | .xchLane c j u => Sys2Proof.Machine.execXchLane c j u s
  | .prd c j u => Sys2Proof.Machine.execPrd c j u s
  | .jmp c j u => Sys2Proof.Machine.execJmp c j u s
  | .rcvSet c j u => Sys2Proof.Machine.execRcvSet c j u s
  | .exit c j u => Sys2Proof.Machine.execExit c j u s
  | .brk c j u => Sys2Proof.Machine.execBrk c j u s
  | .statNf c j u => Sys2Proof.Machine.execStatNf c j u s
  | .teamNop c j u => Sys2Proof.Machine.execTeamNop c j u s
  | .ld c j u => Sys2Proof.Machine.execLd c j u s
  | .st c j u => Sys2Proof.Machine.execSt c j u s
  | .teamAccessComplete c j => Sys2Proof.Machine.execTeamAccessComplete c j s
  | .rmwAdd c j u => Sys2Proof.Machine.execRmwAdd c j u s
  | .rmwMin c j u => Sys2Proof.Machine.execRmwMin c j u s
  | .rmwMax c j u => Sys2Proof.Machine.execRmwMax c j u s
  | .rmwAnd c j u => Sys2Proof.Machine.execRmwAnd c j u s
  | .rmwOr c j u => Sys2Proof.Machine.execRmwOr c j u s
  | .rmwXor c j u => Sys2Proof.Machine.execRmwXor c j u s
  | .rmwExch c j u => Sys2Proof.Machine.execRmwExch c j u s
  | .rmwCas c j u => Sys2Proof.Machine.execRmwCas c j u s
  | .flgSet c j u => Sys2Proof.Machine.execFlgSet c j u s
  | .flgWait c j u => Sys2Proof.Machine.execFlgWait c j u s
  | .ctrAdd c j u => Sys2Proof.Machine.execCtrAdd c j u s
  | .ctrWait c j u => Sys2Proof.Machine.execCtrWait c j u s
  | .fence c j u => Sys2Proof.Machine.execFence c j u s
  | .flagCounterStore who ctr idx op size v v2 => Sys2Proof.Machine.execFlagCounterStore who ctr idx op size v v2 s
  | .noProgress c j => Sys2Proof.Machine.execNoProgress c j s
  | .replay who c => Sys2Proof.Machine.execReplay who c s
  | .skip who c => Sys2Proof.Machine.execSkip who c s
  | .stepTeam who c => Sys2Proof.Machine.execStepTeam who c s
  | .kill who c => Sys2Proof.Machine.execKill who c s
  | .tmeRegData who c v => Sys2Proof.Machine.execTmeRegData who c v s
  | .deadlineLate id k => Sys2Proof.Machine.execDeadlineLate id k s
  | .deadline id k => Sys2Proof.Machine.execDeadline id k s
  | .autoJob => Sys2Proof.Machine.execAutoJob s
  | .governorTick rails temps => Sys2Proof.Machine.execGovernorTick rails temps s
  | .envelopeWrite who which v => Sys2Proof.Machine.execEnvelopeWrite who which v s
  | .envelopeRecheck => Sys2Proof.Machine.execEnvelopeRecheck s
  | .thermalTrip src temp => Sys2Proof.Machine.execThermalTrip src temp s
  | .tripRecord => Sys2Proof.Machine.execTripRecord s
  | .reqRun who => Sys2Proof.Machine.execReqRun who s
  | .reqSleep who => Sys2Proof.Machine.execReqSleep who s
  | .reqDeep who => Sys2Proof.Machine.execReqDeep who s
  | .xoSettle => Sys2Proof.Machine.execXoSettle s
  | .clkLoss => Sys2Proof.Machine.execClkLoss s
  | .relock who => Sys2Proof.Machine.execRelock who s
  | .loopSettingWrite who off v => Sys2Proof.Machine.execLoopSettingWrite who off v s
  | .loopLock loop trainFail repaired => Sys2Proof.Machine.execLoopLock loop trainFail repaired s
  | .spreadWrite who die v => Sys2Proof.Machine.execSpreadWrite who die v s
  | .pcieLoss => Sys2Proof.Machine.execPcieLoss s
  | .tbExchange => Sys2Proof.Machine.execTbExchange s
  | .tbReq port t1 => Sys2Proof.Machine.execTbReq port t1 s
  | .tbReply t2 t3 depth => Sys2Proof.Machine.execTbReply t2 t3 depth s
  | .ppsIn => Sys2Proof.Machine.execPpsIn s
  | .ppsLost => Sys2Proof.Machine.execPpsLost s
  | .portEnable who port => Sys2Proof.Machine.execPortEnable who port s
  | .trainingTimeout port step => Sys2Proof.Machine.execTrainingTimeout port step s
  | .lostFec port => Sys2Proof.Machine.execLostFec port s
  | .nak port seq => Sys2Proof.Machine.execNak port seq s
  | .put port h data => Sys2Proof.Machine.execPut port h data s
  | .get port h comb u => Sys2Proof.Machine.execGet port h comb u s
  | .acc port h data u => Sys2Proof.Machine.execAcc port h data u s
  | .headerCloseTimeout st g k => Sys2Proof.Machine.execHeaderCloseTimeout st g k s
  | .signalSet port h => Sys2Proof.Machine.execSignalSet port h s
  | .signalAdd port h => Sys2Proof.Machine.execSignalAdd port h s
  | .load port h data comb u => Sys2Proof.Machine.execLoad port h data comb u s
  | .store port h data => Sys2Proof.Machine.execStore port h data s
  | .atomic port h data comb u => Sys2Proof.Machine.execAtomic port h data comb u s
  | .echo port h => Sys2Proof.Machine.execEcho port h s
  | .sealToken port t => Sys2Proof.Machine.execSealToken port t s
  | .doneToken port t => Sys2Proof.Machine.execDoneToken port t s
  | .faultToken port t => Sys2Proof.Machine.execFaultToken port t s
  | .sealTokenSend k => Sys2Proof.Machine.execSealTokenSend k s
  | .response port dst xid status data => Sys2Proof.Machine.execResponse port dst xid status data s
  | .quiesce who => Sys2Proof.Machine.execQuiesce who s
  | .swap who => Sys2Proof.Machine.execSwap who s
  | .resume who => Sys2Proof.Machine.execResume who s
  | .yokeInvalidate dev line => Sys2Proof.Machine.execYokeInvalidate dev line s
  | .retrain who st => Sys2Proof.Machine.execRetrain who st s
  | .refresh st flips rfm => Sys2Proof.Machine.execRefresh st flips rfm s
  | .scrub st addr u => Sys2Proof.Machine.execScrub st addr u s
  | .istDue unit => Sys2Proof.Machine.execIstDue unit s
  | .istSliceComplete unit pass => Sys2Proof.Machine.execIstSliceComplete unit pass s
  | .istLinkCheck fec => Sys2Proof.Machine.execIstLinkCheck fec s
  | .runAll who fails => Sys2Proof.Machine.execRunAll who fails s
  | .resetCore who die phys => Sys2Proof.Machine.execResetCore who die phys s
  | .resetJob who => Sys2Proof.Machine.execResetJob who s
  | .resetDev who => Sys2Proof.Machine.execResetDev who s
  | .resetBrd lowNs => Sys2Proof.Machine.execResetBrd lowNs s
  | .resetPor good => Sys2Proof.Machine.execResetPor good s
  | .flr => Sys2Proof.Machine.execFlr s
  | .d3hotEntry => Sys2Proof.Machine.execD3hotEntry s
  | .d0Return => Sys2Proof.Machine.execD0Return s
  | .forceCommit who => Sys2Proof.Machine.execForceCommit who s
  | .snapArm who v => Sys2Proof.Machine.execSnapArm who v s
  | .doorbell v => Sys2Proof.Machine.execDoorbell v s
  | .retry who img => Sys2Proof.Machine.execRetry who img s
  | .mctpControl cmd arg => Sys2Proof.Machine.execMctpControl cmd arg s
  | .pldmMonitoring sensor => Sys2Proof.Machine.execPldmMonitoring sensor s
  | .pldmFirmwareUpdate img => Sys2Proof.Machine.execPldmFirmwareUpdate img s
  | .pldmActivation => Sys2Proof.Machine.execPldmActivation s
  | .getVersion => Sys2Proof.Machine.execGetVersion s
  | .getCapabilities => Sys2Proof.Machine.execGetCapabilities s
  | .negotiateAlgorithms => Sys2Proof.Machine.execNegotiateAlgorithms s
  | .getDigests => Sys2Proof.Machine.execGetDigests s
  | .getCertificate slot => Sys2Proof.Machine.execGetCertificate slot s
  | .challenge slot nonce => Sys2Proof.Machine.execChallenge slot nonce s
  | .getMeasurements idx nonce => Sys2Proof.Machine.execGetMeasurements idx nonce s
  | .keyExchange share => Sys2Proof.Machine.execKeyExchange share s
  | .spdmFinish good => Sys2Proof.Machine.execSpdmFinish good s
  | .endSession => Sys2Proof.Machine.execEndSession s
  | .bypass => Sys2Proof.Machine.execBypass s
  | .idcode => Sys2Proof.Machine.execIdcode s
  | .samplePreload pins => Sys2Proof.Machine.execSamplePreload pins s
  | .extest pins => Sys2Proof.Machine.execExtest pins s
  | .clamp => Sys2Proof.Machine.execClamp s
  | .highz => Sys2Proof.Machine.execHighz s
  | .extestPulse => Sys2Proof.Machine.execExtestPulse s
  | .extestTrain => Sys2Proof.Machine.execExtestTrain s
  | .regacc addr write v => Sys2Proof.Machine.execRegacc addr write v s
  | .hubTlyToken who v => Sys2Proof.Machine.execHubTlyToken who v s
  | .tokenFrame frame => Sys2Proof.Machine.execTokenFrame frame s
  | .mirrorFrame good => Sys2Proof.Machine.execMirrorFrame good s
  | .tallySample rs => Sys2Proof.Machine.execTallySample rs s
  | .pulseEnd => Sys2Proof.Machine.execPulseEnd s
  | .nvCopy => Sys2Proof.Machine.execNvCopy s
  | .powerDown => Sys2Proof.Machine.execPowerDown s
  | .powerUp romOk badNv badConv addrHigh => Sys2Proof.Machine.execPowerUp romOk badNv badConv addrHigh s
  | .selftest romOk badNv badConv => Sys2Proof.Machine.execSelftest romOk badNv badConv s
  | .xtalLost => Sys2Proof.Machine.execXtalLost s
  | .xtalBack => Sys2Proof.Machine.execXtalBack s
  | .i2cRead addr off len => Sys2Proof.Machine.execI2cRead addr off len s
  | .i2cWrite addr off bytes pec calen => Sys2Proof.Machine.execI2cWrite addr off bytes pec calen s
  | .tlySealCmd key calen => Sys2Proof.Machine.execTlySealCmd key calen s
  | .sealKeyTimeout => Sys2Proof.Machine.execSealKeyTimeout s
  | .lostClock port => Sys2Proof.Machine.execLostClock port s
  | .xin0Return => Sys2Proof.Machine.execXin0Return s
  | .flitReject port hdr crc payload => Sys2Proof.Machine.execFlitReject port hdr crc payload s
  | .transit port h data => Sys2Proof.Machine.execTransit port h data s
  | .hello port dev peer rtt => Sys2Proof.Machine.execHello port dev peer rtt s
  | .token port t => Sys2Proof.Machine.execToken port t s
  | .pcieRefclkReturn => Sys2Proof.Machine.execPcieRefclkReturn s

end Sys2Proof.Machine
end

