-- ==== Sys2Proof/Machine/Step.lean ====
section
/-! DEFINITION. One step of the block, and the placing of a command at the front of its queue. -/
namespace Sys2Proof.Machine
open Sys2Proof

/-- One step: the command at the front of the queue runs on the state with the rest of the queue; with no command
waiting, one tick of the device time base passes (log entry 2). -/
def step (s : State) : Host.Outcome State Fault Refusal :=
  match s.pending with
  | i :: rest => exec i { s with pending := rest }
  | [] => idleStep s

/-- The state with the command that a word of the table's bits spells put at the front of its queue; the table gives no
bits, so no word spells a command. -/
def State.withFetchWord (s : State) (nbits w : Nat) : State :=
  match decodeTableWord nbits w with
  | some i => { s with pending := i :: s.pending }
  | none => s

end Sys2Proof.Machine
end

