-- ==== Sys2Proof/Safety.lean ====
section
/-! DEFINITION. The terms that statements about the machine use: what is left alone, which instruction a team issues next, what a command
finds in progress, and the invariants. -/
namespace Sys2Proof

/-- Does an upset let its consumer go on: there is none, or rereads cured the errors (R352)? -/
def Upset.passes : Upset → Bool
  | .none => true
  | .replays _ => true
  | _ => false

/-- Can no order of the sum `q` leave the FP32 range (R118)? -/
def Sum.inRange (q : Sum) : Prop :=
  max q.pos q.neg < 2 ^ 447 ∧ (encFp32.encode (.fin (decide (q.exact < 0)) q.exact.natAbs (-320))).2 = false

end Sys2Proof

namespace Sys2Proof.Machine
open Sys2Proof

/-! ### What is left alone -/

/-- The registers of `d` and `d'` agree at every control-window offset that `p` does not name. -/
def regsAgree (p : Nat → Prop) (d d' : Dev) : Prop := ∀ o, ¬ p o → SMap.find d'.regs o = SMap.find d.regs o

/-- Offset of a register that the correction of a single-bit HBM error writes (R299). -/
def eccOffset (o : Nat) : Prop := ∃ n, n < 20 ∧ (o = HBM_ECC.addr n 0 ∨ o = HBM_ECC_LAST.addr n 0)

/-- Offset of a register that a trace record, with the invalidations its write sends, or the raising of an interrupt writes (R263, R385, R393 to
R396). -/
def traceOffset (o : Nat) : Prop :=
  o = HUB_IRQ_STATUS.addr 0 0 ∨ o = HUB_DIR_INV.addr 0 0 ∨ ∃ r, r < 4 ∧ (o = TRC_WR.addr 0 r ∨ o = TRC_RD.addr 0 r ∨ o = TRC_LOST.addr 0 r)

/-- Offset of a register of the global error log (R357). -/
def glogOffset (o : Nat) : Prop := o = ERR_GLOG_CNT.addr 0 0 ∨ ∃ n, n < 16 ∧ (o = ERR_GLOG_A.addr 0 n ∨ o = ERR_GLOG_B.addr 0 n)

/-- Offset of a register that writing a private copy back to memory may write: the invalidation counter, the counts of memory errors, the global log
(R260, R263, R299). -/
def memOffset (o : Nat) : Prop := o = HUB_DIR_INV.addr 0 0 ∨ eccOffset o ∨ glogOffset o

/-- A command ran on the device alone: the tally and the queue are as they were. -/
def devOnly (s t : State) : Prop := t.tally = s.tally ∧ t.pending = s.pending

/-! ### Teams -/

/-- Offset of the register that counts rereads, where there were some (R352). -/
def replayOffset (u : Upset) (o : Nat) : Prop := u ≠ .none ∧ o = ERR_REPLAY.addr 0 0

/-- Rereads are counted (R352). -/
def replaysCounted (s t : State) (u : Upset) : Prop :=
  ∀ n, u = .replays n →
    t.dev.fld ERR_REPLAY ERR_REPLAY_COUNT = min (s.dev.fld ERR_REPLAY ERR_REPLAY_COUNT + n) (2 ^ ERR_REPLAY_COUNT.w - 1)

/-- Offsets of registers that a memory instruction or a trap writes on its way: the issue count, memory corrections, reread counts. -/
def trapOffset (c : Nat) (u : Upset) (o : Nat) : Prop := o = TME_ISSUE.addr c 0 ∨ eccOffset o ∨ replayOffset u o

/-- What slot `j` of core `c` issues next: its scheduler's turn comes to it, the fetch succeeds, and the word is legal and in range (R228 to R230,
R235, R237). -/
def Dev.issuing (d : Dev) (c j : Nat) : Option TCtx :=
  if !d.turn c j then none
  else
    match d.fetchT c j with
    | .word k _ => if tLegal k.w && tInRange k.w (8 * k.t.regs) then some k else none
    | _ => none

/-- The team of `k` has issued its instruction and stays in its slot as `y`, waiting for nothing: the instruction counter has grown, other
slots and other cores are as they were; only a STEP action parks the team again (R228, R243, R244). -/
def teamStays (s t : State) (k : TCtx) (y : Slot) : Prop :=
  devOnly s t ∧
  SMap.find (t.dev.core k.c).slots k.j = some y ∧
  t.dev.core k.c = { (s.dev.core k.c).tookBy k.j with slots := (t.dev.core k.c).slots } ∧
  (∀ i, i ≠ k.j → SMap.find (t.dev.core k.c).slots i = SMap.find (s.dev.core k.c).slots i) ∧
  (∀ c, c ≠ k.c → t.dev.core c = s.dev.core c) ∧
  y.team = k.x.team ∧ y.waiting = false ∧ y.access = none ∧ y.replay = none ∧ y.step1 = false ∧
  t.dev.fld TME_ISSUE TME_ISSUE_COUNT k.c = (s.dev.fld TME_ISSUE TME_ISSUE_COUNT k.c + 1) % 2 ^ 48 ∧
  (k.x.step1 = true → ∃ q, y.park = some q ∧ q.cause = pkStepped) ∧ (k.x.step1 = false → y.park = none)

/-- As `teamStays`; and but for registers of `p` and for a STEP action everything else is as it was. -/
def teamIssued (p : Nat → Prop) (s t : State) (k : TCtx) (y : Slot) : Prop :=
  teamStays s t k y ∧
  (k.x.step1 = false →
    t.dev = { s.dev with out := [], regs := t.dev.regs, eccCE := t.dev.eccCE, tme := t.dev.tme, free := t.dev.free } ∧
    regsAgree (fun o => o = TME_ISSUE.addr k.c 0 ∨ eccOffset o ∨ p o) s.dev t.dev)

/-- No offset. -/
def noOffset (_ : Nat) : Prop := False

/-- The lanes that issued stand behind the instruction, the others where they stood; none has exited; the reconvergence stack is as the pops
left it. -/
def teamPassed (k : TCtx) (y : Slot) : Prop :=
  y.exited = k.x.exited ∧ y.stack = k.x.stack ∧ y.pcs.length = k.x.pcs.length ∧
  ∀ l, l < k.x.pcs.length → y.pcOf l = if bitOf k.iss l then pcMask (k.pc + 8) else k.x.pcOf l

/-- The v, u and p registers of `y` are those of `k.x`. -/
def teamRegsKept (k : TCtx) (y : Slot) : Prop := y.v = k.x.v ∧ y.u = k.x.u ∧ y.p = k.x.p

/-- The registers of `y` are those of `k.x` but for the destination of `k`'s word, which holds the `n`-word values `f` of the active lanes; a u
destination takes the lowest active lane's (R230, R232). -/
def teamResult (k : TCtx) (n : Nat) (f : Nat → Nat) (y : Slot) : Prop :=
  y.p = k.x.p ∧
  (tUD k.w = false → y.u = k.x.u ∧
    (∀ l ∈ lanesOf k.act, ∀ i, i < n → tD k.w ≠ 255 → tD k.w + i ≠ 255 → y.rv (tD k.w + i) l = f l / 2 ^ (32 * i) % 2 ^ 32) ∧
    ∀ r l, l < 32 → (tD k.w = 255 ∨ r < tD k.w ∨ tD k.w + n ≤ r ∨ l ∉ lanesOf k.act) → y.rv r l = k.x.rv r l) ∧
  (tUD k.w = true → y.v = k.x.v ∧
    (∀ l, (lanesOf k.act).head? = some l → ∀ i, i < n → y.ru (tD k.w + i) = f l / 2 ^ (32 * i) % 2 ^ 32) ∧
    ∀ r, (lanesOf k.act = [] ∨ r < tD k.w ∨ tD k.w + n ≤ r) → y.ru r = k.x.ru r)

/-- The registers of `y` are those of `k.x`, and of the predicates only the destination of `k`'s word changed: it holds `f` in the active lanes. A
write to p7 is discarded (R227). -/
def teamPredicate (k : TCtx) (f : Nat → Bool) (y : Slot) : Prop :=
  y.v = k.x.v ∧ y.u = k.x.u ∧ y.p.length = k.x.p.length ∧
  (∀ i l, l < 32 → (i ≠ tD k.w ∨ l ∉ lanesOf k.act) → y.pr i l = k.x.pr i l) ∧
  ∀ l ∈ lanesOf k.act, tD k.w < k.x.p.length → tD k.w ≠ 7 → y.pr (tD k.w) l = f l

/-- Result of an integer instruction of A and B, at the width of its type (Table 11.4a). -/
def intValue (f : (ty a b wd : Nat) → Nat) (k : TCtx) (l : Nat) : Nat :=
  f (iType k.w) (k.a (iWords k.w) l) (k.bi (iWords k.w) l) (32 * iWords k.w)

/-- The integer instructions with a register result: number, command, value of a lane (class 0 of Table 11.4a). -/
def intRows : List (Nat × (Nat → Nat → Upset → Instr) × (TCtx → Nat → Nat)) :=
  [(0x0, .intAdd, intValue fun _ a b wd => (a + b) % 2 ^ wd),
   (0x1, .intSub, intValue fun _ a b wd => (a + 2 ^ wd - b % 2 ^ wd) % 2 ^ wd),
   (0x2, .intMul, intValue fun _ a b wd => a * b % 2 ^ wd),
   (0x3, .intMulhi, intValue fun ty a b wd => toTwos (iVal ty a wd * iVal ty b wd / (2 ^ wd : Nat)) wd),
   (0x4, .intMad, fun k l => (k.a (iWords k.w) l * k.b (iWords k.w) l + k.cc (iWords k.w) l) % 2 ^ (32 * iWords k.w)),
   (0x5, .intDiv, intValue fun ty a b wd => if b % 2 ^ wd = 0 then 2 ^ wd - 1 else toTwos (Int.tdiv (iVal ty a wd) (iVal ty b wd)) wd),
   (0x6, .intRem, intValue fun ty a b wd => if b % 2 ^ wd = 0 then a % 2 ^ wd else toTwos (Int.tmod (iVal ty a wd) (iVal ty b wd)) wd),
   (0x7, .intMin, intValue fun ty a b wd => if iVal ty b wd < iVal ty a wd then b else a),
   (0x8, .intMax, intValue fun ty a b wd => if iVal ty a wd < iVal ty b wd then b else a),
   (0x9, .intAnd, intValue fun _ a b _ => a &&& b),
   (0xA, .intOr, intValue fun _ a b _ => a ||| b),
   (0xB, .intXor, intValue fun _ a b _ => a ^^^ b),
   (0xC, .intShl, intValue fun _ a b wd => a * 2 ^ (b % wd) % 2 ^ wd),
   (0xD, .intShr, intValue fun ty a b wd => toTwos (iVal ty a wd / (2 ^ (b % wd) : Nat)) wd),
   (0xF, .intBit, fun k l => bitFn (tBit k.w) (k.a (iWords k.w) l) (32 * iWords k.w))]

/-- Result of a floating instruction of A, B and C, each element rounded once (R231). -/
def fpValue (f : Ex → Ex → Ex → Ex) (k : TCtx) (l : Nat) : Nat :=
  fpApply (fType k.w) f (k.a (fWords k.w) l) (k.bf (fWords k.w) l) (k.cc (fWords k.w) l)

/-- The floating instructions with a register result: number, command, value of a lane (class 1 of Table 11.4a). -/
def fpRows : List (Nat × (Nat → Nat → Upset → Instr) × (TCtx → Nat → Nat)) :=
  [(0x0, .fpAdd, fpValue fun a b _ => Ex.add a b),
   (0x1, .fpSub, fpValue fun a b _ => Ex.sub a b),
   (0x2, .fpMul, fpValue fun a b _ => Ex.mul a b),
   (0x3, .fpFma, fpValue fun a b c => Ex.add (Ex.mul a b) c),
   (0x4, .fpMin, fpValue fun a b _ => ieeeMin a b),
   (0x5, .fpMax, fpValue fun a b _ => ieeeMax a b),
   (0xD, .fpNeg, fun k l => k.a (fWords k.w) l ^^^ fSigns (fType k.w)),
   (0xF, .fpAbs, fun k l => k.a (fWords k.w) l - (k.a (fWords k.w) l &&& fSigns (fType k.w)))]

/-- The functions of one FP32 operand: number, command, code of the result (R242, Table 11.4a). -/
def fpFnRows : List (Nat × (Nat → Nat → Upset → Instr) × (Nat → Nat)) :=
  [(0x6, .fpRcp, fun x => encFp32.encodeIeee (Ex.div (Ex.ofNat 1) (ofF32 x))),
   (0x7, .fpRsqrt, fun x => encFp32.encodeIeee (Ex.rsqrt (ofF32 x))),
   (0x8, .fpSqrt, fun x => encFp32.encodeIeee (Ex.sqrt (ofF32 x))),
   (0x9, .fpExp2, f32Exp2),
   (0xA, .fpLog2, f32Log2),
   (0xB, .fpSin, f32Trig 0),
   (0xC, .fpCos, f32Trig 1)]

/-- The instructions of class 2 with a register result: number, command, words of the result, value of a lane. A `cvt` result that the spec does
not state is free and stands apart. -/
def moveRows : List (Nat × (Nat → Nat → Upset → Instr) × (Nat → Nat) × (Dev → TCtx → Nat → Nat)) :=
  [(0x0, .teamMov, movWords, fun _ k l => if tImmF k.w then toTwos (sgn (tImm k.w) 32) (32 * movWords k.w) else k.a (movWords k.w) l),
   (0x1, .movS, fun w => if bitsOf w 0 4 = 9 then 2 else 1, fun d k l => d.special k (bitsOf k.w 0 4) l),
   (0x3, .sel, fun _ => 1, fun _ k l => if k.x.pr (bitsOf k.w 0 3) l then k.a 1 l else k.b 1 l),
   (0x7, .pollMask, fun _ => 1, fun _ k _ => k.polled),
   (0x8, .xchLane, fun _ => 1, fun _ k l =>
     let t := xchLane (if tImmF k.w then 0 else bitsOf k.w 0 2) l (if tImmF k.w then tImm k.w else k.b 1 l)
     if t < 32 && bitOf k.act t then k.a 1 t else k.a 1 l)]

/-- The instructions with a predicate result: class, number, command, predicate of a lane. -/
def predRows : List (Nat × Nat × (Nat → Nat → Upset → Instr) × (TCtx → Nat → Bool)) :=
  [(0, 0xE, .intCmp, fun k l =>
     condInt (tCond k.w) (iVal (iType k.w) (k.a (iWords k.w) l) (32 * iWords k.w)) (iVal (iType k.w) (k.b (iWords k.w) l) (32 * iWords k.w))),
   (2, 0x4, .pollAny, fun k _ => k.polled != 0),
   (2, 0x5, .pollAll, fun k _ => k.polled == k.act),
   (2, 0x6, .pollLow, fun k l => (lanesOf k.act).head? == some l),
   (2, 0x9, .prd, fun k l => bitOf (k.a 1 l) (bitsOf k.w 0 5))]

/-- Does no ring take the trace records of source class `n` (R393)? -/
def tracesOff (d : Dev) (n : Nat) : Prop := 4 ≤ bitsOf (d.reg TRC_SEL) (3 * n) 3

/-- The team of slot `j` of core `c`, as `x`, has parked with record `q`: its slot holds the record and its no-progress count stands still, the
PARKED interrupt is raised, a trace record may be written; the core is `e` but for its slots; of the registers only those of `p` and of trace and
interrupt changed (R239, R243). -/
def teamParked (p : Nat → Prop) (s t : State) (c j : Nat) (e : Tme) (x : Slot) (q : Park) : Prop :=
  devOnly s t ∧
  SMap.find (t.dev.core c).slots j = some { x.still s.dev.tb.time with park := some q, replay := none, step1 := false } ∧
  t.dev.core c = { e with slots := (t.dev.core c).slots } ∧
  (∀ i, i ≠ j → SMap.find (t.dev.core c).slots i = SMap.find (s.dev.core c).slots i) ∧
  (∀ c', c' ≠ c → t.dev.core c' = s.dev.core c') ∧
  bitOf (t.dev.fld HUB_IRQ_STATUS HUB_IRQ_STATUS_CAUSE) irqParked = true ∧
  t.dev = { s.dev with
    mem := t.dev.mem, regs := t.dev.regs, lostTrace := t.dev.lostTrace, out := t.dev.out, pcie := t.dev.pcie, dir := t.dev.dir
    xacts := t.dev.xacts, nextXid := t.dev.nextXid, eccCE := t.dev.eccCE, tme := t.dev.tme, free := t.dev.free } ∧
  regsAgree (fun o => p o ∨ traceOffset o) s.dev t.dev ∧
  (tracesOff s.dev 2 → t.dev.mem = s.dev.mem ∧ t.dev.lostTrace = s.dev.lostTrace ∧ t.dev.dir = s.dev.dir ∧ t.dev.xacts = s.dev.xacts ∧
    t.dev.nextXid = s.dev.nextXid)

/-- The command of every instruction of the team engine. -/
def teamCommands : List (Nat → Nat → Upset → Instr) :=
  [.intAdd, .intSub, .intMul, .intMulhi, .intMad, .intDiv, .intRem, .intMin, .intMax, .intAnd, .intOr, .intXor, .intShl, .intShr, .intCmp, .intBit,
   .fpAdd, .fpSub, .fpMul, .fpFma, .fpMin, .fpMax, .fpRcp, .fpRsqrt, .fpSqrt, .fpExp2, .fpLog2, .fpSin, .fpCos, .fpNeg, .fpCmp, .fpAbs] ++
  [.teamMov, .movS, .teamCvt, .sel, .pollAny, .pollAll, .pollLow, .pollMask, .xchLane, .prd,
   .jmp, .rcvSet, .exit, .brk, .statNf, .teamNop, .ld, .st,
   .rmwAdd, .rmwMin, .rmwMax, .rmwAnd, .rmwOr, .rmwXor, .rmwExch, .rmwCas, .flgSet, .flgWait, .ctrAdd, .ctrWait, .fence]

/-- The memory instructions: class, numbers, command, whether registers are written at completion (R233, R236). -/
def accessRows : List (Nat × (Nat → Bool) × (Nat → Nat → Upset → Instr) × Bool) :=
  [(4, (· == 0), .ld, true), (4, (· == 1), .st, false),
   (5, (· % 8 == 0), .rmwAdd, true), (5, (· % 8 == 1), .rmwMin, true), (5, (· % 8 == 2), .rmwMax, true), (5, (· % 8 == 3), .rmwAnd, true),
   (5, (· % 8 == 4), .rmwOr, true), (5, (· % 8 == 5), .rmwXor, true), (5, (· % 8 == 6), .rmwExch, true), (5, (· % 8 == 7), .rmwCas, true)]

/-- Core `c` and its die hold no private copy of an atomic (R260). -/
def noCopies (d : Dev) (c : Nat) : Prop := SMap.get [] d.coreCopy c = [] ∧ SMap.get [] d.dieCopy (dieOf c) = []

/-- The team of `k` waits for the responses of access `a`, and its scheduler's memory stage is occupied for the access's cycles; other slots and cores
are as they were (R235). -/
def teamAccesses (s t : State) (k : TCtx) (a : Access) : Prop :=
  devOnly s t ∧
  SMap.find (t.dev.core k.c).slots k.j = some { k.x with access := some a } ∧
  t.dev.core k.c = { (s.dev.core k.c).tookBy k.j with
    slots := (t.dev.core k.c).slots
    busy := SMap.put 0 (s.dev.core k.c).busy (k.j % 4) (s.dev.tb.time + s.dev.coreNs k.c (TCtx.stage k)) } ∧
  (∀ i, i ≠ k.j → SMap.find (t.dev.core k.c).slots i = SMap.find (s.dev.core k.c).slots i) ∧
  (∀ c, c ≠ k.c → t.dev.core c = s.dev.core c)

/-- Does a lane of `k` read an uncorrectable HBM word of this device (R299)? -/
def laneUE (d : Dev) (k : TCtx) : Prop :=
  ∃ l ∈ lanesOf k.act, ∃ a, d.target (k.addr l) (mBytes k.w) = .mem a ∧ a < hbmSize ∧ d.ueIn a (mBytes k.w) ≠ none

/-- The slot of `k` is a team that waits at a flag or counter behind its instruction. -/
def teamWaits (s t : State) (k : TCtx) : Prop :=
  devOnly s t ∧
  SMap.find (t.dev.core k.c).slots k.j =
    some { (k.x.setPcs k.iss (pcMask (k.pc + 8))).still s.dev.tb.time with waiting := true, replay := none } ∧
  t.dev.core k.c = { (s.dev.core k.c).tookBy k.j with slots := (t.dev.core k.c).slots } ∧
  (∀ i, i ≠ k.j → SMap.find (t.dev.core k.c).slots i = SMap.find (s.dev.core k.c).slots i) ∧
  (∀ c, c ≠ k.c → t.dev.core c = s.dev.core c)

/-! ### Furrows -/

/-- The operation `op` of the descriptor `i` in progress at furrow `f` is to be performed. -/
def Dev.performs (d : Dev) (f op : Nat) (i : FItem) : Prop :=
  (d.frw f).cur = some i ∧ i.d.op = op ∧ (d.frw f).done = false ∧ d.frwErr f = 0

/-- Furrow `f` has performed its operation; the other furrows are as they were. -/
def furrowDone (s t : State) (f : Nat) : Prop :=
  devOnly s t ∧ t.dev.frw f = { s.dev.frw f with done := true } ∧ ∀ g, g ≠ f → t.dev.frw g = s.dev.frw g

/-- Furrow `f` has performed an operation that may write memory: where sharers' copies are invalidated, its completion awaits their answers (R263);
the other furrows are as they were. -/
def furrowWrote (s t : State) (f : Nat) : Prop :=
  devOnly s t ∧ t.dev.frw f = { s.dev.frw f with done := true, held := (s.dev.frw f).held + b2n (!t.dev.invs.isEmpty) } ∧
  ∀ g, g ≠ f → t.dev.frw g = s.dev.frw g

/-- The local SIGNAL `w` with the value `v` has been performed (R58): its flag is set, its counter has grown modulo 2^64, and no other. -/
def signalled (d d' : Dev) (w v : Nat) : Prop :=
  (∀ i, d'.flags.has i = ((sigKind w == 1 && i == sigIndex w) || d.flags.has i)) ∧
  ∀ i, d'.ctr i = if 2 ≤ sigKind w ∧ i = sigIndex w then (d.ctr i + v) % 2 ^ 64 else d.ctr i

/-- The wait of a furrow's head at the synchronisation unit (R56, Table 3.3). -/
def headWait (f : Nat) (i : FItem) : Waiter :=
  let w := i.d.wait.toNat
  ⟨false, f, 0, waitKind w == 2, waitIndex w, if waitKind w = 2 then waitThr w else 0, waitConsume w⟩

/-! ### The matrix array and the tilth units -/

/-- The matrix operations: opcode and command (R87, R170). -/
def mmRows : List (Nat × (Nat → Upset → Instr)) := [(opMmF, .mmF), (opMmBd, .mmBd), (opMmBw, .mmBw), (opMmBx, .mmBx)]

/-- The FP32 code `y` stands for the sum `q` of a chain of `k` products: an infinity or NaN as IEEE 754 adds them (R118); otherwise a value within
the bound of R116, or of R117 with `extra` 3, or the nearest one; where the addends of one sign leave the FP32 range a partial sum may saturate. -/
def sumStands (y : Nat) (q : Sum) (k extra : Nat) : Prop :=
  match q.spec with
  | some x => y = toF32 x
  | none =>
    y = (encFp32.encode (.fin (decide (q.exact < 0)) q.exact.natAbs (-320))).1 ∨ (q.mag = 0 ∧ y = 0) ∨ 2 ^ 447 ≤ max q.pos q.neg ∨
      ∃ n m e, ofF32 y = .fin n m e ∧
        (65536 < k ∨ boundOk (signedAt n m e (-320)) q.exact q.mag (clog2 k + extra) (if q.dips then k * 2 ^ 195 else 0) = true)

/-- Rows of values encoded in a format, row by row (R148, R156). -/
def zRows (fz : Fmt) (vs : List (List V)) : Rows := vs.map fun r => let e := fz.encRow (r.map V.x); (e.1, e.2.map Enc.code)

/-- The result rows of a tilth operation of X, and of Y where it reads one (R178, R182, R183, R194 to R196). -/
abbrev TilthFn := Dev → FItem → Til → List (List Ex) → Option (List (List Ex)) → List (List V)

/-- The tilth operations with dense results and no statistics plane: opcode, command, columns of Z, rows of Z. -/
def tilthRows : List (Nat × (Nat → Upset → Instr) × (Til → Nat) × TilthFn) :=
  [(opElt, .elt, Til.len, fun _ _ x xs ys => (xs.zip (ys.getD xs)).map fun r => (r.1.zip r.2).map fun e => eltF x.func e.1 e.2 (ofF32 x.scalar)),
   (opRed1, .red1, fun _ => 1, fun d _ x xs _ => xs.zipIdx.map fun r => [red1F x.func d.free r.2 r.1]),
   (opNrmB, .nrmB, Til.len, fun d _ x xs ys => (xs.zip (ys.getD xs)).zipIdx.map fun r =>
     nrmB d.free r.2 (x.func == 0x20) (ofF32 (d.readN (x.x + regionBytes (d.hdr x.x != hPlain) x.rows x.len ((Fmt.ofCode x.xfmt).getD .fp32) + 4 * r.2) 4))
       r.1.1 r.1.2),
   (opSmxB, .smxB, Til.len, fun d _ _ xs ys => (xs.zip (ys.getD xs)).zipIdx.map fun r => smxB d.free r.2 r.1.1 r.1.2),
   (opCvt, .cvt, Til.len, fun _ _ _ xs _ => xs.map fun r => r.map V.of),
   (opRng, .rngDrop, Til.len, fun d i x xs _ => xs.zipIdx.map fun r => r.1.zipIdx.map fun e =>
     dropV d.seed i.step (x.scalar / 65536) (x.y + x.len * r.2 + e.2) (x.scalar % 65536) (V.of e.1))]

/-- RED2's rows with their statistics (R196). -/
def red2Rows (d : Dev) (x : Til) (xs : List (List Ex)) (ys : Option (List (List Ex))) : List (List V × V) :=
  (xs.zip (match ys with | some l => l.map some | none => xs.map fun _ => none)).zipIdx.map fun r =>
    if x.func = 0x10 then layerNorm d.free r.2 (ofF32 x.scalar) r.1.2 r.1.1
    else if x.func = 0x11 then rmsNorm d.free r.2 (ofF32 x.scalar) r.1.2 r.1.1
    else (softMax d.free r.2 (ofF32 x.scalar) r.1.2 r.1.1, V.of Ex.zero)

/-- What a tilth operation at plot `p` reads, when its formats are known, the plot is the sheaf's and its panels are well formed: X and its format,
the format of Z, the rows of X and of Y (a broadcast Y repeated). -/
def tilthReads (d : Dev) (x : Til) (p : Nat) (fx fz : Fmt) (ox : Opnd) (ys : Option (List (List Ex))) : Prop :=
  Fmt.ofCode x.xfmt = some fx ∧ Fmt.ofCode x.zfmt = some fz ∧ d.plotOk p = true ∧
  match Fmt.ofCode x.yfmt with
  | none => d.tltRead x fx none = .inl (ox, none) ∧ ys = none
  | some fy => ∃ oy, d.tltRead x fx (some fy) = .inl (ox, some oy) ∧
      ys = some (if x.bcast then List.replicate x.rows ((List.range x.len).map fun j => oy.val fy 0 j) else opRows oy fy x.rows x.len)

/-! ### Movers, headland, harrow -/

/-- Memory after a MOV's rows are copied in order, each as the copies before it left it. -/
def movedMem (d : Dev) (m : MovOp) : Mem :=
  (List.range m.rows).foldl (fun M r => match d.movRow m r with | some (a, b) => Mem.write M b (Mem.read M a m.rowBytes) | none => M) d.mem

/-- The headland operations: opcode and command (R96). -/
def hdlRows : List (Nat × (Nat → Upset → Instr)) := [(opPut, .hdlPut), (opGet, .hdlGet), (opAcc, .hdlAcc)]

/-- The bytes of record `r` after a verdict is applied to it (R215, R216, R218, R219): the slot of the step is zeroed; under COMMIT a record whose
counter stands at STEPC counts on, and is updated unless it is frozen. -/
def recAfter (a : Applying) (seed : Nat) (M : Mem) (r : Nat) : List Byte :=
  let at_ := a.p.base + 512 * r
  let b := Mem.read M at_ 512
  let zero (b : List Byte) : List Byte := putBytes b (128 * a.slot) (List.replicate 128 0)
  let counted (b : List Byte) : List Byte := putBytes b 0x1F4 (leBytes 4 (a.p.stepc + 1))
  if a.commit = false ∨ leNat (Mem.read M (at_ + 0x1F4) 4) ≠ a.p.stepc then zero b
  else if a.u.frozen = true ∨ bitOf (leNat (Mem.read M (at_ + 0x1F3) 1)) 0 = true then zero (counted b)
  else zero (counted (updRecord a.u a.p a.p.stepc seed a.slot a.dv a.ls (fun _ => ⟨Ex.zero, Ex.zero, Ex.zero⟩) r b).bytes)

/-- Memory after a verdict is applied to every record of the stack and, under COMMIT, the group's count of the stack goes on. -/
def recordsMem (a : Applying) (seed : Nat) (M : Mem) : Mem :=
  let M := (recordsIn a.p a.s).foldl (fun M r => Mem.write M (a.p.base + 512 * r) (recAfter a seed M r)) M
  if a.commit then Mem.write M (a.u.record + 0xA0 + 4 * a.s) (leBytes 4 (a.p.stepc + 1)) else M

/-! ### Registers and host accesses -/

/-- A field after a write of the whole register: RW takes the bits written, RW1C loses those written with 1, every other type stays (R8). -/
def fieldAfter (f : FldDef) (old w : Nat) : Nat :=
  match f.ty with
  | .rw => bitsOf w f.lo f.w
  | .rw1c => old - (old &&& bitsOf w f.lo f.w)
  | _ => old

/-- Registers of the hub whose write has no effect beyond its fields: event and status registers with RW1C, RC and RO fields, enables, limits. -/
def plainRegs : List RegDef := [HUB_LS_EVT, CLK_TB_STATUS, HUB_IRQ_STATUS, HUB_IRQ_EN, PWR_EVT, CLK_STATUS, RST_CFG, IST_LINK]

/-- Registers of the hub with fields that a read clears. -/
def rcRegs : List RegDef := [ADM_BREACH, HUB_LS_EVT, PWR_EVT, HUB_DIR_BACKINV, HUB_DIR_INV, HUB_COMB]

/-- Offsets of a log's registers. -/
def logOffset (q : RegDef × RegDef × RegDef) (u o : Nat) : Prop :=
  o = q.1.addr u 0 ∨ ∃ i, i < 16 ∧ (o = q.2.1.addr u i ∨ o = q.2.2.addr u i)

/-! ### The job -/

/-- The device as the end of the admission check finds it: CHECKING is clear, and JOB_ID is shown where its word was read (R45). -/
def Dev.checkedWith (d : Dev) (image : List Byte) (fail : Option Nat) : Dev :=
  let b := image.take d.seqLen
  let d' := ({ d with out := [] }).setFld ADM_STATUS ADM_STATUS_CHECKING 0
  if 256 ≤ d.seqLen ∧ 0x24 ≤ (readFail d.seqLen b.length fail).getD d.seqLen then d'.setFld ADM_STATUS ADM_STATUS_JOB_ID (imgNum b 0x20 4) else d'

/-- The result of a check shows in ADM_STATUS.CODE and the details, and ADMISSION is raised (R45, R417, Table 19.2). -/
def admissionShows (t : State) (code d0 : Nat) : Prop :=
  t.dev.checking = false ∧ t.dev.fld ADM_STATUS ADM_STATUS_CODE = code ∧ t.dev.reg ADM_DETAIL0 = d0 ∧
  bitOf (t.dev.fld HUB_IRQ_STATUS HUB_IRQ_STATUS_CAUSE) irqAdmission = true

/-- Nothing was admitted: what the device holds is as it was. -/
def notAdmitted (s t : State) : Prop :=
  t.dev.sheaf = s.dev.sheaf ∧ t.dev.admitted = s.dev.admitted ∧ t.dev.running = s.dev.running ∧ t.dev.furrows = s.dev.furrows ∧
  t.dev.mem = s.dev.mem ∧ t.dev.decls = s.dev.decls ∧ t.dev.copies = s.dev.copies ∧ t.dev.job = s.dev.job

/-- Is a flag or counter one of those a sheaf declares (R34)? -/
def declaredBy (sh : Sheaf) (ctr : Bool) (i : Nat) : Bool :=
  sh.sync.any fun x => x.ctr == ctr && decide (x.first ≤ i) && decide (i < x.first + x.count)

/-- The run of sheaf `sh` has faulted with report `r`: the fault registers show it, every engine has abandoned its work, no deadline is open, inbound
commands are refused, ramp-down begins, the tally is told and JOB_FAULT is raised (R358 to R361, Table 18.4). -/
def jobFaulted (s t : State) (sh : Sheaf) (r : FaultRep) : Prop :=
  t.dev.fld ERR_FAULT ERR_FAULT_CAUSE = r.cause % 2 ^ 8 ∧ t.dev.fld ERR_FAULT ERR_FAULT_VALID = 1 ∧
  t.dev.fld ERR_FAULT ERR_FAULT_FURROW = r.furrow % 2 ^ 16 ∧ t.dev.fld ERR_FAULT ERR_FAULT_TAG = r.tag % 2 ^ 32 ∧
  t.dev.fld ERR_FAULT_B ERR_FAULT_B_STEP = r.step % 2 ^ 32 ∧ t.dev.fld ERR_FAULT_B ERR_FAULT_B_JOB_ID = sh.jobId % 2 ^ 32 ∧
  t.dev.reg ERR_FAULT_T = s.dev.tb.time % 2 ^ 64 ∧
  t.dev.fld ERR_FAULT_U ERR_FAULT_U_DETAIL = r.detail % 2 ^ 8 ∧ t.dev.fld ERR_FAULT_U ERR_FAULT_U_KIND = r.kind % 2 ^ 4 ∧
  t.dev.fld ERR_FAULT_U ERR_FAULT_U_UNIT = r.unit % 2 ^ 12 ∧ t.dev.fld ERR_FAULT_U ERR_FAULT_U_ORIGIN = r.origin % 2 ^ 16 ∧
  t.dev.running = false ∧ t.dev.sheaf = some sh ∧
  t.dev.job = { s.dev.job with faulted := true, aborting := true, abortAt := s.dev.tb.time, refuseInbound := true, ivals := [] } ∧
  t.dev.mxa = [] ∧ t.dev.waits = [] ∧ t.dev.capture = none ∧ t.dev.gov.gate = [] ∧ t.dev.gov.ramp = true ∧ t.dev.gov.active = false ∧
  (s.dev.running = true → ∀ g ∈ sh.frws, (t.dev.frw g.f).cur = none) ∧
  t.dev.flags = s.dev.flags ∧ t.dev.ctrs = s.dev.ctrs ∧ t.dev.seals = s.dev.seals ∧ t.dev.decls = s.dev.decls ∧
  t.dev.fld PWR_STATUS PWR_STATUS_RAMP_DOWN = 1 ∧ (s.dev.busOk = true → Out.tlyToken s.dev.tb.time sh.jobId 3 ∈ t.dev.out) ∧
  bitOf (t.dev.fld HUB_IRQ_STATUS HUB_IRQ_STATUS_CAUSE) irqJobFault = true

/-- A JOB reset has run (R372, Table 18.11): no sheaf, no work, no flag, counter, team, accumulator or cached line is left; seals and loss scale
are as they were; LAST shows it, and BUSY is set. -/
def jobCleared (s t : State) : Prop :=
  devOnly s t ∧ t.dev.sheaf = none ∧ t.dev.admitted = false ∧ t.dev.running = false ∧ t.dev.checking = false ∧
  t.dev.flags = [] ∧ t.dev.ctrs = [] ∧ t.dev.decls = [] ∧ t.dev.waits = [] ∧ t.dev.mxa = [] ∧ t.dev.tme = [] ∧ t.dev.copies = [] ∧
  t.dev.l1 = [] ∧ t.dev.cplot = [] ∧ t.dev.coreCopy = [] ∧ t.dev.dieCopy = [] ∧ t.dev.dir = [] ∧ t.dev.capture = none ∧
  t.dev.job.faulted = false ∧ t.dev.job.aborting = false ∧ t.dev.job.ivals = [] ∧
  (∀ f, (t.dev.frw f).cur = none ∧ (t.dev.frw f).fifo = [] ∧ (t.dev.frw f).infl = [] ∧ (t.dev.frw f).frames = [] ∧ (t.dev.frw f).held = 0) ∧
  t.dev.seals = s.dev.seals ∧ t.dev.lsLast = s.dev.lsLast ∧ t.dev.fld RST_STATUS RST_STATUS_LAST = 2 ∧ t.dev.acks = [] ∧
  t.dev.fld RST_STATUS RST_STATUS_BUSY = 1

/-- Memory after a reset that keeps the plots of `keep`: HBM and those plots as they were, every other byte 0 (Table 18.11). -/
def memKept (s t : State) (keep : Nat → Bool) : Prop :=
  ∀ x, t.dev.mem.byte x = if keptAt keep x then s.dev.mem.byte x else 0

/-! ### Power -/

/-- An access is refused: one error response, an entry with the cause in the global log where it has room, and nothing else changes (R355, R357). -/
def refusedAs (s t : State) (cause : Nat) : Prop :=
  devOnly s t ∧ t.dev = { s.dev with out := [.err], regs := t.dev.regs } ∧ regsAgree glogOffset s.dev t.dev ∧
  (bitsOf (s.dev.reg ERR_GLOG_CNT) 0 5 < 16 →
    bitsOf (t.dev.reg ERR_GLOG_CNT) 0 5 = bitsOf (s.dev.reg ERR_GLOG_CNT) 0 5 + 1 ∧
    bitsOf (t.dev.reg ERR_GLOG_A 0 (bitsOf (s.dev.reg ERR_GLOG_CNT) 0 5)) 48 8 = cause)

/-- A contract breach with `cause` is counted, shown and raised (R49). -/
def breached (s t : State) (cause : Nat) : Prop :=
  t.dev.fld ADM_BREACH ADM_BREACH_COUNT = min (s.dev.fld ADM_BREACH ADM_BREACH_COUNT + 1) (2 ^ 32 - 1) ∧
  t.dev.fld ADM_BREACH_LAST ADM_BREACH_LAST_CAUSE = cause ∧ bitOf (t.dev.fld HUB_IRQ_STATUS HUB_IRQ_STATUS_CAUSE) irqBreach = true

/-- Ranges of the envelope registers FLOOR (0), CEILING (1), SLEW (2), START (3) and END (4) (Table 15.5). -/
def inEnvelope (d : Dev) (which v : Nat) : Prop :=
  (which = 0 ∧ v ≤ 4400 ∧ v ≤ d.fld PWR_CEIL PWR_CEIL_W) ∨
  (which = 1 ∧ 1000 ≤ v ∧ v ≤ 4400 ∧ d.fld PWR_FLOOR PWR_FLOOR_W ≤ v) ∨
  (which = 2 ∧ 1 ≤ v ∧ v ≤ 10000) ∨
  ((which = 3 ∨ which = 4) ∧ v ≤ d.fld PWR_CEIL PWR_CEIL_W)

/-- Does DEEP keep the byte at `a`: HBM, a plot with RETAIN or whose island stays enabled, a tile buffer whose island does (R189, R316)? -/
def keptDeep (d : Dev) (a : Nat) : Bool :=
  match region a with
  | .plot p => d.islandEn CLK_EN_DEEP (plotIsland (p / 16)) || d.bit TLT_CFG TLT_CFG_RETAIN p
  | .tile c => d.islandEn CLK_EN_DEEP (coreIsland c)
  | _ => true

/-- Does leaving DEEP keep the byte at `a`: all but plots whose island was enabled in DEEP and that have no RETAIN (R189)? -/
def keptWaking (d : Dev) (a : Nat) : Bool :=
  match region a with
  | .plot p => !d.islandEn CLK_EN_DEEP (plotIsland (p / 16)) || d.bit TLT_CFG TLT_CFG_RETAIN p
  | _ => true

/-- Draw of the package in half milliwatts as a list of rail samples gives it (R303). -/
def railsDraw (rails : List (Nat × Nat)) : Nat := ((rails.take 27).map fun p => 2000 * p.1).foldl (· + ·) 0

/-- Neither a compute die nor a stack is at the trip's temperature (R311). -/
def noTrip (temps : List Nat) : Prop := ∀ i, i < 30 → temps[i]?.getD 0 < 110

/-- What the pattern generators of the cores and the inserted reads of the plots draw, in half milliwatts: 0.75 W a level and 0.8 W a plot (R308). -/
def patternDraw (d : Dev) : Nat :=
  1500 * ((List.range 140).map fun c => SMap.get 0 d.gov.mxaFill c).sum + 1600 * ((List.range 160).filter fun p => d.gov.plotFill.has p).length

/-- No trace record of inserted work or of the hub is written (R393). -/
def tracesQuiet (d : Dev) : Prop := d.bit TRC_SEL TRC_SEL_FILL = false ∧ 4 ≤ bitsOf (d.reg TRC_SEL) 0 3

/-- A tick of the governor at which no die trips and no reset ends takes `s` to `t`. -/
def ticks (s t : State) : Prop :=
  ∃ rails temps, noTrip temps ∧ s.dev.live = true ∧ s.dev.boot.soft = none ∧ exec (.governorTick rails temps) s = .next t

/-! ### Clocks and time base -/

/-- Is port `p` enabled, and neither up nor training? -/
def Dev.waitsToTrain (d : Dev) (p : Nat) : Prop :=
  d.bit HDL_CFG HDL_CFG_ENABLE p = true ∧ d.portState p ≠ portUp ∧ d.portState p ≠ portTraining

/-- Offset and delay of a time-base exchange, in ns: half the difference and half the sum of the two directions (R286). -/
def tbOffset (t1 t2 t3 now : Nat) : Int := (((t2 : Int) - t1) - ((now : Int) - t3)) / 2
def tbDelay (t1 t2 t3 now : Nat) : Int := (((t2 : Int) - t1) + ((now : Int) - t3)) / 2

/-- No stack trains. -/
def noneTrains (d : Dev) : Prop := ∀ m, m < 20 → d.fld HBM_STATUS HBM_STATUS_STATE m ≠ 1

/-- The device has booted from firmware slot `i`: READY shows it, BOOT is raised (R388, R389). -/
def booted (t : State) (i : Nat) : Prop :=
  t.dev.bit HUB_BOOT HUB_BOOT_READY = true ∧ t.dev.fld HUB_BOOT HUB_BOOT_SLOT = i ∧ t.dev.boot.booted = some i ∧ t.dev.boot.booting = false ∧
  bitOf (t.dev.fld HUB_IRQ_STATUS HUB_IRQ_STATUS_CAUSE) irqBoot = true

/-! ### Ports and arriving commands -/

/-- A command reaches this device at port `p` and is for it (R274, R361). -/
def Dev.receives (d : Dev) (p : Nat) (h : Cmd) : Prop :=
  d.live = true ∧ p < 60 ∧ d.portIsUp p = true ∧ h.dst = d.devId ∧ d.job.refuseInbound = false

/-- Where a port that is UP takes it, the RESPONSE to `h` is the last thing that left (R277, R280); where the command invalidated sharers it is put
aside until they have answered (R263). -/
def answered (s t : State) (h : Cmd) (status : Nat) (data : List Byte) : Prop :=
  (t.dev.invs = [] → ∀ q, s.dev.egress h.src s.dev.devId h.addr = .up q → t.dev.out.getLast? = some (.rsp h.src h.xid status data)) ∧
  (t.dev.invs ≠ [] → ∃ c : Cmd, c.src = h.src ∧ c.xid = h.xid ∧ t.dev.acks = s.dev.acks ++ [(t.dev.invs, .rsp c status data)])

/-- On every die the lane tree and the bank tree agree, as Table 16.5 asks. -/
def Dev.treesAgree (d : Dev) : Prop := ∀ die, die < 10 → d.treesOff die = false

/-- Memory, flags and counters are as they were. -/
def dataKept (s t : State) : Prop := t.dev.mem = s.dev.mem ∧ t.dev.flags = s.dev.flags ∧ t.dev.ctrs = s.dev.ctrs

/-- No uncorrectable word of HBM lies in `[a, a + n)` (R299). -/
def Dev.readsWell (d : Dev) (a n : Nat) : Prop := a < hbmSize → d.ueIn a n = none

/-- Only the counter that RCOUNT names grew, by `n` (R285). -/
def rcounted (s t : State) (h : Cmd) (n : Nat) : Prop :=
  t.dev.flags = s.dev.flags ∧
  ∀ j, t.dev.ctr j = if Cmd.rcount h = true ∧ j = h.rcounter then (s.dev.ctr j + n) % 2 ^ 64 else s.dev.ctr j

/-- Memory after an ACC of `k` elements from `a` up, each read as the elements before it left it (R197). -/
def accMem (f : Fmt) (aop : Nat) : Nat → Nat → List Byte → Mem → Mem
  | 0, _, _, M => M
  | k + 1, a, bs, M =>
    accMem f aop k (a + f.bits / 8) (bs.drop (f.bits / 8))
      (Mem.write M a (leBytes (f.bits / 8) (accEl f aop (leNat (Mem.read M a (f.bits / 8))) (leNat (bs.take (f.bits / 8)))).code))

/-- Memory after a team's sector is stored: the bytes of its mask change (R255). -/
def sectorMem (M : Mem) (x : Nat × Nat × List Byte) : Mem :=
  Mem.write M (x.1 + maskLo x.2.1)
    ((Mem.read M (x.1 + maskLo x.2.1) (maskHi x.2.1 - maskLo x.2.1)).zipIdx.map fun q =>
      if bitOf x.2.1 (maskLo x.2.1 + q.2) then (x.2.2[maskLo x.2.1 + q.2]?).getD q.1 else q.1)

/-- Address of the slot of step `k` in record `i` of a landing, in the group at `gp` (R206, Table 10.1). -/
def landAddr (gp : HGroup) (l : Land) (k i : Nat) : Nat := gp.base + 512 * (l.r0 + i) + 128 * (k % 2)

/-- Memory after a record's payload `v` of 32 elements is added at `a`, each sum exact and rounded once (R197, R207). -/
def landMem (f : Fmt) (a v : Nat) (M : Mem) : Mem :=
  (List.range 32).foldl (fun M e =>
    Mem.write M (a + 4 * e)
      (leBytes 4 (toF32 (fl32 (Ex.add (ofF32 (leNat (Mem.read M (a + 4 * e) 4))) (f.value (bitsOf v (e * f.bits) f.bits) 0))).1))) M

/-- The commands that a job fault refuses (R361): opcode and command with its payload. -/
def inboundRows : List (Nat × (Nat → Cmd → List Byte → Bool → Upset → Instr)) :=
  [(1, fun p h b _ _ => .put p h b), (2, fun p h _ comb u => .get p h comb u), (3, fun p h b _ u => .acc p h b u),
   (4, fun p h _ _ _ => .signalSet p h), (5, fun p h _ _ _ => .signalAdd p h),
   (8, .load), (9, fun p h b _ _ => .store p h b), (10, .atomic)]

/-- The commands that carry a payload (Table 13.4). -/
def payloadOps : List Nat := [1, 3, 8, 9, 10]

/-! ### Responses, route epochs, tokens -/

/-- Outstanding transaction `x` is the one that `xid` names. -/
def Dev.outstanding (d : Dev) (xid : Nat) (x : Xact) : Prop := (d.xacts.find? fun y => y.xid == xid) = some x

/-- The transaction `xid` has ended; the others stand (R277). -/
def settled (s t : State) (xid : Nat) : Prop := t.dev.xacts = s.dev.xacts.filter fun y => y.xid != xid

/-- A token reaches this device at port `p` and is for it (R278). -/
def Dev.receivesTok (d : Dev) (p : Nat) (k : Tok) : Prop := d.live = true ∧ p < 60 ∧ d.portIsUp p = true ∧ k.dst = d.devId ∧ k.rsvd = false

/-- The token belongs to the run of the admitted sheaf (R278). -/
def Dev.ofThisRun (d : Dev) (k : Tok) : Prop := d.admitted = true ∧ k.jobId = d.jobId ∧ k.gen0 = d.gen0

/-! ### Management -/

/-- Only the answer `o` left, and of the device only its management part may have changed. -/
def answeredMgmt (s t : State) (o : Out) : Prop := devOnly s t ∧ t.dev = { s.dev with out := [o], mgmt := t.dev.mgmt }

/-- An SPDM answer with `code` ends in 96 bytes of signature (R390). -/
def signedAs (s t : State) (code : Nat) (body : List Byte) : Prop :=
  devOnly s t ∧ ∃ sig, t.dev.out = [.spdm code (body ++ sig)] ∧ t.dev = { s.dev with out := t.dev.out, mgmt := t.dev.mgmt, free := t.dev.free }

/-- The registers that the recovery of a slot, or a boot, may not disturb: memory and work. -/
def workKept (s t : State) : Prop :=
  t.dev.mem = s.dev.mem ∧ t.dev.flags = s.dev.flags ∧ t.dev.ctrs = s.dev.ctrs ∧ t.dev.sheaf = s.dev.sheaf ∧ t.dev.job = s.dev.job

/-! ### The tally -/

/-- A command ran on the tally alone: the device, but for what left it, and the queue are as they were. -/
def tallyOnly (s t : State) : Prop := t.dev = { s.dev with out := [] } ∧ t.pending = s.pending

/-- Energy that channel `c` adds in the sample period of the reading `r`, in µWh with 32 fraction bits; zero out of service (R340, R344). -/
def tallyStep (t : Tally) (c : Nat) (r : Reading) : Nat :=
  if t.deadCh c then 0 else tlyEnergyOf (tlyV (t.cal.getD c .factory) r) (tlyLimit c (tlyI c (t.cal.getD c .factory) r))

/-- Does channel `c` begin an episode over range (R340)? -/
def overBegins (t : Tally) (c : Nat) (r : Reading) : Bool :=
  !t.deadCh c && tlyOver c (tlyI c (t.cal.getD c .factory) r) && !t.overRange.has c

/-- A log entry of now. -/
def tallyEntry (t : Tally) (code detail : Nat) : TlyEvt := ⟨code, t.secs, t.energy / 2 ^ 32, detail⟩

/-- The tally after it has metered the energies `e` of the channels in one sample period, `n` of them the second's last: sums, pulses and time
(R340, R342, R346). -/
def metered (t t' : Tally) (e : Nat → Nat) : Prop :=
  t'.energy = t.energy + ((List.range 16).map e).sum ∧
  (t.ch.length = 16 → ∀ c, c < 16 → t'.ch.getD c 0 = t.ch.getD c 0 + e c) ∧
  t'.pulses + t.energy / (2 ^ 32 * 10000) = t.pulses + t'.energy / (2 ^ 32 * 10000) ∧
  (t.energy / (2 ^ 32 * 10000) < t'.energy / (2 ^ 32 * 10000) → t'.pulseLow = true) ∧
  (t.samples + 1 < 8000 → t'.samples = t.samples + 1 ∧ t'.secs = t.secs) ∧
  (t.samples + 1 = 8000 → t'.samples = 0 ∧ t'.secs = (t.secs + 1) % 2 ^ 48 ∧ t'.annRate = 0) ∧
  t'.cal = t.cal ∧ t'.sealed = t.sealed ∧ t'.nv = t.nv ∧ t'.ann = t.ann ∧ t'.powered = t.powered

/-- The commands that may change the tally: its own samples and tests, its supply and crystal, its port, its receiver (R338). -/
def tallyCommand : Instr → Bool
  | .tallySample _ | .pulseEnd | .nvCopy | .powerDown | .powerUp _ _ _ _ | .selftest _ _ _ | .xtalLost | .xtalBack | .i2cWrite _ _ _ _ _
  | .tlySealCmd _ _ | .sealKeyTimeout | .tokenFrame _ => true
  | _ => false

/-- A non-volatile copy holds energies that belong together. -/
def NvWf (c : NvCopy) : Prop := c.ch.length = 16 ∧ c.ch.sum = c.energy ∧ c.secs < 2 ^ 48

/-- The tally's invariant: sixteen channels, whose energies sum to the package's; at most 1,024 log entries, events lost only once they are all in
use; at most 4,096 annotations; indices within their ranges; at most two non-volatile copies, each as whole (R340, R343, R346, R347, R351). -/
structure TallyWf (t : Tally) : Prop where
  channels : t.cal.length = 16 ∧ t.ch.length = 16 ∧ t.chNow.length = 16
  energies : t.ch.sum = t.energy
  log : t.log.length ≤ 1024 ∧ (0 < t.lost → t.log.length = 1024) ∧ t.lost < 2 ^ 32
  full : ∀ e, t.log[1023]? = some e → e.code = 0x7F
  annotations : t.ann.length ≤ 4096 ∧ t.annRate ≤ 1000 ∧ t.annCnt < 2 ^ 32 ∧ t.annBad < 2 ^ 32
  time : t.secs < 2 ^ 48 ∧ t.samples < 8000
  select : t.chSel < 16 ∧ t.logSel < 1024 ∧ t.annSel < 4096
  copies : t.nv.length ≤ 2 ∧ ∀ c ∈ t.nv, NvWf c

/-- What no step takes from the tally: log entries are never altered or erased (R346), pulses are never taken back, a seal is never undone and
holds the calibration (R345). -/
def tallyKept (t t' : Tally) : Prop :=
  t.log <+: t'.log ∧ t.pulses ≤ t'.pulses ∧ (t.sealed = true → t'.sealed = true ∧ t'.cal = t.cal)

end Sys2Proof.Machine
end

