-- ==== Sys2Proof/WellFormed.lean ====
section
/-! DEFINITION. Which commands name things that the device has (Table 0.3 and the tables of each unit). A command that is not
well formed names a unit, register, index or step that does not exist; it runs into the fault noSuchUnit. -/
namespace Sys2Proof
open Sys2Proof.Machine

/-- Every operand of a command names something that the device has. -/
def Instr.wf : Instr → Bool
  | .registerWrite _ off size _ => decide (off < 2 ^ 32) && decide (size ≤ 8)
  | .rcRead _ off size => decide (off < 2 ^ 32) && decide (size ≤ 8)
  | .hostRead bar off len _ => inBar bar off len
  | .hostWrite bar off bytes => inBar bar off bytes.length
  | .elogClear _ off _ => isLogCnt off
  | .submit _ => true
  | .admissionComplete _ _ => true
  | .sheafCopyComplete => true
  | .start _ => true
  | .finish _ => true
  | .loaderAppend f => isFurrow f
  | .fetchBurstArrival f => isFurrow f
  | .descriptorBegin f _ => isFurrow f
  | .descriptorComplete f => isFurrow f
  | .frwHold _ f _ => isFurrow f
  | .nop f => isFurrow f
  | .waitOp f => isFurrow f
  | .waitDelayExpiry f => isFurrow f
  | .signal f => isFurrow f
  | .call f => isFurrow f
  | .ret f => isFurrow f
  | .trcMark f => isFurrow f
  | .fill f => isFurrow f
  | .mmF f _ => decide (f < 120)
  | .mmBd f _ => decide (f < 120)
  | .mmBw f _ => decide (f < 120)
  | .mmBx f _ => decide (f < 120)
  | .elt f _ => decide (240 ≤ f ∧ f < 400)
  | .red1 f _ => decide (240 ≤ f ∧ f < 400)
  | .red2 f _ => decide (240 ≤ f ∧ f < 400)
  | .nrmB f _ => decide (240 ≤ f ∧ f < 400)
  | .smxB f _ => decide (240 ≤ f ∧ f < 400)
  | .cvt f _ => decide (240 ≤ f ∧ f < 400)
  | .cvt24 f _ => decide (240 ≤ f ∧ f < 400)
  | .rngDrop f _ => decide (240 ≤ f ∧ f < 400)
  | .mov f _ => decide (400 ≤ f ∧ f < 440)
  | .hdlPut f _ => decide (440 ≤ f ∧ f < 500)
  | .hdlGet f _ => decide (440 ≤ f ∧ f < 500)
  | .hdlAcc f _ => decide (440 ≤ f ∧ f < 500)
  | .upd f _ => decide (500 ≤ f ∧ f < 520)
  | .seal f _ => decide (500 ≤ f ∧ f < 520)
  | .launch f _ => decide (120 ≤ f ∧ f < 240)
  | .teamResident c => decide (c < 140)
  | .launchOverrun c => decide (c < 140)
  | .intAdd c j _ => isSlot c j
  | .intSub c j _ => isSlot c j
  | .intMul c j _ => isSlot c j
  | .intMulhi c j _ => isSlot c j
  | .intMad c j _ => isSlot c j
  | .intDiv c j _ => isSlot c j
  | .intRem c j _ => isSlot c j
  | .intMin c j _ => isSlot c j
  | .intMax c j _ => isSlot c j
  | .intAnd c j _ => isSlot c j
  | .intOr c j _ => isSlot c j
  | .intXor c j _ => isSlot c j
  | .intShl c j _ => isSlot c j
  | .intShr c j _ => isSlot c j
  | .intCmp c j _ => isSlot c j
  | .intBit c j _ => isSlot c j
  | .fpAdd c j _ => isSlot c j
  | .fpSub c j _ => isSlot c j
  | .fpMul c j _ => isSlot c j
  | .fpFma c j _ => isSlot c j
  | .fpMin c j _ => isSlot c j
  | .fpMax c j _ => isSlot c j
  | .fpRcp c j _ => isSlot c j
  | .fpRsqrt c j _ => isSlot c j
  | .fpSqrt c j _ => isSlot c j
  | .fpExp2 c j _ => isSlot c j
  | .fpLog2 c j _ => isSlot c j
  | .fpSin c j _ => isSlot c j
  | .fpCos c j _ => isSlot c j
  | .fpNeg c j _ => isSlot c j
  | .fpCmp c j _ => isSlot c j
  | .fpAbs c j _ => isSlot c j
  | .teamMov c j _ => isSlot c j
  | .movS c j _ => isSlot c j
  | .teamCvt c j _ => isSlot c j
  | .sel c j _ => isSlot c j
  | .pollAny c j _ => isSlot c j
  | .pollAll c j _ => isSlot c j
  | .pollLow c j _ => isSlot c j
  | .pollMask c j _ => isSlot c j
  | .xchLane c j _ => isSlot c j
  | .prd c j _ => isSlot c j
  | .jmp c j _ => isSlot c j
  | .rcvSet c j _ => isSlot c j
  | .exit c j _ => isSlot c j
  | .brk c j _ => isSlot c j
  | .statNf c j _ => isSlot c j
  | .teamNop c j _ => isSlot c j
  | .ld c j _ => isSlot c j
  | .st c j _ => isSlot c j
  | .teamAccessComplete c j => isSlot c j
  | .rmwAdd c j _ => isSlot c j
  | .rmwMin c j _ => isSlot c j
  | .rmwMax c j _ => isSlot c j
  | .rmwAnd c j _ => isSlot c j
  | .rmwOr c j _ => isSlot c j
  | .rmwXor c j _ => isSlot c j
  | .rmwExch c j _ => isSlot c j
  | .rmwCas c j _ => isSlot c j
  | .flgSet c j _ => isSlot c j
  | .flgWait c j _ => isSlot c j
  | .ctrAdd c j _ => isSlot c j
  | .ctrWait c j _ => isSlot c j
  | .fence c j _ => isSlot c j
  | .flagCounterStore _ ctr idx op _ _ _ => decide (idx < if ctr then 8192 else 65536) && decide (op < 6)
  | .noProgress c j => isSlot c j
  | .replay _ c => decide (c < 140)
  | .skip _ c => decide (c < 140)
  | .stepTeam _ c => decide (c < 140)
  | .kill _ c => decide (c < 140)
  | .tmeRegData _ c _ => decide (c < 140)
  | .deadlineLate _ _ => true
  | .deadline _ _ => true
  | .autoJob => true
  | .governorTick _ _ => true
  | .envelopeWrite _ which _ => decide (which < 5)
  | .envelopeRecheck => true
  | .thermalTrip src temp => decide (src ≤ 30) && decide (temp < 256)
  | .tripRecord => true
  | .reqRun _ => true
  | .reqSleep _ => true
  | .reqDeep _ => true
  | .xoSettle => true
  | .clkLoss => true
  | .relock _ => true
  | .loopSettingWrite _ off _ => (loopSetting off 0).isSome
  | .loopLock loop _ _ => decide (loop ≤ 40)
  | .spreadWrite _ die _ => decide (die < 10)
  | .pcieLoss => true
  | .tbExchange => true
  | .tbReq port t1 => isPort port && decide (t1 < 2 ^ 64)
  | .tbReply t2 t3 depth => decide (t2 < 2 ^ 64) && decide (t3 < 2 ^ 64) && decide (depth < 256)
  | .ppsIn => true
  | .ppsLost => true
  | .portEnable _ port => isPort port
  | .trainingTimeout port step => isPort port && decide (2 ≤ step ∧ step ≤ 6)
  | .lostFec port => isPort port
  | .nak port seq => isPort port && decide (seq < 1024)
  | .put port _ _ => isPort port
  | .get port _ _ _ => isPort port
  | .acc port _ _ _ => isPort port
  | .headerCloseTimeout n g _ => decide (n < 20 ∧ g < 4096)
  | .signalSet port _ => isPort port
  | .signalAdd port _ => isPort port
  | .load port _ _ _ _ => isPort port
  | .store port _ _ => isPort port
  | .atomic port _ _ _ _ => isPort port
  | .echo port _ => isPort port
  | .sealToken port _ => isPort port
  | .doneToken port _ => isPort port
  | .faultToken port _ => isPort port
  | .sealTokenSend _ => true
  | .response port _ _ _ _ => isPort port
  | .quiesce _ => true
  | .swap _ => true
  | .resume _ => true
  | .yokeInvalidate dev line => decide (dev < 65536) && decide (line < 0x5000_0000)
  | .retrain _ n => decide (n < 20)
  | .refresh n _ _ => decide (n < 20)
  | .scrub n addr _ => decide (addr < hbmSize) && decide (addr % 8 = 0) && decide (stackOf addr = n)
  | .istDue unit => decide (unit < 12480)
  | .istSliceComplete unit _ => decide (unit < 12480)
  | .istLinkCheck _ => true
  | .runAll _ fails => fails.all fun u => decide (u < 12480)
  | .resetCore _ die phys => decide (die < 16) && decide (phys < 16)
  | .resetJob _ => true
  | .resetDev _ => true
  | .resetBrd _ => true
  | .resetPor _ => true
  | .flr => true
  | .d3hotEntry => true
  | .d0Return => true
  | .forceCommit _ => true
  | .snapArm _ _ => true
  | .doorbell _ => true
  | .retry _ _ => true
  | .mctpControl _ _ => true
  | .pldmMonitoring _ => true
  | .pldmFirmwareUpdate _ => true
  | .pldmActivation => true
  | .getVersion => true
  | .getCapabilities => true
  | .negotiateAlgorithms => true
  | .getDigests => true
  | .getCertificate _ => true
  | .challenge _ _ => true
  | .getMeasurements _ _ => true
  | .keyExchange _ => true
  | .spdmFinish _ => true
  | .endSession => true
  | .bypass => true
  | .idcode => true
  | .samplePreload _ => true
  | .extest _ => true
  | .clamp => true
  | .highz => true
  | .extestPulse => true
  | .extestTrain => true
  | .regacc addr _ _ => decide (addr < 2 ^ 48)
  | .hubTlyToken _ _ => true
  | .tokenFrame _ => true
  | .mirrorFrame _ => true
  | .tallySample _ => true
  | .pulseEnd => true
  | .nvCopy => true
  | .powerDown => true
  | .powerUp _ _ _ _ => true
  | .selftest _ _ _ => true
  | .xtalLost => true
  | .xtalBack => true
  | .i2cRead _ _ _ => true
  | .i2cWrite _ _ _ _ _ => true
  | .tlySealCmd _ _ => true
  | .sealKeyTimeout => true
  | .lostClock port => isPort port
  | .xin0Return => true
  | .flitReject port hdr crc _ => isPort port && decide (hdr < 2 ^ 32) && decide (crc < 2 ^ 32)
  | .transit port _ _ => isPort port
  | .hello port dev peer _ => isPort port && decide (dev < 65536) && isPort peer
  | .token port _ => isPort port
  | .pcieRefclkReturn => true

end Sys2Proof
end

