-- ==== Sys2Proof/Certificates/Slice0/Obligations.lean ====
section
/-! DEFINITION. The statements about the model: one definition of a proposition each. -/
open Sys2Proof Sys2Proof.Machine

/-! ### Teams -/

/-- R228, R230 to R232, R352, R353, Table 11.4a: an integer instruction with a register result gives every active lane the value of the table, after
rereads that cured a parity error too, which are counted; a parity error that persists stops the LAUNCH with code PARITY. -/
def Obligations.TeamIntegerResults : Prop :=
  ∀ r ∈ intRows, ∀ (s : State) (c j : Nat) (k : TCtx) (u : Upset), isSlot c j = true → s.dev.live = true → s.dev.issuing c j = some k →
    tCls k.w = 0 → tNum k.w = r.1 →
    (u.passes = true → ∃ t y, exec (r.2.1 c j u) s = .next t ∧ teamIssued (replayOffset u) s t k y ∧ replaysCounted s t u ∧ teamPassed k y ∧
      teamResult k (iWords k.w) (r.2.2 k) y) ∧
    (∀ (a : Nat) (i : FItem), u = .persistent a → 120 ≤ (s.dev.core c).furrow → (s.dev.core c).furrow < 240 →
      (s.dev.frw (s.dev.core c).furrow).cur = some i →
      ∃ t, exec (r.2.1 c j u) s = .next t ∧ t.dev.frwErr (s.dev.core c).furrow = feParity ∧ (t.dev.frw (s.dev.core c).furrow).cur = none)

/-- R231, R242, Table 11.4a: a floating instruction with a register result gives every active lane the value of the table, rounded once. -/
def Obligations.TeamFloatResults : Prop :=
  ∀ (s : State) (c j : Nat) (k : TCtx) (u : Upset), isSlot c j = true → s.dev.live = true → s.dev.issuing c j = some k → u.passes = true →
    tCls k.w = 1 →
    (∀ r ∈ fpRows, tNum k.w = r.1 →
      ∃ t y, exec (r.2.1 c j u) s = .next t ∧ teamIssued (replayOffset u) s t k y ∧ teamPassed k y ∧ teamResult k (fWords k.w) (r.2.2 k) y) ∧
    (∀ r ∈ fpFnRows, tNum k.w = r.1 →
      ∃ t y, exec (r.2.1 c j u) s = .next t ∧ teamIssued (replayOffset u) s t k y ∧ teamPassed k y ∧
        teamResult k 1 (fun l => r.2.2 (k.a 1 l)) y)

/-- R230 to R232, R242, Tables 11.4a and 11.5: a move, select, exchange or mask instruction gives every active lane the value of the table; a
conversion gives it where the spec states one (log entry 15). -/
def Obligations.TeamMoveResults : Prop :=
  ∀ (s : State) (c j : Nat) (k : TCtx) (u : Upset), isSlot c j = true → s.dev.live = true → s.dev.issuing c j = some k → u.passes = true →
    tCls k.w = 2 →
    (∀ r ∈ moveRows, tNum k.w = r.1 →
      ∃ t y, exec (r.2.1 c j u) s = .next t ∧ teamIssued (replayOffset u) s t k y ∧ teamPassed k y ∧
        teamResult k (r.2.2.1 k.w) (r.2.2.2 s.dev k) y) ∧
    (tNum k.w = 2 → ∃ t y g, exec (.teamCvt c j u) s = .next t ∧ teamIssued (replayOffset u) s t k y ∧ teamPassed k y ∧
      teamResult k (if cvtWide (cvtDst k.w) then 2 else 1) g y ∧
      ∀ l v, cvtOut (cvtDst k.w) (k.cc 1 l % 256) (cvtVal (cvtSrc k.w) (k.a (if cvtWide (cvtSrc k.w) then 2 else 1) l) (k.cc 1 l % 256)) = some v →
        g l = v)

/-- R227, R230, Table 11.4a: an instruction with a predicate result gives it to every active lane and to no other; of two packed operands the
spec states no predicate (log entry 16). -/
def Obligations.TeamPredicates : Prop :=
  ∀ (s : State) (c j : Nat) (k : TCtx) (u : Upset), isSlot c j = true → s.dev.live = true → s.dev.issuing c j = some k → u.passes = true →
    (∀ r ∈ predRows, tCls k.w = r.1 → tNum k.w = r.2.1 →
      ∃ t y, exec (r.2.2.1 c j u) s = .next t ∧ teamIssued (replayOffset u) s t k y ∧ teamPassed k y ∧ teamPredicate k (r.2.2.2 k) y) ∧
    (tCls k.w = 1 → tNum k.w = 0xE → ∃ t y g, exec (.fpCmp c j u) s = .next t ∧ teamIssued (replayOffset u) s t k y ∧ teamPassed k y ∧
      teamPredicate k g y ∧
      (fType k.w = 0 → ∀ l, g l = condFp (tCond k.w) (encFp32.decode (k.a 1 l)) (encFp32.decode (k.b 1 l))) ∧
      (fType k.w = 1 → ∀ l, g l = condFp (tCond k.w) (encFp64.decode (k.a 2 l)) (encFp64.decode (k.b 2 l))))

/-- R237, R241, R243, Table 11.4a: control instructions: a jump moves the active lanes, `rcv.set` pushes a reconvergence entry or parks at the
33rd, `brk` parks with cause BREAK, `stat.nf` marks the step's slot, `nop` goes on; each passes the lanes that issued. -/
def Obligations.TeamControl : Prop :=
  ∀ (s : State) (c j : Nat) (k : TCtx) (u : Upset), isSlot c j = true → s.dev.live = true → s.dev.issuing c j = some k → u.passes = true →
    tCls k.w = 3 →
    (tNum k.w = 0 → ∃ t y, exec (.jmp c j u) s = .next t ∧ teamIssued (replayOffset u) s t k y ∧ teamRegsKept k y ∧ y.exited = k.x.exited ∧
      y.stack = k.x.stack ∧ y.pcs.length = k.x.pcs.length ∧
      ∀ l, l < k.x.pcs.length → l < 32 → y.pcOf l =
        if bitOf k.act l then pcMask (if tImmF k.w then toTwos ((k.pc : Int) + sgn (tImm k.w) 32) 64 else k.a 2 l)
        else if bitOf k.iss l then pcMask (k.pc + 8) else k.x.pcOf l) ∧
    (tNum k.w = 1 → k.act ≠ 0 → k.x.stack.length < 32 → ∃ t y, exec (.rcvSet c j u) s = .next t ∧ teamIssued (replayOffset u) s t k y ∧
      teamRegsKept k y ∧ y.exited = k.x.exited ∧ y.stack = (k.target 0, k.act) :: k.x.stack ∧ y.pcs.length = k.x.pcs.length ∧
      ∀ l, l < k.x.pcs.length → y.pcOf l = if bitOf k.iss l then pcMask (k.pc + 8) else k.x.pcOf l) ∧
    (tNum k.w = 1 → k.act ≠ 0 → 32 ≤ k.x.stack.length →
      ∃ t, exec (.rcvSet c j u) s = .next t ∧
        teamParked (trapOffset c u) s t c j ((s.dev.core c).tookBy j) k.x ⟨pkRcv, k.pc, 0, k.iss, k.iss⟩) ∧
    (k.act = 0 → ∀ r ∈ ([(1, .rcvSet), (3, .brk)] : List (Nat × (Nat → Nat → Upset → Instr))), tNum k.w = r.1 →
      ∃ t y, exec (r.2 c j u) s = .next t ∧ teamIssued (replayOffset u) s t k y ∧ teamPassed k y ∧ teamRegsKept k y) ∧
    (tNum k.w = 3 → k.act ≠ 0 →
      ∃ t, exec (.brk c j u) s = .next t ∧
        teamParked (trapOffset c u) s t c j ((s.dev.core c).tookBy j) k.x ⟨pkBreak, k.pc, 0, k.iss, k.iss⟩) ∧
    (tNum k.w = 4 → ∃ t y, exec (.statNf c j u) s = .next t ∧
      teamIssued (fun o => replayOffset u o ∨ (k.polled ≠ 0 ∧ k.t.step ≠ noStep ∧ o = HUB_STEP_EVT.addr 0 (k.t.step % 4))) s t k y ∧
      teamPassed k y ∧ teamRegsKept k y ∧
      (k.polled ≠ 0 → k.t.step < noStep → (t.dev.stepBits k.t.step).2 = true)) ∧
    (tNum k.w = 5 → ∃ t y, exec (.teamNop c j u) s = .next t ∧ teamIssued (replayOffset u) s t k y ∧ teamPassed k y ∧ teamRegsKept k y)

/-- R225: the lanes of an `exit` end; the team goes on while a lane is left, frees its slot with the last, and with the last team the launch
completes: the LAUNCH has run, its core's and die's copies of atomics are written back and the core's L1 is dropped (R257, R260). R229, R230, R243:
whatever command of the team engine names a slot whose turn it is and whose next word is illegal, that team parks at it with cause ILLEGAL; out of the register
allocation, with cause REG_RANGE; at an address that may not be fetched, with cause FETCH. -/
def Obligations.TeamExitsAndParks : Prop :=
  (∀ (s : State) (c j : Nat) (k : TCtx) (u : Upset), isSlot c j = true → s.dev.live = true → s.dev.issuing c j = some k → u.passes = true →
     tCls k.w = 3 → tNum k.w = 2 →
     ((∃ l, l < 32 ∧ bitOf (k.x.exited ||| k.act) l = false) → ∃ t y, exec (.exit c j u) s = .next t ∧ teamIssued (replayOffset u) s t k y ∧
       teamRegsKept k y ∧ y.exited = k.x.exited ||| k.act ∧ y.stack = k.x.stack) ∧
     (k.x.exited ||| k.act = allLanes → ∃ t, exec (.exit c j u) s = .next t ∧ devOnly s t ∧ SMap.find (t.dev.core c).slots j = none ∧
       (t.dev.core c).ended = (s.dev.core c).ended + 1 ∧
       (∀ i, i ≠ j → SMap.find (t.dev.core c).slots i = SMap.find (s.dev.core c).slots i) ∧ (∀ c', c' ≠ c → t.dev.core c' = s.dev.core c') ∧
       ((s.dev.core c).ended + 1 < (s.dev.core c).teams → (t.dev.core c).active = (s.dev.core c).active ∧
         t.dev = { s.dev with
           out := [], regs := t.dev.regs, eccCE := t.dev.eccCE, tme := t.dev.tme, free := t.dev.free
           xacts := s.dev.xacts.map (Xact.forget c j) } ∧
         regsAgree (trapOffset c u) s.dev t.dev) ∧
       ((s.dev.core c).teams ≤ (s.dev.core c).ended + 1 → (t.dev.core c).active = false ∧ SMap.find t.dev.l1 c = none ∧
         SMap.find t.dev.coreCopy c = none ∧ SMap.find t.dev.dieCopy (dieOf c) = none ∧ furrowWrote s t (s.dev.core c).furrow ∧
         regsAgree (fun o => trapOffset c u o ∨ memOffset o) s.dev t.dev))) ∧
  (∀ r ∈ teamCommands, ∀ (s : State) (c j : Nat) (u : Upset), isSlot c j = true → s.dev.live = true → s.dev.turn c j = true →
     (∀ k a, s.dev.fetchT c j = .word k a →
       (tLegal k.w = false → ∃ t, exec (r c j u) s = .next t ∧
         teamParked noOffset s t c j ((s.dev.core c).tookBy j) k.x ⟨pkIllegal, k.pc, 0, k.iss, k.iss⟩) ∧
       (tLegal k.w = true → tInRange k.w (8 * (s.dev.core c).regs) = false → ∃ t, exec (r c j u) s = .next t ∧
         teamParked noOffset s t c j ((s.dev.core c).tookBy j) k.x ⟨pkRegRange, k.pc, 0, k.iss, k.iss⟩)) ∧
     (∀ x pc iss h, s.dev.fetchT c j = .bad x pc iss h → ∃ t, exec (r c j u) s = .next t ∧ SMap.find (t.dev.core c).slots j =
       some { x.still s.dev.tb.time with park := some ⟨pkFetch, pc, pc, iss, iss⟩, replay := none, step1 := false }))

/-- R233 to R235, R243: a memory instruction whose lanes are aligned starts one access of all its active lanes, whatever they name, and the team
waits for it with its registers and program counters unchanged, as do all other teams unless a lane names a flag or counter; the lowest misaligned
lane parks the team with cause MISALIGNED. -/
def Obligations.TeamAccessStarts : Prop :=
  ∀ r ∈ accessRows, ∀ (s : State) (c j : Nat) (k : TCtx) (u : Upset), isSlot c j = true → s.dev.live = true → s.dev.issuing c j = some k →
    u.passes = true → tCls k.w = r.1 → r.2.1 (tNum k.w) = true →
    (k.act ≠ 0 → (∀ l ∈ lanesOf k.act, k.addr l % mBytes k.w = 0) → ¬ laneUE s.dev k →
      ∃ t a, exec (r.2.2.1 c j u) s = .next t ∧ devOnly s t ∧ SMap.find (t.dev.core c).slots j = some { k.x with access := some a } ∧
        ((∀ l ∈ lanesOf k.act, ∀ b i, s.dev.target (k.addr l) (mBytes k.w) ≠ .sync b i) → teamAccesses s t k a) ∧
        a.rd = (if r.2.2.2 then tD k.w else 255) ∧ a.size = mBytes k.w ∧
        a.load = r.2.2.2 ∧ a.addrs = (lanesOf k.act).map (fun l => (l, k.addr l)) ∧ a.active = k.act ∧ a.issued = k.iss ∧ a.chk = mChk k.w ∧
        a.cp = mCp k.w ∧ a.pc = k.pc) ∧
    (∀ l, ((lanesOf k.act).filter fun l => k.addr l % mBytes k.w != 0).head? = some l →
      ∃ t, exec (r.2.2.1 c j u) s = .next t ∧ teamParked (trapOffset c u) s t c j ((s.dev.core c).tookBy j) k.x
        ⟨pkMisaligned, k.pc, k.addr l, k.iss, maskOf ((lanesOf k.act).filter fun l => k.addr l % mBytes k.w != 0)⟩)

/-- R233, R236, R254: with no private copy of an atomic at hand, the lanes of a store to this device's memory write their bytes in ascending order
and nothing else of memory changes; those of a load of a tile buffer read theirs; an atomic at DEVICE scope or wider whose lanes name one address
performs the combined operation there, and a single lane's exchange or compare-and-swap its own. An access waits for the answers of sharers that a
write invalidates and for nothing else (R263). -/
def Obligations.TeamLocalMemory : Prop :=
  ∀ (s : State) (c j : Nat) (k : TCtx) (u : Upset) (loc : Nat → Nat), isSlot c j = true → s.dev.live = true → s.dev.issuing c j = some k →
    u.passes = true → k.act ≠ 0 →
    (∀ l ∈ lanesOf k.act, k.addr l % mBytes k.w = 0) → noCopies s.dev c → ¬ laneUE s.dev k →
    (∀ l ∈ lanesOf k.act, s.dev.target (k.addr l) (mBytes k.w) = .mem (loc l)) →
    (tCls k.w = 4 → tNum k.w = 1 → ∃ t a, exec (.st c j u) s = .next t ∧ teamAccesses s t k a ∧ a.err = 0 ∧ a.wait = b2n (!t.dev.invs.isEmpty) ∧
      (∀ x, t.dev.mem.byte x =
        (((lanesOf k.act).map fun l => (loc l, leBytes (mBytes k.w) (k.sdata l))).foldl (fun m w => Mem.write m w.1 w.2) s.dev.mem).byte x) ∧
      ∀ x, (∀ l ∈ lanesOf k.act, x < loc l ∨ loc l + mBytes k.w ≤ x) → t.dev.mem.byte x = s.dev.mem.byte x) ∧
    (tCls k.w = 4 → tNum k.w = 0 → (∀ l ∈ lanesOf k.act, ∃ q, region (loc l) = .tile q) →
      ∃ t a, exec (.ld c j u) s = .next t ∧ teamAccesses s t k a ∧ a.err = 0 ∧ a.wait = 0 ∧ t.dev.mem = s.dev.mem ∧
        a.data = (lanesOf k.act).map fun l => (l, leNat (s.dev.read (loc l) (mBytes k.w)))) ∧
    (tCls k.w = 5 → mKind k.w < 6 → 3 ≤ mScope k.w → (∀ l ∈ lanesOf k.act, ∀ l' ∈ lanesOf k.act, k.addr l = k.addr l') →
      ∀ r ∈ accessRows, r.1 = 5 → r.2.1 (tNum k.w) = true → ∃ t a, exec (r.2.2.1 c j u) s = .next t ∧ teamAccesses s t k a ∧ a.err = 0 ∧
        a.wait = b2n (!t.dev.invs.isEmpty) ∧
        ∀ l ∈ lanesOf k.act,
          let f := rmwFn (mKind k.w) (mType k.w) (mBytes k.w)
          let old := s.dev.readN (loc l) (mBytes k.w)
          let ps := prefixes f none ((lanesOf k.act).map fun l => (l, k.rv l))
          a.data = ps.1.map (fun p => (p.1, afterPrefix f old p.2)) ∧
          ∀ x, t.dev.mem.byte x = (Mem.write s.dev.mem (loc l) (leBytes (mBytes k.w) (f old (ps.2.getD 0)))).byte x) ∧
    (tCls k.w = 5 → 3 ≤ mScope k.w → ∀ l, lanesOf k.act = [l] →
      (mKind k.w = 6 → ∃ t a, exec (.rmwExch c j u) s = .next t ∧ teamAccesses s t k a ∧ a.data = [(l, s.dev.readN (loc l) (mBytes k.w))] ∧
        ∀ x, t.dev.mem.byte x = (Mem.write s.dev.mem (loc l) (leBytes (mBytes k.w) (k.rv l))).byte x) ∧
      (mKind k.w = 7 → ∃ t a, exec (.rmwCas c j u) s = .next t ∧ teamAccesses s t k a ∧ a.data = [(l, s.dev.readN (loc l) (mBytes k.w))] ∧
        ∀ x, t.dev.mem.byte x = (if s.dev.readN (loc l) (mBytes k.w) = k.rv l
          then Mem.write s.dev.mem (loc l) (leBytes (mBytes k.w) (k.rv2 l)) else s.dev.mem).byte x))

/-- R233, R235: an access all of whose responses are there completes: the lanes without an error get their values, with CHK the others are
reported in CP, otherwise they park the team at the access with cause ACCESS and the lowest failing lane's address. -/
def Obligations.TeamAccessCompletes : Prop :=
  ∀ (s : State) (c j : Nat) (x : Slot) (a : Access), isSlot c j = true → s.dev.live = true → SMap.find (s.dev.core c).slots j = some x →
    x.access = some a → a.wait = 0 → x.park = none →
    (x.step1 = false → (a.err = 0 ∨ a.chk = true) → ∃ t y, exec (.teamAccessComplete c j) s = .next t ∧ devOnly s t ∧
      SMap.find (t.dev.core c).slots j = some y ∧ y.access = none ∧ y.park = none ∧ y.u = x.u ∧ y.stack = x.stack ∧ y.exited = x.exited ∧
      (∀ l, l < x.pcs.length → y.pcOf l = if bitOf a.issued l then pcMask (a.pc + 8) else x.pcOf l) ∧
      (a.load = false → y.v = x.v) ∧
      (a.load = true → a.data.Pairwise (fun p q => p.1 ≠ q.1) → ∀ l v, (l, v) ∈ a.data → bitOf a.active l = true → bitOf a.err l = false → l < 32 →
        ∀ i, i < max 1 (a.size / 4) → a.rd ≠ 255 → a.rd + i ≠ 255 → y.rv (a.rd + i) l = v / 2 ^ (32 * i) % 2 ^ 32) ∧
      (∀ r l, l < 32 → (a.rd = 255 ∨ r < a.rd ∨ a.rd + max 1 (a.size / 4) ≤ r ∨ bitOf a.err l = true ∨ bitOf a.active l = false) →
        y.rv r l = x.rv r l) ∧
      (a.chk = false → y.p = x.p) ∧
      (a.chk = true → a.cp < x.p.length → a.cp ≠ 7 → a.active < 2 ^ 32 → ∀ l ∈ lanesOf a.active, y.pr a.cp l = !bitOf a.err l) ∧
      (∀ i, i ≠ j → SMap.find (t.dev.core c).slots i = SMap.find (s.dev.core c).slots i) ∧
      t.dev = { s.dev with out := [], tme := t.dev.tme }) ∧
    (a.err ≠ 0 → a.chk = false → ∃ t y, exec (.teamAccessComplete c j) s = .next t ∧ y.access = none ∧
      teamParked noOffset s t c j (s.dev.core c) y ⟨pkAccess, a.pc, match a.addrs.find? (fun p => bitOf a.err p.1) with | some p => p.2 | none => 0, a.issued, a.err⟩)

/-- R240, R251, R256, R258, Table 11.4a: class 6 with the lowest active lane's operands, no other wait pending: `flg.set` sets the flag, `ctr.add` adds
to the counter modulo 2^64, a wait that is met goes on and consumes where its word says so, one that is not suspends the team in arrival order, a
`fence` drops the L1 at DIE scope or wider; a flag or counter that is not declared parks the team with cause ACCESS. -/
def Obligations.TeamSync : Prop :=
  ∀ (s : State) (c j : Nat) (k : TCtx) (l : Nat) (u : Upset), isSlot c j = true → s.dev.live = true → s.dev.issuing c j = some k →
    u.passes = true → tCls k.w = 6 →
    (lanesOf k.act).head? = some l → s.dev.waits = [] →
    (tNum k.w = 0 → s.dev.declared false (k.a 1 l) = true → ∃ t y, exec (.flgSet c j u) s = .next t ∧ teamStays s t k y ∧ teamPassed k y ∧
      teamRegsKept k y ∧ (∀ i, t.dev.flags.has i = (i == k.a 1 l || s.dev.flags.has i)) ∧ t.dev.ctrs = s.dev.ctrs ∧ t.dev.waits = []) ∧
    (tNum k.w = 2 → s.dev.declared true (k.a 1 l) = true → ∃ t y, exec (.ctrAdd c j u) s = .next t ∧ teamStays s t k y ∧ teamPassed k y ∧
      teamRegsKept k y ∧ (∀ i, t.dev.ctr i = if i = k.a 1 l then (s.dev.ctr i + k.b 2 l) % 2 ^ 64 else s.dev.ctr i) ∧
      t.dev.flags = s.dev.flags ∧ t.dev.waits = []) ∧
    (tNum k.w = 1 → s.dev.declared false (k.a 1 l) = true →
      (s.dev.flags.has (k.a 1 l) = true → ∃ t y, exec (.flgWait c j u) s = .next t ∧ teamStays s t k y ∧ teamPassed k y ∧ teamRegsKept k y ∧
        SMap.find t.dev.l1 c = none ∧ (∀ i, t.dev.flags.has i = (s.dev.flags.has i && !(bitOf k.w 0 && i == k.a 1 l))) ∧ t.dev.ctrs = s.dev.ctrs) ∧
      (s.dev.flags.has (k.a 1 l) = false → ∃ t, exec (.flgWait c j u) s = .next t ∧ teamWaits s t k ∧
        t.dev.waits = [⟨true, c, j, false, k.a 1 l, 0, bitOf k.w 0⟩] ∧ t.dev.flags = s.dev.flags ∧ t.dev.ctrs = s.dev.ctrs)) ∧
    (tNum k.w = 3 → s.dev.declared true (k.a 1 l) = true →
      (k.b 2 l ≤ s.dev.ctr (k.a 1 l) → ∃ t y, exec (.ctrWait c j u) s = .next t ∧ teamStays s t k y ∧ teamPassed k y ∧ teamRegsKept k y ∧
        SMap.find t.dev.l1 c = none ∧ t.dev.flags = s.dev.flags ∧
        ∀ i, t.dev.ctr i = if i = k.a 1 l ∧ bitOf k.w 0 = true then s.dev.ctr i - k.b 2 l else s.dev.ctr i) ∧
      (s.dev.ctr (k.a 1 l) < k.b 2 l → ∃ t, exec (.ctrWait c j u) s = .next t ∧ teamWaits s t k ∧
        t.dev.waits = [⟨true, c, j, true, k.a 1 l, k.b 2 l, bitOf k.w 0⟩] ∧ t.dev.flags = s.dev.flags ∧ t.dev.ctrs = s.dev.ctrs)) ∧
    (tNum k.w = 4 → ∃ t y, exec (.fence c j u) s = .next t ∧ teamStays s t k y ∧ teamPassed k y ∧ teamRegsKept k y ∧
      (2 ≤ bitsOf k.w 0 3 → SMap.find t.dev.l1 c = none) ∧ (noCopies s.dev c → k.x.step1 = false → t.dev.mem = s.dev.mem) ∧ t.dev.flags = s.dev.flags ∧
      t.dev.ctrs = s.dev.ctrs) ∧
    (∀ r ∈ ([(0, false, .flgSet), (1, false, .flgWait), (2, true, .ctrAdd), (3, true, .ctrWait)] : List (Nat × Bool × (Nat → Nat → Upset → Instr))),
      tNum k.w = r.1 → s.dev.declared r.2.1 (k.a 1 l) = false →
      ∃ t, exec (r.2.2 c j u) s = .next t ∧ SMap.find (t.dev.core c).slots j =
        some { k.x.still s.dev.tb.time with park := some ⟨pkAccess, k.pc, syncAddr r.2.1 (k.a 1 l), k.iss, 2 ^ l⟩, replay := none, step1 := false } ∧
        t.dev.flags = s.dev.flags ∧ t.dev.ctrs = s.dev.ctrs ∧ t.dev.waits = [])

/-- R225, R226, R99, R49, R239: a LAUNCH begins with the arguments it names and no team resident, and drops the core's L1; a team becomes resident in
the lowest free slot with every lane at PROGRAM, its v registers and predicates zero and its u registers from ARGS; a launch that overruns its
budget breaches the contract once and goes on; a team whose count of cycles without progress has reached 2^LIMIT_LOG2 parks at its next instruction or
at its access under way. -/
def Obligations.TeamLaunch : Prop :=
  ∀ (s : State), s.dev.live = true →
    (∀ (f c a : Nat) (i : FItem) (u : Upset), u.passes = true → 120 ≤ f → f < 240 → s.dev.performs f opLaunch i → s.dev.physOf (furrowUnit f) = some c →
      (s.dev.core c).active = false → s.dev.agentAddr (bitsOf i.d.w3.toNat 0 48) = some a → s.dev.sheafMem a 256 = true →
      (a < hbmSize → s.dev.ueIn a 256 = none) →
      ∃ t, exec (.launch f u) s = .next t ∧ devOnly s t ∧ SMap.find t.dev.l1 c = none ∧ t.dev.core c =
        { active := true, furrow := f, tag := i.otag, step := i.step, program := bitsOf i.d.w0.toNat 0 48, teams := bitsOf i.d.w1.toNat 0 16,
          regs := bitsOf i.d.w1.toNat 16 6, budget := bitsOf i.d.w2.toNat 0 32, args := s.dev.read a 256, started := 0, ended := 0,
          overrun := false, slots := [], last := (s.dev.core c).last, busy := (s.dev.core c).busy } ∧
        (∀ c', c' ≠ c → t.dev.core c' = s.dev.core c') ∧ t.dev.mem = s.dev.mem ∧ t.dev.furrows = s.dev.furrows) ∧
    (∀ c j : Nat, c < 140 → (s.dev.core c).active = true → (s.dev.core c).started < (s.dev.core c).teams →
      (s.dev.core c).slots.length < residentMax (s.dev.core c).regs → j < 64 → SMap.find (s.dev.core c).slots j = none →
      (∀ i, i < j → SMap.find (s.dev.core c).slots i ≠ none) →
      ∃ t y, exec (.teamResident c) s = .next t ∧ t.dev = { s.dev with out := [], tme := t.dev.tme } ∧
        SMap.find (t.dev.core c).slots j = some y ∧ y.team = (s.dev.core c).started ∧ (t.dev.core c).started = (s.dev.core c).started + 1 ∧
        y.pcs = List.replicate 32 (pcMask (s.dev.core c).program) ∧ y.exited = 0 ∧ (∀ r l, y.rv r l = 0) ∧ (∀ i l, i < 7 → y.pr i l = false) ∧
        (∀ r, r < 64 → y.ru r = leNat (((s.dev.core c).args.drop (4 * r)).take 4)) ∧
        y.park = none ∧ y.waiting = false ∧ y.access = none ∧
        (∀ i, i ≠ j → SMap.find (t.dev.core c).slots i = SMap.find (s.dev.core c).slots i) ∧ ∀ c', c' ≠ c → t.dev.core c' = s.dev.core c') ∧
    (∀ c : Nat, c < 140 → (s.dev.core c).active = true → (s.dev.core c).overrun = false →
      ∃ t, exec (.launchOverrun c) s = .next t ∧ devOnly s t ∧ t.dev.core c = { s.dev.core c with overrun := true } ∧
        t.dev.fld ADM_BREACH_LAST ADM_BREACH_LAST_CAUSE = brOverrun ∧
        t.dev.fld ADM_BREACH_LAST ADM_BREACH_LAST_WHERE = furrowId (s.dev.core c).furrow % 2 ^ 16 ∧
        t.dev.fld ADM_BREACH_LAST ADM_BREACH_LAST_TAG = (s.dev.core c).tag % 2 ^ 32 ∧
        t.dev.fld ADM_BREACH ADM_BREACH_COUNT = min (s.dev.fld ADM_BREACH ADM_BREACH_COUNT + 1) (2 ^ 32 - 1) ∧
        ∀ c', c' ≠ c → t.dev.core c' = s.dev.core c') ∧
    (∀ (c j pc iss : Nat) (x x' : Slot), isSlot c j = true → (s.dev.core c).active = true → SMap.find (s.dev.core c).slots j = some x →
      x.park = none → x.waiting = false → s.dev.stuck c x = true →
      (x.access = none ∧ Slot.pick x.stack x = some (x', pc, iss) ∨
        ∃ a, x.access = some a ∧ x' = x ∧ pc = a.pc ∧ iss = a.issued) →
      ∃ t, exec (.noProgress c j) s = .next t ∧
        teamParked (fun o => o = TME_NOPROG.addr c 0) s t c j (s.dev.core c) x' ⟨pkNoProgress, pc, 0, iss, iss⟩ ∧
        t.dev.fld TME_NOPROG TME_NOPROG_COUNT c = min (s.dev.fld TME_NOPROG TME_NOPROG_COUNT c + 1) (2 ^ TME_NOPROG_COUNT.w - 1))

/-- R243, R244: the actions on the parked team that TME_PARK_SEL selects: REPLAY and STEP resume it at the parked place, behind a BREAK, STEP for one
instruction, after ACCESS for the failing lanes alone, an access under way going on unless PARK_PC names another instruction; SKIP resumes it
behind the instruction; KILL ends every team of the launch; TME_REG_DATA writes the selected register. -/
def Obligations.TeamActions : Prop :=
  ∀ (s : State) (who : Who) (c : Nat) (x : Slot) (p : Park), c < 140 → s.dev.reach who = true → s.dev.gatedReg (coreBase c) = false →
    SMap.find (s.dev.core c).slots (s.dev.parkSel c) = some x → x.park = some p → (s.dev.core c).active = true →
    (∀ r ∈ ([(.replay, false), (.stepTeam, true)] : List ((Who → Nat → Instr) × Bool)),
      ∃ t y, exec (r.1 who c) s = .next t ∧
        t.dev = { s.dev with out := [.ok], tme := t.dev.tme, xacts := t.dev.xacts, acks := t.dev.acks } ∧
        ((∀ a, x.access = some a → a.pc = p.pc) → t.dev.xacts = s.dev.xacts ∧ t.dev.acks = s.dev.acks) ∧
        SMap.find (t.dev.core c).slots (s.dev.parkSel c) = some y ∧ y.park = none ∧ y.step1 = r.2 ∧ y.v = x.v ∧ y.u = x.u ∧ y.p = x.p ∧
        y.replay = (if p.cause = pkAccess then some p.fault else none) ∧ y.access = x.access.filter (fun a => a.pc == p.pc) ∧
        (y.access = none → ∀ l, l < x.pcs.length →
          y.pcOf l = if bitOf p.active l then pcMask (if p.cause = pkBreak then p.pc + 8 else p.pc) else x.pcOf l) ∧
        ∀ i, i ≠ s.dev.parkSel c → SMap.find (t.dev.core c).slots i = SMap.find (s.dev.core c).slots i) ∧
    (∃ t y, exec (.skip who c) s = .next t ∧
      t.dev = { s.dev with out := [.ok], tme := t.dev.tme, xacts := t.dev.xacts, acks := t.dev.acks } ∧
      t.dev.xacts.map (·.xid) = s.dev.xacts.map (·.xid) ∧
      SMap.find (t.dev.core c).slots (s.dev.parkSel c) = some y ∧ y.park = none ∧ y.access = none ∧ y.replay = none ∧ y.v = x.v ∧ y.u = x.u ∧
      y.p = x.p ∧ (∀ l, l < x.pcs.length → y.pcOf l = if bitOf p.active l then pcMask (p.pc + 8) else x.pcOf l) ∧
      ∀ i, i ≠ s.dev.parkSel c → SMap.find (t.dev.core c).slots i = SMap.find (s.dev.core c).slots i) ∧
    (∃ t, exec (.kill who c) s = .next t ∧ (t.dev.core c).active = false ∧
      ∀ i y, SMap.find (t.dev.core c).slots i = some y → y.park.isSome = true) ∧
    (∀ v : Word, s.dev.fld TME_REG_SEL TME_REG_SEL_FILE c = 0 → s.dev.fld TME_REG_SEL TME_REG_SEL_REG c < 8 * (s.dev.core c).regs →
      s.dev.fld TME_REG_SEL TME_REG_SEL_REG c ≠ 255 →
      ∃ t y, exec (.tmeRegData who c v) s = .next t ∧ t.dev = { s.dev with out := [.ok], tme := t.dev.tme } ∧
        SMap.find (t.dev.core c).slots (s.dev.parkSel c) = some y ∧ y.park = some p ∧
        ∀ r l, l < 32 → y.rv r l = if r = s.dev.fld TME_REG_SEL TME_REG_SEL_REG c ∧ l = s.dev.fld TME_REG_SEL TME_REG_SEL_LANE c
          then v.toNat % 2 ^ 32 else x.rv r l) ∧
    (∀ v : Word, s.dev.fld TME_REG_SEL TME_REG_SEL_FILE c = 1 → s.dev.fld TME_REG_SEL TME_REG_SEL_REG c < 64 →
      ∃ t y, exec (.tmeRegData who c v) s = .next t ∧ t.dev = { s.dev with out := [.ok], tme := t.dev.tme } ∧
        SMap.find (t.dev.core c).slots (s.dev.parkSel c) = some y ∧ y.park = some p ∧
        ∀ r, y.ru r = if r = s.dev.fld TME_REG_SEL TME_REG_SEL_REG c then v.toNat % 2 ^ 32 else x.ru r)

/-! ### Furrows -/

/-- R84, R85, R66, R67, R58: the control operations of a furrow: NOP changes nothing but that it is done; a FILL on a matrix array counts the cycles
that the array is active (R111, R128), another nothing; a WAIT is done when its pause
is over; a CALL goes one level deeper; a SIGNAL sets its flag or adds the 64-bit VALUE64 to its counter; a RET performs its own SIGNAL, then the
CALL's, and comes back one level. No wait is pending in the SIGNAL clauses. R84, R393 to R395, Table 19.7: TRC.MARK writes its record with the
128-bit payload to the ring of its engine's class and no other byte of memory, when the ring has room and no record was lost before; without a ring it writes
nothing. -/
def Obligations.FurrowControl : Prop :=
  (∀ (s : State) (f : Nat) (i : FItem), f < 520 → s.dev.live = true →
     (s.dev.performs f opNop i → ∃ t, exec (.nop f) s = .next t ∧ furrowDone s t f ∧ t.dev = { s.dev with out := [], furrows := t.dev.furrows }) ∧
     (s.dev.performs f opFill i → ∃ t, exec (.fill f) s = .next t ∧ furrowDone s t f ∧
       (120 ≤ f → t.dev = { s.dev with out := [], furrows := t.dev.furrows }) ∧
       (∀ p, f < 120 → s.dev.physOf f = some p →
         t.dev = { s.dev with out := [], furrows := t.dev.furrows, regs := t.dev.regs } ∧ regsAgree (fun o => o = MXA_ACT.addr p 0) s.dev t.dev ∧
         t.dev.fld MXA_ACT MXA_ACT_CYCLES p =
           (s.dev.fld MXA_ACT MXA_ACT_CYCLES p + bitsOf i.d.w0.toNat 0 32 + 32) % 2 ^ MXA_ACT_CYCLES.w)) ∧
     (∀ r ∈ ([.waitOp, .waitDelayExpiry] : List (Nat → Instr)), s.dev.performs f opWait i →
       ((s.dev.frw f).t0 + bitsOf i.d.w0.toNat 0 32 ≤ s.dev.tb.time →
         ∃ t, exec (r f) s = .next t ∧ furrowDone s t f ∧ t.dev = { s.dev with out := [], furrows := t.dev.furrows }) ∧
       (s.dev.tb.time < (s.dev.frw f).t0 + bitsOf i.d.w0.toNat 0 32 → ∃ t, exec (r f) s = .next t ∧ t = { s with dev := { s.dev with out := [] } })) ∧
     (s.dev.performs f opCall i → ∃ t, exec (.call f) s = .next t ∧ furrowDone s t f ∧
       t.dev.ff f FRW_STATUS FRW_STATUS_DEPTH = (s.dev.ff f FRW_STATUS FRW_STATUS_DEPTH + 1) % 8 ∧
       t.dev = { s.dev with out := [], furrows := t.dev.furrows, regs := t.dev.regs } ∧
       regsAgree (fun o => o = FRW_STATUS.addr (s.dev.frwBase f) 0) s.dev t.dev) ∧
     (s.dev.performs f opSignal i → s.dev.sigRemote i.d.sig.toNat = false → s.dev.waits = [] →
       ∃ t, exec (.signal f) s = .next t ∧ furrowDone s t f ∧ signalled s.dev t.dev i.d.sig.toNat i.d.w0.toNat ∧
         t.dev = { s.dev with out := [], furrows := t.dev.furrows, flags := t.dev.flags, ctrs := t.dev.ctrs }) ∧
     (s.dev.performs f opRet i → s.dev.sigRemote i.d.sig.toNat = false → s.dev.sigRemote i.call.sig.toNat = false → s.dev.waits = [] →
       ∃ t d, exec (.ret f) s = .next t ∧ furrowDone s t f ∧ signalled s.dev d i.d.sig.toNat (sigValue i.d.sig.toNat) ∧
         signalled d t.dev i.call.sig.toNat (sigValue i.call.sig.toNat) ∧
         (s.dev.ff f FRW_STATUS FRW_STATUS_DEPTH ≠ 0 →
           t.dev.ff f FRW_STATUS FRW_STATUS_DEPTH = s.dev.ff f FRW_STATUS FRW_STATUS_DEPTH - 1) ∧
         t.dev = { s.dev with out := [], furrows := t.dev.furrows, flags := t.dev.flags, ctrs := t.dev.ctrs, regs := t.dev.regs } ∧
         regsAgree (fun o => o = FRW_STATUS.addr (s.dev.frwBase f) 0) s.dev t.dev)) ∧
  (∀ (s : State) (f r : Nat) (i : FItem), f < 520 → s.dev.live = true → s.dev.performs f opTrc i →
     r = bitsOf (s.dev.reg TRC_SEL) (3 * furrowType f) 3 →
     (4 ≤ r → ∃ t, exec (.trcMark f) s = .next t ∧ furrowDone s t f ∧ t.dev = { s.dev with out := [], furrows := t.dev.furrows }) ∧
     (r < 4 → 16 ≤ s.dev.fld TRC_SIZE TRC_SIZE_LOG2_SIZE 0 r → SMap.get 0 s.dev.lostTrace r = 0 →
       (s.dev.reg TRC_WR 0 r + 2 ^ 64 - s.dev.reg TRC_RD 0 r) % 2 ^ 64 < 2 ^ (s.dev.fld TRC_SIZE TRC_SIZE_LOG2_SIZE 0 r - 6) →
       ∃ t, exec (.trcMark f) s = .next t ∧ furrowDone s t f ∧ t.dev.reg TRC_WR 0 r = (s.dev.reg TRC_WR 0 r + 1) % 2 ^ 64 ∧
         ∀ x, t.dev.mem.byte x =
           (Mem.write s.dev.mem (s.dev.fld TRC_BASE TRC_BASE_BASE 0 r * 4096 +
               64 * (s.dev.reg TRC_WR 0 r % 2 ^ (s.dev.fld TRC_SIZE TRC_SIZE_LOG2_SIZE 0 r - 6)))
             (traceBytes s.dev.tb.time trcMarkK (4 * b2n (i.rtn != 0xFFFF)) (furrowId f) i.otag i.step s.dev.jobId i.rtn i.pos
               (leBytes 8 i.d.w0.toNat ++ leBytes 8 i.d.w1.toNat))).byte x))

/-- R55, R57, R59, R62 to R64, R71, R75: the flow of a furrow: a burst that arrives joins the FIFO in order; a head whose WAIT is satisfied, which the
gate lets pass and which needs no loss scale begins, leaves the FIFO and shows in FRW_CUR, while inserted work elsewhere may be withdrawn for it (R307);
one whose WAIT is not met stays and its wait is pending; a
descriptor whose operation is done completes and performs its local SIGNAL; the loader appends a step body that is due; HOLD follows the write. No word of memory is uncorrectable here: fetching one is a device fault (R299). -/
def Obligations.FurrowFlow : Prop :=
  ∀ (s : State) (f : Nat), f < 520 → s.dev.eccUE = [] →
    (∀ b rest, s.dev.live = true → (s.dev.frw f).infl = b :: rest → ∃ t more, exec (.fetchBurstArrival f) s = .next t ∧ devOnly s t ∧
      (t.dev.frw f).fifo = (s.dev.frw f).fifo ++ b ∧ (t.dev.frw f).infl = rest ++ more ∧ (t.dev.frw f).cur = (s.dev.frw f).cur ∧
      (∀ g, g ≠ f → t.dev.frw g = s.dev.frw g) ∧ regsAgree (fun o => o = FRW_HEAD.addr (s.dev.frwBase f) 0 ∨ eccOffset o) s.dev t.dev) ∧
    (∀ g i rest, s.dev.live = true → s.dev.frwImg f = some g → (s.dev.frw f).fifo = i :: rest → s.dev.running = true → s.dev.frwErr f = 0 →
      (s.dev.frw f).cur = none → s.dev.ff f FRW_CTRL FRW_CTRL_HOLD = 0 → s.dev.job.sowEnd ≤ s.dev.tb.time →
      ((s.dev.frw f).wait = .satisfied → usesLs i.d = false → s.dev.gatePass f (estimate f i.d) = true →
        ∀ u : Upset, u.passes = true → ∃ t, exec (.descriptorBegin f u) s = .next t ∧ devOnly s t ∧ (t.dev.frw f).cur = some i ∧ (t.dev.frw f).fifo = rest ∧
          (t.dev.frw f).t0 = s.dev.tb.time ∧ (t.dev.frw f).done = false ∧
          t.dev.reg FRW_CUR (s.dev.frwBase f) = i.otag % 2 ^ 32 + (i.step % 2 ^ 32) <<< 32 ∧
          ∀ h, h ≠ f → t.dev.frw h = { s.dev.frw h with inserted := (t.dev.frw h).inserted }) ∧
      ((s.dev.frw f).wait = .untested → waitKind i.d.wait.toNat ≠ 0 → s.dev.waits = [] →
        s.dev.waitMet (headWait f i) = false →
        ∀ u, ∃ t, exec (.descriptorBegin f u) s = .next t ∧ devOnly s t ∧ (t.dev.frw f).cur = none ∧ (t.dev.frw f).fifo = i :: rest ∧
          (t.dev.frw f).wait = .pending ∧ t.dev.waits = [headWait f i] ∧ t.dev.flags = s.dev.flags ∧ t.dev.ctrs = s.dev.ctrs ∧
          ∀ h, h ≠ f → t.dev.frw h = s.dev.frw h)) ∧
    (∀ g i, s.dev.live = true → s.dev.frwImg f = some g → (s.dev.frw f).cur = some i → (s.dev.frw f).done = true → (s.dev.frw f).held = 0 →
      s.dev.frwErr f = 0 → ownSignal i.d.op = false → s.dev.sigRemote i.d.sig.toNat = false → s.dev.waits = [] →
      ∃ t, exec (.descriptorComplete f) s = .next t ∧ devOnly s t ∧ (t.dev.frw f).cur = none ∧ (t.dev.frw f).done = false ∧
        signalled s.dev t.dev i.d.sig.toNat (sigValue i.d.sig.toNat) ∧ ∀ h, h ≠ f → t.dev.frw h = s.dev.frw h) ∧
    (∀ g, s.dev.live = true → s.dev.frwImg f = some g → s.dev.running = true → (s.dev.frw f).epi = false → 0 < g.nBody → g.f = f →
      ((s.dev.frw f).bodies < 2 ∨ g.nPro + ((s.dev.frw f).bodies - 1) * g.nBody ≤ s.dev.ff f FRW_HEAD FRW_HEAD_HEAD) →
      (s.dev.frw f).bodies ≤ s.dev.lastStep →
      ∃ t, exec (.loaderAppend f) s = .next t ∧ devOnly s t ∧ (t.dev.frw f).bodies = (s.dev.frw f).bodies + 1 ∧
        t.dev.ff f FRW_TAIL FRW_TAIL_TAIL = (s.dev.ff f FRW_TAIL FRW_TAIL_TAIL + g.nBody) % 2 ^ 64 ∧ ∀ h, h ≠ f → t.dev.frw h = s.dev.frw h) ∧
    (∀ who h, s.dev.reach who = true → s.dev.gatedReg (s.dev.frwBase f) = false → s.dev.hasFrw f = true →
      ∃ t, exec (.frwHold who f h) s = .next t ∧ devOnly s t ∧ t.dev.ff f FRW_CTRL FRW_CTRL_HOLD = b2n h ∧
        ∀ g, g ≠ f → t.dev.frw g = s.dev.frw g)

/-! ### Matrix array, tilth units, movers -/

/-- R87, R90, R105, R107, R116 to R118, Table 6.5: a matrix operation on one tile that leaves its chain open and starts it takes a free accumulator:
every element's value lies within the bound of R116 or R117 of the exact sum of its products (which of the values there is free, log entry 1), which the
element keeps while no order of it can saturate (R118); the chain has the operation's M, N, SHAPE and K, and memory, flags, counters and the other accumulator are as they were. -/
def Obligations.MatrixAccumulates : Prop :=
  ∀ r ∈ mmRows, ∀ (s : State) (f p : Nat) (i : FItem) (x : Mm) (af bf : Fmt) (a : Opnd) (b : BOp) (u : Upset), f < 120 → s.dev.live = true →
    u.passes = true → s.dev.performs f r.1 i → s.dev.physOf (furrowUnit f) = some p → x = Mm.of i.d → Mm.ownOk x (s.dev.mx p) = true → x.tm * x.tn = 1 →
    x.k ≠ 0 → x.nodrain = true → x.accum = false → x.heritage = false → Fmt.ofCode x.afmt = some af → Fmt.ofCode x.bfmt = some bf →
    s.dev.mmA p r.1 x af 0 = .inl a → s.dev.mmB p r.1 x bf 0 = .inl b →
    ∃ t, exec (r.2 f u) s = .next t ∧ furrowDone s t f ∧ t.dev.mem = s.dev.mem ∧ t.dev.flags = s.dev.flags ∧ t.dev.ctrs = s.dev.ctrs ∧
      (accGet (t.dev.mx p) (Mm.accOf x 0)).owned = true ∧ (accGet (t.dev.mx p) (Mm.accOf x 0)).m = x.m ∧
      (accGet (t.dev.mx p) (Mm.accOf x 0)).n = x.n ∧ (accGet (t.dev.mx p) (Mm.accOf x 0)).shape = x.shape ∧
      (accGet (t.dev.mx p) (Mm.accOf x 0)).ksum = min x.k 0xFFFFFFFF ∧
      accGet (t.dev.mx p) (!Mm.accOf x 0) = accGet (s.dev.mx p) (!Mm.accOf x 0) ∧ (∀ q, q ≠ p → t.dev.mx q = s.dev.mx q) ∧
      ∀ e, e < x.m * x.n →
        let q := (x.products af bf a b (e / x.n) (e % x.n)).foldl Sum.product Sum.zero
        let el := SMap.get AccEl.zero (accGet (t.dev.mx p) (Mm.accOf x 0)).els e
        sumStands el.y q x.k (if af = .fp32 then 3 else 1) ∧ (q.inRange → el.sum = { q with spec := none })

/-- R91, R113 to R115, R135, Table 6.3: a matrix operation with K = 0 drains the open chain it names through the drain stages to DST, without a
fallow map and without a tensor operand: the tile's bytes lie there, memory outside them is as it was, and the accumulator is free. -/
def Obligations.MatrixDrains : Prop :=
  ∀ r ∈ mmRows, ∀ (s : State) (f p a : Nat) (i : FItem) (x : Mm) (af bf zf : Fmt) (u : Upset), f < 120 → s.dev.live = true → u.passes = true → s.dev.performs f r.1 i →
    s.dev.physOf (furrowUnit f) = some p → x = Mm.of i.d → Mm.ownOk x (s.dev.mx p) = true → x.tm * x.tn = 1 → x.k = 0 → x.nodrain = false →
    x.accum = true → x.top = 0 → x.fmap = false → Fmt.ofCode x.afmt = some af → Fmt.ofCode x.bfmt = some bf → Fmt.ofCode x.ofmt = some zf →
    s.dev.agentAddr x.dst = some a → s.dev.sheafMem a (footprint x.m x.n zf) = true →
    ∃ t, exec (r.2 f u) s = .next t ∧ furrowWrote s t f ∧ t.dev.flags = s.dev.flags ∧ t.dev.ctrs = s.dev.ctrs ∧
      accGet (t.dev.mx p) (Mm.accOf x 0) = .empty ∧ accGet (t.dev.mx p) (!Mm.accOf x 0) = accGet (s.dev.mx p) (!Mm.accOf x 0) ∧
      (∀ q, q ≠ p → t.dev.mx q = s.dev.mx q) ∧
      ∀ y, t.dev.mem.byte y = (Mem.write s.dev.mem a (packDense (layOf a) x.m x.n zf
        (s.dev.mmDrain p x zf (accGet (s.dev.mx p) (Mm.accOf x 0)) none i.step 0).1 (s.dev.readN (a + x.m * x.n * zf.bits / 8) 1))).byte y

/-- R93, R114, R123, R131, R135, R148, R156, R158, R178, R181 to R183, R195, R196: a tilth operation without a fallow map writes its result rows,
encoded in Z's format, as a dense panel at Z; LAYERNORM and RMSNORM also the statistics after it, CVT.24 the kept values, their positions and the
scales; memory outside is as it was. The lane tree of its die's plots and that of its tilth units run as one (R335, Table 16.5; log entry 93). -/
def Obligations.TilthResults : Prop :=
  ∀ (s : State) (f p : Nat) (i : FItem) (x : Til) (fx fz : Fmt) (ox : Opnd) (ys : Option (List (List Ex))) (u : Upset), 240 ≤ f → f < 400 →
    s.dev.live = true → u.passes = true → s.dev.treesOff (p / 16) = false → p = furrowUnit f → x = Til.of i.d → tilthReads s.dev x p fx fz ox ys → x.fmap = false →
    (∀ r ∈ tilthRows, s.dev.performs f r.1 i →
      ∃ t, exec (r.2.1 f u) s = .next t ∧ furrowWrote s t f ∧ t.dev.flags = s.dev.flags ∧ t.dev.ctrs = s.dev.ctrs ∧
        ∀ y, t.dev.mem.byte y = (Mem.write s.dev.mem x.z (packDense .rm (r.2.2.2 s.dev i x (opRows ox fx x.rows x.len) ys).length (r.2.2.1 x) fz
          (zRows fz (r.2.2.2 s.dev i x (opRows ox fx x.rows x.len) ys))
          (s.dev.readN (x.z + (r.2.2.2 s.dev i x (opRows ox fx x.rows x.len) ys).length * r.2.2.1 x * fz.bits / 8) 1))).byte y) ∧
    (s.dev.performs f opRed2 i →
      ∃ t, exec (.red2 f u) s = .next t ∧ furrowWrote s t f ∧ t.dev.flags = s.dev.flags ∧ t.dev.ctrs = s.dev.ctrs ∧
        ∀ y, t.dev.mem.byte y =
          (let rs := red2Rows s.dev x (opRows ox fx x.rows x.len) ys
           let M := Mem.write s.dev.mem x.z (packDense .rm rs.length x.len fz (zRows fz (rs.map Prod.fst))
             (s.dev.readN (x.z + rs.length * x.len * fz.bits / 8) 1))
           if x.func = 0x12 then M
           else Mem.write M (x.z + footprint x.rows x.len fz) (rs.map fun q => leBytes 4 (toF32 q.2.x)).flatten).byte y) ∧
    (s.dev.performs f opCvt24 i →
      ∃ t, exec (.cvt24 f u) s = .next t ∧ furrowWrote s t f ∧ t.dev.flags = s.dev.flags ∧ t.dev.ctrs = s.dev.ctrs ∧
        ∀ y, t.dev.mem.byte y =
          (let rs := (List.range x.rows).map (row24 fx fz x.prune ox x.len)
           Mem.write s.dev.mem x.z (packDense .rm x.rows (x.len / 2) fz (rs.map fun q => ([], q.1.map Enc.code)) 0 ++
             asBytes (rs.map fun q => q.2.1).flatten ++ asBytes (rs.map fun q => q.2.2.1).flatten)).byte y)

/-- R95, R114, Table 6.4 row 5: a MOV whose rows may all be used, that re-lays nothing and meets no fallow block, copies its rows in order and
nothing else of memory; COUNT adds the bytes moved to its counter. That a later row reads what an earlier one wrote is the model's row order. -/
def Obligations.MoverCopies : Prop :=
  ∀ (s : State) (f a b : Nat) (i : FItem) (m : MovOp) (u : Upset), 400 ≤ f → f < 440 → s.dev.live = true → u.passes = true → s.dev.performs f opMov i → m = MovOp.of i.d →
    0 < m.rows → 0 < m.rowBytes → (∀ r, r < m.rows → (s.dev.movRow m r).isSome = true) → s.dev.movRow m 0 = some (a, b) →
    s.dev.movUE m a b = none → s.dev.movCase m a b = 5 → s.dev.waits = [] →
    ∃ t, exec (.mov f u) s = .next t ∧ furrowWrote s t f ∧ t.dev.mem = movedMem s.dev m ∧ t.dev.flags = s.dev.flags ∧ t.dev.waits = [] ∧
      ∀ c, t.dev.ctr c = if m.count = true ∧ c = m.counter then (s.dev.ctr c + m.rows * m.rowBytes) % 2 ^ 64 else s.dev.ctr c

/-! ### Headland and harrow -/

/-- R59, R96, R208, R276, R280, R281, R285, Table 13.4: a headland operation whose port is allowed and UP and whose local bytes may be read leaves by
its own furrow's port as one command with the bytes of its local side (none for GET), is recorded as outstanding under the next identifier, and
holds its descriptor for the response; memory, flags and counters are as they were. -/
def Obligations.HeadlandSends : Prop :=
  ∀ r ∈ hdlRows, ∀ (s : State) (f p : Nat) (i : FItem) (h : Hdl) (u : Upset), 440 ≤ f → f < 500 → s.dev.live = true → u.passes = true →
    s.dev.performs f r.1 i →
    h = Hdl.of i.d → s.dev.quiesced = false → s.dev.hdlPort (furrowUnit f) h.dev = .inl p → s.dev.sheafMem h.loc h.bytes = true →
    (r.1 ≠ opGet → (h.loc < hbmSize → s.dev.ueIn h.loc h.bytes = none) ∧ (hbmSize ≤ h.loc → s.dev.touchesFallow h.loc h.bytes = false)) →
    ∃ t c k, exec (r.2 f u) s = .next t ∧ devOnly s t ∧ t.dev.mem = s.dev.mem ∧ t.dev.flags = s.dev.flags ∧ t.dev.ctrs = s.dev.ctrs ∧
      t.dev.frw f = { s.dev.frw f with done := true, held := 1 } ∧ (∀ g, g ≠ f → t.dev.frw g = s.dev.frw g) ∧
      c = s.dev.hdlCmd h r.1 i s.dev.nextXid (s.dev.frw f).t0 (s.dev.frw f).bits ∧
      c.op = r.1 - opPut + 1 ∧ c.src = s.dev.devId ∧ c.dst = h.dev ∧ c.addr = h.remote ∧ c.bytes = h.bytes ∧ c.jobId = s.dev.jobId ∧
      t.dev.out = [.cmd p { c with flags := if routeDateline (s.dev.routeEntry h.dev) then setBits c.flags 4 1 1 else c.flags }
        (if r.1 = opGet then [] else s.dev.read h.loc h.bytes)] ∧
      t.dev.xacts = s.dev.xacts ++ [⟨s.dev.nextXid, k, h.dev, p, c⟩] ∧ t.dev.nextXid = (s.dev.nextXid + 1) % 2 ^ 32 ∧
      k = (if r.1 = opPut then .put f i.step
        else if r.1 = opGet then .get f i.step h.loc (if h.lcount then some h.lctr else none) else .acc f i.step h.stamp)

/-- R97, R205, R215, R216, R218, R219: an UPD of a step body whose group record is in order applies its verdict to every record of the stack: under
DISCARD it zeroes the step's slot, under COMMIT it also updates the records that count on at STEPC and are not frozen, and counts the group on; the
form without compute copy, factored rule and snapshot; memory outside is as it was. -/
def Obligations.UpdApplies : Prop :=
  ∀ (s : State) (f : Nat) (i : FItem) (g : FrwImg) (a : Applying) (u : Upset), 500 ≤ f → f < 520 → s.dev.live = true → u.passes = true →
    s.dev.performs f opUpd i →
    s.dev.frwImg f = some g → g.phaseOf i = 1 → a.u = Upd.of i.d → a.s = furrowUnit f → a.p = GRec.of (s.dev.read a.u.record 256) a.s →
    a.slot = i.step % 2 → a.dv = (SMap.get HVerd.none (s.dev.hrw a.s).verds a.u.group).d →
    a.ls = (SMap.get HVerd.none (s.dev.hrw a.s).verds a.u.group).ls →
    a.commit = ((SMap.get HVerd.none (s.dev.hrw a.s).verds a.u.group).step == i.step &&
      (SMap.get HVerd.none (s.dev.hrw a.s).verds a.u.group).state == vCommit) →
    s.dev.reserved a.u.record 256 = true → s.dev.ueIn a.u.record 256 = none → a.p.stepc ≠ 0xFFFFFFFF → a.u.nblk = a.p.count →
    a.p.ok a.u = true → s.dev.reserved a.p.base (512 * a.p.nrec) = true → (∀ r ∈ recordsIn a.p a.s, s.dev.ueIn (a.p.base + 512 * r) 512 = none) →
    (a.commit = true → ∀ r ∈ recordsIn a.p a.s, s.dev.appliedOf a.p r = a.p.stepc ∨ s.dev.appliedOf a.p r = a.p.stepc + 1) →
    a.u.cfmt = none → a.u.rule ≠ 3 → s.dev.snapOn a.p = false →
    ∃ t, exec (.upd f u) s = .next t ∧ furrowWrote s t f ∧ t.dev.mem = recordsMem a s.dev.seed s.dev.mem ∧ t.dev.flags = s.dev.flags ∧
      t.dev.ctrs = s.dev.ctrs ∧ (SMap.get HVerd.none (t.dev.hrw a.s).verds a.u.group).applied = true ∧
      SMap.get none (t.dev.hrw a.s).own (2 * a.u.group + a.slot) = none ∧ (t.dev.hrw a.s).hdrs = (s.dev.hrw a.s).hdrs ∧
      ∀ q, q ≠ a.s → t.dev.hrw q = s.dev.hrw q

/-- R98, R210: a SEAL of a step body whose header is closed deposits it in the step's accumulator, once, and is done with the verdict COMMIT or
DISCARD; without a verdict it has deposited and waits; while its header is open it waits and deposits nothing; in the prologue or epilogue it is done at
once (the model's choice, log entry 34). -/
def Obligations.SealFlow : Prop :=
  ∀ (s : State) (f n : Nat) (i : FItem) (u : Upset), 500 ≤ f → f < 520 → s.dev.live = true → u.passes = true → s.dev.performs f opSeal i →
    n = furrowUnit f →
    (i.step = noStep → ∃ t, exec (.seal f u) s = .next t ∧ furrowDone s t f ∧
      t.dev = { s.dev with out := [], furrows := t.dev.furrows, regs := t.dev.regs } ∧ regsAgree (replayOffset u) s.dev t.dev) ∧
    (∀ gp x, i.step ≠ noStep → s.dev.sealHdr n (bitsOf i.d.w0.toNat 32 12) i.step = some (gp, x) →
      (x.closed = false → ∃ t, exec (.seal f u) s = .next t ∧ t = { s with dev := { s.dev with out := [], regs := t.dev.regs } } ∧
        regsAgree (replayOffset u) s.dev t.dev) ∧
      (x.closed = true → x.deposited = true →
        ∃ t, exec (.seal f u) s = .next t ∧ regsAgree (replayOffset u) s.dev t.dev ∧
          t.dev = { s.dev with out := [], furrows := t.dev.furrows, regs := t.dev.regs } ∧
          (((s.dev.seal i.step).verdict = vCommit ∨ (s.dev.seal i.step).verdict = vDiscard) → furrowDone s t f) ∧
          ((s.dev.seal i.step).verdict = vUnknown → t.dev.furrows = s.dev.furrows)) ∧
      (x.closed = true → x.deposited = false → s.dev.reserved (bitsOf i.d.w1.toNat 0 48) (2 * bitsOf i.d.w2.toNat 0 16) = true →
        s.dev.ueIn (bitsOf i.d.w1.toNat 0 48) (2 * bitsOf i.d.w2.toNat 0 16) = none → s.dev.ueIn (gp.record + 0xA0 + 4 * n) 4 = none →
        ∃ t, exec (.seal f u) s = .next t ∧ devOnly s t ∧ t.dev.mem = s.dev.mem ∧
          (((s.dev.seal i.step).verdict = vCommit ∨ (s.dev.seal i.step).verdict = vDiscard) → furrowDone s t f) ∧
          ((s.dev.seal i.step).verdict = vUnknown → t.dev.furrows = s.dev.furrows) ∧
          (t.dev.seal i.step).dep = (s.dev.seal i.step).dep + 1 ∧ (t.dev.seal i.step).ovf = ((s.dev.seal i.step).ovf || x.ovf) ∧
          (t.dev.seal i.step).nf = ((s.dev.seal i.step).nf || x.nf) ∧ (∀ k, k ≠ i.step → t.dev.seal k = s.dev.seal k) ∧
          SMap.get HVerd.none (t.dev.hrw n).verds (bitsOf i.d.w0.toNat 32 12) = ⟨i.step, vUnknown, false, HHdr.dOf gp x, 0⟩))

/-! ### Registers and host accesses -/

/-- R8, R416: a 64-bit write of a register with no effect of its own, by whoever reaches it, replaces its RW fields, clears the RW1C bits written
with 1, leaves its other fields and every other register, and has one normal response; through BAR0 it is the same write. R8: a read of a register
with RC fields answers its value and clears those fields, and those alone; through BAR0 it is the same read. R129: a write of 1 to CLEAR empties the
log that the count register counts, and changes no other register and no memory. -/
def Obligations.RegisterAccesses : Prop :=
  (∀ (s : State) (v : Word), ∀ r ∈ plainRegs,
     (∀ who, s.dev.reach who = true → ∃ t, exec (.registerWrite who (r.addr 0 0) 8 v) s = .next t ∧ devOnly s t ∧
       t.dev = { s.dev with out := [.ok], regs := t.dev.regs } ∧ regsAgree (fun o => o = r.addr 0 0) s.dev t.dev ∧
       ∀ f ∈ r.flds, t.dev.fld r f = fieldAfter f (s.dev.fld r f) v.toNat) ∧
     (s.dev.reach .host = true → exec (.hostWrite 0 (r.addr 0 0) (leBytes 8 v.toNat)) s = exec (.registerWrite .host (r.addr 0 0) 8 v) s)) ∧
  (∀ (s : State), ∀ r ∈ rcRegs,
     (∀ who, s.dev.reach who = true → ∃ t, exec (.rcRead who (r.addr 0 0) 8) s = .next t ∧ devOnly s t ∧
       t.dev = { s.dev with out := [.value (mkW (s.dev.reg r))], regs := t.dev.regs } ∧ regsAgree (fun o => o = r.addr 0 0) s.dev t.dev ∧
       ∀ f ∈ r.flds, t.dev.fld r f = if f.ty = .rc then 0 else s.dev.fld r f) ∧
     (s.dev.reach .host = true → ∀ u, exec (.hostRead 0 (r.addr 0 0) 8 u) s = exec (.rcRead .host (r.addr 0 0) 8) s)) ∧
  (∀ (s : State) (who : Who) (u : Nat) (v : Word), ∀ q ∈ logRegs, regAt (q.1.addr u 0) = some (q.1, u, 0) → s.dev.reach who = true →
     s.dev.gatedReg (q.1.addr u 0) = false → bitOf v.toNat 16 = true →
     ∃ t, exec (.elogClear who (q.1.addr u 0) v) s = .next t ∧ devOnly s t ∧ t.dev = { s.dev with out := [.ok], regs := t.dev.regs } ∧
       bitsOf (t.dev.reg q.1 u) 0 5 = 0 ∧ (∀ i, i < 16 → t.dev.reg q.2.1 u i = 0 ∧ t.dev.reg q.2.2 u i = 0) ∧
       regsAgree (logOffset q u) s.dev t.dev)

/-- R135, R247, R250, R253, R263, R352: a host read of memory that may be accessed answers its bytes, rereads counted, and changes none; a host write
replaces the bytes it names and no others and leaves the blocks it touches PLAIN; its normal response waits for the answers of the sharers it
invalidates, if any; an access of no memory, or a write of the library alias, changes no byte and draws an error response. -/
def Obligations.HostMemory : Prop :=
  ∀ (s : State) (off : Nat), s.dev.reach .host = true →
    (∀ n (u : Upset), 0 < n → off + n ≤ 2 ^ 42 → s.dev.memServes off n = true → (off < hbmSize → s.dev.ueIn off n = none) → u.passes = true →
      ∃ t, exec (.hostRead 2 off n u) s = .next t ∧ replaysCounted s t u ∧ devOnly s t ∧ t.dev.mem = s.dev.mem ∧ t.dev.out = [.data (s.dev.read off n)] ∧
        t.dev.flags = s.dev.flags ∧ t.dev.ctrs = s.dev.ctrs) ∧
    (∀ bs, bs ≠ [] → off + bs.length ≤ 2 ^ 42 → s.dev.memServes off bs.length = true →
      (off < hbmSize → ∀ w ∈ partWords off bs.length, s.dev.eccUE.has w = false) →
      ∃ t, exec (.hostWrite 2 off bs) s = .next t ∧ devOnly s t ∧ (∀ x, t.dev.mem.byte x = (Mem.write s.dev.mem off bs).byte x) ∧
        (t.dev.invs = [] → t.dev.out = [.ok]) ∧ (t.dev.invs ≠ [] → t.dev.acks = s.dev.acks ++ [(t.dev.invs, .ok)]) ∧
        (hbmSize ≤ off ∨ s.dev.dir = [] → t.dev.invs = []) ∧ t.dev.flags = s.dev.flags ∧ t.dev.ctrs = s.dev.ctrs ∧
        (hbmSize ≤ off → ∀ b, off / 512 ≤ b → b ≤ (off + bs.length - 1) / 512 → SMap.get 0 t.dev.hdrs b = 0)) ∧
    (∀ bs bar, bs ≠ [] → (bar = 2 ∧ off + bs.length ≤ 2 ^ 42 ∧ region off = .hole ∨ bar = 4 ∧ 0x1000_0000 ≤ off ∧ off + bs.length ≤ 2 ^ 29) →
      ∃ t, exec (.hostWrite bar off bs) s = .next t ∧ devOnly s t ∧ t.dev.mem = s.dev.mem ∧ t.dev.out = [.err] ∧
        regsAgree glogOffset s.dev t.dev)

/-- R60, R251, R252, R383, Table 12.3, no wait pending: a store or atomic of a requester that the declaration allows does to the flag or counter
what the table says, and to no other; an atomic answers the old value; one that is not allowed changes nothing and draws an error response; the
doorbell sets the flag it names. -/
def Obligations.SyncStores : Prop :=
  ∀ (s : State), s.dev.waits = [] →
    (∀ (who : Who) (i op : Nat) (v v2 : Word), s.dev.reach who = true → i < 8192 → s.dev.syncMay who true i = true →
      (op = 0 ∨ op = 2 ∨ op = 5) →
      ∃ t, exec (.flagCounterStore who true i op 8 v v2) s = .next t ∧ devOnly s t ∧ t.dev.flags = s.dev.flags ∧ t.dev.mem = s.dev.mem ∧
        t.dev.out = (if op = 0 then [.ok] else [.value (mkW (s.dev.ctr i))]) ∧
        ∀ j, t.dev.ctr j = if j ≠ i then s.dev.ctr j
          else if op = 0 then v.toNat
          else if op = 5 then (s.dev.ctr i + v.toNat) % 2 ^ 64
          else if s.dev.ctr i = v.toNat then v2.toNat else s.dev.ctr i) ∧
    (∀ (who : Who) (i op size : Nat) (v v2 : Word), s.dev.reach who = true → i < 65536 → op < 5 → (size = 4 ∨ size = 8) → s.dev.syncMay who false i = true →
      v.toNat < 2 → v2.toNat < 2 → (op = 3 → v.toNat = 1) → (op = 4 → v.toNat = 0) →
      ∃ t, exec (.flagCounterStore who false i op size v v2) s = .next t ∧ devOnly s t ∧ t.dev.ctrs = s.dev.ctrs ∧ t.dev.mem = s.dev.mem ∧
        t.dev.out = (if op = 0 then [.ok] else [.value (mkW (b2n (s.dev.flags.has i)))]) ∧
        ∀ j, t.dev.flags.has j = if j ≠ i then s.dev.flags.has j
          else if op = 2 then (if b2n (s.dev.flags.has i) = v.toNat then v2.toNat == 1 else s.dev.flags.has i)
          else v.toNat == 1) ∧
    (∀ (who : Who) (ctr : Bool) (i op size : Nat) (v v2 : Word), s.dev.reach who = true → i < (if ctr then 8192 else 65536) → op < 6 →
      s.dev.syncMay who ctr i = false →
      ∃ t, exec (.flagCounterStore who ctr i op size v v2) s = .next t ∧ devOnly s t ∧ t.dev.ctrs = s.dev.ctrs ∧ t.dev.flags = s.dev.flags ∧
        t.dev.out = [.err]) ∧
    (∀ (v : Word), s.dev.reach .host = true → v.toNat < 65536 → s.dev.hostOk false v.toNat = true →
      ∃ t, exec (.doorbell v) s = .next t ∧ devOnly s t ∧ t.dev.ctrs = s.dev.ctrs ∧ t.dev.mem = s.dev.mem ∧ t.dev.out = [.ok] ∧
        ∀ j, t.dev.flags.has j = (j == v.toNat || s.dev.flags.has j))

/-! ### Admission and the job -/

/-- R45, R222, R287, R372: SUBMIT with no sheaf admitted and no check running begins a check, notes HUB_SNAP.ENABLE and the rate for the job, and
changes nothing else but SEQ_STATUS; while a sheaf is admitted or a check runs it is refused with BUSY, which changes the result alone; while a
reset runs it has no effect. -/
def Obligations.SubmitChecks : Prop :=
  ∀ (s : State) (who : Who), s.dev.reach who = true →
    (s.dev.busyReset = true → ∃ t, exec (.submit who) s = .next t ∧ devOnly s t ∧ t.dev = { s.dev with out := [.err] }) ∧
    (s.dev.busyReset = false → s.dev.admitted = false → s.dev.checking = false →
      ∃ t, exec (.submit who) s = .next t ∧ devOnly s t ∧ t.dev.checking = true ∧ t.dev.reg SEQ_STATUS = 0 ∧
        t.dev = { s.dev with out := [.ok], regs := t.dev.regs, snap := s.dev.bit HUB_SNAP HUB_SNAP_ENABLE, tb := { s.dev.tb with rateSub := s.dev.rate } } ∧
        (∀ f ∈ ADM_STATUS.flds, f ≠ ADM_STATUS_CHECKING → t.dev.fld ADM_STATUS f = s.dev.fld ADM_STATUS f) ∧
        regsAgree (fun o => o = ADM_STATUS.addr 0 0 ∨ o = SEQ_STATUS.addr 0 0) s.dev t.dev) ∧
    (s.dev.busyReset = false → s.dev.admitted = true ∨ s.dev.checking = true →
      ∃ t, exec (.submit who) s = .next t ∧ devOnly s t ∧ t.dev.fld ADM_STATUS ADM_STATUS_CODE = 4 ∧
        t.dev = { s.dev with out := [.err], regs := t.dev.regs } ∧
        (∀ f ∈ ADM_STATUS.flds, f ≠ ADM_STATUS_CODE → t.dev.fld ADM_STATUS f = s.dev.fld ADM_STATUS f) ∧
        regsAgree (fun o => o = ADM_STATUS.addr 0 0 ∨ o = ADM_DETAIL0.addr 0 0 ∨ o = ADM_DETAIL1.addr 0 0) s.dev t.dev)

/-- R45, R386, R417, Table 2.9: the end of a check shows FORMAT with its offset, or the first refusal of the checks, and admits nothing; or it admits
the sheaf, which holds what the image says and runs nothing yet. ADMISSION is raised in every case. -/
def Obligations.AdmissionResults : Prop :=
  ∀ (s : State) (image : List Byte) (fail : Option Nat), s.dev.live = true → s.dev.checking = true →
    ∃ t, exec (.admissionComplete image fail) s = .next t ∧ devOnly s t ∧
      ∀ b e, b = image.take s.dev.seqLen → e = s.dev.checkedWith image fail →
        (∀ f, formatFault b s.dev.seqLen (readFail s.dev.seqLen b.length fail) = some f →
          admissionShows t 1 (f.1 % 2 ^ 32) ∧ notAdmitted s t ∧ (f.2 = true → t.dev.fld SEQ_STATUS SEQ_STATUS_PCIE_ERR = 1)) ∧
        (formatFault b s.dev.seqLen (readFail s.dev.seqLen b.length fail) = none →
          (∀ r, e.checkImage b = .inl r → admissionShows t (r.code % 2 ^ 8) (r.d0 % 2 ^ 32) ∧ t.dev.reg ADM_DETAIL1 = r.d1 % 2 ^ 64 ∧ notAdmitted s t) ∧
          (∀ k at_, e.checkImage b = .inr k → at_ = placed k.img (fit (e.gaps k.img) (imgPlaces k.img)) →
            admissionShows t 0 0 ∧ t.dev.admitted = true ∧ t.dev.running = s.dev.running ∧ t.dev.sheaf = some (e.sheafOf k at_) ∧
            t.dev.copies = copiesOf k.img at_ ∧ t.dev.decls = k.img.sync ∧ t.dev.job = Job.idle ∧ t.dev.waits = [] ∧ t.dev.seals = [] ∧
            (∀ f, (t.dev.frw f).cur = none ∧ (t.dev.frw f).fifo = []) ∧
            (s.dev.bit TRC_SEL TRC_SEL_FILL = false → t.dev.mem = s.dev.mem) ∧ t.dev.flags = s.dev.flags ∧
            t.dev.ctrs = s.dev.ctrs))

/-- R34, R43, R162, R210, R312, R386: SHEAF_COPY_COMPLETE writes the copies and the rings alone and sets COPIED; START of an admitted sheaf begins
its run, with its flags clear and its counters zero, LS by HUB_LS_CTRL.RESUME and a token to the tally; START otherwise is refused without effect.
R32: FINISH fixes the job's last step as the highest whose body has been appended to any furrow, and changes nothing else. -/
def Obligations.JobStartsAndFinishes : Prop :=
  (∀ (s : State), (∀ (sh : Sheaf), s.dev.sheaf = some sh →
     (s.dev.live = true → s.dev.fld SEQ_STATUS SEQ_STATUS_COPIED = 0 → s.dev.running = false →
       ∃ t, exec .sheafCopyComplete s = .next t ∧ devOnly s t ∧ t.dev.copies = [] ∧ t.dev.fld SEQ_STATUS SEQ_STATUS_COPIED = 1 ∧
         t.dev.sheaf = s.dev.sheaf ∧ t.dev.flags = s.dev.flags ∧ t.dev.ctrs = s.dev.ctrs ∧ t.dev.job = s.dev.job ∧
         ∀ x, (∀ c ∈ s.dev.copies, x < c.1 ∨ c.1 + c.2.length ≤ x) → (∀ g ∈ sh.frws, x < g.ring ∨ g.ring + 64 * 2 ^ (g.log2 - 6) ≤ x) →
           t.dev.mem.byte x = s.dev.mem.byte x) ∧
     (∀ who, s.dev.reach who = true → s.dev.busyReset = false → s.dev.admitted = true → s.dev.running = false → s.dev.job.faulted = false →
       ∃ t, exec (.start who) s = .next t ∧ devOnly s t ∧ t.dev.running = true ∧ t.dev.sheaf = some sh ∧
         t.dev.job = { Job.idle with start := s.dev.tb.time, sowEnd := s.dev.tb.time + sh.sowNs } ∧
         (∀ i, t.dev.flags.has i = (s.dev.flags.has i && !declaredBy sh false i)) ∧
         (∀ i, t.dev.ctr i = if declaredBy sh true i then 0 else s.dev.ctr i) ∧
         (∀ l, l = (if s.dev.bit HUB_LS_CTRL HUB_LS_CTRL_RESUME && s.dev.bit HUB_LS_COMMIT HUB_LS_COMMIT_VALID
             then sgn (s.dev.fld HUB_LS_COMMIT HUB_LS_COMMIT_EXP) 8 else sh.lsInit) → t.dev.ls = [(0, some l), (1, some l)]) ∧
         t.dev.gen0 = s.dev.fld HUB_GEN HUB_GEN_GEN ∧ t.dev.fld ERR_FAULT ERR_FAULT_VALID = 0 ∧
         (s.dev.busOk = true → ∃ out, t.dev.out = out ++ [.tlyToken s.dev.tb.time sh.jobId 1, .ok]))) ∧
     (∀ who, s.dev.reach who = true → (s.dev.sheaf = none ∨ s.dev.admitted = false ∨ s.dev.running = true ∨ s.dev.job.faulted = true ∨
         s.dev.busyReset = true) →
       ∃ t, exec (.start who) s = .next t ∧ devOnly s t ∧ t.dev = { s.dev with out := [.err] })) ∧
  (∀ (s : State) (who : Who) (sh : Sheaf), s.dev.reach who = true → s.dev.sheaf = some sh → s.dev.running = true → s.dev.job.last = none →
     (∃ g ∈ sh.frws, 0 < (s.dev.frw g.f).bodies) →
     ∃ t n, exec (.finish who) s = .next t ∧ devOnly s t ∧ t.dev = { s.dev with out := [.ok], job := { s.dev.job with last := some n } } ∧
       (∀ g ∈ sh.frws, (s.dev.frw g.f).bodies ≤ n + 1) ∧ ∃ g ∈ sh.frws, (s.dev.frw g.f).bodies = n + 1)

/-- R49, R51, R358, R359: an interval that passes its bound breaches the contract once with LATE; one that reaches its bound plus the grace faults
the job with DEADLINE, naming the end descriptor and the step. R76, R90, R358: a matrix operation whose accumulator may not be taken stops its
furrow with ACC_OWNED and faults the job with FURROW. -/
def Obligations.JobFaults : Prop :=
  (∀ (s : State) (id k : Nat) (x : Ddl) (v : Ival), s.dev.live = true → s.dev.ddlOf id = some x →
     (s.dev.job.ivals.find? fun w => w.id == id && w.k == k) = some v →
     (v.late = false → v.start + x.bound < s.dev.tb.time →
       ∃ t, exec (.deadlineLate id k) s = .next t ∧ devOnly s t ∧
         t.dev.fld ADM_BREACH ADM_BREACH_COUNT = min (s.dev.fld ADM_BREACH ADM_BREACH_COUNT + 1) (2 ^ 32 - 1) ∧
         t.dev.fld ADM_BREACH_LAST ADM_BREACH_LAST_CAUSE = brLate ∧
         bitOf (t.dev.fld HUB_IRQ_STATUS HUB_IRQ_STATUS_CAUSE) irqBreach = true ∧
         t.dev = { s.dev with
           mem := t.dev.mem, regs := t.dev.regs, lostTrace := t.dev.lostTrace, out := t.dev.out, pcie := t.dev.pcie, free := t.dev.free
           dir := t.dev.dir, xacts := t.dev.xacts, nextXid := t.dev.nextXid
           job := { s.dev.job with ivals := s.dev.job.ivals.map fun u => if u.id == id && u.k == k then { u with late := true } else u } } ∧
         regsAgree (fun o => o = ADM_BREACH.addr 0 0 ∨ o = ADM_BREACH_LAST.addr 0 0 ∨ traceOffset o ∨ glogOffset o) s.dev t.dev) ∧
     (v.late = true → ∃ t, exec (.deadlineLate id k) s = .next t ∧ devOnly s t ∧ t.dev = { s.dev with out := [] }) ∧
     (v.start + x.bound + s.dev.grace ≤ s.dev.tb.time → s.dev.job.faulted = false →
       ∃ t sh, exec (.deadline id k) s = .next t ∧ devOnly s t ∧ s.dev.sheaf = some sh ∧
         jobFaulted s t sh { cause := jfDeadline, furrow := if x.kind = 1 then 0xFFFF else x.ef, tag := if x.kind = 1 then 0 else x.etag,
                             step := k, detail := id, kind := kHub }) ∧
     (s.dev.tb.time < v.start + x.bound + s.dev.grace →
       ∃ t, exec (.deadline id k) s = .next t ∧ devOnly s t ∧ t.dev = { s.dev with out := [] })) ∧
  (∀ (s : State) (f p : Nat) (i : FItem) (sh : Sheaf) (u : Upset), f < 120 → s.dev.live = true → s.dev.sheaf = some sh → s.dev.job.faulted = false →
     s.dev.physOf (furrowUnit f) = some p → Mm.ownOk (Mm.of i.d) (s.dev.mx p) = false →
     ∀ r ∈ mmRows, s.dev.performs f r.1 i →
     ∃ t, exec (r.2 f u) s = .next t ∧ devOnly s t ∧ t.dev.frwErr f = feAccOwned ∧ t.dev.ff f FRW_ERR FRW_ERR_TAG = i.otag % 2 ^ 32 ∧
       jobFaulted s t sh { cause := jfFurrow, furrow := furrowId f, tag := i.otag, step := i.step, detail := feAccOwned,
                           kind := kCore, unit := p })

/-- R360, R371, R372, Table 18.4 step 5, Table 18.11: a JOB reset, by RST_CTRL or by AUTO_JOB once every command sent has its response or 1 ms has
passed since the abort, clears the work, the flags and counters and every memory but HBM and the plots marked KEEP, and sets BUSY; one that meets a
running job first faults it with HOST_RESET; while a reset of its depth or deeper runs it has no effect (R376). When BUSY ends DeepResets says. -/
def Obligations.JobResets : Prop :=
  ∀ (s : State),
    (∀ who, s.dev.reach who = true → s.dev.runsReset 2 = true →
      ∃ t, exec (.resetJob who) s = .next t ∧ devOnly s t ∧ t.dev = { s.dev with out := [.err] }) ∧
    (∀ who, s.dev.reach who = true → s.dev.runsReset 2 = false →
      ∃ t, exec (.resetJob who) s = .next t ∧ jobCleared s t ∧ t.dev.out.getLast? = some .ok ∧
      (s.dev.running = false → s.dev.bit TRC_SEL TRC_SEL_FILL = false → s.dev.pwrState = 0 → memKept s t fun p => s.dev.keepPlots.contains p) ∧
      (s.dev.running = true → s.dev.sheaf ≠ none → s.dev.job.faulted = false → t.dev.fld ERR_FAULT ERR_FAULT_CAUSE = jfHostReset ∧
        t.dev.fld ERR_FAULT ERR_FAULT_VALID = 1)) ∧
    (s.dev.runsReset 2 = false → s.dev.live = true → s.dev.job.aborting = true → s.dev.bit RST_CFG RST_CFG_AUTO_JOB = true →
      ((∀ x ∈ s.dev.xacts, x.kind = .stale ∨ ∃ dev, x.kind = .echo dev) ∨ s.dev.job.abortAt + 1000000 ≤ s.dev.tb.time) →
      ∃ t, exec .autoJob s = .next t ∧ jobCleared s t ∧
        (s.dev.bit TRC_SEL TRC_SEL_FILL = false → s.dev.pwrState = 0 → memKept s t fun p => s.dev.keepPlots.contains p))

/-! ### Power -/

/-- R304, R314, Table 15.5: a write of an envelope register in its range takes effect, START and END with no sheaf admitted only; a write outside it, or of
START or END while a sheaf is admitted, is refused. Under a running job FLOOR, CEILING and SLEW call for a recheck, which breaches the contract with
ENVELOPE where the profile can no longer be held, and leaves the job running. PWR_THERM takes a LIMIT of 85 to 105 and refuses any other. -/
def Obligations.Envelope : Prop :=
  ∀ (s : State),
    (∀ (who : Who) (which : Nat) (v : Word) (r : RegDef) (x : Nat), envRegs[which]? = some r → s.dev.reach who = true →
      x = v.toNat % 2 ^ (if which = 2 then 14 else 13) →
      (inEnvelope s.dev which x → (3 ≤ which → s.dev.admitted = false) →
        ∃ t, exec (.envelopeWrite who which v) s = .next t ∧ devOnly s t ∧ t.dev.reg r = x ∧
          t.dev = { s.dev with
            out := [.ok], regs := t.dev.regs
            gov := if s.dev.running && decide (which < 3) then { s.dev.gov with recheck := true } else s.dev.gov } ∧
          regsAgree (fun o => o = r.addr 0 0) s.dev t.dev) ∧
      (¬ inEnvelope s.dev which x → (3 ≤ which → s.dev.admitted = false) →
        ∃ t, exec (.envelopeWrite who which v) s = .next t ∧ refusedAs s t 0x02) ∧
      (3 ≤ which → s.dev.admitted = true → ∃ t, exec (.envelopeWrite who which v) s = .next t ∧ refusedAs s t 0x05)) ∧
    (∀ (who : Who) (v : Word) (x : Nat), s.dev.reach who = true → x = v.toNat % 128 →
      (85 ≤ x → x ≤ 105 → ∃ t, exec (.registerWrite who (PWR_THERM.addr 0 0) 8 v) s = .next t ∧ devOnly s t ∧
        t.dev = { s.dev with out := [.ok], regs := t.dev.regs } ∧ t.dev.fld PWR_THERM PWR_THERM_LIMIT = x ∧
        regsAgree (fun o => o = PWR_THERM.addr 0 0) s.dev t.dev) ∧
      (x < 85 ∨ 105 < x → ∃ t, exec (.registerWrite who (PWR_THERM.addr 0 0) 8 v) s = .next t ∧ refusedAs s t 0x02)) ∧
    (∀ sh, s.dev.live = true → s.dev.sheaf = some sh → s.dev.running = true → s.dev.gov.recheck = true →
      ∃ t, exec .envelopeRecheck s = .next t ∧ devOnly s t ∧ t.dev.gov = { s.dev.gov with recheck := false } ∧
        t.dev.job = s.dev.job ∧ t.dev.running = true ∧ t.dev.furrows = s.dev.furrows ∧
        ∀ q, q = holdFail sh.profile ((sh.profile.map fun (p : Nat × Nat × Nat × Nat) => p.2.1).foldl max 0) (s.dev.fld PWR_FLOOR PWR_FLOOR_W)
            (s.dev.fld PWR_CEIL PWR_CEIL_W) (s.dev.fld PWR_SLEW PWR_SLEW_W_PER_MS) (s.dev.fld PWR_START PWR_START_W) →
          (q ≠ none → breached s t brEnvelope) ∧ (q = none → t.dev.regs = s.dev.regs ∧ t.dev.mem = s.dev.mem))

/-- R303, R306, R308, R312, R313: a tick of the governor with every die and stack below the trip samples the rails; under a running job the target moves by
no more than SLEW and never passes CEILING; in ramp-down and while fill holds the level that it reached the target never rises and falls by no more than
SLEW; without a job, a ramp or a hold it is the draw, and no fill stands. Pattern fill and plot reads never draw more than the shortfall of the draw
to the target. -/
def Obligations.GovernorTicks : Prop :=
  ∀ (s : State) (rails : List (Nat × Nat)) (temps : List Nat), s.dev.live = true → noTrip temps →
    ∃ t, exec (.governorTick rails temps) s = .next t ∧ devOnly s t ∧ t.dev.halt = .run ∧ t.dev.job = s.dev.job ∧ t.dev.sheaf = s.dev.sheaf ∧
      t.dev.gov.meas = (railsDraw rails :: s.dev.gov.meas).take 10 ∧
      (∀ i w v, i < 27 → rails[i]? = some (w, v) → t.dev.reg PWR_RAIL 0 i = w % 2 ^ 13 + v % 2 ^ 13 * 2 ^ 16) ∧
      t.dev.gov.target ≤ max (railsDraw rails) (2000 * s.dev.fld PWR_CEIL PWR_CEIL_W) ∧
      (s.dev.gov.active = true → t.dev.gov.target ≤ s.dev.gov.target + s.dev.slewUs ∧ t.dev.gov.target ≤ 2000 * s.dev.fld PWR_CEIL PWR_CEIL_W ∧
        min (2000 * s.dev.fld PWR_CEIL PWR_CEIL_W) (s.dev.gov.target - s.dev.slewUs) ≤ t.dev.gov.target) ∧
      (s.dev.gov.active = false → s.dev.gov.ramp = true ∨ s.dev.gov.hold = true → t.dev.gov.target ≤ s.dev.gov.target ∧
        min (2000 * s.dev.fld PWR_CEIL PWR_CEIL_W) (s.dev.gov.target - s.dev.slewUs) ≤ t.dev.gov.target) ∧
      (s.dev.gov.active = false → s.dev.gov.ramp = false → s.dev.gov.hold = false →
        t.dev.gov.target = railsDraw rails ∧ patternDraw t.dev = 0 ∧ (s.dev.ist.running = [] → s.dev.ist.due = [] → t.dev.gov.fill = 0)) ∧
      patternDraw t.dev ≤ t.dev.gov.target - (railsDraw rails - s.dev.gov.fill)

/-- R311: a thermal trip stops the device, pulls THERMTRIP_N low, faults the job with THERMAL and leaves a record due, which TRIP_RECORD appends to the flash;
a die or a stack at 110 °C trips at the governor's tick. -/
def Obligations.ThermalTrips : Prop :=
  ∀ (s : State),
    (∀ src temp, src ≤ 30 → temp < 256 → s.dev.live = true →
      ∃ t, exec (.thermalTrip src temp) s = .next t ∧ devOnly s t ∧ t.dev.halt = .trip ∧ t.dev.pins.thermtrip = true ∧
        t.dev.fld PWR_EVT PWR_EVT_TRIP = 1 ∧
        t.dev.boot.tripDue = some ⟨src, temp, s.dev.tb.time, if s.dev.running then s.dev.jobId else 0, false⟩ ∧ t.dev.out = [] ∧
        t.dev.flags = s.dev.flags ∧ t.dev.ctrs = s.dev.ctrs ∧
        (s.dev.sheaf ≠ none → s.dev.job.faulted = false → t.dev.job.faulted = true ∧ t.dev.running = false ∧
          t.dev.fld ERR_FAULT ERR_FAULT_CAUSE = jfThermal)) ∧
    (∀ r, s.dev.boot.tripDue = some r → ∃ t, exec .tripRecord s = .next t ∧ devOnly s t ∧
      t.dev = { s.dev with out := [], boot := { s.dev.boot with trips := s.dev.boot.trips ++ [r], tripDue := none } }) ∧
    (∀ rails temps i, s.dev.live = true → i < 30 → 110 ≤ temps[i]?.getD 0 →
      ∃ t, exec (.governorTick rails temps) s = .next t ∧ devOnly s t ∧ t.dev.halt = .trip ∧ t.dev.pins.thermtrip = true)

/-- R189, R298, R316, R317, Table 15.4: a power request is refused while a sheaf is admitted; a request for the state the device is in changes nothing; any
other begins a transition, which STATE shows as 3, and DEEP drops the caches. A microsecond later SLEEP, and RUN from SLEEP, are reached (that time
is log entry 86: the model's choice); DEEP, once nothing is to land, turns every port off, puts trained stacks into self-refresh and keeps of plots
and tile buffers what is retained or stays enabled; out of DEEP every stack whose loop is locked trains, plots without RETAIN are zero, and RUN
is reached when every stack is TRAINED. -/
def Obligations.PowerStates : Prop :=
  (∀ (s : State) (who : Who), s.dev.reach who = true →
    ∀ r ∈ ([(0, .reqRun who), (1, .reqSleep who), (2, .reqDeep who)] : List (Nat × Instr)),
      (s.dev.admitted = true → ∃ t, exec r.2 s = .next t ∧ devOnly s t ∧ t.dev = { s.dev with out := [.err] }) ∧
      (s.dev.admitted = false → s.dev.pwrState = r.1 → ∃ t, exec r.2 s = .next t ∧ devOnly s t ∧ t.dev = { s.dev with out := [.ok] }) ∧
      (s.dev.admitted = false → s.dev.pwrState ≠ r.1 → ¬ (s.dev.pwrState = 3 ∧ s.dev.gov.goal = none ∧ r.1 = 0) →
        ∃ t, exec r.2 s = .next t ∧ devOnly s t ∧ t.dev.pwrState = 3 ∧ regsAgree (fun o => o = PWR_STATUS.addr 0 0) s.dev t.dev ∧
          t.dev = { s.dev with
            out := [.ok], regs := t.dev.regs, gov := { s.dev.gov with leaves := s.dev.pwrMode, goal := some r.1, hold := false }
            l1 := if r.1 = 2 then [] else s.dev.l1, cplot := if r.1 = 2 then [] else s.dev.cplot
            coreCopy := if r.1 = 2 then [] else s.dev.coreCopy, dieCopy := if r.1 = 2 then [] else s.dev.dieCopy })) ∧
  (∀ (s t : State), ticks s t → s.dev.pwrState = 3 → devOnly s t ∧ t.dev.flags = s.dev.flags ∧ t.dev.ctrs = s.dev.ctrs ∧
    (s.dev.gov.goal = none → t.dev.pwrState = 3) ∧
    (s.dev.gov.goal = some 1 → t.dev.pwrState = 1 ∧ t.dev.gov.goal = none) ∧
    (s.dev.gov.goal = some 0 → s.dev.gov.leaves ≠ 2 → t.dev.pwrState = 0 ∧ t.dev.gov.goal = none) ∧
    (s.dev.gov.goal = some 2 → s.dev.landsDue = true → t.dev.pwrState = 3 ∧ t.dev.gov.goal = some 2) ∧
    (s.dev.gov.goal = some 2 → s.dev.landsDue = false →
      t.dev.pwrState = 2 ∧ t.dev.gov.goal = none ∧ t.dev.l1 = [] ∧ t.dev.cplot = [] ∧ t.dev.coreCopy = [] ∧ t.dev.dieCopy = [] ∧ t.dev.harrow = [] ∧
      (∀ p, p < 60 → t.dev.portState p = portOff) ∧
      (∀ n, n < 20 → s.dev.fld HBM_STATUS HBM_STATUS_STATE n = 2 → t.dev.fld HBM_STATUS HBM_STATUS_STATE n = 4 ∧ t.dev.selfRef.has n = true) ∧
      (tracesQuiet s.dev → ∀ x, t.dev.mem.byte x = if keptDeep s.dev x then s.dev.mem.byte x else 0)) ∧
    (s.dev.gov.goal = some 0 → s.dev.gov.leaves = 2 → t.dev.gov.goal = none ∧ (t.dev.pwrState = 0 ∨ t.dev.pwrState = 3) ∧
      (t.dev.pwrState = 0 ↔ ∀ n, n < 20 → t.dev.fld HBM_STATUS HBM_STATUS_STATE n = 2) ∧
      (∀ n, s.dev.selfRef.has n = true → n < 20 → s.dev.locked (stackLoop n) = true →
        t.dev.fld HBM_STATUS HBM_STATUS_STATE n = 1 ∧ t.dev.selfRef.has n = false ∧ SMap.find t.dev.training n = some 4) ∧
      (tracesQuiet s.dev → ∀ x, t.dev.mem.byte x = if keptWaking s.dev x then s.dev.mem.byte x else 0)))

/-! ### Clocks and time base -/

/-- R320 to R323, R331 to R333, Tables 16.4 and 16.6: XO_SETTLE accepts XIN0, starts the time base and all loops, and measures FOSC and SOSC; the loss of
XIN0 makes every loop coast, turns ports that are up or train DOWN, puts trained stacks into self-refresh and faults a running job with CLK_LOSS;
RELOCK, with XIN0 back, relocks every loop and but in DEEP trains the enabled ports, and is refused without it; PCIE_REFCLK's loss and return move
the link alone. -/
def Obligations.ClockSources : Prop :=
  ∀ (s : State),
    (s.dev.live = true → s.dev.boot.booting = true → s.dev.clk.settled = false → s.dev.clk.xin0 = true →
      ∃ t, exec .xoSettle s = .next t ∧ devOnly s t ∧
        t.dev = { s.dev with
          out := [], regs := t.dev.regs, clk := { s.dev.clk with settled := true, relock := List.range 40 }
          tb := { s.dev.tb with on := true }, free := t.dev.free } ∧
        regsAgree (fun o => o = CLK_MEAS.addr 0 0) s.dev t.dev ∧ 380000 ≤ t.dev.fld CLK_MEAS CLK_MEAS_FOSC_KHZ ∧
        t.dev.fld CLK_MEAS CLK_MEAS_FOSC_KHZ ≤ 420000 ∧
        28800 ≤ t.dev.fld CLK_MEAS CLK_MEAS_SOSC_HZ ∧ t.dev.fld CLK_MEAS CLK_MEAS_SOSC_HZ ≤ 35200 ∧
        t.dev.regView CLK_MEAS 0 0 = t.dev.fld CLK_MEAS CLK_MEAS_FOSC_KHZ +
          (if s.dev.clk.xin1 then t.dev.fld CLK_MEAS CLK_MEAS_SOSC_HZ * 2 ^ 32 else 0)) ∧
    (s.dev.live = true → s.dev.clk.xin0 = true → s.dev.clk.settled = true →
      ∃ t, exec .clkLoss s = .next t ∧ devOnly s t ∧ t.dev.clk.xin0 = false ∧ t.dev.fld CLK_STATUS CLK_STATUS_LOSS = 1 ∧
        t.dev.clk.coast = List.range 41 ∧ t.dev.clk.relock = [] ∧
        (∀ p, p < 60 → t.dev.portState p = if s.dev.portState p = portUp ∨ s.dev.portState p = portTraining then portDown else s.dev.portState p) ∧
        (∀ n, n < 20 → s.dev.fld HBM_STATUS HBM_STATUS_STATE n = 2 → t.dev.fld HBM_STATUS HBM_STATUS_STATE n = 4 ∧ t.dev.selfRef.has n = true) ∧
        t.dev.fld CLK_TB_STATUS CLK_TB_STATUS_LOCKED = 0 ∧ t.dev.tb.time = s.dev.tb.time ∧
        (s.dev.running = true → s.dev.sheaf ≠ none → s.dev.job.faulted = false → t.dev.running = false ∧
          t.dev.fld ERR_FAULT ERR_FAULT_CAUSE = jfClkLoss)) ∧
    (∃ t, exec .xin0Return s = .next t ∧ devOnly s t ∧ t.dev = { s.dev with out := [], clk := { s.dev.clk with xin0 := true } }) ∧
    (∀ who, s.dev.reach who = true → s.dev.clk.xin0 = true → s.dev.clk.settled = true →
      ∃ t, exec (.relock who) s = .next t ∧ devOnly s t ∧ t.dev.clk.coast = [] ∧
        t.dev.clk.relock = List.range 41 ∧ (∀ p, p < 60 → s.dev.pwrMode ≠ 2 → s.dev.waitsToTrain p → t.dev.portState p = portTraining) ∧ t.dev.mem = s.dev.mem ∧ t.dev.out.getLast? = some .ok) ∧
    (∀ who, s.dev.reach who = true → (s.dev.clk.xin0 = false ∨ s.dev.clk.settled = false) →
      ∃ t, exec (.relock who) s = .next t ∧ devOnly s t ∧ t.dev = { s.dev with out := [.err] }) ∧
    (∃ t, exec .pcieLoss s = .next t ∧ devOnly s t ∧
      t.dev = { s.dev with
        out := [], regs := t.dev.regs, clk := { s.dev.clk with pcieRef := false }, pcie := { s.dev.pcie with link := false } } ∧
      regsAgree (fun o => o = CLK_STATUS.addr 0 0) s.dev t.dev ∧ (s.dev.live = true → t.dev.fld CLK_STATUS CLK_STATUS_PCIE_LOSS = 1) ∧
      t.dev.fld CLK_STATUS CLK_STATUS_LOSS = s.dev.fld CLK_STATUS CLK_STATUS_LOSS) ∧
    (∃ t, exec .pcieRefclkReturn s = .next t ∧ devOnly s t ∧
      t.dev = { s.dev with out := [], clk := { s.dev.clk with pcieRef := true }, pcie := { s.dev.pcie with link := true } })

/-- R47, R317, R324, R325, R329: a loop setting or a spread in range takes effect with no sheaf admitted, and the loops of the setting that do not
coast relock; it is refused while a sheaf is admitted, out of range, or in a gated island. R293, R296, R298, R333, R375, R388, Tables 14.3, 16.4,
18.10: a loop that relocks locks; behind an HPLL its stack begins to train, at boot whole, out of self-refresh but in DEEP by steps 1 to 4; the
training ends with the stack TRAINED at the rate that HBM_CFG names, zeroed where it was whole, or FAILED with the step (that the same event ends a
training is log entry 87: the model's choice); the last lock or training of a boot makes the device READY from the slot that the ROM picks. -/
def Obligations.Loops : Prop :=
  (∀ (s : State) (who : Who) (v : Word), s.dev.reach who = true →
     (∀ off r u loops ok, loopSetting off v.toNat = some (r, u, loops, ok) →
       (s.dev.gatedReg off = false → s.dev.admitted = false → ok = true →
         ∃ t, exec (.loopSettingWrite who off v) s = .next t ∧ devOnly s t ∧ off = r.addr u 0 ∧
           t.dev = { s.dev with out := [.ok], regs := t.dev.regs, clk := { s.dev.clk with relock := t.dev.clk.relock } } ∧
           regsAgree (fun o => o = r.addr u 0) s.dev t.dev ∧ (∀ f ∈ r.flds, t.dev.fld r f u = bitsOf v.toNat f.lo f.w) ∧
           ∀ n, t.dev.clk.relock.has n = (s.dev.clk.relock.has n || (loops.contains n && !s.dev.clk.coast.has n))) ∧
       (s.dev.gatedReg off = false → s.dev.admitted = false → ok = false →
         ∃ t, exec (.loopSettingWrite who off v) s = .next t ∧ devOnly s t ∧ t.dev = { s.dev with out := [.err] }) ∧
       (s.dev.gatedReg off = false → s.dev.admitted = true → ∃ t, exec (.loopSettingWrite who off v) s = .next t ∧ refusedAs s t 0x05) ∧
       (s.dev.gatedReg off = true → ∃ t, exec (.loopSettingWrite who off v) s = .next t ∧ refusedAs s t 0x02)) ∧
     (∀ die, die < 10 →
       (s.dev.gatedReg (CLK_SSC.addr die 0) = false → s.dev.admitted = false → bitsOf v.toNat 0 5 ≤ 16 → bitsOf v.toNat 16 5 ≤ 16 →
         ∃ t, exec (.spreadWrite who die v) s = .next t ∧ devOnly s t ∧ t.dev = { s.dev with out := [.ok], regs := t.dev.regs } ∧
           regsAgree (fun o => o = CLK_SSC.addr die 0) s.dev t.dev ∧ ∀ f ∈ CLK_SSC.flds, t.dev.fld CLK_SSC f die = bitsOf v.toNat f.lo f.w) ∧
       (s.dev.gatedReg (CLK_SSC.addr die 0) = false → s.dev.admitted = false → (16 < bitsOf v.toNat 0 5 ∨ 16 < bitsOf v.toNat 16 5) →
         ∃ t, exec (.spreadWrite who die v) s = .next t ∧ devOnly s t ∧ t.dev = { s.dev with out := [.err] }) ∧
       (s.dev.gatedReg (CLK_SSC.addr die 0) = false → s.dev.admitted = true → ∃ t, exec (.spreadWrite who die v) s = .next t ∧ refusedAs s t 0x05))) ∧
  (∀ (s : State) (n fail rep : Nat), n ≤ 40 → s.dev.live = true → s.dev.clk.relock.has n = true → s.dev.clk.xin0 = true →
     ∃ t, exec (.loopLock n fail rep) s = .next t ∧ devOnly s t ∧ t.dev.clk = { s.dev.clk with relock := s.dev.clk.relock.del n } ∧
       t.dev.mem = s.dev.mem ∧
       (∀ st, loopStack n = some st → s.dev.clk.settled = true → s.dev.clk.coast.has n = false →
         (s.dev.boot.booting = true → t.dev.fld HBM_STATUS HBM_STATUS_STATE st = 1 ∧ SMap.find t.dev.training st = some 5) ∧
         (s.dev.boot.booting = false → s.dev.pwrMode ≠ 2 → s.dev.selfRef.has st = true →
           t.dev.fld HBM_STATUS HBM_STATUS_STATE st = 1 ∧ SMap.find t.dev.training st = some 4 ∧ t.dev.selfRef.has st = false) ∧
         (s.dev.boot.booting = false → s.dev.pwrMode = 2 → t.dev.fld HBM_STATUS HBM_STATUS_STATE st = s.dev.fld HBM_STATUS HBM_STATUS_STATE st ∧
           t.dev.selfRef = s.dev.selfRef)) ∧
       (∀ i, loopStack n = none → s.dev.boot.booting = true → s.dev.clk.relock.del n = [] → noneTrains s.dev → pickSlot s.dev.boot = some i →
         booted t i)) ∧
  (∀ (s : State) (n st last fail rep : Nat), s.dev.live = true → s.dev.clk.relock.has n = false → loopStack n = some st → s.dev.locked n = true →
     s.dev.fld HBM_STATUS HBM_STATUS_STATE st = 1 → SMap.find s.dev.training st = some last →
     ∃ t, exec (.loopLock n fail rep) s = .next t ∧ devOnly s t ∧ t.dev.clk = s.dev.clk ∧ SMap.find t.dev.training st = none ∧
       (fail = 0 ∨ last < fail → t.dev.fld HBM_STATUS HBM_STATUS_STATE st = 2 ∧ t.dev.fld HBM_REPAIR HBM_REPAIR_LANES st = rep % 2 ^ 8 ∧
         SMap.get 0 t.dev.rates st = s.dev.fld HBM_CFG HBM_CFG_RATE st ∧
         ∀ x, t.dev.mem.byte x = if last = 5 ∧ x < hbmSize ∧ stackOf x = st then 0 else s.dev.mem.byte x) ∧
       (1 ≤ fail → fail ≤ last → fail ≤ 5 → t.dev.fld HBM_STATUS HBM_STATUS_STATE st = 3 ∧ t.dev.fld HBM_STATUS HBM_STATUS_CAUSE st = fail ∧
         t.dev.mem = s.dev.mem ∧ (3 ≤ fail → t.dev.fld HBM_REPAIR HBM_REPAIR_LANES st = rep % 2 ^ 8)) ∧
       (s.dev.boot.booting = false → s.dev.boot.devReset = false → s.dev.pwrState = 3 → s.dev.gov.goal = none →
         (t.dev.pwrState = 0 ↔ ∀ m, m < 20 → t.dev.fld HBM_STATUS HBM_STATUS_STATE m = 2)) ∧
       (∀ i, s.dev.boot.booting = true → s.dev.clk.relock = [] →
         (∀ m, m < 20 → m ≠ st → s.dev.fld HBM_STATUS HBM_STATUS_STATE m ≠ 1) → pickSlot s.dev.boot = some i → booted t i))

/-- R286 to R288: a follower sends its time to the parent, which answers with its own; the reply gives offset and delay; eight good exchanges in a row lock;
with no sheaf admitted an offset over 1 µs is stepped out; a rate stays within 100 ppm, and while a sheaf is admitted or checked within 10 ppm of its value at
SUBMIT (that the control law is free within that is log entry 1). -/
def Obligations.TimeExchange : Prop :=
  ∀ (s : State), s.dev.live = true →
    (s.dev.follows = true → ∃ t, exec .tbExchange s = .next t ∧ devOnly s t ∧
      t.dev = { s.dev with
        out := [.tbReq (s.dev.fld CLK_TB_CFG CLK_TB_CFG_PARENT) s.dev.tb.time], tb := { s.dev.tb with reqT1 := some s.dev.tb.time } }) ∧
    (∀ port t1, port < 60 → t1 < 2 ^ 64 → s.dev.portIsUp port = true → s.dev.tb.on = true →
      ∃ t, exec (.tbReq port t1) s = .next t ∧ devOnly s t ∧ t.dev = { s.dev with out := [.tbReply port s.dev.tb.time s.dev.tb.time] }) ∧
    (∀ t1 t2 t3 depth, s.dev.tb.reqT1 = some t1 → s.dev.follows = true → t2 < 2 ^ 64 → t3 < 2 ^ 64 → depth < 256 →
      ∃ t, exec (.tbReply t2 t3 depth) s = .next t ∧ devOnly s t ∧ t.dev.tb.reqT1 = none ∧
        t.dev.tb.good = (if (tbOffset t1 t2 t3 s.dev.tb.time).natAbs ≤ 16 then s.dev.tb.good + 1 else 0) ∧
        t.dev.fld CLK_TB_STATUS CLK_TB_STATUS_LOCKED = b2n (decide (8 ≤ t.dev.tb.good)) ∧
        t.dev.fld CLK_TB_STATUS CLK_TB_STATUS_DEPTH = (depth + 1) % 2 ^ 8 ∧
        t.dev.fld CLK_TB_OFFSET CLK_TB_OFFSET_OFFSET_NS = ((tbOffset t1 t2 t3 s.dev.tb.time) % 2 ^ 32).toNat ∧
        t.dev.fld HDL_RTT HDL_RTT_DELAY_NS (s.dev.fld CLK_TB_CFG CLK_TB_CFG_PARENT) = ((tbDelay t1 t2 t3 s.dev.tb.time) % 2 ^ 16).toNat ∧
        (s.dev.admitted = false → 1000 < (tbOffset t1 t2 t3 s.dev.tb.time).natAbs →
          (t.dev.tb.time : Int) = ((s.dev.tb.time : Int) + tbOffset t1 t2 t3 s.dev.tb.time) % 2 ^ 64 ∧ t.dev.rate = s.dev.rate) ∧
        ((s.dev.admitted = true ∨ (tbOffset t1 t2 t3 s.dev.tb.time).natAbs ≤ 1000) → t.dev.tb.time = s.dev.tb.time) ∧
        (t.dev.rate = s.dev.rate ∨ (t.dev.rate.natAbs ≤ 100000 ∧ (s.dev.admitted = true ∨ s.dev.checking = true → (t.dev.rate - s.dev.tb.rateSub).natAbs ≤ 10000)))) ∧
    (s.dev.tb.on = true → ∃ t, exec .ppsIn s = .next t ∧ devOnly s t ∧ t.dev.reg CLK_TB_PPS = s.dev.tb.time % 2 ^ 64 ∧
      (s.dev.disciplined = false → t.dev = { s.dev with out := [], regs := t.dev.regs } ∧ regsAgree (fun o => o = CLK_TB_PPS.addr 0 0) s.dev t.dev) ∧
      (s.dev.disciplined = true → t.dev.fld CLK_TB_STATUS CLK_TB_STATUS_PPS_LOST = 0 ∧ t.dev.tb.pps ≠ none ∧
        (s.dev.admitted = true → t.dev.tb.time = s.dev.tb.time))) ∧
    (s.dev.disciplined = true → ∃ t, exec .ppsLost s = .next t ∧ devOnly s t ∧ t.dev.fld CLK_TB_STATUS CLK_TB_STATUS_PPS_LOST = 1 ∧
      t.dev.tb = { s.dev.tb with pps := none })

/-! ### Ports and arriving commands -/

/-- R270, R271, R275, Tables 13.2, 13.10: ENABLE trains a port that is neither up nor training; a training step that exceeds its bound starts over, or
after RETRIES retries fails the port with its cause; with its loop locked HELLO and a round trip of at most 960 ns bring it up; the loss of FEC or clock takes a port that is
up down, which faults an admitted job with LINK_DOWN and otherwise retrains where AUTO_RETRAIN says so; a NAK replays what follows it, eight of one SEQ
without progress take the port down; a flit whose CRC fails is counted and draws a NAK, as does a sequenced one out of its turn; any other flit is good. -/
def Obligations.PortsTrainAndRecover : Prop :=
  ∀ (s : State) (p : Nat), p < 60 →
    (∀ who, s.dev.reach who = true → s.dev.gatedReg (HDL_CFG.addr p 0) = false → s.dev.fld HDL_CFG HDL_CFG_PMD p ≠ 3 →
      ∃ t, exec (.portEnable who p) s = .next t ∧ devOnly s t ∧ t.dev.bit HDL_CFG HDL_CFG_ENABLE p = true ∧
        (∀ f ∈ HDL_CFG.flds, f ≠ HDL_CFG_ENABLE → t.dev.fld HDL_CFG f p = s.dev.fld HDL_CFG f p) ∧
        t.dev.portState p = (if s.dev.portState p = portUp then portUp else portTraining) ∧
        (s.dev.portState p ≠ portUp → s.dev.portState p ≠ portTraining → t.dev.port p = { Port.off with step := 1 })) ∧
    (∀ step, s.dev.live = true → 2 ≤ step → step ≤ 6 → s.dev.portState p = portTraining → (step = 3 → s.dev.fld HDL_CFG HDL_CFG_PMD p ≠ 2) →
      ∃ t, exec (.trainingTimeout p step) s = .next t ∧ devOnly s t ∧ (t.dev.port p).fails = (s.dev.port p).fails + 1 ∧
        ((s.dev.port p).fails + 1 ≤ s.dev.fld HDL_CFG HDL_CFG_RETRIES p → t.dev.portState p = portTraining ∧ (t.dev.port p).step = 1) ∧
        (s.dev.fld HDL_CFG HDL_CFG_RETRIES p ≤ (s.dev.port p).fails → t.dev.portState p = portFailed ∧
          t.dev.fld HDL_STATUS HDL_STATUS_CAUSE p = if step = 3 then 0x71 else if step = 5 then 0x74 else if step = 6 then 0x72 else 0x70)) ∧
    (∀ dev peer rtt, s.dev.live = true → dev < 65536 → peer < 60 → (s.dev.clk.xin0 = false ∨ s.dev.clk.coast ≠ []) →
      ∃ t, exec (.hello p dev peer rtt) s = .next t ∧ devOnly s t ∧ t.dev = { s.dev with out := [] }) ∧
    (∀ dev peer rtt, s.dev.live = true → dev < 65536 → peer < 60 → s.dev.portState p = portTraining → s.dev.clk.xin0 = true → s.dev.clk.coast = [] →
      ∃ t, exec (.hello p dev peer rtt) s = .next t ∧ devOnly s t ∧ t.dev.fld HDL_PEER HDL_PEER_DEVID p = dev ∧
        t.dev.fld HDL_PEER HDL_PEER_PORT p = peer ∧ t.dev.bit HDL_PEER HDL_PEER_VALID p = true ∧
        (rtt ≤ 960 → t.dev.portState p = portUp ∧ t.dev.fld HDL_RTT HDL_RTT_RTT_NS p = rtt ∧
          t.dev.port p = { Port.off with step := 7 } ∧ bitOf (t.dev.fld HUB_IRQ_STATUS HUB_IRQ_STATUS_CAUSE) irqLink = true) ∧
        (960 < rtt → t.dev.portState p ≠ portUp ∧ (t.dev.port p).fails = (s.dev.port p).fails + 1)) ∧
    (∀ r ∈ [(Instr.lostFec p, 0x75), (Instr.lostClock p, 0x76)], s.dev.live = true →
      (s.dev.portState p = portUp → ∃ t, exec r.1 s = .next t ∧ devOnly s t ∧ t.dev.fld HDL_STATUS HDL_STATUS_CAUSE p = r.2 ∧
        (∀ sh, s.dev.admitted = true → s.dev.sheaf = some sh → s.dev.job.faulted = false → t.dev.portState p = portDown ∧
          jobFaulted s t sh { cause := jfLinkDown, detail := r.2, kind := kPort, unit := p }) ∧
        (s.dev.admitted = false → t.dev.portState p =
          if s.dev.bit HDL_CFG HDL_CFG_AUTO_RETRAIN p && s.dev.clk.xin0 then portTraining else portDown)) ∧
      (s.dev.portState p ≠ portUp → ∃ t, exec r.1 s = .next t ∧ devOnly s t ∧ t.dev = { s.dev with out := [] })) ∧
    (∀ seq, s.dev.live = true → seq < 1024 → s.dev.portState p = portUp →
      ∃ t, exec (.nak p seq) s = .next t ∧ devOnly s t ∧
        (((s.dev.port p).nakSeq ≠ seq ∨ (s.dev.port p).nakRuns < 8) → t.dev.out = [.replay p seq] ∧ t.dev.portState p = portUp ∧
          t.dev.fld HDL_REPLAY HDL_REPLAY_COUNT p = min (s.dev.fld HDL_REPLAY HDL_REPLAY_COUNT p + 1) (2 ^ 32 - 1) ∧ dataKept s t ∧
          (t.dev.port p).nakRuns = if (s.dev.port p).nakSeq = seq then (s.dev.port p).nakRuns + 1 else 1) ∧
        ((s.dev.port p).nakSeq = seq → 8 ≤ (s.dev.port p).nakRuns → t.dev.portState p ≠ portUp ∧ t.dev.fld HDL_STATUS HDL_STATUS_CAUSE p = 0x73)) ∧
    (∀ hdr crc payload, s.dev.live = true → hdr < 2 ^ 32 → crc < 2 ^ 32 → s.dev.portState p = portUp →
      ∃ t, exec (.flitReject p hdr crc payload) s = .next t ∧ devOnly s t ∧
        (flitCrc hdr payload ≠ crc → t.dev.fld HDL_REPLAY HDL_REPLAY_CRC_ERR p = min (s.dev.fld HDL_REPLAY HDL_REPLAY_CRC_ERR p + 1) (2 ^ 32 - 1) ∧
          t.dev = { s.dev with out := [.nak p (((s.dev.port p).rx + 1023) % 1024)], regs := t.dev.regs } ∧
          regsAgree (fun o => o = HDL_REPLAY.addr p 0) s.dev t.dev) ∧
        (flitCrc hdr payload = crc → 1 ≤ (LinkHdr.of hdr).kind → (LinkHdr.of hdr).kind ≤ 3 → (LinkHdr.of hdr).seq ≠ (s.dev.port p).rx →
          t.dev = { s.dev with out := [.nak p (((s.dev.port p).rx + 1023) % 1024)] }) ∧
        (flitCrc hdr payload = crc → ((LinkHdr.of hdr).kind = 0 ∨ 3 < (LinkHdr.of hdr).kind ∨ (LinkHdr.of hdr).seq = (s.dev.port p).rx) →
          t.dev = { s.dev with out := [] }))

/-- R135, R248, R250, R285: a PUT or GET that may reach its range writes the payload there, making plot blocks PLAIN, or answers what the range holds;
RCOUNT adds the bytes to its counter; one that may not changes no memory, flag or counter and answers ACCESS. -/
def Obligations.PutAndGet : Prop :=
  ∀ (s : State) (p : Nat) (h : Cmd), s.dev.receives p h → s.dev.waits = [] →
    (∀ data bs, bs = data.take h.bytes → s.dev.remoteMem h.addr bs.length = true → s.dev.rcountOk h = true → s.dev.treesAgree →
      s.dev.mergeUE h.addr bs.length = none →
      ∃ t, exec (.put p h data) s = .next t ∧ devOnly s t ∧ (∀ y, t.dev.mem.byte y = (Mem.write s.dev.mem h.addr bs).byte y) ∧
        (hbmSize ≤ h.addr → ∀ b, h.addr / 512 ≤ b → b ≤ (h.addr + bs.length - 1) / 512 → SMap.get 0 t.dev.hdrs b = 0) ∧
        rcounted s t h bs.length ∧ answered s t h 0 []) ∧
    (∀ comb (u : Upset), u.passes = true → s.dev.remoteMem h.addr h.bytes = true → (hbmSize ≤ h.addr → s.dev.touchesFallow h.addr h.bytes = false) →
      s.dev.rcountOk h = true → s.dev.readsWell h.addr h.bytes →
      ∃ t, exec (.get p h comb u) s = .next t ∧ devOnly s t ∧ replaysCounted s t u ∧ t.dev.mem = s.dev.mem ∧ rcounted s t h h.bytes ∧
        answered s t h 0 (s.dev.read h.addr h.bytes)) ∧
    (∀ data, s.dev.remoteMem h.addr (data.take h.bytes).length = false →
      ∃ t, exec (.put p h data) s = .next t ∧ devOnly s t ∧ dataKept s t ∧ answered s t h 2 []) ∧
    (∀ comb u, s.dev.remoteMem h.addr h.bytes = false →
      ∃ t, exec (.get p h comb u) s = .next t ∧ devOnly s t ∧ dataKept s t ∧ answered s t h 2 [])

/-- R197, R206 to R208: an ACC without STAMP adds its elements to plots or HBM, each sum rounded once; one with STAMP that its group takes on time
adds its records to the slots of its step and changes no byte outside them; one that its group does not take changes none and answers ACCESS. -/
def Obligations.Accumulates : Prop :=
  ∀ (s : State) (p : Nat) (h : Cmd) (data bs : List Byte) (u : Upset), s.dev.receives p h → u.passes = true → s.dev.waits = [] → bs = data.take h.bytes →
    s.dev.rcountOk h = true →
    (∀ β f, (h.addr < hbmSize → bitOf h.flags 1 = false) → s.dev.remoteMem h.addr bs.length = true →
      (hbmSize ≤ h.addr → s.dev.touchesFallow h.addr bs.length = false) → landBeta h.afmt = some (β, f) → h.aop ≤ 1 →
      h.addr % (f.bits / 8) = 0 → bs.length % (f.bits / 8) = 0 → s.dev.readsWell h.addr bs.length → s.dev.treesAgree →
      ∃ t, exec (.acc p h data u) s = .next t ∧ devOnly s t ∧ rcounted s t h bs.length ∧ answered s t h 0 [] ∧
        ∀ y, t.dev.mem.byte y = (accMem f h.aop (bs.length / (f.bits / 8)) h.addr bs s.dev.mem).byte y) ∧
    (∀ l, h.addr < hbmSize → bitOf h.flags 1 = true → s.dev.landCheck h = .inl l → l.late = false →
      (∀ st ∈ l.touched, s.dev.landSlot l h.step st = 0) → s.dev.landUE l h (fun _ => true) = none →
      ∃ t, exec (.acc p h data u) s = .next t ∧ devOnly s t ∧ rcounted s t h bs.length ∧ answered s t h 0 [] ∧
        (∀ y, (∀ st ∈ l.touched, ∀ gp, SMap.find (s.dev.hrw st).groups l.g = some gp → ∀ i, i < l.n →
            y < landAddr gp l h.step i ∨ landAddr gp l h.step i + 128 ≤ y) → t.dev.mem.byte y = s.dev.mem.byte y) ∧
        (∀ gp, SMap.find (s.dev.hrw (stackOf h.addr)).groups l.g = some gp → l.n = 1 → l.touched = [stackOf h.addr] →
          stackOf (gp.base + 512 * l.r0) = stackOf h.addr →
          ∀ y, t.dev.mem.byte y = (landMem l.fmt (landAddr gp l h.step 0) (leNat (bs.take l.beta)) s.dev.mem).byte y)) ∧
    (∀ e, h.addr < hbmSize → bitOf h.flags 1 = true → s.dev.landCheck h = .inr e →
      ∃ t, exec (.acc p h data u) s = .next t ∧ devOnly s t ∧ dataKept s t ∧ answered s t h 2 [])

/-- R248, R251, R255, R285, Table 12.3: where no word read or merged is uncorrectable, a LOAD answers the sectors it names and changes no byte; a STORE to memory replaces the masked bytes of its sectors; an
ATOMIC on memory answers the old value and stores the operation's result, a compare-and-swap only where the old value is the comparand; one on a flag or
counter does what the synchronisation unit's table says. -/
def Obligations.RemoteTeamAccesses : Prop :=
  ∀ (s : State) (p : Nat) (h : Cmd) (data : List Byte), s.dev.receives p h → s.dev.waits = [] →
    (∀ comb l (u : Upset), u.passes = true → l = sectorsIn 10 data → l ≠ [] → s.dev.sectorsOk l = true → (∀ x ∈ l, s.dev.readsWell x.1 32) →
      ∃ t, exec (.load p h data comb u) s = .next t ∧ devOnly s t ∧ dataKept s t ∧
        answered s t h 0 (l.map fun x => s.dev.sectorBytes x.1 x.2.1).flatten) ∧
    (∀ l, l = sectorsIn 10 data → l ≠ [] → s.dev.sectorsOk l = true → (∀ x ∈ l, isSync x.1 = false ∧ s.dev.sectorUE x = none) →
      ∃ t, exec (.store p h data) s = .next t ∧ devOnly s t ∧ t.dev.flags = s.dev.flags ∧ t.dev.ctrs = s.dev.ctrs ∧ answered s t h 0 [] ∧
        ∀ y, t.dev.mem.byte y = (l.foldl sectorMem s.dev.mem).byte y) ∧
    (∀ comb n kind ty v v2 old (u : Upset), u.passes = true → n = 2 ^ (h.bytes / 256 % 8) → (n = 4 ∨ n = 8) → h.addr % n = 0 → kind = h.bytes % 256 % 8 →
      ty = h.bytes % 256 / 8 → v = leNat (data.take 8) → v2 = leNat ((data.drop 8).take 8) → isSync h.addr = false →
      s.dev.remoteMem h.addr n = true → s.dev.readsWell h.addr n → old = leNat (Mem.read s.dev.mem h.addr n) →
      ∃ t, exec (.atomic p h data comb u) s = .next t ∧ devOnly s t ∧ t.dev.flags = s.dev.flags ∧ t.dev.ctrs = s.dev.ctrs ∧
        answered s t h 0 (leBytes 8 old) ∧
        (kind ≠ 7 → ∀ y, t.dev.mem.byte y = (Mem.write s.dev.mem h.addr (leBytes n (rmwFn kind ty n old (v % 2 ^ (8 * n))))).byte y) ∧
        (kind = 7 → old = v % 2 ^ (8 * n) → ∀ y, t.dev.mem.byte y = (Mem.write s.dev.mem h.addr (leBytes n v2)).byte y) ∧
        (kind = 7 → old ≠ v % 2 ^ (8 * n) → t.dev.mem = s.dev.mem)) ∧
    (∀ comb u n ctr i op e old, n = 2 ^ (h.bytes / 256 % 8) → (n = 4 ∨ n = 8) → h.addr % n = 0 → isSync h.addr = true →
      syncAt (h.addr - ctrlBase - 0x2000_0000) = some (ctr, i) → syncKind (h.bytes % 256 % 8) (h.bytes % 256 / 8) = some op →
      s.dev.remoteOk ctr i = true →
      s.dev.syncOp ctr i op n (leNat (data.take 8) % 2 ^ (8 * n)) (leNat ((data.drop 8).take 8) % 2 ^ (8 * n)) = some (e, old) →
      ∃ t, exec (.atomic p h data comb u) s = .next t ∧ devOnly s t ∧ t.dev.flags = e.flags ∧ t.dev.ctrs = e.ctrs ∧
        t.dev.mem = s.dev.mem ∧ answered s t h 0 (leBytes 8 old))

/-- R58, R60, R274, R282, R284, R361: a SIGNAL sets its flag or adds to its counter where the sheaf declared it REMOTE; an ECHO answers this device's time,
Y and the hops; a command for another device passes on with one hop more by the port its route gives, or draws the cause that stopped it; a command of
an operation that Table 13.4 does not name is refused (R276, R290); after a job fault every command but ECHO is refused and counted. -/
def Obligations.SignalsAndTransit : Prop :=
  ∀ (s : State) (p : Nat) (h : Cmd),
    (s.dev.receives p h → s.dev.waits = [] →
      (s.dev.remoteOk false (h.addr % 2 ^ 16) = true →
        ∃ t, exec (.signalSet p h) s = .next t ∧ devOnly s t ∧ t.dev.mem = s.dev.mem ∧ t.dev.ctrs = s.dev.ctrs ∧ answered s t h 0 [] ∧
          ∀ j, t.dev.flags.has j = (j == h.addr % 2 ^ 16 || s.dev.flags.has j)) ∧
      (s.dev.remoteOk true (h.addr % 2 ^ 16) = true →
        ∃ t, exec (.signalAdd p h) s = .next t ∧ devOnly s t ∧ t.dev.mem = s.dev.mem ∧ t.dev.flags = s.dev.flags ∧ answered s t h 0 [] ∧
          ∀ j, t.dev.ctr j = if j = h.addr % 2 ^ 16 then (s.dev.ctr j + h.bytes) % 2 ^ 64 else s.dev.ctr j) ∧
      (∀ ctr, s.dev.remoteOk ctr (h.addr % 2 ^ 16) = false →
        ∃ t, exec (if ctr then .signalAdd p h else .signalSet p h) s = .next t ∧ devOnly s t ∧ dataKept s t ∧ answered s t h 2 [])) ∧
    (∀ q, s.dev.live = true → p < 60 → s.dev.portIsUp p = true → h.dst = s.dev.devId → s.dev.egress h.src s.dev.devId h.addr = .up q →
      ∃ t, exec (.echo p h) s = .next t ∧ devOnly s t ∧ dataKept s t ∧
        t.dev.out = [.echoRsp h.src h.xid s.dev.tb.time (s.dev.fld HUB_YOKE_STATE HUB_YOKE_STATE_Y_NS) h.hops (s.dev.lists h.src)]) ∧
    (∀ data, s.dev.live = true → p < 60 → s.dev.portIsUp p = true → h.dst ≠ s.dev.devId →
      (∃ t, exec (.transit p h data) s = .next t ∧ devOnly s t ∧ dataKept s t ∧
        (h.hops = s.dev.fld HUB_FAB_CFG HUB_FAB_CFG_HOP_LIMIT → answered s t h 0x62 []) ∧
        (h.hops ≠ s.dev.fld HUB_FAB_CFG HUB_FAB_CFG_HOP_LIMIT →
          (∀ q, s.dev.egress h.dst h.src h.addr = .up q → t.dev.out = [.cmd q { h with
            hops := (h.hops + 1) % 256
            flags := if routeDateline (s.dev.routeEntry h.dst) then setBits h.flags 4 1 1 else h.flags } data]) ∧
          (∀ q, s.dev.egress h.dst h.src h.addr = .down q → answered s t h 0x60 []) ∧
          (s.dev.egress h.dst h.src h.addr = .noRoute → answered s t h 0x63 []))) ∧
      (∀ comb u, ∀ r ∈ inboundRows, exec (r.2 p h data comb u) s = exec (.transit p { h with op := r.1 } (if r.1 ∈ payloadOps then data else [])) s)) ∧
    (∀ data, s.dev.live = true → p < 60 → s.dev.portIsUp p = true → h.dst = s.dev.devId → opAssigned h.op = false →
      ∃ t, exec (.transit p h data) s = .next t ∧ devOnly s t ∧ dataKept s t ∧ answered s t h 2 []) ∧
    (∀ data comb u, s.dev.live = true → p < 60 → s.dev.portIsUp p = true → h.dst = s.dev.devId → s.dev.job.refuseInbound = true → ∀ r ∈ inboundRows,
      ∃ t, exec (r.2 p h data comb u) s = .next t ∧ devOnly s t ∧ dataKept s t ∧ answered s t h 2 [] ∧
        t.dev.fld ERR_INBOUND ERR_INBOUND_COUNT = min (s.dev.fld ERR_INBOUND ERR_INBOUND_COUNT + 1) (2 ^ 32 - 1))

/-! ### Responses, route epochs, tokens -/

/-- R76, R100, R257, R263, R274, R277: a RESPONSE ends the transaction that it names: a good one of a PUT or ACC lets its descriptor go on, one of a GET
also writes the data where they belong, and the descriptor goes on once the sharers of what it wrote have answered; an error stops the descriptor's
furrow with ACCESS and faults the job; a team's access waits for one response less, and notes the lanes of an error; the last sharer's answer lets
a write's own response go; a response that names no transaction does nothing; one for another device passes on by the route to it. -/
def Obligations.ResponsesSettle : Prop :=
  ∀ (s : State) (p xid status own : Nat) (data : List Byte), s.dev.live = true → p < 60 → s.dev.portIsUp p = true → s.dev.quiesced = false →
    own = s.dev.devId →
    (∀ x f k i, s.dev.outstanding xid x → s.dev.job.aborting = false → (x.kind = .put f k ∨ ∃ st, x.kind = .acc f k st) →
      (s.dev.frw f).cur = some i →
      (status = 0 → ∃ t, exec (.response p own xid status data) s = .next t ∧ devOnly s t ∧ settled s t xid ∧ dataKept s t ∧
        t.dev.frw f = { s.dev.frw f with held := (s.dev.frw f).held - 1 } ∧ ∀ g, g ≠ f → t.dev.frw g = s.dev.frw g) ∧
      (status ≠ 0 → ∀ sh, s.dev.sheaf = some sh → s.dev.job.faulted = false → 440 ≤ f → f < 500 →
        ∃ t, exec (.response p own xid status data) s = .next t ∧ devOnly s t ∧ (s.dev.dir = [] → settled s t xid) ∧ t.dev.frwErr f = feAccess ∧
          jobFaulted s t sh { cause := jfFurrow, furrow := furrowId f, tag := i.otag, step := i.step, detail := feAccess,
                              kind := kPort, unit := f - 440 })) ∧
    (∀ x f k loc i, s.dev.outstanding xid x → s.dev.job.aborting = false → x.kind = .get f k loc none → (s.dev.frw f).cur = some i → status = 0 →
      s.dev.treesAgree → s.dev.mergeUE loc (data.take x.cmd.bytes).length = none →
      ∃ t, exec (.response p own xid status data) s = .next t ∧ devOnly s t ∧ (s.dev.dir = [] → settled s t xid ∧ t.dev.invs = []) ∧ t.dev.flags = s.dev.flags ∧ t.dev.ctrs = s.dev.ctrs ∧
        (∀ y, t.dev.mem.byte y = (Mem.write s.dev.mem loc (data.take x.cmd.bytes)).byte y) ∧
        t.dev.frw f = { s.dev.frw f with held := (s.dev.frw f).held - b2n t.dev.invs.isEmpty } ∧
        (t.dev.invs ≠ [] → t.dev.acks = s.dev.acks ++ [(t.dev.invs, .furrow f)])) ∧
    (∀ x c j lanes ws y a, s.dev.outstanding xid x → s.dev.job.aborting = false → x.kind = .store c j lanes ws →
      SMap.find (s.dev.core c).slots j = some y → y.access = some a →
      ∃ t, exec (.response p own xid status data) s = .next t ∧ devOnly s t ∧ settled s t xid ∧ dataKept s t ∧
        SMap.find (t.dev.core c).slots j =
          some { y with access := some { a with wait := a.wait - 1, err := if status = 0 then a.err else a.err ||| lanes } }) ∧
    (∀ x (c : Cmd) st bs q, s.dev.outstanding xid x → x.kind = .inval → s.dev.acks = [([xid], .rsp c st bs)] →
      s.dev.egress c.src own c.addr = .up q →
      ∃ t, exec (.response p own xid status data) s = .next t ∧ devOnly s t ∧ settled s t xid ∧ dataKept s t ∧ t.dev.acks = [] ∧
        t.dev.out = [.rsp c.src c.xid st bs]) ∧
    (∀ dst, dst ≠ own → ∃ t, exec (.response p dst xid status data) s = .next t ∧ devOnly s t ∧ dataKept s t ∧ t.dev.xacts = s.dev.xacts ∧
      t.dev.furrows = s.dev.furrows ∧ (∀ q, s.dev.egress dst own 0 = .up q → t.dev.out = [.rsp dst xid status data]) ∧
      ((∀ q, s.dev.egress dst own 0 ≠ .up q) → t.dev.out = [])) ∧
    ((∀ x ∈ s.dev.xacts, x.xid ≠ xid) →
      ∃ t, exec (.response p own xid status data) s = .next t ∧ devOnly s t ∧ dataKept s t ∧ t.dev.xacts = s.dev.xacts ∧
        t.dev.furrows = s.dev.furrows ∧ t.dev.out = [])

/-- R283, Table 13.6: QUIESCE holds commands back and shows DRAINED once none is outstanding; SWAP, when drained, makes the next route table the active one,
clears every route latency and counts the epoch, and is refused otherwise; RESUME, after a swap, sends an ECHO to every route that a port takes, and is
refused otherwise; the epoch ends 20 ms later where an ECHO stays unanswered (that this falls to the next tick of the governor, and that such a route has
no latency, is log entry 97: the model's choice); R263: an invalidation drops the granule from every L1 and cache plot and is answered. -/
def Obligations.RouteEpochs : Prop :=
  ∀ (s : State) (who : Who),
    (s.dev.reach who = true →
      (∃ t, exec (.quiesce who) s = .next t ∧ devOnly s t ∧ t.dev = { s.dev with out := [.ok], regs := t.dev.regs } ∧
        regsAgree (fun o => o = HUB_EPOCH.addr 0 0) s.dev t.dev ∧ t.dev.quiesced = true ∧ t.dev.bit HUB_EPOCH HUB_EPOCH_MEASURED = false ∧
        t.dev.bit HUB_EPOCH HUB_EPOCH_DRAINED = s.dev.xacts.isEmpty) ∧
      (s.dev.bit HUB_EPOCH HUB_EPOCH_DRAINED = true →
        ∃ t, exec (.swap who) s = .next t ∧ devOnly s t ∧ (∀ n, n < 65536 → t.dev.reg HUB_ROUTE 0 n = s.dev.reg HUB_ROUTE_NEXT 0 n) ∧
          (∀ n, n < 65536 → t.dev.fld ADM_ROUTE_LAT ADM_ROUTE_LAT_VALID 0 n = 0) ∧
          t.dev.fld HUB_EPOCH HUB_EPOCH_EPOCH = (s.dev.fld HUB_EPOCH HUB_EPOCH_EPOCH + 1) % 2 ^ 32 ∧
          t.dev = { s.dev with out := [.ok], regs := t.dev.regs, epoch := { s.dev.epoch with swapped := true } }) ∧
      (s.dev.bit HUB_EPOCH HUB_EPOCH_DRAINED = false →
        ∃ t, exec (.swap who) s = .next t ∧ devOnly s t ∧ t.dev = { s.dev with out := [.err] }) ∧
      (s.dev.epoch.swapped = true → ∃ t, exec (.resume who) s = .next t ∧ devOnly s t ∧ t.dev.epoch.swapped = false ∧
        t.dev.flags = s.dev.flags ∧ t.dev.ctrs = s.dev.ctrs ∧ ∀ dev ∈ s.dev.validRoutes, (∃ q, s.dev.egress dev s.dev.devId 0 = .up q) → t.dev.epoch.echoes.has dev = true ∧
          ∃ x ∈ t.dev.xacts, x.kind = .echo dev) ∧
      (s.dev.epoch.swapped = true → s.dev.validRoutes = [] → s.dev.epoch.echoes = [] →
        ∃ t, exec (.resume who) s = .next t ∧ t.dev.quiesced = false ∧ t.dev.bit HUB_EPOCH HUB_EPOCH_MEASURED = true) ∧
      (s.dev.epoch.swapped = false → ∃ t, exec (.resume who) s = .next t ∧ devOnly s t ∧ t.dev = { s.dev with out := [.err] })) ∧
    (∀ t, ticks s t → s.dev.epoch.echoes ≠ [] → s.dev.epoch.since + 20000000 ≤ s.dev.tb.time →
      t.dev.quiesced = false ∧ t.dev.bit HUB_EPOCH HUB_EPOCH_MEASURED = true) ∧
    (∀ dev line, s.dev.live = true → dev < 65536 → line < 0x5000_0000 →
      ∃ t, exec (.yokeInvalidate dev line) s = .next t ∧ devOnly s t ∧
        t.dev = { s.dev with out := [.invalidated dev line], l1 := t.dev.l1, cplot := t.dev.cplot } ∧
        (∀ q ∈ t.dev.l1 ++ t.dev.cplot, ∀ l ∈ q.2, l.addr + l.bytes.length ≤ dev * 2 ^ 48 + 256 * line ∨
          dev * 2 ^ 48 + 256 * line + 256 ≤ l.addr) ∧
        ∀ q ∈ s.dev.l1 ++ s.dev.cplot, ∀ l ∈ q.2,
          (l.addr + l.bytes.length ≤ dev * 2 ^ 48 + 256 * line ∨ dev * 2 ^ 48 + 256 * line + 256 ≤ l.addr) →
          ∃ q' ∈ t.dev.l1 ++ t.dev.cplot, q'.1 = q.1 ∧ l ∈ q'.2)

/-- R211, R212, R214, R278, R362: a SEAL or DONE token of the admitted run is recorded for its step, one of another run is not; a FAULT token of the run
faults its job with PEER_FAULT, one of another run does not; a TOKEN is what its kind says. The device's own token goes once every SEAL of the
step has deposited and every STAMP operation has completed. -/
def Obligations.TokensCount : Prop :=
  ∀ (s : State) (p : Nat) (k : Tok),
    (s.dev.receivesTok p k → s.dev.ofThisRun k →
      (∃ t, exec (.sealToken p k) s = .next t ∧ devOnly s t ∧ ∃ u ∈ (t.dev.seal k.step).toks, u.src = k.src) ∧
      (∃ t, exec (.doneToken p k) s = .next t ∧ devOnly s t ∧ (t.dev.seal k.step).dones.has k.src = true) ∧
      (∀ sh, s.dev.sheaf = some sh → s.dev.job.faulted = false → ∃ t, exec (.faultToken p k) s = .next t ∧ devOnly s t ∧
        jobFaulted s t sh { cause := jfPeer, step := k.step, origin := k.origin, origCause := k.cause })) ∧
    (s.dev.receivesTok p k → ¬ s.dev.ofThisRun k →
      (∃ t, exec (.sealToken p k) s = .next t ∧ devOnly s t ∧ t.dev.seals = s.dev.seals ∧ dataKept s t) ∧
      (∃ t, exec (.doneToken p k) s = .next t ∧ devOnly s t ∧ t.dev.seals = s.dev.seals ∧ dataKept s t) ∧
      (∃ t, exec (.faultToken p k) s = .next t ∧ devOnly s t ∧ t.dev.job = s.dev.job ∧ dataKept s t)) ∧
    (k.kind = 1 → exec (.token p k) s = exec (.sealToken p k) s) ∧ (k.kind = 2 → exec (.token p k) s = exec (.doneToken p k) s) ∧
    (k.kind = 3 → exec (.token p k) s = exec (.faultToken p k) s) ∧
    (∀ n, s.dev.live = true → s.dev.running = true → (s.dev.seal n).sent = false → 0 < s.dev.nSeal → s.dev.nSeal ≤ (s.dev.seal n).dep →
      s.dev.nStamp ≤ (s.dev.seal n).stampDone →
      ∃ t, exec (.sealTokenSend n) s = .next t ∧ devOnly s t ∧ (t.dev.seal n).sent = true ∧ (t.dev.seal n).jk = s.dev.jOf n ∧
        ∃ u ∈ (t.dev.seal n).toks, u.src = s.dev.devId ∧ u.jk = s.dev.jOf n ∧
          u.bits = b2n (s.dev.seal n).ovf + 2 * b2n (s.dev.seal n).nf + 4 * b2n (s.dev.seal n).fault) ∧
    (∀ n, s.dev.live = true → (s.dev.running = false ∨ (s.dev.seal n).sent = true ∨ (s.dev.seal n).dep < s.dev.nSeal ∨
      (s.dev.seal n).stampDone < s.dev.nStamp) →
      ∃ t, exec (.sealTokenSend n) s = .next t ∧ devOnly s t ∧ t.dev = { s.dev with out := [] })

/-- R209, R221, R222, R224: a header whose time is over closes with nothing else changed; FORCE_COMMIT commits a step whose verdict is unknown, and is refused
otherwise; a write of HUB_SNAP arms a capture and clears DONE, but is refused where it would change ENABLE while a sheaf is admitted. -/
def Obligations.StepControls : Prop :=
  ∀ (s : State),
    (∀ st g k gp, s.dev.live = true → st < 20 → g < 4096 → SMap.find (s.dev.hrw st).groups g = some gp → ((s.dev.hrw st).hdr g k).closed = false →
      2 ≤ k → ((s.dev.hrw st).hdr g k).anchor ≠ 0 → partly gp ((s.dev.hrw st).hdr g k) = false →
      ((s.dev.hrw st).hdr g k).anchor + gp.window + gp.drain ≤ s.dev.tb.time →
      ∃ t, exec (.headerCloseTimeout st g k) s = .next t ∧ devOnly s t ∧
        t.dev.hrw st = (s.dev.hrw st).setHdr (closeHdr gp ((s.dev.hrw st).hdr g k)) ∧ (∀ n, n ≠ st → t.dev.hrw n = s.dev.hrw n) ∧
        t.dev = { s.dev with out := [], harrow := t.dev.harrow }) ∧
    (∀ who, s.dev.reach who = true →
      (s.dev.fld HUB_SEAL HUB_SEAL_VERDICT = vUnknown →
        ∃ t, exec (.forceCommit who) s = .next t ∧ devOnly s t ∧ t.dev.fld HUB_SEAL HUB_SEAL_VERDICT = vCommit ∧
          t.dev.fld HUB_SEAL HUB_SEAL_STEP = s.dev.fld HUB_SEAL HUB_SEAL_STEP ∧ t.dev.fld HUB_SEAL HUB_SEAL_PEND = 1 ∧
          (t.dev.seal (s.dev.fld HUB_SEAL HUB_SEAL_STEP)).verdict = vCommit ∧ t.dev.out.getLast? = some .ok) ∧
      (s.dev.fld HUB_SEAL HUB_SEAL_VERDICT ≠ vUnknown →
        ∃ t, exec (.forceCommit who) s = .next t ∧ devOnly s t ∧ t.dev = { s.dev with out := [.err] })) ∧
    (∀ who v, s.dev.reach who = true →
      ((s.dev.admitted = false ∨ bitOf v.toNat 0 = s.dev.bit HUB_SNAP HUB_SNAP_ENABLE) →
        ∃ t, exec (.snapArm who v) s = .next t ∧ devOnly s t ∧ t.dev = { s.dev with out := [.ok], regs := t.dev.regs } ∧
          regsAgree (fun o => o = HUB_SNAP.addr 0 0) s.dev t.dev ∧ t.dev.bit HUB_SNAP HUB_SNAP_ENABLE = bitOf v.toNat 0 ∧
          t.dev.fld HUB_SNAP HUB_SNAP_STEP = bitsOf v.toNat 32 32 ∧ t.dev.fld HUB_SNAP HUB_SNAP_DONE = 0) ∧
      (s.dev.admitted = true → bitOf v.toNat 0 ≠ s.dev.bit HUB_SNAP HUB_SNAP_ENABLE →
        ∃ t, exec (.snapArm who v) s = .next t ∧ refusedAs s t 0x05))

/-! ### Stacks, in-service test, resets -/

/-- R293 to R297, R299, R300: no two granules of HBM have one place; RETRAIN with no sheaf admitted begins a training, whole for a stack that is FAILED, by steps 1 to 4 for any other, at
once where its loop is locked; refresh counts its RFM commands, and a bit that flips makes a word's first error correctable and its second not (that
REFRESH carries the flips is log entry 89: the model's choice); a stack is hot above 85 °C; the scrubber corrects a single-bit error and counts an
uncorrectable one, and changes no byte and no job. -/
def Obligations.StackUpkeep : Prop :=
  (∀ a b, a < hbmSize → b < hbmSize → hbmPlace a = hbmPlace b → a / 256 = b / 256) ∧
  ∀ (s : State) (n : Nat), n < 20 →
    (∀ who, s.dev.reach who = true → s.dev.gatedReg (HBM_CTRL.addr n 0) = false → s.dev.admitted = false →
      ∃ t, exec (.retrain who n) s = .next t ∧ devOnly s t ∧
        SMap.find t.dev.training n = some (if s.dev.fld HBM_STATUS HBM_STATUS_STATE n = 3 ∨ s.dev.trainsWhole n = true then 5 else 4) ∧
        t.dev = { s.dev with out := [.ok], regs := t.dev.regs, training := t.dev.training, selfRef := t.dev.selfRef } ∧
        regsAgree (fun o => o = HBM_STATUS.addr n 0) s.dev t.dev ∧
        (s.dev.locked (stackLoop n) = true → t.dev.fld HBM_STATUS HBM_STATUS_STATE n = 1 ∧ t.dev.selfRef.has n = false) ∧
        (s.dev.locked (stackLoop n) = false → t.dev.regs = s.dev.regs ∧ t.dev.selfRef = s.dev.selfRef)) ∧
    (∀ who, s.dev.reach who = true → s.dev.gatedReg (HBM_CTRL.addr n 0) = false → s.dev.admitted = true →
      ∃ t, exec (.retrain who n) s = .next t ∧ devOnly s t ∧ t.dev = { s.dev with out := [.err] }) ∧
    (∀ flips rfm, s.dev.live = true → s.dev.fld HBM_STATUS HBM_STATUS_STATE n = 2 →
      ∃ t, exec (.refresh n flips rfm) s = .next t ∧ devOnly s t ∧ t.dev.fld HBM_RFM HBM_RFM_COUNT n = (s.dev.fld HBM_RFM HBM_RFM_COUNT n + rfm) % 2 ^ 48 ∧
        t.dev = { s.dev with out := [], regs := t.dev.regs, eccCE := t.dev.eccCE, eccUE := t.dev.eccUE } ∧
        regsAgree (fun o => o = HBM_RFM.addr n 0) s.dev t.dev ∧
        (∀ w, w ∉ flips ∨ stackOf (8 * w) ≠ n → t.dev.eccUE.has w = s.dev.eccUE.has w ∧ t.dev.eccCE.has w = s.dev.eccCE.has w) ∧
        (∀ w, s.dev.eccUE.has w = true → t.dev.eccUE.has w = true) ∧
        (∀ w, flips = [w] → 8 * w < hbmSize → stackOf (8 * w) = n → s.dev.eccUE.has w = false →
          t.dev.eccUE.has w = s.dev.eccCE.has w ∧ t.dev.eccCE.has w = !s.dev.eccCE.has w)) ∧
    (∀ rails temps x, s.dev.live = true → noTrip temps → temps[10 + n]? = some x →
      ∃ t, exec (.governorTick rails temps) s = .next t ∧ t.dev.hot.has n = decide (85 < x) ∧ t.dev.fld HBM_STATUS HBM_STATUS_TEMP n = x % 2 ^ 8) ∧
    (∀ a u, s.dev.live = true → a < hbmSize → a % 8 = 0 → stackOf a = n → s.dev.bit HBM_CFG HBM_CFG_SCRUB_EN n = true →
      s.dev.fld HBM_STATUS HBM_STATUS_STATE n = 2 →
      ∃ t, exec (.scrub n a u) s = .next t ∧ devOnly s t ∧ dataKept s t ∧ t.dev.job = s.dev.job ∧ t.dev.eccCE.has (a / 8) = false ∧
        (s.dev.eccCE.has (a / 8) = true → t.dev.fld HBM_ECC HBM_ECC_CE n = min (s.dev.fld HBM_ECC HBM_ECC_CE n + 1) (2 ^ 32 - 1) ∧
          t.dev.fld HBM_ECC_LAST HBM_ECC_LAST_ADDR n = a) ∧
        ((s.dev.eccUE.has (a / 8) = true ∨ u = .uncorrectable) → t.dev.eccUE.has (a / 8) = true ∧
          t.dev.fld HBM_ECC HBM_ECC_UE n = min (s.dev.fld HBM_ECC HBM_ECC_UE n + 1) (2 ^ 32 - 1)))

/-- R365, R368 to R370: a unit that falls due waits for the governor while a sheaf is admitted, and else runs at once where its core or plot is free; one
that fails is due again, and marked suspect when it fails twice; a window leaves its megabyte zero; RUN_ALL tests every unit and leaves every plot
without kept contents zero; the codeword counts of each port are added up, and a port beyond its limit is suspect. -/
def Obligations.InServiceTest : Prop :=
  ∀ (s : State),
    (∀ u, u < 12480 → s.dev.live = true → s.dev.bit IST_CFG IST_CFG_ENABLE = true → s.dev.ist.due.has u = false → s.dev.ist.running.has u = false →
      ∃ t, exec (.istDue u) s = .next t ∧ devOnly s t ∧ t.dev.ist.failed = s.dev.ist.failed ∧
        (t.dev.ist.due.has u = true ∨ t.dev.ist.running.has u = true) ∧
        (s.dev.bit TRC_SEL TRC_SEL_FILL = false → t.dev = { s.dev with out := [], ist := t.dev.ist, furrows := t.dev.furrows }) ∧
        (s.dev.admitted = true → t.dev = { s.dev with out := [], ist := { s.dev.ist with due := s.dev.ist.due.add u } }) ∧
        (s.dev.admitted = false → s.dev.ist.due = [] → u < 2240 →
          t.dev.ist.running.has u = (s.dev.sliceCores.contains (u / 16) && !s.dev.testCores.contains (u / 16))) ∧
        (s.dev.admitted = false → s.dev.ist.due = [] → 2240 ≤ u →
          t.dev.ist.running.has u = (s.dev.windowPlot (windowOf u) && !s.dev.gated (plotIsland (windowOf u / 16)) &&
            s.dev.engineFree (240 + windowOf u) && !s.dev.testPlots.contains (windowOf u)))) ∧
    (∀ u pass, u < 12480 → s.dev.live = true → s.dev.ist.running.has u = true →
      ∃ t, exec (.istSliceComplete u pass) s = .next t ∧ devOnly s t ∧ t.dev.flags = s.dev.flags ∧ t.dev.ctrs = s.dev.ctrs ∧ t.dev.job = s.dev.job ∧
        (s.dev.bit TRC_SEL TRC_SEL_FILL = false → ∀ x, t.dev.mem.byte x =
          if 2240 ≤ u ∧ plotBase + (u - 2240) * 0x10_0000 ≤ x ∧ x < plotBase + (u - 2239) * 0x10_0000 then 0 else s.dev.mem.byte x) ∧
        (s.dev.admitted = true → t.dev.ist.running.has u = false ∧
          t.dev.ist.due.has u = (!pass && !s.dev.ist.failed.has u)) ∧
        (pass = true → t.dev.ist.failed.has u = false) ∧
        (pass = false → s.dev.ist.failed.has u = false → t.dev.ist.failed.has u = true ∧
          (t.dev.ist.due.has u = true ∨ t.dev.ist.running.has u = true) ∧ ∀ n, t.dev.reg RST_SUSPECT 0 n = s.dev.reg RST_SUSPECT 0 n) ∧
        (pass = false → s.dev.ist.failed.has u = true → bitOf (t.dev.fld HUB_IRQ_STATUS HUB_IRQ_STATUS_CAUSE) irqIst = true ∧
          (u < 2240 → bitOf (t.dev.fld RST_SUSPECT RST_SUSPECT_CORES 0 (u / 224)) (u / 16 % 14) = true) ∧
          (2240 ≤ u → bitOf (t.dev.fld RST_SUSPECT RST_SUSPECT_PLOTS 0 (windowOf u / 16)) (windowOf u % 16) = true))) ∧
    (∀ fec, s.dev.live = true → ∃ t, exec (.istLinkCheck fec) s = .next t ∧ devOnly s t ∧ dataKept s t ∧
      ∀ p ce ue, p < 60 → fec[p]? = some (ce, ue) →
        t.dev.fld HDL_FEC HDL_FEC_CORRECTED p = min (s.dev.fld HDL_FEC HDL_FEC_CORRECTED p + ce) (2 ^ 32 - 1) ∧
        t.dev.fld HDL_FEC HDL_FEC_UNCORRECTED p = min (s.dev.fld HDL_FEC HDL_FEC_UNCORRECTED p + ue) (2 ^ 32 - 1) ∧
        SMap.get 0 t.dev.ist.ue p = (if s.dev.ist.hour = s.dev.tb.time / hourNs then SMap.get 0 s.dev.ist.ue p else 0) + ue ∧
        (s.dev.fld IST_LINK IST_LINK_UE_LIMIT < SMap.get 0 t.dev.ist.ue p →
          bitOf (t.dev.fld RST_SUSPECT RST_SUSPECT_PORTS 0 (p / 6)) (p % 6) = true)) ∧
    (∀ who fails, s.dev.reach who = true → (∀ u ∈ fails, u < 12480) →
      (s.dev.admitted = true → ∃ t, exec (.runAll who fails) s = .next t ∧ devOnly s t ∧ t.dev = { s.dev with out := [.err] }) ∧
      (s.dev.admitted = false → ∃ t, exec (.runAll who fails) s = .next t ∧ devOnly s t ∧ t.dev.ist.due = [] ∧ t.dev.ist.running = [] ∧
        t.dev.ist.failed = [] ∧ t.dev.reg IST_LAST = s.dev.tb.time % 2 ^ 64 ∧ t.dev.out.getLast? = some .ok ∧
        (∀ u ∈ fails, u < 2240 → bitOf (t.dev.fld RST_SUSPECT RST_SUSPECT_CORES 0 (u / 224)) (u / 16 % 14) = true) ∧
        (s.dev.bit TRC_SEL TRC_SEL_FILL = false → ∀ x, t.dev.mem.byte x =
          match region x with
          | .plot p => if s.dev.bit TLT_MARK TLT_MARK_KEPT p then s.dev.mem.byte x else 0
          | _ => s.dev.mem.byte x)))

/-- R371 to R376, R378, R384, R405, Tables 18.7, 18.10, 18.11: CORE clears its core alone and sets BUSY, and faults the job of a sheaf that has it; BUSY
of a CORE or JOB reset ends once it is over, with the mapping of a JOB reset recomputed (when that is, is log entry 99: the model's choice); DEV clears the work and
every memory but HBM and shows BUSY until the loops have locked; FLR does what DEV does and resets the function; BRD and POR start the device over; D3hot
sleeps, and is refused while a sheaf is admitted; a reset that R376 or R378 rules out is refused. -/
def Obligations.DeepResets : Prop :=
  ∀ (s : State),
    (∀ who die phys c, s.dev.reach who = true → s.dev.runsReset 1 = false → die < 10 → phys < 14 → c = 14 * die + phys →
      ∃ t, exec (.resetCore who die phys) s = .next t ∧ devOnly s t ∧ t.dev.core c = Tme.empty ∧ t.dev.mx c = Mxa.empty ∧
        (∀ x, region x = .tile c → t.dev.mem.byte x = 0) ∧ t.dev.fld RST_STATUS RST_STATUS_LAST = 1 ∧ t.dev.bit RST_STATUS RST_STATUS_BUSY = true ∧
        t.dev.out.getLast? = some .ok ∧
        (∀ l, s.dev.logOf c = some l → ∀ f, f = l ∨ f = 120 + l → (t.dev.frw f).cur = none ∧ (t.dev.frw f).fifo = []) ∧
        ((∀ l, s.dev.logOf c = some l → s.dev.sheafCore l = false) →
          (∀ q, q ≠ c → t.dev.core q = s.dev.core q ∧ t.dev.mx q = s.dev.mx q) ∧ t.dev.flags = s.dev.flags ∧ t.dev.ctrs = s.dev.ctrs ∧
          t.dev.job = s.dev.job ∧ (s.dev.bit TRC_SEL TRC_SEL_FILL = false → s.dev.pwrState = 0 →
            ∀ x, t.dev.mem.byte x = if region x = .tile c then 0 else s.dev.mem.byte x)) ∧
        (∀ l, s.dev.logOf c = some l → s.dev.sheafCore l = true → s.dev.job.faulted = false → t.dev.job.faulted = true ∧
          t.dev.fld ERR_FAULT ERR_FAULT_CAUSE = jfCoreReset)) ∧
    (∀ who, s.dev.reach who = true → s.dev.busyReset = true →
      ∃ t, exec (.resetCore who 0 0) s = .next t ∧ devOnly s t ∧ t.dev = { s.dev with out := [.err] }) ∧
    (∀ rails temps lvl t0, s.dev.live = true → noTrip temps → tracesQuiet s.dev → s.dev.epoch.echoes = [] → s.dev.boot.soft = some (lvl, t0) →
      ∃ t, exec (.governorTick rails temps) s = .next t ∧ devOnly s t ∧
        (s.dev.softOver lvl t0 = false → t.dev.boot.soft = some (lvl, t0)) ∧
        (s.dev.softOver lvl t0 = true → t.dev.boot.soft = none ∧ t.dev.bit RST_STATUS RST_STATUS_BUSY = false ∧
          ∀ die, die < 10 → lvl = 2 → t.dev.reg RST_MAP 0 die = mapWord (s.dev.nextMap die))) ∧
    (∀ who, s.dev.reach who = true → s.dev.resetting = false →
      ∃ t, exec (.resetDev who) s = .next t ∧ devOnly s t ∧ t.dev.resetting = true ∧ t.dev.bit RST_STATUS RST_STATUS_BUSY = true ∧
        t.dev.fld RST_STATUS RST_STATUS_LAST = 3 ∧ t.dev.sheaf = none ∧ t.dev.admitted = false ∧ t.dev.flags = [] ∧ t.dev.ctrs = [] ∧
        t.dev.furrows = [] ∧ t.dev.seals = [] ∧ t.dev.harrow = [] ∧ t.dev.tme = [] ∧ t.dev.mxa = [] ∧ t.dev.clk.relock = s.dev.devLoops ∧ t.dev.clk.coast = [] ∧
        t.dev.fld PWR_EVT PWR_EVT_TRIP = 0 ∧
        (∀ p, p < 60 → t.dev.portState p = portOff) ∧ t.dev.tb.time = s.dev.tb.time ∧
        (s.dev.running = false → s.dev.bit TRC_SEL TRC_SEL_FILL = false → memKept s t fun _ => false)) ∧
    (∀ who, s.dev.reach who = true → s.dev.resetting = true →
      ∀ i ∈ [Instr.resetJob who, .resetDev who, .resetCore who 0 0], ∃ t, exec i s = .next t ∧ devOnly s t ∧ t.dev = { s.dev with out := [.err] }) ∧
    (∀ who die phys, s.dev.reach who = true → die < 16 → phys < 16 → (10 ≤ die ∨ 14 ≤ phys) →
      ∃ t, exec (.resetCore who die phys) s = .next t ∧ devOnly s t ∧ t.dev = { s.dev with out := [.err] }) ∧
    (s.dev.function = true → s.dev.resetting = false →
      ∃ t, exec .flr s = .next t ∧ devOnly s t ∧ t.dev.resetting = true ∧ t.dev.fld RST_STATUS RST_STATUS_LAST = 3 ∧ t.dev.sheaf = none ∧
        t.dev.flags = [] ∧ t.dev.ctrs = [] ∧ t.dev.pcie.link = true ∧ t.dev.pcie.d3 = false ∧ t.dev.pcie.mask = 0xFFF ∧ t.dev.pcie.table = []) ∧
    (∀ ns, s.dev.halt ≠ .por → 10000 ≤ ns →
      ∃ t, exec (.resetBrd ns) s = .next t ∧ devOnly s t ∧ t.dev.halt = .run ∧ t.dev.fld RST_STATUS RST_STATUS_LAST = 4 ∧
        t.dev.bit HUB_BOOT HUB_BOOT_READY = false ∧ t.dev.boot.booting = true ∧ t.dev.sheaf = none ∧ t.dev.mem = [] ∧ t.dev.flags = [] ∧
        t.dev.furrows = [] ∧ t.dev.boot.slots = s.dev.boot.slots ∧ t.dev.boot.trips = s.dev.boot.trips ∧ t.dev.pins.thermtrip = false) ∧
    (∀ ns, s.dev.halt ≠ .por → ns < 1000 →
      ∃ t, exec (.resetBrd ns) s = .next t ∧ devOnly s t ∧ t.dev = { s.dev with out := [], free := s.dev.free + 1 }) ∧
    (∃ t, exec (.resetPor false) s = .next t ∧ devOnly s t ∧ t.dev.halt = .por ∧ t.dev.pcie.link = false ∧ t.dev.pins.thermtrip = false) ∧
    (s.dev.halt = .por → ∃ t, exec (.resetPor true) s = .next t ∧ devOnly s t ∧ t.dev.halt = .run ∧ t.dev.fld RST_STATUS RST_STATUS_LAST = 5 ∧
      t.dev.bit HUB_BOOT HUB_BOOT_READY = false ∧ t.dev.boot.booting = true ∧ t.dev.sheaf = none ∧ t.dev.mem = [] ∧
      t.dev.boot.slots = s.dev.boot.slots ∧ t.dev.boot.marks = s.dev.boot.marks) ∧
    (s.dev.function = true → s.dev.pcie.d3 = false →
      (s.dev.admitted = true → ∃ t, exec .d3hotEntry s = .next t ∧ devOnly s t ∧ t.dev = { s.dev with out := [.err] }) ∧
      (s.dev.admitted = false → ∃ t, exec .d3hotEntry s = .next t ∧ devOnly s t ∧ t.dev.pcie.d3 = true ∧
        t.dev.mem = s.dev.mem ∧ (s.dev.pwrState = 1 → t.dev.pwrState = 1) ∧
        (s.dev.pwrState ≠ 1 → t.dev.pwrState = 3 ∧ t.dev.gov.goal = some 1))) ∧
    (s.dev.function = true → s.dev.pcie.d3 = true → s.dev.admitted = false →
      ∃ t, exec .d0Return s = .next t ∧ devOnly s t ∧ t.dev.pcie.d3 = false ∧ t.dev.mem = s.dev.mem ∧ (s.dev.pwrState = 0 → t.dev.pwrState = 0) ∧
        (s.dev.pwrState ≠ 0 → s.dev.pwrState ≠ 3 ∨ s.dev.gov.goal ≠ none → t.dev.pwrState = 3 ∧ t.dev.gov.goal = some 0))

/-! ### Management and test access -/

/-- R389, R391: RETRY verifies the slots again, and has no effect outside recovery; MCTP control gives and takes the endpoint identifier; monitoring answers
what the registers show; an update writes and verifies the slot that did not boot; activation of a verified update raises the rollback counter to its version.
With the island of the peripheral bus gated no message comes through (R334).
(The encodings of the answers are the model's, log entry 53.) -/
def Obligations.FirmwareAndMonitoring : Prop :=
  ∀ (s : State),
    (∀ who img, s.dev.reach who = true → s.dev.bit HUB_BOOT HUB_BOOT_RECOVERY = false →
      ∃ t, exec (.retry who img) s = .next t ∧ devOnly s t ∧ t.dev = { s.dev with out := [.ok] }) ∧
    (∀ img i, s.dev.inRecovery .host = true → s.dev.boot.booting = true → s.dev.clk.settled = true → s.dev.clk.relock = [] → noneTrains s.dev →
      pickSlot { s.dev.boot with slots := img :: s.dev.boot.slots.drop 1 } = some i →
      ∃ t, exec (.retry .host (some img)) s = .next t ∧ devOnly s t ∧ workKept s t ∧ t.dev.bit HUB_BOOT HUB_BOOT_READY = true ∧
        t.dev.bit HUB_BOOT HUB_BOOT_RECOVERY = false ∧ t.dev.boot.booted = some i) ∧
    (∀ img, s.dev.inRecovery .host = true → pickSlot { s.dev.boot with slots := img :: s.dev.boot.slots.drop 1 } = none →
      ∃ t, exec (.retry .host (some img)) s = .next t ∧ devOnly s t ∧ workKept s t ∧ t.dev.bit HUB_BOOT HUB_BOOT_RECOVERY = true) ∧
    (s.dev.firmware = true → s.dev.busOk = true →
      (∀ arg, ∃ t, exec (.mctpControl 1 arg) s = .next t ∧ answeredMgmt s t (.mctp (leBytes 1 0 ++ leBytes 1 arg)) ∧
        t.dev.mgmt = { s.dev.mgmt with eid := arg % 256 }) ∧
      (∀ cmd arg, cmd ≠ 1 → ∃ t o, exec (.mctpControl cmd arg) s = .next t ∧ answeredMgmt s t (.mctp o) ∧ t.dev.mgmt = s.dev.mgmt ∧
        (cmd = 2 → o = leBytes 1 0 ++ leBytes 1 s.dev.mgmt.eid)) ∧
      (∀ n v, s.dev.sensor n = some v → ∃ t, exec (.pldmMonitoring n) s = .next t ∧ answeredMgmt s t (.mctp (leBytes 1 0 ++ leBytes 8 v)) ∧
        t.dev.mgmt = s.dev.mgmt) ∧
      (∀ img n, n = (if s.dev.boot.booted = some 0 then 1 else 0) →
        ∃ t, exec (.pldmFirmwareUpdate img) s = .next t ∧ devOnly s t ∧ workKept s t ∧ t.dev.boot.slots = s.dev.boot.slots.set n img ∧
          t.dev.boot.rollback = s.dev.boot.rollback ∧ t.dev.boot.booted = s.dev.boot.booted ∧
          t.dev.boot.pldm = if img.sigOk && img.keyOk && decide (s.dev.boot.rollback ≤ img.ver) then 1 else 2) ∧
      (∀ x, s.dev.boot.pldm = 1 → s.dev.boot.slots[if s.dev.boot.booted = some 0 then 1 else 0]? = some x →
        ∃ t, exec .pldmActivation s = .next t ∧ devOnly s t ∧ t.dev.boot = { s.dev.boot with rollback := max s.dev.boot.rollback x.ver, pldm := 0 } ∧
          workKept s t) ∧
      (s.dev.boot.pldm ≠ 1 → ∃ t, exec .pldmActivation s = .next t ∧ devOnly s t ∧ t.dev.boot = s.dev.boot ∧ workKept s t)) ∧
    (s.dev.firmware = true → s.dev.gated 171 = true → ∀ cmd arg n img,
      ∀ i ∈ [Instr.mctpControl cmd arg, .pldmMonitoring n, .pldmFirmwareUpdate img, .pldmActivation],
        ∃ t, exec i s = .next t ∧ devOnly s t ∧ t.dev = { s.dev with out := [], free := s.dev.free + 1 })

/-- R390, Table 19.5: the requests of the SPDM responder in their order: VERSION, CAPABILITIES, ALGORITHMS, then digests, certificate and challenge of slot 0,
signed measurements, and a session that a key exchange prepares, FINISH establishes and END_SESSION ends; one out of order is answered with ERROR and changes
nothing. Measurement 5 is zero with no sheaf admitted. (The encodings of the answers are the model's, log entry 53.) -/
def Obligations.Attestation : Prop :=
  ∀ (s : State), s.dev.firmware = true →
    (∃ t, exec .getVersion s = .next t ∧ answeredMgmt s t (.spdm 0x04 (leBytes 1 1 ++ leBytes 2 0x1300)) ∧
      t.dev.mgmt = { s.dev.mgmt with version := true, caps := false, algs := false, keyEx := false, session := false }) ∧
    (s.dev.mgmt.version = true → ∃ t, exec .getCapabilities s = .next t ∧ answeredMgmt s t (.spdm 0x61 []) ∧
      t.dev.mgmt = { s.dev.mgmt with caps := true }) ∧
    (s.dev.mgmt.version = true → s.dev.mgmt.caps = true → ∃ t, exec .negotiateAlgorithms s = .next t ∧ answeredMgmt s t (.spdm 0x63 []) ∧
      t.dev.mgmt = { s.dev.mgmt with algs := true }) ∧
    (s.dev.negotiated = true →
      (∃ t, exec .getDigests s = .next t ∧ answeredMgmt s t (.spdm 0x01 (leBytes 1 1 ++ Config.sha384 s.dev.chain)) ∧ t.dev.mgmt = s.dev.mgmt) ∧
      (∃ t, exec (.getCertificate 0) s = .next t ∧ answeredMgmt s t (.spdm 0x02 s.dev.chain) ∧ t.dev.mgmt = s.dev.mgmt) ∧
      (∀ nonce, ∃ t, exec (.challenge 0 nonce) s = .next t ∧ signedAs s t 0x03 (Config.sha384 s.dev.chain ++ nonce) ∧ t.dev.mgmt = s.dev.mgmt) ∧
      (∀ slot nonce, slot ≠ 0 → ∀ i ∈ [Instr.getCertificate slot, .challenge slot nonce],
        ∃ t, exec i s = .next t ∧ answeredMgmt s t (.spdm 0x7F (leBytes 1 1)) ∧ t.dev.mgmt = s.dev.mgmt) ∧
      (∀ n m nonce, s.dev.measurement n = some m → ∃ t, exec (.getMeasurements n nonce) s = .next t ∧ signedAs s t 0x60 (m ++ nonce) ∧
        t.dev.mgmt = s.dev.mgmt) ∧
      (∀ share, ∃ t r, exec (.keyExchange share) s = .next t ∧ signedAs s t 0x64 (r ++ share) ∧
        t.dev.mgmt = { s.dev.mgmt with keyEx := true })) ∧
    (s.dev.mgmt.keyEx = true →
      (∃ t, exec (.spdmFinish true) s = .next t ∧ answeredMgmt s t (.spdm 0x65 []) ∧ t.dev.mgmt = { s.dev.mgmt with keyEx := false, session := true }) ∧
      (∃ t, exec (.spdmFinish false) s = .next t ∧ answeredMgmt s t (.spdm 0x7F (leBytes 1 6)) ∧ t.dev.mgmt = { s.dev.mgmt with keyEx := false })) ∧
    (s.dev.mgmt.session = true → ∃ t, exec .endSession s = .next t ∧ answeredMgmt s t (.spdm 0x6C []) ∧
      t.dev.mgmt = { s.dev.mgmt with session := false }) ∧
    (∀ q ∈ [(Instr.getCapabilities, s.dev.mgmt.version), (.negotiateAlgorithms, s.dev.mgmt.version && s.dev.mgmt.caps),
        (.getDigests, s.dev.negotiated), (.getCertificate 0, s.dev.negotiated), (.challenge 0 [], s.dev.negotiated),
        (.getMeasurements 1 [], s.dev.negotiated), (.keyExchange [], s.dev.negotiated), (.spdmFinish true, s.dev.mgmt.keyEx),
        (.endSession, s.dev.mgmt.session)],
      q.2 = false → ∃ t, exec q.1 s = .next t ∧ answeredMgmt s t (.spdm 0x7F (leBytes 1 4)) ∧ t.dev.mgmt = s.dev.mgmt) ∧
    (s.dev.mgmt.meas5 = [] → s.dev.measurement 5 = some (List.replicate 48 0))

/-- R392, Table 19.6: while power-on reset is not asserted every TAP instruction loads; BYPASS captures 0, IDCODE the device's code, SAMPLE/PRELOAD loads the
boundary register while the device goes on; one that takes the pins over stops the device until BRD, and faults an admitted job with HOST_RESET; REGACC reads
and writes at a local address as JTAG may, and with OTP JTAG mode 1 reads zero with status 0b11. -/
def Obligations.TestAccess : Prop :=
  ∀ (s : State), s.dev.halt ≠ .por →
    (∃ t, exec .bypass s = .next t ∧ devOnly s t ∧ t.dev = { s.dev with out := [.jtag [0]], jtag := { s.dev.jtag with ir := 1, dr := 0 } }) ∧
    (∃ t, exec .idcode s = .next t ∧ devOnly s t ∧
      t.dev = { s.dev with out := [.jtag (leBytes 4 0x112805A3)], jtag := { s.dev.jtag with ir := 2, dr := 0x112805A3 } }) ∧
    (∀ pins, ∃ t, exec (.samplePreload pins) s = .next t ∧ devOnly s t ∧
      t.dev = { s.dev with out := t.dev.out, jtag := { s.dev.jtag with ir := 3, bsr := pins }, free := s.dev.free + 1 }) ∧
    (∀ pins, ∃ t, exec (.extest pins) s = .next t ∧ devOnly s t ∧ t.dev.jtag = { s.dev.jtag with ir := 4, bsr := pins } ∧ t.dev.live = false) ∧
    (∀ q ∈ [(Instr.clamp, 5), (.highz, 6), (.extestPulse, 7), (.extestTrain, 8)],
      ∃ t, exec q.1 s = .next t ∧ devOnly s t ∧ t.dev.jtag = { s.dev.jtag with ir := q.2 } ∧ t.dev.live = false ∧
        (∀ sh, s.dev.live = true → s.dev.admitted = true → s.dev.sheaf = some sh → s.dev.job.faulted = false →
          jobFaulted s t sh { cause := jfHostReset, kind := kHub }) ∧
        (s.dev.admitted = false → t.dev = { s.dev with out := [], jtag := t.dev.jtag, halt := t.dev.halt })) ∧
    (∀ a w v, a < 2 ^ 48 → s.dev.boot.jtagMode = 1 →
      ∃ t, exec (.regacc a w v) s = .next t ∧ devOnly s t ∧
        t.dev = { s.dev with out := [.jtag (leBytes 4 0 ++ leBytes 1 3)], jtag := { s.dev.jtag with ir := 9 } }) ∧
    (∀ a v, s.dev.boot.jtagMode ≠ 1 → s.dev.reach .jtag = true → a % 4 = 0 → s.dev.memServes a 4 = true → a < hbmSize →
      (s.dev.ueIn a 4 = none → ∃ t, exec (.regacc a false v) s = .next t ∧ devOnly s t ∧ dataKept s t ∧ t.dev.out = [.data (s.dev.read a 4)]) ∧
      ((∀ w ∈ partWords a 4, s.dev.eccUE.has w = false) → ∃ t, exec (.regacc a true v) s = .next t ∧ devOnly s t ∧
        t.dev.flags = s.dev.flags ∧ t.dev.ctrs = s.dev.ctrs ∧ (t.dev.invs = [] → t.dev.out = [.ok]) ∧
        (t.dev.invs ≠ [] → t.dev.acks = s.dev.acks ++ [(t.dev.invs, .ok)]) ∧ (s.dev.dir = [] → t.dev.invs = []) ∧
        ∀ y, t.dev.mem.byte y = (Mem.write s.dev.mem a (leBytes 4 (v.toNat % 2 ^ 32))).byte y))

/-! ### The tally -/

/-- R340, R342 to R344, Table 17.2: a sample period of the powered tally adds v·i·125 µs of every channel in service to the channel and to the package,
within a part in 2^32 of a µWh, gives a pulse each 10,000 µWh, and notes an episode over range once; with a bad ROM nothing is metered. The self-test
counts each previous sample once more, takes a failed converter's channel out of service, marks a copy that fails its CRC so that none restores it, and
stops metering on a bad ROM. A pulse ends; an unpowered tally stays. -/
def Obligations.TallyMeters : Prop :=
  ∀ (s : State),
    (∀ c r, (s.tally.deadCh c = true → tallyStep s.tally c r = 0) ∧ (s.tally.deadCh c = false → ∀ p, p = (tlyV (s.tally.cal.getD c .factory) r * tlyLimit c (tlyI c (s.tally.cal.getD c .factory) r)).toNat * 10 →
      p < (tallyStep s.tally c r + 1) * (288 * 2 ^ 74 * 10 ^ 12) ∧ tallyStep s.tally c r * (288 * 2 ^ 74 * 10 ^ 12) < p + 288 * 2 ^ 74 * 10 ^ 12)) ∧
    (∀ rs, s.tally.powered = true → s.tally.romBad = false → ∃ t, exec (.tallySample rs) s = .next t ∧ tallyOnly s t ∧
      metered s.tally t.tally (fun c => tallyStep s.tally c (rs.getD c ⟨0, 0, 0⟩)) ∧
      t.tally.chFault = (s.tally.chFault || (List.range 16).any fun c => overBegins s.tally c (rs.getD c ⟨0, 0, 0⟩)) ∧
      (s.tally.log.length + 16 ≤ 1023 → t.tally.log = s.tally.log ++
        ((List.range 16).filter fun c => overBegins s.tally c (rs.getD c ⟨0, 0, 0⟩)).map fun c => tallyEntry s.tally 0x20 c)) ∧
    (∀ rs, s.tally.powered = true → s.tally.romBad = true → ∃ t, exec (.tallySample rs) s = .next t ∧ tallyOnly s t ∧
      t.tally.energy = s.tally.energy ∧ t.tally.ch = s.tally.ch ∧ t.tally.pulses = s.tally.pulses ∧ t.tally.pulseLow = s.tally.pulseLow) ∧
    (s.tally.powered = true → s.tally.romBad = false → (∀ x ∈ s.tally.nv, x.good = true) → ∃ t, exec (.selftest true [] []) s = .next t ∧ tallyOnly s t ∧
      metered s.tally t.tally (fun c => if s.tally.deadCh c then 0 else (s.tally.chNow.getD c ⟨0, 0, 0, 0⟩).prev) ∧
      t.tally.stFail = s.tally.stFail ∧ t.tally.log = s.tally.log) ∧
    (∀ k, k < 32 → s.tally.powered = true → s.tally.dead.has k = false → (∀ x ∈ s.tally.nv, x.good = true) → s.tally.log.length < 1022 →
      ∃ t, exec (.selftest true [] [k]) s = .next t ∧ tallyOnly s t ∧ t.tally.stFail = true ∧ t.tally.chFault = true ∧ t.tally.deadCh (k / 2) = true ∧
        (∀ c, c ≠ k / 2 → t.tally.deadCh c = s.tally.deadCh c) ∧
        t.tally.log = s.tally.log ++ [tallyEntry s.tally 0x40 (0x100 + k / 2), tallyEntry s.tally 0x21 (k / 2)]) ∧
    (∀ c rest, s.tally.powered = true → s.tally.nv = c :: rest → s.tally.log.length < 1023 →
      ∃ t, exec (.selftest true [0] []) s = .next t ∧ tallyOnly s t ∧ t.tally.stFail = true ∧ t.tally.nv = { c with good := false } :: rest ∧
        t.tally.log = s.tally.log ++ [tallyEntry s.tally 0x40 2]) ∧
    (s.tally.powered = true → (∀ x ∈ s.tally.nv, x.good = true) → s.tally.log.length < 1023 → ∃ t, exec (.selftest false [] []) s = .next t ∧ tallyOnly s t ∧
      t.tally.stFail = true ∧ t.tally.romBad = true ∧ t.tally.pulseLow = false ∧ t.tally.energy = s.tally.energy ∧ t.tally.ch = s.tally.ch ∧
      t.tally.log = s.tally.log ++ [tallyEntry s.tally 0x40 1]) ∧
    (∃ t, exec .pulseEnd s = .next t ∧ tallyOnly s t ∧ t.tally = { s.tally with pulseLow := false }) ∧
    (s.tally.powered = false → ∀ i rs a b c f, i ∈ [Instr.tallySample rs, .nvCopy, .selftest a b c, .tokenFrame f, .powerDown] →
      ∃ t, exec i s = .next t ∧ t.tally = s.tally)

/-- R322, R341, R343, R345, R346, R351: a copy holds energies and time and leaves the newest before it; the fall of VDD_TLY writes one and logs
POWER_DOWN; power-on restores the newest when it is good, logs POWER_UP with its number and, where that copy is not the one of the loss, RESTORE_BAD, and keeps seal,
calibration, log and pulses while the rest takes its Reset value; a bad copy yields to the other and fails the self-test. XIN1 lost and back are logged. -/
def Obligations.TallySupply : Prop :=
  ∀ (s : State),
    (s.tally.powered = true → ∃ t c, exec .nvCopy s = .next t ∧ tallyOnly s t ∧ t.tally = { s.tally with nv := c :: s.tally.nv.take 1, nvSeq := s.tally.nvSeq + 1 } ∧
      c.energy = s.tally.energy ∧ c.ch = s.tally.ch ∧ c.secs = s.tally.secs ∧ c.atLoss = false ∧ c.good = true) ∧
    (s.tally.powered = true → s.tally.log.length < 1023 → ∃ t c, exec .powerDown s = .next t ∧ t.pending = s.pending ∧
      t.tally = { s.tally with
        powered := false, pulseLow := false, sealKey := false, nv := c :: s.tally.nv.take 1, nvSeq := s.tally.nvSeq + 1
        log := s.tally.log ++ [tallyEntry s.tally 0x02 0] } ∧
      c.energy = s.tally.energy ∧ c.ch = s.tally.ch ∧ c.secs = s.tally.secs ∧ c.atLoss = true ∧ c.good = true ∧
      (s.dev.live = true → t.dev.bit TLY_MIRROR_STAT TLY_MIRROR_STAT_LINK = false) ∧ t.dev.clk.xin1 = false) ∧
    (∀ c high, s.tally.powered = false → s.tally.nv.head? = some c → (∀ x ∈ s.tally.nv, x.good = true) → s.tally.log.length < 1022 →
      ∃ t, exec (.powerUp true [] [] high) s = .next t ∧ t.pending = s.pending ∧ t.dev = { s.dev with out := [], clk := { s.dev.clk with xin1 := false } } ∧
        t.tally = { tallyReset with
          energy := c.energy, ch := c.ch, secs := c.secs, restored := true, addrHigh := high
          log := s.tally.log ++ [⟨0x01, c.secs, c.energy / 2 ^ 32, c.seq % 2⟩] ++ (if c.atLoss && decide (c.seq + 1 = s.tally.nvSeq) then [] else [⟨0x03, c.secs, c.energy / 2 ^ 32, s.tally.secs - c.secs⟩])
          lost := s.tally.lost, pulses := s.tally.pulses, cal := s.tally.cal, sealed := s.tally.sealed, xtal := false
          nv := s.tally.nv, nvSeq := s.tally.nvSeq, fwVer := s.tally.fwVer, fwCrc := s.tally.fwCrc }) ∧
    (∀ c b high, s.tally.powered = false → s.tally.nv = [b, c] → c.good = true → s.tally.log.length < 1020 →
      ∃ t, exec (.powerUp true [0] [] high) s = .next t ∧ t.tally.energy = c.energy ∧ t.tally.ch = c.ch ∧ t.tally.secs = c.secs ∧
        t.tally.restored = true ∧ t.tally.stFail = true ∧
        (c.seq + 1 ≠ s.tally.nvSeq → (⟨0x03, c.secs, c.energy / 2 ^ 32, s.tally.secs - c.secs⟩ : TlyEvt) ∈ t.tally.log) ∧ t.tally.log.getLast? = some ⟨0x40, c.secs, c.energy / 2 ^ 32, 2⟩) ∧
    (s.tally.powered = true → s.tally.xtal = true → s.tally.log.length < 1023 → ∃ t, exec .xtalLost s = .next t ∧ t.pending = s.pending ∧
      t.dev = { s.dev with out := [], clk := { s.dev.clk with xin1 := false } } ∧
      t.tally = { s.tally with xtal := false, xtalSecs := 0, log := s.tally.log ++ [tallyEntry s.tally 0x30 0] }) ∧
    (s.tally.powered = true → s.tally.xtal = false → s.tally.log.length < 1023 → ∃ t, exec .xtalBack s = .next t ∧ t.pending = s.pending ∧
      t.dev = { s.dev with out := [], clk := { s.dev.clk with xin1 := true } } ∧
      t.tally = { s.tally with xtal := true, log := s.tally.log ++ [tallyEntry s.tally 0x31 s.tally.xtalSecs] })

/-- R345, R347 to R350, Tables 17.3 to 17.5: I2C reads answer a register's bytes and the PEC; a write with a wrong PEC or length, of a read-only register,
or of calibration that R345 refuses changes no value and is not acknowledged; selections and calibration take an accepted one. The two seal keys in
order blow the fuse. A good token is recorded once, a bad one counted; a good mirror frame shows the tally's registers. -/
def Obligations.TallyPort : Prop :=
  ∀ (s : State),
    (∀ off, s.tally.powered = true → off % 8 = 0 → ∃ t ds pec, exec (.i2cRead s.tally.i2cAddr off 8) s = .next t ∧ devOnly s t ∧
      t.dev = { s.dev with out := [.i2c (ds ++ [pec])] } ∧ ds.length = 8 ∧ leNat ds = s.tally.regv off % 2 ^ 64 ∧
      pec.toNat = crc8 (leBytes 1 (2 * s.tally.i2cAddr) ++ leBytes 2 off ++ leBytes 1 (2 * s.tally.i2cAddr + 1) ++ ds) % 256) ∧
    (∀ addr off bs pec calen, s.tally.powered = true →
      (addr ≠ s.tally.i2cAddr ∨ pec.toNat ≠ crc8 (leBytes 1 (2 * addr) ++ leBytes 2 off ++ bs) ∨ bs.length ≠ 8 ∨
        (tlyRw off = false ∧ (off < 0x100 ∨ 0x200 ≤ off ∨ calen = false ∨ s.tally.sealed = true))) →
      ∃ t, exec (.i2cWrite addr off bs pec calen) s = .next t ∧ t.dev = { s.dev with out := [.nack] } ∧ t.pending = s.pending ∧
        t.tally = { s.tally with calen := calen }) ∧
    (∀ off bs pec calen, s.tally.powered = true → bs.length = 8 → pec.toNat = crc8 (leBytes 1 (2 * s.tally.i2cAddr) ++ leBytes 2 off ++ bs) →
      ((off = 0x60 ∨ off = 0x80 ∨ off = 0xA0) → ∃ t, exec (.i2cWrite s.tally.i2cAddr off bs pec calen) s = .next t ∧ t.dev = { s.dev with out := [.ok] } ∧
        t.pending = s.pending ∧ t.tally = { s.tally with
          calen := calen, sealKey := false
          chSel := if off = 0x60 then leNat bs % 16 else s.tally.chSel
          logSel := if off = 0x80 then leNat bs % 1024 else s.tally.logSel
          annSel := if off = 0xA0 then leNat bs % 4096 else s.tally.annSel }) ∧
      (∀ c k, c < 16 → k < 2 → off = 0x100 + 16 * c + 8 * k → s.tally.cal.length = 16 → calen = true → s.tally.sealed = false → s.tally.log.length < 1023 →
        ∃ t, exec (.i2cWrite s.tally.i2cAddr off bs pec calen) s = .next t ∧ t.dev = { s.dev with out := [.ok] } ∧ t.pending = s.pending ∧
          t.tally = { s.tally with
            calen := true, sealKey := false, cal := t.tally.cal
            log := s.tally.log ++ [tallyEntry s.tally 0x10 (off + t.tally.calCrc * 2 ^ 32)] } ∧
          t.tally.cal.length = 16 ∧ (∀ x, x ≠ c → t.tally.cal[x]? = s.tally.cal[x]?) ∧
          ∀ o, t.tally.cal[c]? = some o → ∀ p, s.tally.cal[c]? = some p →
            o.a.toNat = (if k = 0 then leNat bs else p.a.toNat) ∧ o.b.toNat = if k = 1 then leNat bs else p.b.toNat)) ∧
    (∀ key, s.tally.powered = true → s.tally.sealed = false →
      (s.tally.sealKey = true → key.toNat % 2 ^ 16 = 0x0F5E → s.tally.log.length < 1023 → ∃ t, exec (.tlySealCmd key true) s = .next t ∧ tallyOnly s t ∧
        t.tally = { s.tally with
          calen := true, sealed := true, sealKey := false, log := s.tally.log ++ [tallyEntry s.tally 0x11 (s.tally.calCrc * 2 ^ 32)] }) ∧
      ((s.tally.sealKey = false ∨ key.toNat % 2 ^ 16 ≠ 0x0F5E) → ∃ t, exec (.tlySealCmd key true) s = .next t ∧ tallyOnly s t ∧
        t.tally = { s.tally with calen := true, sealKey := !s.tally.sealKey && key.toNat % 2 ^ 16 == 0x5EA1 })) ∧
    (∃ t, exec .sealKeyTimeout s = .next t ∧ tallyOnly s t ∧ t.tally = { s.tally with sealKey := false }) ∧
    (∀ tb job kind, s.tally.powered = true → s.tally.annRate < 1000 → 1 ≤ kind → kind ≤ 4 → tb < 2 ^ 64 → job < 2 ^ 32 →
      ∀ b, b = leBytes 8 tb ++ leBytes 4 job ++ leBytes 1 kind →
      (∃ t, exec (.tokenFrame (b ++ leBytes 3 (crc32c b))) s = .next t ∧ tallyOnly s t ∧ t.tally = { s.tally with
        ann := (⟨tb, job, kind, s.tally.secs % 2 ^ 24, s.tally.energy / 2 ^ 32⟩ :: s.tally.ann).take 4096
        annCnt := (s.tally.annCnt + 1) % 2 ^ 32, annRate := s.tally.annRate + 1 }) ∧
      ∀ x, x < 2 ^ 24 → x ≠ crc32c b % 2 ^ 24 → ∃ t, exec (.tokenFrame (b ++ leBytes 3 x)) s = .next t ∧ tallyOnly s t ∧
        t.tally = { s.tally with annBad := (s.tally.annBad + 1) % 2 ^ 32 }) ∧
    (s.dev.live = true → s.tally.powered = true → s.dev.busOk = true → ∃ t, exec (.mirrorFrame true) s = .next t ∧ devOnly s t ∧
      (∀ r ∈ mirrored, t.dev.reg r = s.tally.regv r.off % 2 ^ 64) ∧ t.dev.fld TLY_MIRROR_STAT TLY_MIRROR_STAT_LINK = 1 ∧
      t.dev.fld TLY_MIRROR_STAT TLY_MIRROR_STAT_AGE_MS = 0 ∧ t.dev = { s.dev with out := [], regs := t.dev.regs, mgmt := t.dev.mgmt } ∧
      regsAgree (fun o => ∃ r ∈ TLY_MIRROR_STAT :: mirrored, o = r.addr 0 0) s.dev t.dev) ∧
    (s.dev.live = true → ∃ t, exec (.mirrorFrame false) s = .next t ∧ devOnly s t ∧ t.dev = { s.dev with out := [], regs := t.dev.regs } ∧
      t.dev.fld TLY_MIRROR_STAT TLY_MIRROR_STAT_AGE_MS = min (s.dev.fld TLY_MIRROR_STAT TLY_MIRROR_STAT_AGE_MS + 1) 255 ∧
      regsAgree (fun o => o = TLY_MIRROR_STAT.addr 0 0) s.dev t.dev) ∧
    (∀ who v, s.dev.reach who = true → s.dev.busOk = true → ∃ t, exec (.hubTlyToken who v) s = .next t ∧ devOnly s t ∧
      t.dev = { s.dev with out := [.tlyToken s.dev.tb.time (v.toNat % 2 ^ 32) 4, .ok] })

/-! ### The whole machine -/

/-- A step takes the command at the front of the queue and runs it on the state with the queue's rest; with no command waiting one tick of the device
time base passes while it counts and its island is clocked (log entry 2: the model's choice). -/
def Obligations.StepRunsFront : Prop :=
  (∀ (s : State) (i : Instr), step { s with pending := i :: s.pending } = exec i s) ∧
  (∀ (s : State), s.pending = [] → ∃ t, step s = .next t ∧ t.tally = s.tally ∧ t.pending = [] ∧
    t.dev = { s.dev with
      out := [], tb := { s.dev.tb with time := if s.dev.tb.on && !s.dev.gated 172 then (s.dev.tb.time + 1) % 2 ^ 64 else s.dev.tb.time } })

/-- Table 0.3: a command whose operands name units, registers and steps that the device has completes in every state, whatever it finds, and leaves the
commands behind it waiting; any other stops with `noSuchUnit`. -/
def Obligations.WellFormedCompletes : Prop :=
  ∀ (i : Instr) (s : State),
    (i.wf = true → ∃ t, exec i s = .next t ∧ t.pending = s.pending) ∧ (i.wf = false → exec i s = .fault .noSuchUnit)

/-- The invariant of the tally holds at reset (its factory state is log entry 6). -/
def Obligations.TallyWfAtReset : Prop := TallyWf State.reset.tally

/-- R340, R343, R346, R347, R351: every step keeps the invariant of the tally, in which the channel energies sum to the package's: so TLY_ENERGY and the
channels' sum differ by less than 16 µWh. -/
def Obligations.TallyWfKept : Prop :=
  (∀ (s t : State), TallyWf s.tally → step s = .next t → TallyWf t.tally) ∧
  ∀ (t : Tally), TallyWf t → (t.ch.map fun e => e / 2 ^ 32).sum ≤ t.uwh ∧ t.uwh < (t.ch.map fun e => e / 2 ^ 32).sum + 16

/-- R338, R345, R346: no step alters or erases a log entry, takes a pulse back or undoes the seal, and a sealed calibration stays; a command that is none
of the tally's own samples, tests, supply, port and receiver leaves all of the tally as it was. -/
def Obligations.TallyKept : Prop :=
  ∀ (s t : State), step s = .next t → tallyKept s.tally t.tally ∧ ∀ i rest, s.pending = i :: rest → tallyCommand i = false → t.tally = s.tally

/-- R311, R392, R405, Table 18.4 step 6: while a trip, a boundary-scan instruction or an asserted power-on reset stops the device, a command other than BRD
and POR changes no register, no memory and no work: only the tally, what the JTAG port and the clock inputs show, and the flash's trip record. -/
def Obligations.StoppedDevice : Prop :=
  ∀ (s t : State) (i : Instr), s.dev.live = false → exec i s = .next t → (∀ n, i ≠ .resetBrd n) → (∀ g, i ≠ .resetPor g) →
    t.dev = { s.dev with
      out := t.dev.out, boot := { s.dev.boot with trips := t.dev.boot.trips, tripDue := t.dev.boot.tripDue }
      clk := { s.dev.clk with xin0 := t.dev.clk.xin0, xin1 := t.dev.clk.xin1, pcieRef := t.dev.clk.pcieRef }
      pcie := { s.dev.pcie with link := t.dev.pcie.link }, jtag := t.dev.jtag, free := t.dev.free }
end

