-- ==== Sys2Proof/Laws/Bits.lean ====
section
/-! SUPPORT. Bits and fields of numbers. -/
namespace Sys2Proof.Machine
open Sys2Proof

theorem bitOf_eq_testBit (v i : Nat) : bitOf v i = v.testBit i := by
  simp [bitOf, Nat.testBit]

theorem bitsOf_testBit (v lo w i : Nat) : (bitsOf v lo w).testBit i = (decide (i < w) && v.testBit (lo + i)) := by
  rw [bitsOf, Nat.testBit_mod_two_pow, Nat.testBit_shiftRight]

/-- Bits of a number after one of its fields is replaced. -/
theorem setBits_testBit (v lo w x i : Nat) :
    (setBits v lo w x).testBit i = if lo ≤ i ∧ i < lo + w then x.testBit (i - lo) else v.testBit i := by
  have hv : v = 2 ^ lo * (v >>> lo) + v % 2 ^ lo := by rw [Nat.shiftRight_eq_div_pow]; exact (Nat.div_add_mod _ _).symm
  have hh : v >>> lo = 2 ^ w * (v >>> lo / 2 ^ w) + bitsOf v lo w := (Nat.div_add_mod _ _).symm
  have hs : setBits v lo w x = 2 ^ lo * (2 ^ w * (v >>> lo / 2 ^ w) + x % 2 ^ w) + v % 2 ^ lo := by
    unfold setBits
    rw [Nat.shiftLeft_eq, Nat.shiftLeft_eq]
    have e : v = 2 ^ lo * (2 ^ w * (v >>> lo / 2 ^ w)) + bitsOf v lo w * 2 ^ lo + v % 2 ^ lo := by
      conv_lhs => rw [hv, hh]
      ring
    have : v - bitsOf v lo w * 2 ^ lo = 2 ^ lo * (2 ^ w * (v >>> lo / 2 ^ w)) + v % 2 ^ lo := by omega
    rw [this]; ring
  have hl : v % 2 ^ lo < 2 ^ lo := Nat.mod_lt _ (Nat.two_pow_pos _)
  have hx : x % 2 ^ w < 2 ^ w := Nat.mod_lt _ (Nat.two_pow_pos _)
  rw [hs, Nat.testBit_two_pow_mul_add _ hl]
  by_cases h1 : i < lo
  · rw [if_pos h1, if_neg (by omega), Nat.testBit_mod_two_pow]; simp [h1]
  · rw [if_neg h1, Nat.testBit_two_pow_mul_add _ hx]
    by_cases h2 : i - lo < w
    · rw [if_pos h2, if_pos (by omega), Nat.testBit_mod_two_pow]; simp [h2]
    · rw [if_neg h2, if_neg (by omega), Nat.testBit_div_two_pow, Nat.testBit_shiftRight]
      congr 1; omega

theorem bitOf_setBits (v lo w x i : Nat) :
    bitOf (setBits v lo w x) i = if lo ≤ i ∧ i < lo + w then bitOf x (i - lo) else bitOf v i := by
  simp only [bitOf_eq_testBit]; exact setBits_testBit v lo w x i

/-- A field after it is replaced. -/
theorem bitsOf_setBits (v lo w x : Nat) : bitsOf (setBits v lo w x) lo w = x % 2 ^ w := by
  refine Nat.eq_of_testBit_eq fun i => ?_
  rw [bitsOf_testBit, setBits_testBit, Nat.testBit_mod_two_pow]
  by_cases h : i < w
  · rw [if_pos (by omega)]; simp [h]
  · simp [h]

/-- A field after another one is replaced. -/
theorem bitsOf_setBits_ne {v lo w x lo' w' : Nat} (h : lo' + w' ≤ lo ∨ lo + w ≤ lo') : bitsOf (setBits v lo w x) lo' w' = bitsOf v lo' w' := by
  refine Nat.eq_of_testBit_eq fun i => ?_
  rw [bitsOf_testBit, bitsOf_testBit, setBits_testBit]
  by_cases hi : i < w'
  · rw [if_neg (by omega)]
  · simp [hi]

theorem lt_of_testBit {v n : Nat} (h : ∀ i, n ≤ i → v.testBit i = false) : v < 2 ^ n := Nat.lt_pow_two_of_testBit v h

theorem setBits_lt {v lo w x n : Nat} (hw : lo + w ≤ n) (h : v < 2 ^ n) : setBits v lo w x < 2 ^ n := by
  refine lt_of_testBit fun i hi => ?_
  rw [setBits_testBit, if_neg (by omega)]
  exact Nat.testBit_lt_two_pow (Nat.lt_of_lt_of_le h (Nat.pow_le_pow_right (by decide) hi))

end Sys2Proof.Machine
end

