-- ==== Sys2Proof/Laws/Sparse.lean ====
section
/-! SUPPORT. Laws of sparse tables and byte memory: what a read gives after a write, and that every operation keeps the canonical
form. -/
namespace Sys2Proof

/-! ### Find -/

section
variable {α : Type}

@[simp] theorem SMap.find_nil (k : Nat) : SMap.find ([] : SMap α) k = none := rfl

theorem SMap.find_insert_same (k : Nat) (v : α) (m : SMap α) : SMap.find (SMap.insert k v m) k = some v := by
  induction m with
  | nil => simp [SMap.insert, SMap.find]
  | cons p t ih =>
    obtain ⟨a, w⟩ := p
    simp only [SMap.insert]
    split
    · simp [SMap.find]
    · split
      · simp [SMap.find]
      · next h => simp [SMap.find, h, ih]

theorem SMap.find_insert_ne {k x : Nat} (h : x ≠ k) (v : α) (m : SMap α) : SMap.find (SMap.insert k v m) x = SMap.find m x := by
  induction m with
  | nil => simp [SMap.insert, SMap.find, Ne.symm h]
  | cons p t ih =>
    obtain ⟨a, w⟩ := p
    simp only [SMap.insert]
    split
    · simp [SMap.find, Ne.symm h]
    · split
      · next e => subst e; simp [SMap.find, Ne.symm h]
      · simp only [SMap.find, ih]

/-- Dropping entries by a test of the key. -/
theorem SMap.find_filter (q : Nat → Bool) (m : SMap α) (x : Nat) :
    SMap.find (m.filter fun p => q p.1) x = if q x then SMap.find m x else none := by
  induction m with
  | nil => simp
  | cons p t ih =>
    obtain ⟨a, w⟩ := p
    by_cases ha : q a
    · by_cases e : a = x
      · subst e; simp [SMap.find, ha]
      · simp [SMap.find, ha, e, ih]
    · by_cases e : a = x
      · subst e; simp [ha, ih]
      · simp [SMap.find, ha, e, ih]

theorem SMap.find_append (l m : SMap α) (x : Nat) : SMap.find (l ++ m) x = (SMap.find l x).or (SMap.find m x) := by
  induction l with
  | nil => simp
  | cons p t ih =>
    obtain ⟨a, w⟩ := p
    by_cases e : a = x <;> simp [SMap.find, e, ih]

theorem SMap.find_erase_same (m : SMap α) (k : Nat) : SMap.find (SMap.erase m k) k = none := by
  simpa [SMap.erase] using SMap.find_filter (fun a => a != k) m k

theorem SMap.find_erase_ne {k x : Nat} (h : x ≠ k) (m : SMap α) : SMap.find (SMap.erase m k) x = SMap.find m x := by
  simpa [SMap.erase, h] using SMap.find_filter (fun a => a != k) m x

/-! ### Get and put -/

variable [DecidableEq α]

@[simp] theorem SMap.get_put_same (dflt : α) (m : SMap α) (k : Nat) (v : α) : SMap.get dflt (SMap.put dflt m k v) k = v := by
  by_cases h : v = dflt
  · simp [SMap.get, SMap.put, h, SMap.find_erase_same]
  · simp [SMap.get, SMap.put, h, SMap.find_insert_same]

theorem SMap.find_put_ne {k x : Nat} (h : x ≠ k) (dflt : α) (m : SMap α) (v : α) : SMap.find (SMap.put dflt m k v) x = SMap.find m x := by
  unfold SMap.put
  split
  · exact SMap.find_erase_ne h m
  · exact SMap.find_insert_ne h v m

theorem SMap.find_put_same (dflt : α) (m : SMap α) (k : Nat) (v : α) :
    SMap.find (SMap.put dflt m k v) k = if v = dflt then none else some v := by
  unfold SMap.put
  split
  · exact SMap.find_erase_same m k
  · exact SMap.find_insert_same k v m

theorem SMap.get_put_ne {k x : Nat} (h : x ≠ k) (dflt : α) (m : SMap α) (v : α) :
    SMap.get dflt (SMap.put dflt m k v) x = SMap.get dflt m x := by
  simp [SMap.get, SMap.find_put_ne h]

theorem SMap.get_put (dflt : α) (m : SMap α) (k x : Nat) (v : α) :
    SMap.get dflt (SMap.put dflt m k v) x = if x = k then v else SMap.get dflt m x := by
  split
  · next h => subst h; simp
  · next h => exact SMap.get_put_ne h dflt m v

/-! ### The canonical form -/

/-- The canonical form, said of the whole list. -/
def SMap.Canon (dflt : α) (m : SMap α) : Prop := m.Pairwise (fun p q => p.1 < q.1) ∧ ∀ p ∈ m, p.2 ≠ dflt

theorem SMap.wf_iff (dflt : α) (m : SMap α) : SMap.wf dflt m = true ↔ SMap.Canon dflt m := by
  induction m with
  | nil => simp [SMap.wf, SMap.Canon]
  | cons p t ih =>
    obtain ⟨a, v⟩ := p
    cases t with
    | nil => simp [SMap.wf, SMap.Canon]
    | cons q t =>
      obtain ⟨b, w⟩ := q
      simp only [SMap.wf, Bool.and_eq_true, decide_eq_true_eq, ih, SMap.Canon, List.pairwise_cons, List.mem_cons, forall_eq_or_imp]
      constructor
      · rintro ⟨⟨hv, hab⟩, ⟨hb, ht⟩, hw, hd⟩
        exact ⟨⟨⟨hab, fun x hx => lt_trans hab (hb x hx)⟩, hb, ht⟩, hv, hw, hd⟩
      · rintro ⟨⟨⟨hab, -⟩, hb, ht⟩, hv, hw, hd⟩
        exact ⟨⟨hv, hab⟩, ⟨hb, ht⟩, hw, hd⟩

omit [DecidableEq α] in
theorem SMap.Canon.filter {dflt : α} {m : SMap α} (h : SMap.Canon dflt m) (q : Nat × α → Bool) : SMap.Canon dflt (m.filter q) :=
  ⟨h.1.sublist List.filter_sublist, fun p hp => h.2 p (List.mem_of_mem_filter hp)⟩

omit [DecidableEq α] in
theorem SMap.mem_insert {k : Nat} {v : α} {m : SMap α} {p : Nat × α} (h : p ∈ SMap.insert k v m) : p = (k, v) ∨ p ∈ m := by
  induction m with
  | nil => simpa [SMap.insert] using h
  | cons q t ih =>
    obtain ⟨a, w⟩ := q
    simp only [SMap.insert] at h
    split at h
    · simpa using h
    · split at h
      · rcases List.mem_cons.mp h with h | h
        · exact .inl h
        · exact .inr (List.mem_cons_of_mem _ h)
      · rcases List.mem_cons.mp h with h | h
        · exact .inr (h ▸ List.mem_cons_self)
        · rcases ih h with h | h
          · exact .inl h
          · exact .inr (List.mem_cons_of_mem _ h)

omit [DecidableEq α] in
theorem SMap.Canon.insert {dflt : α} {m : SMap α} (h : SMap.Canon dflt m) (k : Nat) {v : α} (hv : v ≠ dflt) :
    SMap.Canon dflt (SMap.insert k v m) := by
  refine ⟨?_, fun p hp => ?_⟩
  · obtain ⟨hs, -⟩ := h
    induction m with
    | nil => simp [SMap.insert]
    | cons q t ih =>
      obtain ⟨a, w⟩ := q
      rw [List.pairwise_cons] at hs
      simp only [SMap.insert]
      split
      · next hk =>
        refine List.pairwise_cons.mpr ⟨fun p hp => ?_, List.pairwise_cons.mpr hs⟩
        rcases List.mem_cons.mp hp with rfl | hp
        · exact hk
        · exact lt_trans hk (hs.1 p hp)
      · split
        · next e => subst e; exact List.pairwise_cons.mpr hs
        · next hk e =>
          refine List.pairwise_cons.mpr ⟨fun p hp => ?_, ih hs.2⟩
          rcases SMap.mem_insert hp with rfl | hp
          · exact lt_of_le_of_ne (Nat.le_of_not_lt hk) e
          · exact hs.1 p hp
  · rcases SMap.mem_insert hp with rfl | hp
    · exact hv
    · exact h.2 p hp

theorem SMap.wf_put {dflt : α} {m : SMap α} (h : SMap.wf dflt m = true) (k : Nat) (v : α) : SMap.wf dflt (SMap.put dflt m k v) = true := by
  rw [SMap.wf_iff] at *
  unfold SMap.put
  split
  · exact h.filter _
  · next hv => exact h.insert k hv

theorem SMap.wf_filter {dflt : α} {m : SMap α} (h : SMap.wf dflt m = true) (q : Nat × α → Bool) : SMap.wf dflt (m.filter q) = true := by
  rw [SMap.wf_iff] at *
  exact h.filter q

end

/-! ### Byte memory -/

theorem Mem.find_cells (x : Nat) : ∀ (bs : List (BitVec 8)) (a : Nat),
    (SMap.find (Mem.cells a bs) x).getD 0 = if a ≤ x ∧ x < a + bs.length then bs.getD (x - a) 0 else 0
  | [], a => by simp [Mem.cells]
  | b :: bs, a => by
    have ih := Mem.find_cells x bs (a + 1)
    by_cases e : x = a
    · subst e
      have hx : ¬ (x + 1 ≤ x ∧ x < x + 1 + bs.length) := by omega
      rw [if_neg hx] at ih
      by_cases hb : b = 0
      · rw [Mem.cells, if_pos hb, ih]; simp [hb]
      · rw [Mem.cells, if_neg hb]; simp [SMap.find]
    · have h1 : (SMap.find (Mem.cells a (b :: bs)) x) = SMap.find (Mem.cells (a + 1) bs) x := by
        by_cases hb : b = 0
        · rw [Mem.cells, if_pos hb]
        · rw [Mem.cells, if_neg hb]; simp [SMap.find, Ne.symm e]
      rw [h1, ih]
      by_cases h : a ≤ x ∧ x < a + (b :: bs).length
      · have h2 : a + 1 ≤ x ∧ x < a + 1 + bs.length := by simp at h; omega
        rw [if_pos h, if_pos h2]
        obtain ⟨n, hn⟩ : ∃ n, x - a = n + 1 := ⟨x - a - 1, by omega⟩
        have h3 : x - (a + 1) = n := by omega
        simp [hn, h3]
      · have h2 : ¬ (a + 1 ≤ x ∧ x < a + 1 + bs.length) := by simp at h; omega
        rw [if_neg h, if_neg h2]

theorem Mem.find_cells_out {x : Nat} {a : Nat} {bs : List (BitVec 8)} (h : ¬ (a ≤ x ∧ x < a + bs.length)) :
    SMap.find (Mem.cells a bs) x = none := by
  induction bs generalizing a with
  | nil => rfl
  | cons b bs ih =>
    have e : a ≠ x := by rintro rfl; simp at h
    have h2 : ¬ (a + 1 ≤ x ∧ x < a + 1 + bs.length) := by simp at h; omega
    by_cases hb : b = 0
    · rw [Mem.cells, if_pos hb]; exact ih h2
    · rw [Mem.cells, if_neg hb]; simp [SMap.find, e, ih h2]

/-- A byte after a write: the byte written, or as before. -/
theorem Mem.byte_write (m : Mem) (a : Nat) (bs : List (BitVec 8)) (x : Nat) :
    (Mem.write m a bs).byte x = if a ≤ x ∧ x < a + bs.length then bs.getD (x - a) 0 else m.byte x := by
  have h1 := SMap.find_filter (fun k => decide (k < a)) m x
  have h2 := SMap.find_filter (fun k => decide (a + bs.length ≤ k)) m x
  have h3 := Mem.find_cells x bs a
  unfold Mem.byte SMap.get Mem.write
  rw [SMap.find_append, SMap.find_append, h1, h2]
  by_cases h : a ≤ x ∧ x < a + bs.length
  · have : ¬ x < a := by omega
    have hy : ¬ a + bs.length ≤ x := by omega
    rw [if_pos h] at h3 ⊢
    simp only [this, hy, decide_false, Bool.false_eq_true, if_false, Option.none_or, Option.or_none, h3]
  · rw [Mem.find_cells_out h, if_neg h]
    by_cases hx : x < a
    · have : ¬ a + bs.length ≤ x := by omega
      simp [hx, this]
    · have : a + bs.length ≤ x := by omega
      simp [hx, this]

theorem Mem.cells_canon : ∀ (bs : List (BitVec 8)) (a : Nat),
    SMap.Canon 0 (Mem.cells a bs) ∧ ∀ p ∈ Mem.cells a bs, a ≤ p.1 ∧ p.1 < a + bs.length
  | [], a => by simp [Mem.cells, SMap.Canon]
  | b :: bs, a => by
    obtain ⟨⟨h1, h2⟩, h3⟩ := Mem.cells_canon bs (a + 1)
    by_cases hb : b = 0
    · simp only [Mem.cells, hb, if_true]
      exact ⟨⟨h1, h2⟩, fun p hp => by have := h3 p hp; simp; omega⟩
    · simp only [Mem.cells, hb, if_false]
      refine ⟨⟨List.pairwise_cons.mpr ⟨fun p hp => by have := h3 p hp; simp; omega, h1⟩, ?_⟩, ?_⟩
      · intro p hp
        rcases List.mem_cons.mp hp with rfl | hp
        · exact hb
        · exact h2 p hp
      · intro p hp
        rcases List.mem_cons.mp hp with rfl | hp
        · simp
        · have := h3 p hp; simp; omega

/-- A write keeps the canonical form. -/
theorem Mem.wf_write {m : Mem} (h : SMap.wf 0 m = true) (a : Nat) (bs : List (BitVec 8)) : SMap.wf 0 (Mem.write m a bs) = true := by
  rw [SMap.wf_iff] at *
  obtain ⟨⟨c1, c2⟩, c3⟩ := Mem.cells_canon bs a
  have f1 := h.filter (fun p => decide (p.1 < a))
  have f2 := h.filter (fun p => decide (a + bs.length ≤ p.1))
  refine ⟨?_, ?_⟩
  · refine List.pairwise_append.mpr ⟨List.pairwise_append.mpr ⟨f1.1, c1, ?_⟩, f2.1, ?_⟩
    · intro p hp q hq
      have := c3 q hq
      have : p.1 < a := by simpa using (List.mem_filter.mp hp).2
      omega
    · intro p hp q hq
      have hq' : a + bs.length ≤ q.1 := by simpa using (List.mem_filter.mp hq).2
      rcases List.mem_append.mp hp with hp | hp
      · have : p.1 < a := by simpa using (List.mem_filter.mp hp).2
        omega
      · have := c3 p hp
        omega
  · intro p hp
    rcases List.mem_append.mp hp with hp | hp
    · rcases List.mem_append.mp hp with hp | hp
      · exact f1.2 p hp
      · exact c2 p hp
    · exact f2.2 p hp

theorem Mem.readFrom_eq : ∀ (n : Nat) (m : Mem) (a : Nat), m.Pairwise (fun p q => p.1 < q.1) → (∀ p ∈ m, a ≤ p.1) →
    Mem.readFrom n m a = (List.range n).map fun i => m.byte (a + i)
  | 0, _, _, _, _ => rfl
  | n + 1, [], a, h, hm => by
    rw [List.range_succ_eq_map, Mem.readFrom, Mem.readFrom_eq n [] (a + 1) List.Pairwise.nil (by simp)]
    simp [Mem.byte, SMap.get, Function.comp_def]
  | n + 1, (k, v) :: t, a, h, hm => by
    rw [List.pairwise_cons] at h
    have hk : a ≤ k := hm _ List.mem_cons_self
    rw [List.range_succ_eq_map]
    by_cases e : k = a
    · subst e
      have ih := Mem.readFrom_eq n t (k + 1) h.2 (fun p hp => h.1 p hp)
      simp only [Mem.readFrom, if_true, ih, List.map_cons, List.map_map, Nat.add_zero]
      refine congrArg₂ _ (by simp [Mem.byte, SMap.get, SMap.find]) (List.map_congr_left fun i _ => ?_)
      have : k ≠ k + (i + 1) := by omega
      have e2 : k + 1 + i = k + (i + 1) := by omega
      simp only [Function.comp, Mem.byte, SMap.get, SMap.find, Nat.succ_eq_add_one, if_neg this, e2]
    · have hm' : ∀ p ∈ (k, v) :: t, a + 1 ≤ p.1 := by
        intro p hp
        rcases List.mem_cons.mp hp with rfl | hp
        · exact Nat.lt_of_le_of_ne hk (Ne.symm e)
        · have := h.1 p hp; simp at this; omega
      have ih := Mem.readFrom_eq n ((k, v) :: t) (a + 1) (List.pairwise_cons.mpr h) hm'
      have hz : Mem.byte ((k, v) :: t) a = 0 := by
        have : SMap.find ((k, v) :: t) a = none := by
          have hf : ∀ l : Mem, (∀ p ∈ l, a + 1 ≤ p.1) → SMap.find l a = none := by
            intro l hl
            induction l with
            | nil => rfl
            | cons p l ih =>
              obtain ⟨b, w⟩ := p
              have : b ≠ a := by have := hl _ List.mem_cons_self; simp at this; omega
              simp [SMap.find, this, ih fun p hp => hl p (List.mem_cons_of_mem _ hp)]
          exact hf _ hm'
        simp [Mem.byte, SMap.get, this]
      simp only [Mem.readFrom, e, if_false, ih, List.map_cons, List.map_map, Nat.add_zero]
      refine congrArg₂ _ hz.symm (List.map_congr_left fun i _ => ?_)
      have e2 : a + 1 + i = a + (i + 1) := by omega
      simp only [Function.comp, Nat.succ_eq_add_one, e2]

/-- A read of a canonical memory, byte by byte. -/
theorem Mem.read_eq {m : Mem} (h : SMap.wf 0 m = true) (a n : Nat) : Mem.read m a n = (List.range n).map fun i => m.byte (a + i) := by
  rw [SMap.wf_iff] at h
  have hs := h.1
  unfold Mem.read
  have hd : (m.dropWhile fun p => decide (p.1 < a)).Pairwise (fun p q => p.1 < q.1) := hs.sublist (List.dropWhile_sublist _)
  have hall : ∀ p ∈ m.dropWhile (fun p => decide (p.1 < a)), a ≤ p.1 := by
    clear h
    induction m with
    | nil => simp
    | cons p t ih =>
      rw [List.pairwise_cons] at hs
      by_cases hp : p.1 < a
      · simp only [List.dropWhile_cons, hp, decide_true, if_true]
        simp only [List.dropWhile_cons, hp, decide_true, if_true] at hd
        exact ih hs.2 hd
      · simp only [List.dropWhile_cons, hp, decide_false]
        intro q hq
        rcases List.mem_cons.mp (by simpa using hq) with rfl | hq
        · omega
        · have := hs.1 q hq; omega
  rw [Mem.readFrom_eq n _ a hd hall]
  refine List.map_congr_left fun i _ => ?_
  clear hd hall h
  unfold Mem.byte SMap.get
  congr 1
  induction m with
  | nil => rfl
  | cons p t ih =>
    obtain ⟨k, v⟩ := p
    rw [List.pairwise_cons] at hs
    by_cases hp : k < a
    · have : k ≠ a + i := by omega
      simp [hp, SMap.find, this, ih hs.2]
    · simp [hp]

/-- A read of what was just written gives it back. -/
theorem Mem.read_write_same {m : Mem} (h : SMap.wf 0 m = true) (a : Nat) (bs : List (BitVec 8)) :
    Mem.read (Mem.write m a bs) a bs.length = bs := by
  rw [Mem.read_eq (Mem.wf_write h a bs)]
  refine List.ext_getElem (by simp) fun i h1 h2 => ?_
  simp [Mem.byte_write, h2]

/-! ### Every operation on memory keeps its canonical form -/

theorem Memory.wf_nil : Memory.wf [] = true := rfl

theorem Memory.wf_write {m : Mem} (h : Memory.wf m = true) (a : Nat) (bs : List (BitVec 8)) : Memory.wf (Mem.write m a bs) = true := Mem.wf_write h a bs

theorem Memory.wf_filter {m : Mem} (h : Memory.wf m = true) (q : Nat × BitVec 8 → Bool) : Memory.wf (m.filter q) = true := SMap.wf_filter h q

theorem Memory.wf_clearRange {m : Mem} (h : Memory.wf m = true) (a n : Nat) : Memory.wf (SMap.clearRange m a n) = true := SMap.wf_filter h _

/-- Two canonical memories with the same bytes are the same list. -/
theorem Memory.ext {m n : Mem} (hm : Memory.wf m = true) (hn : Memory.wf n = true) (h : ∀ a, m.byte a = n.byte a) : m = n := by
  unfold Memory.wf at hm hn
  rw [SMap.wf_iff] at hm hn
  have find_mem : ∀ (l : Mem), SMap.Canon 0 l → ∀ p, p ∈ l ↔ l.byte p.1 = p.2 ∧ p.2 ≠ 0 := by
    intro l
    induction l with
    | nil => intro _ p; simpa [Mem.byte, SMap.get] using fun e => e.symm
    | cons q t ih =>
      obtain ⟨k, v⟩ := q
      intro hl p
      obtain ⟨hs, hd⟩ := hl
      rw [List.pairwise_cons] at hs
      have ht : SMap.Canon 0 t := ⟨hs.2, fun p hp => hd p (List.mem_cons_of_mem _ hp)⟩
      have hv := hd _ List.mem_cons_self
      obtain ⟨a, w⟩ := p
      by_cases e : k = a
      · subst e
        have hn : SMap.find t k = none := by
          by_contra hc
          have hlt : ∀ u : Mem, (∀ p ∈ u, k < p.1) → SMap.find u k = none := by
            intro u hu
            induction u with
            | nil => rfl
            | cons r u ih2 =>
              obtain ⟨b, x⟩ := r
              have : k < b := hu _ List.mem_cons_self
              simp [SMap.find, Nat.ne_of_gt this, ih2 fun p hp => hu p (List.mem_cons_of_mem _ hp)]
          exact hc (hlt t fun p hp => hs.1 p hp)
        constructor
        · intro hp
          rcases List.mem_cons.mp hp with hp | hp
          · cases hp; exact ⟨by simp [Mem.byte, SMap.get, SMap.find], hv⟩
          · exact absurd (hs.1 _ hp) (Nat.lt_irrefl _)
        · rintro ⟨hp, -⟩
          have : w = v := by simpa [Mem.byte, SMap.get, SMap.find] using hp.symm
          subst this; exact List.mem_cons_self
      · have hb : Mem.byte ((k, v) :: t) a = Mem.byte t a := by simp [Mem.byte, SMap.get, SMap.find, e]
        rw [hb, ← ih ht (a, w)]
        constructor
        · intro hp
          rcases List.mem_cons.mp hp with hp | hp
          · cases hp; exact absurd rfl e
          · exact hp
        · exact List.mem_cons_of_mem _
  refine List.Perm.eq_of_pairwise (le := fun p q => p.1 < q.1) ?_ hm.1 hn.1 ?_
  · intro p q _ _ h1 h2; exact absurd (Nat.lt_trans h1 h2) (Nat.lt_irrefl _)
  · refine (List.perm_ext_iff_of_nodup ?_ ?_).mpr fun p => ?_
    · exact hm.1.imp fun {p q} hpq e => by subst e; exact Nat.lt_irrefl _ hpq
    · exact hn.1.imp fun {p q} hpq e => by subst e; exact Nat.lt_irrefl _ hpq
    · rw [find_mem m hm p, find_mem n hn p, h]

end Sys2Proof
end

