-- ==== Sys2Proof/Laws/State.lean ====
section
/-! SUPPORT. One lemma per field and update of the device: an update changes its own field and no other. -/
namespace Sys2Proof.Machine
open Sys2Proof

section
variable (d : Dev)

/-! ### setReg -/
@[simp] theorem Dev.setReg_mem (r : RegDef) (v u i : Nat) : (d.setReg r v u i).mem = d.mem := rfl
@[simp] theorem Dev.setReg_hdrs (r : RegDef) (v u i : Nat) : (d.setReg r v u i).hdrs = d.hdrs := rfl
@[simp] theorem Dev.setReg_eccUE (r : RegDef) (v u i : Nat) : (d.setReg r v u i).eccUE = d.eccUE := rfl
@[simp] theorem Dev.setReg_eccCE (r : RegDef) (v u i : Nat) : (d.setReg r v u i).eccCE = d.eccCE := rfl
@[simp] theorem Dev.setReg_flags (r : RegDef) (v u i : Nat) : (d.setReg r v u i).flags = d.flags := rfl
@[simp] theorem Dev.setReg_ctrs (r : RegDef) (v u i : Nat) : (d.setReg r v u i).ctrs = d.ctrs := rfl
@[simp] theorem Dev.setReg_decls (r : RegDef) (v u i : Nat) : (d.setReg r v u i).decls = d.decls := rfl
@[simp] theorem Dev.setReg_furrows (r : RegDef) (v u i : Nat) : (d.setReg r v u i).furrows = d.furrows := rfl
@[simp] theorem Dev.setReg_waits (r : RegDef) (v u i : Nat) : (d.setReg r v u i).waits = d.waits := rfl
@[simp] theorem Dev.setReg_mxa (r : RegDef) (v u i : Nat) : (d.setReg r v u i).mxa = d.mxa := rfl
@[simp] theorem Dev.setReg_tme (r : RegDef) (v u i : Nat) : (d.setReg r v u i).tme = d.tme := rfl
@[simp] theorem Dev.setReg_l1 (r : RegDef) (v u i : Nat) : (d.setReg r v u i).l1 = d.l1 := rfl
@[simp] theorem Dev.setReg_cplot (r : RegDef) (v u i : Nat) : (d.setReg r v u i).cplot = d.cplot := rfl
@[simp] theorem Dev.setReg_coreCopy (r : RegDef) (v u i : Nat) : (d.setReg r v u i).coreCopy = d.coreCopy := rfl
@[simp] theorem Dev.setReg_dieCopy (r : RegDef) (v u i : Nat) : (d.setReg r v u i).dieCopy = d.dieCopy := rfl
@[simp] theorem Dev.setReg_dir (r : RegDef) (v u i : Nat) : (d.setReg r v u i).dir = d.dir := rfl
@[simp] theorem Dev.setReg_harrow (r : RegDef) (v u i : Nat) : (d.setReg r v u i).harrow = d.harrow := rfl
@[simp] theorem Dev.setReg_seals (r : RegDef) (v u i : Nat) : (d.setReg r v u i).seals = d.seals := rfl
@[simp] theorem Dev.setReg_ls (r : RegDef) (v u i : Nat) : (d.setReg r v u i).ls = d.ls := rfl
@[simp] theorem Dev.setReg_lsLast (r : RegDef) (v u i : Nat) : (d.setReg r v u i).lsLast = d.lsLast := rfl
@[simp] theorem Dev.setReg_gen0 (r : RegDef) (v u i : Nat) : (d.setReg r v u i).gen0 = d.gen0 := rfl
@[simp] theorem Dev.setReg_snap (r : RegDef) (v u i : Nat) : (d.setReg r v u i).snap = d.snap := rfl
@[simp] theorem Dev.setReg_capture (r : RegDef) (v u i : Nat) : (d.setReg r v u i).capture = d.capture := rfl
@[simp] theorem Dev.setReg_ports (r : RegDef) (v u i : Nat) : (d.setReg r v u i).ports = d.ports := rfl
@[simp] theorem Dev.setReg_xacts (r : RegDef) (v u i : Nat) : (d.setReg r v u i).xacts = d.xacts := rfl
@[simp] theorem Dev.setReg_nextXid (r : RegDef) (v u i : Nat) : (d.setReg r v u i).nextXid = d.nextXid := rfl
@[simp] theorem Dev.setReg_acks (r : RegDef) (v u i : Nat) : (d.setReg r v u i).acks = d.acks := rfl
@[simp] theorem Dev.setReg_sheaf (r : RegDef) (v u i : Nat) : (d.setReg r v u i).sheaf = d.sheaf := rfl
@[simp] theorem Dev.setReg_copies (r : RegDef) (v u i : Nat) : (d.setReg r v u i).copies = d.copies := rfl
@[simp] theorem Dev.setReg_job (r : RegDef) (v u i : Nat) : (d.setReg r v u i).job = d.job := rfl
@[simp] theorem Dev.setReg_epoch (r : RegDef) (v u i : Nat) : (d.setReg r v u i).epoch = d.epoch := rfl
@[simp] theorem Dev.setReg_gov (r : RegDef) (v u i : Nat) : (d.setReg r v u i).gov = d.gov := rfl
@[simp] theorem Dev.setReg_clk (r : RegDef) (v u i : Nat) : (d.setReg r v u i).clk = d.clk := rfl
@[simp] theorem Dev.setReg_tb (r : RegDef) (v u i : Nat) : (d.setReg r v u i).tb = d.tb := rfl
@[simp] theorem Dev.setReg_ist (r : RegDef) (v u i : Nat) : (d.setReg r v u i).ist = d.ist := rfl
@[simp] theorem Dev.setReg_selfRef (r : RegDef) (v u i : Nat) : (d.setReg r v u i).selfRef = d.selfRef := rfl
@[simp] theorem Dev.setReg_training (r : RegDef) (v u i : Nat) : (d.setReg r v u i).training = d.training := rfl
@[simp] theorem Dev.setReg_hot (r : RegDef) (v u i : Nat) : (d.setReg r v u i).hot = d.hot := rfl
@[simp] theorem Dev.setReg_rates (r : RegDef) (v u i : Nat) : (d.setReg r v u i).rates = d.rates := rfl
@[simp] theorem Dev.setReg_boot (r : RegDef) (v u i : Nat) : (d.setReg r v u i).boot = d.boot := rfl
@[simp] theorem Dev.setReg_mgmt (r : RegDef) (v u i : Nat) : (d.setReg r v u i).mgmt = d.mgmt := rfl
@[simp] theorem Dev.setReg_jtag (r : RegDef) (v u i : Nat) : (d.setReg r v u i).jtag = d.jtag := rfl
@[simp] theorem Dev.setReg_pcie (r : RegDef) (v u i : Nat) : (d.setReg r v u i).pcie = d.pcie := rfl
@[simp] theorem Dev.setReg_pins (r : RegDef) (v u i : Nat) : (d.setReg r v u i).pins = d.pins := rfl
@[simp] theorem Dev.setReg_halt (r : RegDef) (v u i : Nat) : (d.setReg r v u i).halt = d.halt := rfl
@[simp] theorem Dev.setReg_suspects (r : RegDef) (v u i : Nat) : (d.setReg r v u i).suspects = d.suspects := rfl
@[simp] theorem Dev.setReg_lostTrace (r : RegDef) (v u i : Nat) : (d.setReg r v u i).lostTrace = d.lostTrace := rfl
@[simp] theorem Dev.setReg_out (r : RegDef) (v u i : Nat) : (d.setReg r v u i).out = d.out := rfl
@[simp] theorem Dev.setReg_free (r : RegDef) (v u i : Nat) : (d.setReg r v u i).free = d.free := rfl

/-! ### setFld -/
@[simp] theorem Dev.setFld_mem (r : RegDef) (f : FldDef) (x u i : Nat) : (d.setFld r f x u i).mem = d.mem := rfl
@[simp] theorem Dev.setFld_hdrs (r : RegDef) (f : FldDef) (x u i : Nat) : (d.setFld r f x u i).hdrs = d.hdrs := rfl
@[simp] theorem Dev.setFld_eccUE (r : RegDef) (f : FldDef) (x u i : Nat) : (d.setFld r f x u i).eccUE = d.eccUE := rfl
@[simp] theorem Dev.setFld_eccCE (r : RegDef) (f : FldDef) (x u i : Nat) : (d.setFld r f x u i).eccCE = d.eccCE := rfl
@[simp] theorem Dev.setFld_flags (r : RegDef) (f : FldDef) (x u i : Nat) : (d.setFld r f x u i).flags = d.flags := rfl
@[simp] theorem Dev.setFld_ctrs (r : RegDef) (f : FldDef) (x u i : Nat) : (d.setFld r f x u i).ctrs = d.ctrs := rfl
@[simp] theorem Dev.setFld_decls (r : RegDef) (f : FldDef) (x u i : Nat) : (d.setFld r f x u i).decls = d.decls := rfl
@[simp] theorem Dev.setFld_furrows (r : RegDef) (f : FldDef) (x u i : Nat) : (d.setFld r f x u i).furrows = d.furrows := rfl
@[simp] theorem Dev.setFld_waits (r : RegDef) (f : FldDef) (x u i : Nat) : (d.setFld r f x u i).waits = d.waits := rfl
@[simp] theorem Dev.setFld_mxa (r : RegDef) (f : FldDef) (x u i : Nat) : (d.setFld r f x u i).mxa = d.mxa := rfl
@[simp] theorem Dev.setFld_tme (r : RegDef) (f : FldDef) (x u i : Nat) : (d.setFld r f x u i).tme = d.tme := rfl
@[simp] theorem Dev.setFld_l1 (r : RegDef) (f : FldDef) (x u i : Nat) : (d.setFld r f x u i).l1 = d.l1 := rfl
@[simp] theorem Dev.setFld_cplot (r : RegDef) (f : FldDef) (x u i : Nat) : (d.setFld r f x u i).cplot = d.cplot := rfl
@[simp] theorem Dev.setFld_coreCopy (r : RegDef) (f : FldDef) (x u i : Nat) : (d.setFld r f x u i).coreCopy = d.coreCopy := rfl
@[simp] theorem Dev.setFld_dieCopy (r : RegDef) (f : FldDef) (x u i : Nat) : (d.setFld r f x u i).dieCopy = d.dieCopy := rfl
@[simp] theorem Dev.setFld_dir (r : RegDef) (f : FldDef) (x u i : Nat) : (d.setFld r f x u i).dir = d.dir := rfl
@[simp] theorem Dev.setFld_harrow (r : RegDef) (f : FldDef) (x u i : Nat) : (d.setFld r f x u i).harrow = d.harrow := rfl
@[simp] theorem Dev.setFld_seals (r : RegDef) (f : FldDef) (x u i : Nat) : (d.setFld r f x u i).seals = d.seals := rfl
@[simp] theorem Dev.setFld_ls (r : RegDef) (f : FldDef) (x u i : Nat) : (d.setFld r f x u i).ls = d.ls := rfl
@[simp] theorem Dev.setFld_lsLast (r : RegDef) (f : FldDef) (x u i : Nat) : (d.setFld r f x u i).lsLast = d.lsLast := rfl
@[simp] theorem Dev.setFld_gen0 (r : RegDef) (f : FldDef) (x u i : Nat) : (d.setFld r f x u i).gen0 = d.gen0 := rfl
@[simp] theorem Dev.setFld_snap (r : RegDef) (f : FldDef) (x u i : Nat) : (d.setFld r f x u i).snap = d.snap := rfl
@[simp] theorem Dev.setFld_capture (r : RegDef) (f : FldDef) (x u i : Nat) : (d.setFld r f x u i).capture = d.capture := rfl
@[simp] theorem Dev.setFld_ports (r : RegDef) (f : FldDef) (x u i : Nat) : (d.setFld r f x u i).ports = d.ports := rfl
@[simp] theorem Dev.setFld_xacts (r : RegDef) (f : FldDef) (x u i : Nat) : (d.setFld r f x u i).xacts = d.xacts := rfl
@[simp] theorem Dev.setFld_nextXid (r : RegDef) (f : FldDef) (x u i : Nat) : (d.setFld r f x u i).nextXid = d.nextXid := rfl
@[simp] theorem Dev.setFld_acks (r : RegDef) (f : FldDef) (x u i : Nat) : (d.setFld r f x u i).acks = d.acks := rfl
@[simp] theorem Dev.setFld_sheaf (r : RegDef) (f : FldDef) (x u i : Nat) : (d.setFld r f x u i).sheaf = d.sheaf := rfl
@[simp] theorem Dev.setFld_copies (r : RegDef) (f : FldDef) (x u i : Nat) : (d.setFld r f x u i).copies = d.copies := rfl
@[simp] theorem Dev.setFld_job (r : RegDef) (f : FldDef) (x u i : Nat) : (d.setFld r f x u i).job = d.job := rfl
@[simp] theorem Dev.setFld_epoch (r : RegDef) (f : FldDef) (x u i : Nat) : (d.setFld r f x u i).epoch = d.epoch := rfl
@[simp] theorem Dev.setFld_gov (r : RegDef) (f : FldDef) (x u i : Nat) : (d.setFld r f x u i).gov = d.gov := rfl
@[simp] theorem Dev.setFld_clk (r : RegDef) (f : FldDef) (x u i : Nat) : (d.setFld r f x u i).clk = d.clk := rfl
@[simp] theorem Dev.setFld_tb (r : RegDef) (f : FldDef) (x u i : Nat) : (d.setFld r f x u i).tb = d.tb := rfl
@[simp] theorem Dev.setFld_ist (r : RegDef) (f : FldDef) (x u i : Nat) : (d.setFld r f x u i).ist = d.ist := rfl
@[simp] theorem Dev.setFld_selfRef (r : RegDef) (f : FldDef) (x u i : Nat) : (d.setFld r f x u i).selfRef = d.selfRef := rfl
@[simp] theorem Dev.setFld_training (r : RegDef) (f : FldDef) (x u i : Nat) : (d.setFld r f x u i).training = d.training := rfl
@[simp] theorem Dev.setFld_hot (r : RegDef) (f : FldDef) (x u i : Nat) : (d.setFld r f x u i).hot = d.hot := rfl
@[simp] theorem Dev.setFld_rates (r : RegDef) (f : FldDef) (x u i : Nat) : (d.setFld r f x u i).rates = d.rates := rfl
@[simp] theorem Dev.setFld_boot (r : RegDef) (f : FldDef) (x u i : Nat) : (d.setFld r f x u i).boot = d.boot := rfl
@[simp] theorem Dev.setFld_mgmt (r : RegDef) (f : FldDef) (x u i : Nat) : (d.setFld r f x u i).mgmt = d.mgmt := rfl
@[simp] theorem Dev.setFld_jtag (r : RegDef) (f : FldDef) (x u i : Nat) : (d.setFld r f x u i).jtag = d.jtag := rfl
@[simp] theorem Dev.setFld_pcie (r : RegDef) (f : FldDef) (x u i : Nat) : (d.setFld r f x u i).pcie = d.pcie := rfl
@[simp] theorem Dev.setFld_pins (r : RegDef) (f : FldDef) (x u i : Nat) : (d.setFld r f x u i).pins = d.pins := rfl
@[simp] theorem Dev.setFld_halt (r : RegDef) (f : FldDef) (x u i : Nat) : (d.setFld r f x u i).halt = d.halt := rfl
@[simp] theorem Dev.setFld_suspects (r : RegDef) (f : FldDef) (x u i : Nat) : (d.setFld r f x u i).suspects = d.suspects := rfl
@[simp] theorem Dev.setFld_lostTrace (r : RegDef) (f : FldDef) (x u i : Nat) : (d.setFld r f x u i).lostTrace = d.lostTrace := rfl
@[simp] theorem Dev.setFld_out (r : RegDef) (f : FldDef) (x u i : Nat) : (d.setFld r f x u i).out = d.out := rfl
@[simp] theorem Dev.setFld_free (r : RegDef) (f : FldDef) (x u i : Nat) : (d.setFld r f x u i).free = d.free := rfl

/-! ### stick -/
@[simp] theorem Dev.stick_mem (r : RegDef) (f : FldDef) (n u i : Nat) : (d.stick r f n u i).mem = d.mem := rfl
@[simp] theorem Dev.stick_hdrs (r : RegDef) (f : FldDef) (n u i : Nat) : (d.stick r f n u i).hdrs = d.hdrs := rfl
@[simp] theorem Dev.stick_eccUE (r : RegDef) (f : FldDef) (n u i : Nat) : (d.stick r f n u i).eccUE = d.eccUE := rfl
@[simp] theorem Dev.stick_eccCE (r : RegDef) (f : FldDef) (n u i : Nat) : (d.stick r f n u i).eccCE = d.eccCE := rfl
@[simp] theorem Dev.stick_flags (r : RegDef) (f : FldDef) (n u i : Nat) : (d.stick r f n u i).flags = d.flags := rfl
@[simp] theorem Dev.stick_ctrs (r : RegDef) (f : FldDef) (n u i : Nat) : (d.stick r f n u i).ctrs = d.ctrs := rfl
@[simp] theorem Dev.stick_decls (r : RegDef) (f : FldDef) (n u i : Nat) : (d.stick r f n u i).decls = d.decls := rfl
@[simp] theorem Dev.stick_furrows (r : RegDef) (f : FldDef) (n u i : Nat) : (d.stick r f n u i).furrows = d.furrows := rfl
@[simp] theorem Dev.stick_waits (r : RegDef) (f : FldDef) (n u i : Nat) : (d.stick r f n u i).waits = d.waits := rfl
@[simp] theorem Dev.stick_mxa (r : RegDef) (f : FldDef) (n u i : Nat) : (d.stick r f n u i).mxa = d.mxa := rfl
@[simp] theorem Dev.stick_tme (r : RegDef) (f : FldDef) (n u i : Nat) : (d.stick r f n u i).tme = d.tme := rfl
@[simp] theorem Dev.stick_l1 (r : RegDef) (f : FldDef) (n u i : Nat) : (d.stick r f n u i).l1 = d.l1 := rfl
@[simp] theorem Dev.stick_cplot (r : RegDef) (f : FldDef) (n u i : Nat) : (d.stick r f n u i).cplot = d.cplot := rfl
@[simp] theorem Dev.stick_coreCopy (r : RegDef) (f : FldDef) (n u i : Nat) : (d.stick r f n u i).coreCopy = d.coreCopy := rfl
@[simp] theorem Dev.stick_dieCopy (r : RegDef) (f : FldDef) (n u i : Nat) : (d.stick r f n u i).dieCopy = d.dieCopy := rfl
@[simp] theorem Dev.stick_dir (r : RegDef) (f : FldDef) (n u i : Nat) : (d.stick r f n u i).dir = d.dir := rfl
@[simp] theorem Dev.stick_harrow (r : RegDef) (f : FldDef) (n u i : Nat) : (d.stick r f n u i).harrow = d.harrow := rfl
@[simp] theorem Dev.stick_seals (r : RegDef) (f : FldDef) (n u i : Nat) : (d.stick r f n u i).seals = d.seals := rfl
@[simp] theorem Dev.stick_ls (r : RegDef) (f : FldDef) (n u i : Nat) : (d.stick r f n u i).ls = d.ls := rfl
@[simp] theorem Dev.stick_lsLast (r : RegDef) (f : FldDef) (n u i : Nat) : (d.stick r f n u i).lsLast = d.lsLast := rfl
@[simp] theorem Dev.stick_gen0 (r : RegDef) (f : FldDef) (n u i : Nat) : (d.stick r f n u i).gen0 = d.gen0 := rfl
@[simp] theorem Dev.stick_snap (r : RegDef) (f : FldDef) (n u i : Nat) : (d.stick r f n u i).snap = d.snap := rfl
@[simp] theorem Dev.stick_capture (r : RegDef) (f : FldDef) (n u i : Nat) : (d.stick r f n u i).capture = d.capture := rfl
@[simp] theorem Dev.stick_ports (r : RegDef) (f : FldDef) (n u i : Nat) : (d.stick r f n u i).ports = d.ports := rfl
@[simp] theorem Dev.stick_xacts (r : RegDef) (f : FldDef) (n u i : Nat) : (d.stick r f n u i).xacts = d.xacts := rfl
@[simp] theorem Dev.stick_nextXid (r : RegDef) (f : FldDef) (n u i : Nat) : (d.stick r f n u i).nextXid = d.nextXid := rfl
@[simp] theorem Dev.stick_acks (r : RegDef) (f : FldDef) (n u i : Nat) : (d.stick r f n u i).acks = d.acks := rfl
@[simp] theorem Dev.stick_sheaf (r : RegDef) (f : FldDef) (n u i : Nat) : (d.stick r f n u i).sheaf = d.sheaf := rfl
@[simp] theorem Dev.stick_copies (r : RegDef) (f : FldDef) (n u i : Nat) : (d.stick r f n u i).copies = d.copies := rfl
@[simp] theorem Dev.stick_job (r : RegDef) (f : FldDef) (n u i : Nat) : (d.stick r f n u i).job = d.job := rfl
@[simp] theorem Dev.stick_epoch (r : RegDef) (f : FldDef) (n u i : Nat) : (d.stick r f n u i).epoch = d.epoch := rfl
@[simp] theorem Dev.stick_gov (r : RegDef) (f : FldDef) (n u i : Nat) : (d.stick r f n u i).gov = d.gov := rfl
@[simp] theorem Dev.stick_clk (r : RegDef) (f : FldDef) (n u i : Nat) : (d.stick r f n u i).clk = d.clk := rfl
@[simp] theorem Dev.stick_tb (r : RegDef) (f : FldDef) (n u i : Nat) : (d.stick r f n u i).tb = d.tb := rfl
@[simp] theorem Dev.stick_ist (r : RegDef) (f : FldDef) (n u i : Nat) : (d.stick r f n u i).ist = d.ist := rfl
@[simp] theorem Dev.stick_selfRef (r : RegDef) (f : FldDef) (n u i : Nat) : (d.stick r f n u i).selfRef = d.selfRef := rfl
@[simp] theorem Dev.stick_training (r : RegDef) (f : FldDef) (n u i : Nat) : (d.stick r f n u i).training = d.training := rfl
@[simp] theorem Dev.stick_hot (r : RegDef) (f : FldDef) (n u i : Nat) : (d.stick r f n u i).hot = d.hot := rfl
@[simp] theorem Dev.stick_rates (r : RegDef) (f : FldDef) (n u i : Nat) : (d.stick r f n u i).rates = d.rates := rfl
@[simp] theorem Dev.stick_boot (r : RegDef) (f : FldDef) (n u i : Nat) : (d.stick r f n u i).boot = d.boot := rfl
@[simp] theorem Dev.stick_mgmt (r : RegDef) (f : FldDef) (n u i : Nat) : (d.stick r f n u i).mgmt = d.mgmt := rfl
@[simp] theorem Dev.stick_jtag (r : RegDef) (f : FldDef) (n u i : Nat) : (d.stick r f n u i).jtag = d.jtag := rfl
@[simp] theorem Dev.stick_pcie (r : RegDef) (f : FldDef) (n u i : Nat) : (d.stick r f n u i).pcie = d.pcie := rfl
@[simp] theorem Dev.stick_pins (r : RegDef) (f : FldDef) (n u i : Nat) : (d.stick r f n u i).pins = d.pins := rfl
@[simp] theorem Dev.stick_halt (r : RegDef) (f : FldDef) (n u i : Nat) : (d.stick r f n u i).halt = d.halt := rfl
@[simp] theorem Dev.stick_suspects (r : RegDef) (f : FldDef) (n u i : Nat) : (d.stick r f n u i).suspects = d.suspects := rfl
@[simp] theorem Dev.stick_lostTrace (r : RegDef) (f : FldDef) (n u i : Nat) : (d.stick r f n u i).lostTrace = d.lostTrace := rfl
@[simp] theorem Dev.stick_out (r : RegDef) (f : FldDef) (n u i : Nat) : (d.stick r f n u i).out = d.out := rfl
@[simp] theorem Dev.stick_free (r : RegDef) (f : FldDef) (n u i : Nat) : (d.stick r f n u i).free = d.free := rfl

/-! ### bump -/
@[simp] theorem Dev.bump_mem (r : RegDef) (f : FldDef) (n u i : Nat) : (d.bump r f n u i).mem = d.mem := rfl
@[simp] theorem Dev.bump_hdrs (r : RegDef) (f : FldDef) (n u i : Nat) : (d.bump r f n u i).hdrs = d.hdrs := rfl
@[simp] theorem Dev.bump_eccUE (r : RegDef) (f : FldDef) (n u i : Nat) : (d.bump r f n u i).eccUE = d.eccUE := rfl
@[simp] theorem Dev.bump_eccCE (r : RegDef) (f : FldDef) (n u i : Nat) : (d.bump r f n u i).eccCE = d.eccCE := rfl
@[simp] theorem Dev.bump_flags (r : RegDef) (f : FldDef) (n u i : Nat) : (d.bump r f n u i).flags = d.flags := rfl
@[simp] theorem Dev.bump_ctrs (r : RegDef) (f : FldDef) (n u i : Nat) : (d.bump r f n u i).ctrs = d.ctrs := rfl
@[simp] theorem Dev.bump_decls (r : RegDef) (f : FldDef) (n u i : Nat) : (d.bump r f n u i).decls = d.decls := rfl
@[simp] theorem Dev.bump_furrows (r : RegDef) (f : FldDef) (n u i : Nat) : (d.bump r f n u i).furrows = d.furrows := rfl
@[simp] theorem Dev.bump_waits (r : RegDef) (f : FldDef) (n u i : Nat) : (d.bump r f n u i).waits = d.waits := rfl
@[simp] theorem Dev.bump_mxa (r : RegDef) (f : FldDef) (n u i : Nat) : (d.bump r f n u i).mxa = d.mxa := rfl
@[simp] theorem Dev.bump_tme (r : RegDef) (f : FldDef) (n u i : Nat) : (d.bump r f n u i).tme = d.tme := rfl
@[simp] theorem Dev.bump_l1 (r : RegDef) (f : FldDef) (n u i : Nat) : (d.bump r f n u i).l1 = d.l1 := rfl
@[simp] theorem Dev.bump_cplot (r : RegDef) (f : FldDef) (n u i : Nat) : (d.bump r f n u i).cplot = d.cplot := rfl
@[simp] theorem Dev.bump_coreCopy (r : RegDef) (f : FldDef) (n u i : Nat) : (d.bump r f n u i).coreCopy = d.coreCopy := rfl
@[simp] theorem Dev.bump_dieCopy (r : RegDef) (f : FldDef) (n u i : Nat) : (d.bump r f n u i).dieCopy = d.dieCopy := rfl
@[simp] theorem Dev.bump_dir (r : RegDef) (f : FldDef) (n u i : Nat) : (d.bump r f n u i).dir = d.dir := rfl
@[simp] theorem Dev.bump_harrow (r : RegDef) (f : FldDef) (n u i : Nat) : (d.bump r f n u i).harrow = d.harrow := rfl
@[simp] theorem Dev.bump_seals (r : RegDef) (f : FldDef) (n u i : Nat) : (d.bump r f n u i).seals = d.seals := rfl
@[simp] theorem Dev.bump_ls (r : RegDef) (f : FldDef) (n u i : Nat) : (d.bump r f n u i).ls = d.ls := rfl
@[simp] theorem Dev.bump_lsLast (r : RegDef) (f : FldDef) (n u i : Nat) : (d.bump r f n u i).lsLast = d.lsLast := rfl
@[simp] theorem Dev.bump_gen0 (r : RegDef) (f : FldDef) (n u i : Nat) : (d.bump r f n u i).gen0 = d.gen0 := rfl
@[simp] theorem Dev.bump_snap (r : RegDef) (f : FldDef) (n u i : Nat) : (d.bump r f n u i).snap = d.snap := rfl
@[simp] theorem Dev.bump_capture (r : RegDef) (f : FldDef) (n u i : Nat) : (d.bump r f n u i).capture = d.capture := rfl
@[simp] theorem Dev.bump_ports (r : RegDef) (f : FldDef) (n u i : Nat) : (d.bump r f n u i).ports = d.ports := rfl
@[simp] theorem Dev.bump_xacts (r : RegDef) (f : FldDef) (n u i : Nat) : (d.bump r f n u i).xacts = d.xacts := rfl
@[simp] theorem Dev.bump_nextXid (r : RegDef) (f : FldDef) (n u i : Nat) : (d.bump r f n u i).nextXid = d.nextXid := rfl
@[simp] theorem Dev.bump_acks (r : RegDef) (f : FldDef) (n u i : Nat) : (d.bump r f n u i).acks = d.acks := rfl
@[simp] theorem Dev.bump_sheaf (r : RegDef) (f : FldDef) (n u i : Nat) : (d.bump r f n u i).sheaf = d.sheaf := rfl
@[simp] theorem Dev.bump_copies (r : RegDef) (f : FldDef) (n u i : Nat) : (d.bump r f n u i).copies = d.copies := rfl
@[simp] theorem Dev.bump_job (r : RegDef) (f : FldDef) (n u i : Nat) : (d.bump r f n u i).job = d.job := rfl
@[simp] theorem Dev.bump_epoch (r : RegDef) (f : FldDef) (n u i : Nat) : (d.bump r f n u i).epoch = d.epoch := rfl
@[simp] theorem Dev.bump_gov (r : RegDef) (f : FldDef) (n u i : Nat) : (d.bump r f n u i).gov = d.gov := rfl
@[simp] theorem Dev.bump_clk (r : RegDef) (f : FldDef) (n u i : Nat) : (d.bump r f n u i).clk = d.clk := rfl
@[simp] theorem Dev.bump_tb (r : RegDef) (f : FldDef) (n u i : Nat) : (d.bump r f n u i).tb = d.tb := rfl
@[simp] theorem Dev.bump_ist (r : RegDef) (f : FldDef) (n u i : Nat) : (d.bump r f n u i).ist = d.ist := rfl
@[simp] theorem Dev.bump_selfRef (r : RegDef) (f : FldDef) (n u i : Nat) : (d.bump r f n u i).selfRef = d.selfRef := rfl
@[simp] theorem Dev.bump_training (r : RegDef) (f : FldDef) (n u i : Nat) : (d.bump r f n u i).training = d.training := rfl
@[simp] theorem Dev.bump_hot (r : RegDef) (f : FldDef) (n u i : Nat) : (d.bump r f n u i).hot = d.hot := rfl
@[simp] theorem Dev.bump_rates (r : RegDef) (f : FldDef) (n u i : Nat) : (d.bump r f n u i).rates = d.rates := rfl
@[simp] theorem Dev.bump_boot (r : RegDef) (f : FldDef) (n u i : Nat) : (d.bump r f n u i).boot = d.boot := rfl
@[simp] theorem Dev.bump_mgmt (r : RegDef) (f : FldDef) (n u i : Nat) : (d.bump r f n u i).mgmt = d.mgmt := rfl
@[simp] theorem Dev.bump_jtag (r : RegDef) (f : FldDef) (n u i : Nat) : (d.bump r f n u i).jtag = d.jtag := rfl
@[simp] theorem Dev.bump_pcie (r : RegDef) (f : FldDef) (n u i : Nat) : (d.bump r f n u i).pcie = d.pcie := rfl
@[simp] theorem Dev.bump_pins (r : RegDef) (f : FldDef) (n u i : Nat) : (d.bump r f n u i).pins = d.pins := rfl
@[simp] theorem Dev.bump_halt (r : RegDef) (f : FldDef) (n u i : Nat) : (d.bump r f n u i).halt = d.halt := rfl
@[simp] theorem Dev.bump_suspects (r : RegDef) (f : FldDef) (n u i : Nat) : (d.bump r f n u i).suspects = d.suspects := rfl
@[simp] theorem Dev.bump_lostTrace (r : RegDef) (f : FldDef) (n u i : Nat) : (d.bump r f n u i).lostTrace = d.lostTrace := rfl
@[simp] theorem Dev.bump_out (r : RegDef) (f : FldDef) (n u i : Nat) : (d.bump r f n u i).out = d.out := rfl
@[simp] theorem Dev.bump_free (r : RegDef) (f : FldDef) (n u i : Nat) : (d.bump r f n u i).free = d.free := rfl

/-! ### emit -/
@[simp] theorem Dev.emit_regs (o : Out) : (d.emit o).regs = d.regs := rfl
@[simp] theorem Dev.emit_mem (o : Out) : (d.emit o).mem = d.mem := rfl
@[simp] theorem Dev.emit_hdrs (o : Out) : (d.emit o).hdrs = d.hdrs := rfl
@[simp] theorem Dev.emit_eccUE (o : Out) : (d.emit o).eccUE = d.eccUE := rfl
@[simp] theorem Dev.emit_eccCE (o : Out) : (d.emit o).eccCE = d.eccCE := rfl
@[simp] theorem Dev.emit_flags (o : Out) : (d.emit o).flags = d.flags := rfl
@[simp] theorem Dev.emit_ctrs (o : Out) : (d.emit o).ctrs = d.ctrs := rfl
@[simp] theorem Dev.emit_decls (o : Out) : (d.emit o).decls = d.decls := rfl
@[simp] theorem Dev.emit_furrows (o : Out) : (d.emit o).furrows = d.furrows := rfl
@[simp] theorem Dev.emit_waits (o : Out) : (d.emit o).waits = d.waits := rfl
@[simp] theorem Dev.emit_mxa (o : Out) : (d.emit o).mxa = d.mxa := rfl
@[simp] theorem Dev.emit_tme (o : Out) : (d.emit o).tme = d.tme := rfl
@[simp] theorem Dev.emit_l1 (o : Out) : (d.emit o).l1 = d.l1 := rfl
@[simp] theorem Dev.emit_cplot (o : Out) : (d.emit o).cplot = d.cplot := rfl
@[simp] theorem Dev.emit_coreCopy (o : Out) : (d.emit o).coreCopy = d.coreCopy := rfl
@[simp] theorem Dev.emit_dieCopy (o : Out) : (d.emit o).dieCopy = d.dieCopy := rfl
@[simp] theorem Dev.emit_dir (o : Out) : (d.emit o).dir = d.dir := rfl
@[simp] theorem Dev.emit_harrow (o : Out) : (d.emit o).harrow = d.harrow := rfl
@[simp] theorem Dev.emit_seals (o : Out) : (d.emit o).seals = d.seals := rfl
@[simp] theorem Dev.emit_ls (o : Out) : (d.emit o).ls = d.ls := rfl
@[simp] theorem Dev.emit_lsLast (o : Out) : (d.emit o).lsLast = d.lsLast := rfl
@[simp] theorem Dev.emit_gen0 (o : Out) : (d.emit o).gen0 = d.gen0 := rfl
@[simp] theorem Dev.emit_snap (o : Out) : (d.emit o).snap = d.snap := rfl
@[simp] theorem Dev.emit_capture (o : Out) : (d.emit o).capture = d.capture := rfl
@[simp] theorem Dev.emit_ports (o : Out) : (d.emit o).ports = d.ports := rfl
@[simp] theorem Dev.emit_xacts (o : Out) : (d.emit o).xacts = d.xacts := rfl
@[simp] theorem Dev.emit_nextXid (o : Out) : (d.emit o).nextXid = d.nextXid := rfl
@[simp] theorem Dev.emit_acks (o : Out) : (d.emit o).acks = d.acks := rfl
@[simp] theorem Dev.emit_sheaf (o : Out) : (d.emit o).sheaf = d.sheaf := rfl
@[simp] theorem Dev.emit_copies (o : Out) : (d.emit o).copies = d.copies := rfl
@[simp] theorem Dev.emit_job (o : Out) : (d.emit o).job = d.job := rfl
@[simp] theorem Dev.emit_epoch (o : Out) : (d.emit o).epoch = d.epoch := rfl
@[simp] theorem Dev.emit_gov (o : Out) : (d.emit o).gov = d.gov := rfl
@[simp] theorem Dev.emit_clk (o : Out) : (d.emit o).clk = d.clk := rfl
@[simp] theorem Dev.emit_tb (o : Out) : (d.emit o).tb = d.tb := rfl
@[simp] theorem Dev.emit_ist (o : Out) : (d.emit o).ist = d.ist := rfl
@[simp] theorem Dev.emit_selfRef (o : Out) : (d.emit o).selfRef = d.selfRef := rfl
@[simp] theorem Dev.emit_training (o : Out) : (d.emit o).training = d.training := rfl
@[simp] theorem Dev.emit_hot (o : Out) : (d.emit o).hot = d.hot := rfl
@[simp] theorem Dev.emit_rates (o : Out) : (d.emit o).rates = d.rates := rfl
@[simp] theorem Dev.emit_boot (o : Out) : (d.emit o).boot = d.boot := rfl
@[simp] theorem Dev.emit_mgmt (o : Out) : (d.emit o).mgmt = d.mgmt := rfl
@[simp] theorem Dev.emit_jtag (o : Out) : (d.emit o).jtag = d.jtag := rfl
@[simp] theorem Dev.emit_pcie (o : Out) : (d.emit o).pcie = d.pcie := rfl
@[simp] theorem Dev.emit_pins (o : Out) : (d.emit o).pins = d.pins := rfl
@[simp] theorem Dev.emit_halt (o : Out) : (d.emit o).halt = d.halt := rfl
@[simp] theorem Dev.emit_suspects (o : Out) : (d.emit o).suspects = d.suspects := rfl
@[simp] theorem Dev.emit_lostTrace (o : Out) : (d.emit o).lostTrace = d.lostTrace := rfl
@[simp] theorem Dev.emit_free (o : Out) : (d.emit o).free = d.free := rfl

/-! ### fresh -/
@[simp] theorem Dev.fresh_regs : (d.fresh).regs = d.regs := rfl
@[simp] theorem Dev.fresh_mem : (d.fresh).mem = d.mem := rfl
@[simp] theorem Dev.fresh_hdrs : (d.fresh).hdrs = d.hdrs := rfl
@[simp] theorem Dev.fresh_eccUE : (d.fresh).eccUE = d.eccUE := rfl
@[simp] theorem Dev.fresh_eccCE : (d.fresh).eccCE = d.eccCE := rfl
@[simp] theorem Dev.fresh_flags : (d.fresh).flags = d.flags := rfl
@[simp] theorem Dev.fresh_ctrs : (d.fresh).ctrs = d.ctrs := rfl
@[simp] theorem Dev.fresh_decls : (d.fresh).decls = d.decls := rfl
@[simp] theorem Dev.fresh_furrows : (d.fresh).furrows = d.furrows := rfl
@[simp] theorem Dev.fresh_waits : (d.fresh).waits = d.waits := rfl
@[simp] theorem Dev.fresh_mxa : (d.fresh).mxa = d.mxa := rfl
@[simp] theorem Dev.fresh_tme : (d.fresh).tme = d.tme := rfl
@[simp] theorem Dev.fresh_l1 : (d.fresh).l1 = d.l1 := rfl
@[simp] theorem Dev.fresh_cplot : (d.fresh).cplot = d.cplot := rfl
@[simp] theorem Dev.fresh_coreCopy : (d.fresh).coreCopy = d.coreCopy := rfl
@[simp] theorem Dev.fresh_dieCopy : (d.fresh).dieCopy = d.dieCopy := rfl
@[simp] theorem Dev.fresh_dir : (d.fresh).dir = d.dir := rfl
@[simp] theorem Dev.fresh_harrow : (d.fresh).harrow = d.harrow := rfl
@[simp] theorem Dev.fresh_seals : (d.fresh).seals = d.seals := rfl
@[simp] theorem Dev.fresh_ls : (d.fresh).ls = d.ls := rfl
@[simp] theorem Dev.fresh_lsLast : (d.fresh).lsLast = d.lsLast := rfl
@[simp] theorem Dev.fresh_gen0 : (d.fresh).gen0 = d.gen0 := rfl
@[simp] theorem Dev.fresh_snap : (d.fresh).snap = d.snap := rfl
@[simp] theorem Dev.fresh_capture : (d.fresh).capture = d.capture := rfl
@[simp] theorem Dev.fresh_ports : (d.fresh).ports = d.ports := rfl
@[simp] theorem Dev.fresh_xacts : (d.fresh).xacts = d.xacts := rfl
@[simp] theorem Dev.fresh_nextXid : (d.fresh).nextXid = d.nextXid := rfl
@[simp] theorem Dev.fresh_acks : (d.fresh).acks = d.acks := rfl
@[simp] theorem Dev.fresh_sheaf : (d.fresh).sheaf = d.sheaf := rfl
@[simp] theorem Dev.fresh_copies : (d.fresh).copies = d.copies := rfl
@[simp] theorem Dev.fresh_job : (d.fresh).job = d.job := rfl
@[simp] theorem Dev.fresh_epoch : (d.fresh).epoch = d.epoch := rfl
@[simp] theorem Dev.fresh_gov : (d.fresh).gov = d.gov := rfl
@[simp] theorem Dev.fresh_clk : (d.fresh).clk = d.clk := rfl
@[simp] theorem Dev.fresh_tb : (d.fresh).tb = d.tb := rfl
@[simp] theorem Dev.fresh_ist : (d.fresh).ist = d.ist := rfl
@[simp] theorem Dev.fresh_selfRef : (d.fresh).selfRef = d.selfRef := rfl
@[simp] theorem Dev.fresh_training : (d.fresh).training = d.training := rfl
@[simp] theorem Dev.fresh_hot : (d.fresh).hot = d.hot := rfl
@[simp] theorem Dev.fresh_rates : (d.fresh).rates = d.rates := rfl
@[simp] theorem Dev.fresh_boot : (d.fresh).boot = d.boot := rfl
@[simp] theorem Dev.fresh_mgmt : (d.fresh).mgmt = d.mgmt := rfl
@[simp] theorem Dev.fresh_jtag : (d.fresh).jtag = d.jtag := rfl
@[simp] theorem Dev.fresh_pcie : (d.fresh).pcie = d.pcie := rfl
@[simp] theorem Dev.fresh_pins : (d.fresh).pins = d.pins := rfl
@[simp] theorem Dev.fresh_halt : (d.fresh).halt = d.halt := rfl
@[simp] theorem Dev.fresh_suspects : (d.fresh).suspects = d.suspects := rfl
@[simp] theorem Dev.fresh_lostTrace : (d.fresh).lostTrace = d.lostTrace := rfl
@[simp] theorem Dev.fresh_out : (d.fresh).out = d.out := rfl

/-! ### setFrw -/
@[simp] theorem Dev.setFrw_regs (f : Nat) (x : Furrow) : (d.setFrw f x).regs = d.regs := rfl
@[simp] theorem Dev.setFrw_mem (f : Nat) (x : Furrow) : (d.setFrw f x).mem = d.mem := rfl
@[simp] theorem Dev.setFrw_hdrs (f : Nat) (x : Furrow) : (d.setFrw f x).hdrs = d.hdrs := rfl
@[simp] theorem Dev.setFrw_eccUE (f : Nat) (x : Furrow) : (d.setFrw f x).eccUE = d.eccUE := rfl
@[simp] theorem Dev.setFrw_eccCE (f : Nat) (x : Furrow) : (d.setFrw f x).eccCE = d.eccCE := rfl
@[simp] theorem Dev.setFrw_flags (f : Nat) (x : Furrow) : (d.setFrw f x).flags = d.flags := rfl
@[simp] theorem Dev.setFrw_ctrs (f : Nat) (x : Furrow) : (d.setFrw f x).ctrs = d.ctrs := rfl
@[simp] theorem Dev.setFrw_decls (f : Nat) (x : Furrow) : (d.setFrw f x).decls = d.decls := rfl
@[simp] theorem Dev.setFrw_waits (f : Nat) (x : Furrow) : (d.setFrw f x).waits = d.waits := rfl
@[simp] theorem Dev.setFrw_mxa (f : Nat) (x : Furrow) : (d.setFrw f x).mxa = d.mxa := rfl
@[simp] theorem Dev.setFrw_tme (f : Nat) (x : Furrow) : (d.setFrw f x).tme = d.tme := rfl
@[simp] theorem Dev.setFrw_l1 (f : Nat) (x : Furrow) : (d.setFrw f x).l1 = d.l1 := rfl
@[simp] theorem Dev.setFrw_cplot (f : Nat) (x : Furrow) : (d.setFrw f x).cplot = d.cplot := rfl
@[simp] theorem Dev.setFrw_coreCopy (f : Nat) (x : Furrow) : (d.setFrw f x).coreCopy = d.coreCopy := rfl
@[simp] theorem Dev.setFrw_dieCopy (f : Nat) (x : Furrow) : (d.setFrw f x).dieCopy = d.dieCopy := rfl
@[simp] theorem Dev.setFrw_dir (f : Nat) (x : Furrow) : (d.setFrw f x).dir = d.dir := rfl
@[simp] theorem Dev.setFrw_harrow (f : Nat) (x : Furrow) : (d.setFrw f x).harrow = d.harrow := rfl
@[simp] theorem Dev.setFrw_seals (f : Nat) (x : Furrow) : (d.setFrw f x).seals = d.seals := rfl
@[simp] theorem Dev.setFrw_ls (f : Nat) (x : Furrow) : (d.setFrw f x).ls = d.ls := rfl
@[simp] theorem Dev.setFrw_lsLast (f : Nat) (x : Furrow) : (d.setFrw f x).lsLast = d.lsLast := rfl
@[simp] theorem Dev.setFrw_gen0 (f : Nat) (x : Furrow) : (d.setFrw f x).gen0 = d.gen0 := rfl
@[simp] theorem Dev.setFrw_snap (f : Nat) (x : Furrow) : (d.setFrw f x).snap = d.snap := rfl
@[simp] theorem Dev.setFrw_capture (f : Nat) (x : Furrow) : (d.setFrw f x).capture = d.capture := rfl
@[simp] theorem Dev.setFrw_ports (f : Nat) (x : Furrow) : (d.setFrw f x).ports = d.ports := rfl
@[simp] theorem Dev.setFrw_xacts (f : Nat) (x : Furrow) : (d.setFrw f x).xacts = d.xacts := rfl
@[simp] theorem Dev.setFrw_nextXid (f : Nat) (x : Furrow) : (d.setFrw f x).nextXid = d.nextXid := rfl
@[simp] theorem Dev.setFrw_acks (f : Nat) (x : Furrow) : (d.setFrw f x).acks = d.acks := rfl
@[simp] theorem Dev.setFrw_sheaf (f : Nat) (x : Furrow) : (d.setFrw f x).sheaf = d.sheaf := rfl
@[simp] theorem Dev.setFrw_copies (f : Nat) (x : Furrow) : (d.setFrw f x).copies = d.copies := rfl
@[simp] theorem Dev.setFrw_job (f : Nat) (x : Furrow) : (d.setFrw f x).job = d.job := rfl
@[simp] theorem Dev.setFrw_epoch (f : Nat) (x : Furrow) : (d.setFrw f x).epoch = d.epoch := rfl
@[simp] theorem Dev.setFrw_gov (f : Nat) (x : Furrow) : (d.setFrw f x).gov = d.gov := rfl
@[simp] theorem Dev.setFrw_clk (f : Nat) (x : Furrow) : (d.setFrw f x).clk = d.clk := rfl
@[simp] theorem Dev.setFrw_tb (f : Nat) (x : Furrow) : (d.setFrw f x).tb = d.tb := rfl
@[simp] theorem Dev.setFrw_ist (f : Nat) (x : Furrow) : (d.setFrw f x).ist = d.ist := rfl
@[simp] theorem Dev.setFrw_selfRef (f : Nat) (x : Furrow) : (d.setFrw f x).selfRef = d.selfRef := rfl
@[simp] theorem Dev.setFrw_training (f : Nat) (x : Furrow) : (d.setFrw f x).training = d.training := rfl
@[simp] theorem Dev.setFrw_hot (f : Nat) (x : Furrow) : (d.setFrw f x).hot = d.hot := rfl
@[simp] theorem Dev.setFrw_rates (f : Nat) (x : Furrow) : (d.setFrw f x).rates = d.rates := rfl
@[simp] theorem Dev.setFrw_boot (f : Nat) (x : Furrow) : (d.setFrw f x).boot = d.boot := rfl
@[simp] theorem Dev.setFrw_mgmt (f : Nat) (x : Furrow) : (d.setFrw f x).mgmt = d.mgmt := rfl
@[simp] theorem Dev.setFrw_jtag (f : Nat) (x : Furrow) : (d.setFrw f x).jtag = d.jtag := rfl
@[simp] theorem Dev.setFrw_pcie (f : Nat) (x : Furrow) : (d.setFrw f x).pcie = d.pcie := rfl
@[simp] theorem Dev.setFrw_pins (f : Nat) (x : Furrow) : (d.setFrw f x).pins = d.pins := rfl
@[simp] theorem Dev.setFrw_halt (f : Nat) (x : Furrow) : (d.setFrw f x).halt = d.halt := rfl
@[simp] theorem Dev.setFrw_suspects (f : Nat) (x : Furrow) : (d.setFrw f x).suspects = d.suspects := rfl
@[simp] theorem Dev.setFrw_lostTrace (f : Nat) (x : Furrow) : (d.setFrw f x).lostTrace = d.lostTrace := rfl
@[simp] theorem Dev.setFrw_out (f : Nat) (x : Furrow) : (d.setFrw f x).out = d.out := rfl
@[simp] theorem Dev.setFrw_free (f : Nat) (x : Furrow) : (d.setFrw f x).free = d.free := rfl

/-! ### setFr -/
@[simp] theorem Dev.setFr_mem (f : Nat) (r : RegDef) (v : Nat) : (d.setFr f r v).mem = d.mem := rfl
@[simp] theorem Dev.setFr_hdrs (f : Nat) (r : RegDef) (v : Nat) : (d.setFr f r v).hdrs = d.hdrs := rfl
@[simp] theorem Dev.setFr_eccUE (f : Nat) (r : RegDef) (v : Nat) : (d.setFr f r v).eccUE = d.eccUE := rfl
@[simp] theorem Dev.setFr_eccCE (f : Nat) (r : RegDef) (v : Nat) : (d.setFr f r v).eccCE = d.eccCE := rfl
@[simp] theorem Dev.setFr_flags (f : Nat) (r : RegDef) (v : Nat) : (d.setFr f r v).flags = d.flags := rfl
@[simp] theorem Dev.setFr_ctrs (f : Nat) (r : RegDef) (v : Nat) : (d.setFr f r v).ctrs = d.ctrs := rfl
@[simp] theorem Dev.setFr_decls (f : Nat) (r : RegDef) (v : Nat) : (d.setFr f r v).decls = d.decls := rfl
@[simp] theorem Dev.setFr_furrows (f : Nat) (r : RegDef) (v : Nat) : (d.setFr f r v).furrows = d.furrows := rfl
@[simp] theorem Dev.setFr_waits (f : Nat) (r : RegDef) (v : Nat) : (d.setFr f r v).waits = d.waits := rfl
@[simp] theorem Dev.setFr_mxa (f : Nat) (r : RegDef) (v : Nat) : (d.setFr f r v).mxa = d.mxa := rfl
@[simp] theorem Dev.setFr_tme (f : Nat) (r : RegDef) (v : Nat) : (d.setFr f r v).tme = d.tme := rfl
@[simp] theorem Dev.setFr_l1 (f : Nat) (r : RegDef) (v : Nat) : (d.setFr f r v).l1 = d.l1 := rfl
@[simp] theorem Dev.setFr_cplot (f : Nat) (r : RegDef) (v : Nat) : (d.setFr f r v).cplot = d.cplot := rfl
@[simp] theorem Dev.setFr_coreCopy (f : Nat) (r : RegDef) (v : Nat) : (d.setFr f r v).coreCopy = d.coreCopy := rfl
@[simp] theorem Dev.setFr_dieCopy (f : Nat) (r : RegDef) (v : Nat) : (d.setFr f r v).dieCopy = d.dieCopy := rfl
@[simp] theorem Dev.setFr_dir (f : Nat) (r : RegDef) (v : Nat) : (d.setFr f r v).dir = d.dir := rfl
@[simp] theorem Dev.setFr_harrow (f : Nat) (r : RegDef) (v : Nat) : (d.setFr f r v).harrow = d.harrow := rfl
@[simp] theorem Dev.setFr_seals (f : Nat) (r : RegDef) (v : Nat) : (d.setFr f r v).seals = d.seals := rfl
@[simp] theorem Dev.setFr_ls (f : Nat) (r : RegDef) (v : Nat) : (d.setFr f r v).ls = d.ls := rfl
@[simp] theorem Dev.setFr_lsLast (f : Nat) (r : RegDef) (v : Nat) : (d.setFr f r v).lsLast = d.lsLast := rfl
@[simp] theorem Dev.setFr_gen0 (f : Nat) (r : RegDef) (v : Nat) : (d.setFr f r v).gen0 = d.gen0 := rfl
@[simp] theorem Dev.setFr_snap (f : Nat) (r : RegDef) (v : Nat) : (d.setFr f r v).snap = d.snap := rfl
@[simp] theorem Dev.setFr_capture (f : Nat) (r : RegDef) (v : Nat) : (d.setFr f r v).capture = d.capture := rfl
@[simp] theorem Dev.setFr_ports (f : Nat) (r : RegDef) (v : Nat) : (d.setFr f r v).ports = d.ports := rfl
@[simp] theorem Dev.setFr_xacts (f : Nat) (r : RegDef) (v : Nat) : (d.setFr f r v).xacts = d.xacts := rfl
@[simp] theorem Dev.setFr_nextXid (f : Nat) (r : RegDef) (v : Nat) : (d.setFr f r v).nextXid = d.nextXid := rfl
@[simp] theorem Dev.setFr_acks (f : Nat) (r : RegDef) (v : Nat) : (d.setFr f r v).acks = d.acks := rfl
@[simp] theorem Dev.setFr_sheaf (f : Nat) (r : RegDef) (v : Nat) : (d.setFr f r v).sheaf = d.sheaf := rfl
@[simp] theorem Dev.setFr_copies (f : Nat) (r : RegDef) (v : Nat) : (d.setFr f r v).copies = d.copies := rfl
@[simp] theorem Dev.setFr_job (f : Nat) (r : RegDef) (v : Nat) : (d.setFr f r v).job = d.job := rfl
@[simp] theorem Dev.setFr_epoch (f : Nat) (r : RegDef) (v : Nat) : (d.setFr f r v).epoch = d.epoch := rfl
@[simp] theorem Dev.setFr_gov (f : Nat) (r : RegDef) (v : Nat) : (d.setFr f r v).gov = d.gov := rfl
@[simp] theorem Dev.setFr_clk (f : Nat) (r : RegDef) (v : Nat) : (d.setFr f r v).clk = d.clk := rfl
@[simp] theorem Dev.setFr_tb (f : Nat) (r : RegDef) (v : Nat) : (d.setFr f r v).tb = d.tb := rfl
@[simp] theorem Dev.setFr_ist (f : Nat) (r : RegDef) (v : Nat) : (d.setFr f r v).ist = d.ist := rfl
@[simp] theorem Dev.setFr_selfRef (f : Nat) (r : RegDef) (v : Nat) : (d.setFr f r v).selfRef = d.selfRef := rfl
@[simp] theorem Dev.setFr_training (f : Nat) (r : RegDef) (v : Nat) : (d.setFr f r v).training = d.training := rfl
@[simp] theorem Dev.setFr_hot (f : Nat) (r : RegDef) (v : Nat) : (d.setFr f r v).hot = d.hot := rfl
@[simp] theorem Dev.setFr_rates (f : Nat) (r : RegDef) (v : Nat) : (d.setFr f r v).rates = d.rates := rfl
@[simp] theorem Dev.setFr_boot (f : Nat) (r : RegDef) (v : Nat) : (d.setFr f r v).boot = d.boot := rfl
@[simp] theorem Dev.setFr_mgmt (f : Nat) (r : RegDef) (v : Nat) : (d.setFr f r v).mgmt = d.mgmt := rfl
@[simp] theorem Dev.setFr_jtag (f : Nat) (r : RegDef) (v : Nat) : (d.setFr f r v).jtag = d.jtag := rfl
@[simp] theorem Dev.setFr_pcie (f : Nat) (r : RegDef) (v : Nat) : (d.setFr f r v).pcie = d.pcie := rfl
@[simp] theorem Dev.setFr_pins (f : Nat) (r : RegDef) (v : Nat) : (d.setFr f r v).pins = d.pins := rfl
@[simp] theorem Dev.setFr_halt (f : Nat) (r : RegDef) (v : Nat) : (d.setFr f r v).halt = d.halt := rfl
@[simp] theorem Dev.setFr_suspects (f : Nat) (r : RegDef) (v : Nat) : (d.setFr f r v).suspects = d.suspects := rfl
@[simp] theorem Dev.setFr_lostTrace (f : Nat) (r : RegDef) (v : Nat) : (d.setFr f r v).lostTrace = d.lostTrace := rfl
@[simp] theorem Dev.setFr_out (f : Nat) (r : RegDef) (v : Nat) : (d.setFr f r v).out = d.out := rfl
@[simp] theorem Dev.setFr_free (f : Nat) (r : RegDef) (v : Nat) : (d.setFr f r v).free = d.free := rfl

/-! ### setFf -/
@[simp] theorem Dev.setFf_mem (f : Nat) (r : RegDef) (x : FldDef) (v : Nat) : (d.setFf f r x v).mem = d.mem := rfl
@[simp] theorem Dev.setFf_hdrs (f : Nat) (r : RegDef) (x : FldDef) (v : Nat) : (d.setFf f r x v).hdrs = d.hdrs := rfl
@[simp] theorem Dev.setFf_eccUE (f : Nat) (r : RegDef) (x : FldDef) (v : Nat) : (d.setFf f r x v).eccUE = d.eccUE := rfl
@[simp] theorem Dev.setFf_eccCE (f : Nat) (r : RegDef) (x : FldDef) (v : Nat) : (d.setFf f r x v).eccCE = d.eccCE := rfl
@[simp] theorem Dev.setFf_flags (f : Nat) (r : RegDef) (x : FldDef) (v : Nat) : (d.setFf f r x v).flags = d.flags := rfl
@[simp] theorem Dev.setFf_ctrs (f : Nat) (r : RegDef) (x : FldDef) (v : Nat) : (d.setFf f r x v).ctrs = d.ctrs := rfl
@[simp] theorem Dev.setFf_decls (f : Nat) (r : RegDef) (x : FldDef) (v : Nat) : (d.setFf f r x v).decls = d.decls := rfl
@[simp] theorem Dev.setFf_furrows (f : Nat) (r : RegDef) (x : FldDef) (v : Nat) : (d.setFf f r x v).furrows = d.furrows := rfl
@[simp] theorem Dev.setFf_waits (f : Nat) (r : RegDef) (x : FldDef) (v : Nat) : (d.setFf f r x v).waits = d.waits := rfl
@[simp] theorem Dev.setFf_mxa (f : Nat) (r : RegDef) (x : FldDef) (v : Nat) : (d.setFf f r x v).mxa = d.mxa := rfl
@[simp] theorem Dev.setFf_tme (f : Nat) (r : RegDef) (x : FldDef) (v : Nat) : (d.setFf f r x v).tme = d.tme := rfl
@[simp] theorem Dev.setFf_l1 (f : Nat) (r : RegDef) (x : FldDef) (v : Nat) : (d.setFf f r x v).l1 = d.l1 := rfl
@[simp] theorem Dev.setFf_cplot (f : Nat) (r : RegDef) (x : FldDef) (v : Nat) : (d.setFf f r x v).cplot = d.cplot := rfl
@[simp] theorem Dev.setFf_coreCopy (f : Nat) (r : RegDef) (x : FldDef) (v : Nat) : (d.setFf f r x v).coreCopy = d.coreCopy := rfl
@[simp] theorem Dev.setFf_dieCopy (f : Nat) (r : RegDef) (x : FldDef) (v : Nat) : (d.setFf f r x v).dieCopy = d.dieCopy := rfl
@[simp] theorem Dev.setFf_dir (f : Nat) (r : RegDef) (x : FldDef) (v : Nat) : (d.setFf f r x v).dir = d.dir := rfl
@[simp] theorem Dev.setFf_harrow (f : Nat) (r : RegDef) (x : FldDef) (v : Nat) : (d.setFf f r x v).harrow = d.harrow := rfl
@[simp] theorem Dev.setFf_seals (f : Nat) (r : RegDef) (x : FldDef) (v : Nat) : (d.setFf f r x v).seals = d.seals := rfl
@[simp] theorem Dev.setFf_ls (f : Nat) (r : RegDef) (x : FldDef) (v : Nat) : (d.setFf f r x v).ls = d.ls := rfl
@[simp] theorem Dev.setFf_lsLast (f : Nat) (r : RegDef) (x : FldDef) (v : Nat) : (d.setFf f r x v).lsLast = d.lsLast := rfl
@[simp] theorem Dev.setFf_gen0 (f : Nat) (r : RegDef) (x : FldDef) (v : Nat) : (d.setFf f r x v).gen0 = d.gen0 := rfl
@[simp] theorem Dev.setFf_snap (f : Nat) (r : RegDef) (x : FldDef) (v : Nat) : (d.setFf f r x v).snap = d.snap := rfl
@[simp] theorem Dev.setFf_capture (f : Nat) (r : RegDef) (x : FldDef) (v : Nat) : (d.setFf f r x v).capture = d.capture := rfl
@[simp] theorem Dev.setFf_ports (f : Nat) (r : RegDef) (x : FldDef) (v : Nat) : (d.setFf f r x v).ports = d.ports := rfl
@[simp] theorem Dev.setFf_xacts (f : Nat) (r : RegDef) (x : FldDef) (v : Nat) : (d.setFf f r x v).xacts = d.xacts := rfl
@[simp] theorem Dev.setFf_nextXid (f : Nat) (r : RegDef) (x : FldDef) (v : Nat) : (d.setFf f r x v).nextXid = d.nextXid := rfl
@[simp] theorem Dev.setFf_acks (f : Nat) (r : RegDef) (x : FldDef) (v : Nat) : (d.setFf f r x v).acks = d.acks := rfl
@[simp] theorem Dev.setFf_sheaf (f : Nat) (r : RegDef) (x : FldDef) (v : Nat) : (d.setFf f r x v).sheaf = d.sheaf := rfl
@[simp] theorem Dev.setFf_copies (f : Nat) (r : RegDef) (x : FldDef) (v : Nat) : (d.setFf f r x v).copies = d.copies := rfl
@[simp] theorem Dev.setFf_job (f : Nat) (r : RegDef) (x : FldDef) (v : Nat) : (d.setFf f r x v).job = d.job := rfl
@[simp] theorem Dev.setFf_epoch (f : Nat) (r : RegDef) (x : FldDef) (v : Nat) : (d.setFf f r x v).epoch = d.epoch := rfl
@[simp] theorem Dev.setFf_gov (f : Nat) (r : RegDef) (x : FldDef) (v : Nat) : (d.setFf f r x v).gov = d.gov := rfl
@[simp] theorem Dev.setFf_clk (f : Nat) (r : RegDef) (x : FldDef) (v : Nat) : (d.setFf f r x v).clk = d.clk := rfl
@[simp] theorem Dev.setFf_tb (f : Nat) (r : RegDef) (x : FldDef) (v : Nat) : (d.setFf f r x v).tb = d.tb := rfl
@[simp] theorem Dev.setFf_ist (f : Nat) (r : RegDef) (x : FldDef) (v : Nat) : (d.setFf f r x v).ist = d.ist := rfl
@[simp] theorem Dev.setFf_selfRef (f : Nat) (r : RegDef) (x : FldDef) (v : Nat) : (d.setFf f r x v).selfRef = d.selfRef := rfl
@[simp] theorem Dev.setFf_training (f : Nat) (r : RegDef) (x : FldDef) (v : Nat) : (d.setFf f r x v).training = d.training := rfl
@[simp] theorem Dev.setFf_hot (f : Nat) (r : RegDef) (x : FldDef) (v : Nat) : (d.setFf f r x v).hot = d.hot := rfl
@[simp] theorem Dev.setFf_rates (f : Nat) (r : RegDef) (x : FldDef) (v : Nat) : (d.setFf f r x v).rates = d.rates := rfl
@[simp] theorem Dev.setFf_boot (f : Nat) (r : RegDef) (x : FldDef) (v : Nat) : (d.setFf f r x v).boot = d.boot := rfl
@[simp] theorem Dev.setFf_mgmt (f : Nat) (r : RegDef) (x : FldDef) (v : Nat) : (d.setFf f r x v).mgmt = d.mgmt := rfl
@[simp] theorem Dev.setFf_jtag (f : Nat) (r : RegDef) (x : FldDef) (v : Nat) : (d.setFf f r x v).jtag = d.jtag := rfl
@[simp] theorem Dev.setFf_pcie (f : Nat) (r : RegDef) (x : FldDef) (v : Nat) : (d.setFf f r x v).pcie = d.pcie := rfl
@[simp] theorem Dev.setFf_pins (f : Nat) (r : RegDef) (x : FldDef) (v : Nat) : (d.setFf f r x v).pins = d.pins := rfl
@[simp] theorem Dev.setFf_halt (f : Nat) (r : RegDef) (x : FldDef) (v : Nat) : (d.setFf f r x v).halt = d.halt := rfl
@[simp] theorem Dev.setFf_suspects (f : Nat) (r : RegDef) (x : FldDef) (v : Nat) : (d.setFf f r x v).suspects = d.suspects := rfl
@[simp] theorem Dev.setFf_lostTrace (f : Nat) (r : RegDef) (x : FldDef) (v : Nat) : (d.setFf f r x v).lostTrace = d.lostTrace := rfl
@[simp] theorem Dev.setFf_out (f : Nat) (r : RegDef) (x : FldDef) (v : Nat) : (d.setFf f r x v).out = d.out := rfl
@[simp] theorem Dev.setFf_free (f : Nat) (r : RegDef) (x : FldDef) (v : Nat) : (d.setFf f r x v).free = d.free := rfl

/-! ### setCore -/
@[simp] theorem Dev.setCore_regs (c : Nat) (t : Tme) : (d.setCore c t).regs = d.regs := rfl
@[simp] theorem Dev.setCore_mem (c : Nat) (t : Tme) : (d.setCore c t).mem = d.mem := rfl
@[simp] theorem Dev.setCore_hdrs (c : Nat) (t : Tme) : (d.setCore c t).hdrs = d.hdrs := rfl
@[simp] theorem Dev.setCore_eccUE (c : Nat) (t : Tme) : (d.setCore c t).eccUE = d.eccUE := rfl
@[simp] theorem Dev.setCore_eccCE (c : Nat) (t : Tme) : (d.setCore c t).eccCE = d.eccCE := rfl
@[simp] theorem Dev.setCore_flags (c : Nat) (t : Tme) : (d.setCore c t).flags = d.flags := rfl
@[simp] theorem Dev.setCore_ctrs (c : Nat) (t : Tme) : (d.setCore c t).ctrs = d.ctrs := rfl
@[simp] theorem Dev.setCore_decls (c : Nat) (t : Tme) : (d.setCore c t).decls = d.decls := rfl
@[simp] theorem Dev.setCore_furrows (c : Nat) (t : Tme) : (d.setCore c t).furrows = d.furrows := rfl
@[simp] theorem Dev.setCore_waits (c : Nat) (t : Tme) : (d.setCore c t).waits = d.waits := rfl
@[simp] theorem Dev.setCore_mxa (c : Nat) (t : Tme) : (d.setCore c t).mxa = d.mxa := rfl
@[simp] theorem Dev.setCore_l1 (c : Nat) (t : Tme) : (d.setCore c t).l1 = d.l1 := rfl
@[simp] theorem Dev.setCore_cplot (c : Nat) (t : Tme) : (d.setCore c t).cplot = d.cplot := rfl
@[simp] theorem Dev.setCore_coreCopy (c : Nat) (t : Tme) : (d.setCore c t).coreCopy = d.coreCopy := rfl
@[simp] theorem Dev.setCore_dieCopy (c : Nat) (t : Tme) : (d.setCore c t).dieCopy = d.dieCopy := rfl
@[simp] theorem Dev.setCore_dir (c : Nat) (t : Tme) : (d.setCore c t).dir = d.dir := rfl
@[simp] theorem Dev.setCore_harrow (c : Nat) (t : Tme) : (d.setCore c t).harrow = d.harrow := rfl
@[simp] theorem Dev.setCore_seals (c : Nat) (t : Tme) : (d.setCore c t).seals = d.seals := rfl
@[simp] theorem Dev.setCore_ls (c : Nat) (t : Tme) : (d.setCore c t).ls = d.ls := rfl
@[simp] theorem Dev.setCore_lsLast (c : Nat) (t : Tme) : (d.setCore c t).lsLast = d.lsLast := rfl
@[simp] theorem Dev.setCore_gen0 (c : Nat) (t : Tme) : (d.setCore c t).gen0 = d.gen0 := rfl
@[simp] theorem Dev.setCore_snap (c : Nat) (t : Tme) : (d.setCore c t).snap = d.snap := rfl
@[simp] theorem Dev.setCore_capture (c : Nat) (t : Tme) : (d.setCore c t).capture = d.capture := rfl
@[simp] theorem Dev.setCore_ports (c : Nat) (t : Tme) : (d.setCore c t).ports = d.ports := rfl
@[simp] theorem Dev.setCore_xacts (c : Nat) (t : Tme) : (d.setCore c t).xacts = d.xacts := rfl
@[simp] theorem Dev.setCore_nextXid (c : Nat) (t : Tme) : (d.setCore c t).nextXid = d.nextXid := rfl
@[simp] theorem Dev.setCore_acks (c : Nat) (t : Tme) : (d.setCore c t).acks = d.acks := rfl
@[simp] theorem Dev.setCore_sheaf (c : Nat) (t : Tme) : (d.setCore c t).sheaf = d.sheaf := rfl
@[simp] theorem Dev.setCore_copies (c : Nat) (t : Tme) : (d.setCore c t).copies = d.copies := rfl
@[simp] theorem Dev.setCore_job (c : Nat) (t : Tme) : (d.setCore c t).job = d.job := rfl
@[simp] theorem Dev.setCore_epoch (c : Nat) (t : Tme) : (d.setCore c t).epoch = d.epoch := rfl
@[simp] theorem Dev.setCore_gov (c : Nat) (t : Tme) : (d.setCore c t).gov = d.gov := rfl
@[simp] theorem Dev.setCore_clk (c : Nat) (t : Tme) : (d.setCore c t).clk = d.clk := rfl
@[simp] theorem Dev.setCore_tb (c : Nat) (t : Tme) : (d.setCore c t).tb = d.tb := rfl
@[simp] theorem Dev.setCore_ist (c : Nat) (t : Tme) : (d.setCore c t).ist = d.ist := rfl
@[simp] theorem Dev.setCore_selfRef (c : Nat) (t : Tme) : (d.setCore c t).selfRef = d.selfRef := rfl
@[simp] theorem Dev.setCore_training (c : Nat) (t : Tme) : (d.setCore c t).training = d.training := rfl
@[simp] theorem Dev.setCore_hot (c : Nat) (t : Tme) : (d.setCore c t).hot = d.hot := rfl
@[simp] theorem Dev.setCore_rates (c : Nat) (t : Tme) : (d.setCore c t).rates = d.rates := rfl
@[simp] theorem Dev.setCore_boot (c : Nat) (t : Tme) : (d.setCore c t).boot = d.boot := rfl
@[simp] theorem Dev.setCore_mgmt (c : Nat) (t : Tme) : (d.setCore c t).mgmt = d.mgmt := rfl
@[simp] theorem Dev.setCore_jtag (c : Nat) (t : Tme) : (d.setCore c t).jtag = d.jtag := rfl
@[simp] theorem Dev.setCore_pcie (c : Nat) (t : Tme) : (d.setCore c t).pcie = d.pcie := rfl
@[simp] theorem Dev.setCore_pins (c : Nat) (t : Tme) : (d.setCore c t).pins = d.pins := rfl
@[simp] theorem Dev.setCore_halt (c : Nat) (t : Tme) : (d.setCore c t).halt = d.halt := rfl
@[simp] theorem Dev.setCore_suspects (c : Nat) (t : Tme) : (d.setCore c t).suspects = d.suspects := rfl
@[simp] theorem Dev.setCore_lostTrace (c : Nat) (t : Tme) : (d.setCore c t).lostTrace = d.lostTrace := rfl
@[simp] theorem Dev.setCore_out (c : Nat) (t : Tme) : (d.setCore c t).out = d.out := rfl
@[simp] theorem Dev.setCore_free (c : Nat) (t : Tme) : (d.setCore c t).free = d.free := rfl

/-! ### setMx -/
@[simp] theorem Dev.setMx_regs (c : Nat) (x : Mxa) : (d.setMx c x).regs = d.regs := rfl
@[simp] theorem Dev.setMx_mem (c : Nat) (x : Mxa) : (d.setMx c x).mem = d.mem := rfl
@[simp] theorem Dev.setMx_hdrs (c : Nat) (x : Mxa) : (d.setMx c x).hdrs = d.hdrs := rfl
@[simp] theorem Dev.setMx_eccUE (c : Nat) (x : Mxa) : (d.setMx c x).eccUE = d.eccUE := rfl
@[simp] theorem Dev.setMx_eccCE (c : Nat) (x : Mxa) : (d.setMx c x).eccCE = d.eccCE := rfl
@[simp] theorem Dev.setMx_flags (c : Nat) (x : Mxa) : (d.setMx c x).flags = d.flags := rfl
@[simp] theorem Dev.setMx_ctrs (c : Nat) (x : Mxa) : (d.setMx c x).ctrs = d.ctrs := rfl
@[simp] theorem Dev.setMx_decls (c : Nat) (x : Mxa) : (d.setMx c x).decls = d.decls := rfl
@[simp] theorem Dev.setMx_furrows (c : Nat) (x : Mxa) : (d.setMx c x).furrows = d.furrows := rfl
@[simp] theorem Dev.setMx_waits (c : Nat) (x : Mxa) : (d.setMx c x).waits = d.waits := rfl
@[simp] theorem Dev.setMx_tme (c : Nat) (x : Mxa) : (d.setMx c x).tme = d.tme := rfl
@[simp] theorem Dev.setMx_l1 (c : Nat) (x : Mxa) : (d.setMx c x).l1 = d.l1 := rfl
@[simp] theorem Dev.setMx_cplot (c : Nat) (x : Mxa) : (d.setMx c x).cplot = d.cplot := rfl
@[simp] theorem Dev.setMx_coreCopy (c : Nat) (x : Mxa) : (d.setMx c x).coreCopy = d.coreCopy := rfl
@[simp] theorem Dev.setMx_dieCopy (c : Nat) (x : Mxa) : (d.setMx c x).dieCopy = d.dieCopy := rfl
@[simp] theorem Dev.setMx_dir (c : Nat) (x : Mxa) : (d.setMx c x).dir = d.dir := rfl
@[simp] theorem Dev.setMx_harrow (c : Nat) (x : Mxa) : (d.setMx c x).harrow = d.harrow := rfl
@[simp] theorem Dev.setMx_seals (c : Nat) (x : Mxa) : (d.setMx c x).seals = d.seals := rfl
@[simp] theorem Dev.setMx_ls (c : Nat) (x : Mxa) : (d.setMx c x).ls = d.ls := rfl
@[simp] theorem Dev.setMx_lsLast (c : Nat) (x : Mxa) : (d.setMx c x).lsLast = d.lsLast := rfl
@[simp] theorem Dev.setMx_gen0 (c : Nat) (x : Mxa) : (d.setMx c x).gen0 = d.gen0 := rfl
@[simp] theorem Dev.setMx_snap (c : Nat) (x : Mxa) : (d.setMx c x).snap = d.snap := rfl
@[simp] theorem Dev.setMx_capture (c : Nat) (x : Mxa) : (d.setMx c x).capture = d.capture := rfl
@[simp] theorem Dev.setMx_ports (c : Nat) (x : Mxa) : (d.setMx c x).ports = d.ports := rfl
@[simp] theorem Dev.setMx_xacts (c : Nat) (x : Mxa) : (d.setMx c x).xacts = d.xacts := rfl
@[simp] theorem Dev.setMx_nextXid (c : Nat) (x : Mxa) : (d.setMx c x).nextXid = d.nextXid := rfl
@[simp] theorem Dev.setMx_acks (c : Nat) (x : Mxa) : (d.setMx c x).acks = d.acks := rfl
@[simp] theorem Dev.setMx_sheaf (c : Nat) (x : Mxa) : (d.setMx c x).sheaf = d.sheaf := rfl
@[simp] theorem Dev.setMx_copies (c : Nat) (x : Mxa) : (d.setMx c x).copies = d.copies := rfl
@[simp] theorem Dev.setMx_job (c : Nat) (x : Mxa) : (d.setMx c x).job = d.job := rfl
@[simp] theorem Dev.setMx_epoch (c : Nat) (x : Mxa) : (d.setMx c x).epoch = d.epoch := rfl
@[simp] theorem Dev.setMx_gov (c : Nat) (x : Mxa) : (d.setMx c x).gov = d.gov := rfl
@[simp] theorem Dev.setMx_clk (c : Nat) (x : Mxa) : (d.setMx c x).clk = d.clk := rfl
@[simp] theorem Dev.setMx_tb (c : Nat) (x : Mxa) : (d.setMx c x).tb = d.tb := rfl
@[simp] theorem Dev.setMx_ist (c : Nat) (x : Mxa) : (d.setMx c x).ist = d.ist := rfl
@[simp] theorem Dev.setMx_selfRef (c : Nat) (x : Mxa) : (d.setMx c x).selfRef = d.selfRef := rfl
@[simp] theorem Dev.setMx_training (c : Nat) (x : Mxa) : (d.setMx c x).training = d.training := rfl
@[simp] theorem Dev.setMx_hot (c : Nat) (x : Mxa) : (d.setMx c x).hot = d.hot := rfl
@[simp] theorem Dev.setMx_rates (c : Nat) (x : Mxa) : (d.setMx c x).rates = d.rates := rfl
@[simp] theorem Dev.setMx_boot (c : Nat) (x : Mxa) : (d.setMx c x).boot = d.boot := rfl
@[simp] theorem Dev.setMx_mgmt (c : Nat) (x : Mxa) : (d.setMx c x).mgmt = d.mgmt := rfl
@[simp] theorem Dev.setMx_jtag (c : Nat) (x : Mxa) : (d.setMx c x).jtag = d.jtag := rfl
@[simp] theorem Dev.setMx_pcie (c : Nat) (x : Mxa) : (d.setMx c x).pcie = d.pcie := rfl
@[simp] theorem Dev.setMx_pins (c : Nat) (x : Mxa) : (d.setMx c x).pins = d.pins := rfl
@[simp] theorem Dev.setMx_halt (c : Nat) (x : Mxa) : (d.setMx c x).halt = d.halt := rfl
@[simp] theorem Dev.setMx_suspects (c : Nat) (x : Mxa) : (d.setMx c x).suspects = d.suspects := rfl
@[simp] theorem Dev.setMx_lostTrace (c : Nat) (x : Mxa) : (d.setMx c x).lostTrace = d.lostTrace := rfl
@[simp] theorem Dev.setMx_out (c : Nat) (x : Mxa) : (d.setMx c x).out = d.out := rfl
@[simp] theorem Dev.setMx_free (c : Nat) (x : Mxa) : (d.setMx c x).free = d.free := rfl

/-! ### setHrw -/
@[simp] theorem Dev.setHrw_regs (n : Nat) (x : Harrow) : (d.setHrw n x).regs = d.regs := rfl
@[simp] theorem Dev.setHrw_mem (n : Nat) (x : Harrow) : (d.setHrw n x).mem = d.mem := rfl
@[simp] theorem Dev.setHrw_hdrs (n : Nat) (x : Harrow) : (d.setHrw n x).hdrs = d.hdrs := rfl
@[simp] theorem Dev.setHrw_eccUE (n : Nat) (x : Harrow) : (d.setHrw n x).eccUE = d.eccUE := rfl
@[simp] theorem Dev.setHrw_eccCE (n : Nat) (x : Harrow) : (d.setHrw n x).eccCE = d.eccCE := rfl
@[simp] theorem Dev.setHrw_flags (n : Nat) (x : Harrow) : (d.setHrw n x).flags = d.flags := rfl
@[simp] theorem Dev.setHrw_ctrs (n : Nat) (x : Harrow) : (d.setHrw n x).ctrs = d.ctrs := rfl
@[simp] theorem Dev.setHrw_decls (n : Nat) (x : Harrow) : (d.setHrw n x).decls = d.decls := rfl
@[simp] theorem Dev.setHrw_furrows (n : Nat) (x : Harrow) : (d.setHrw n x).furrows = d.furrows := rfl
@[simp] theorem Dev.setHrw_waits (n : Nat) (x : Harrow) : (d.setHrw n x).waits = d.waits := rfl
@[simp] theorem Dev.setHrw_mxa (n : Nat) (x : Harrow) : (d.setHrw n x).mxa = d.mxa := rfl
@[simp] theorem Dev.setHrw_tme (n : Nat) (x : Harrow) : (d.setHrw n x).tme = d.tme := rfl
@[simp] theorem Dev.setHrw_l1 (n : Nat) (x : Harrow) : (d.setHrw n x).l1 = d.l1 := rfl
@[simp] theorem Dev.setHrw_cplot (n : Nat) (x : Harrow) : (d.setHrw n x).cplot = d.cplot := rfl
@[simp] theorem Dev.setHrw_coreCopy (n : Nat) (x : Harrow) : (d.setHrw n x).coreCopy = d.coreCopy := rfl
@[simp] theorem Dev.setHrw_dieCopy (n : Nat) (x : Harrow) : (d.setHrw n x).dieCopy = d.dieCopy := rfl
@[simp] theorem Dev.setHrw_dir (n : Nat) (x : Harrow) : (d.setHrw n x).dir = d.dir := rfl
@[simp] theorem Dev.setHrw_seals (n : Nat) (x : Harrow) : (d.setHrw n x).seals = d.seals := rfl
@[simp] theorem Dev.setHrw_ls (n : Nat) (x : Harrow) : (d.setHrw n x).ls = d.ls := rfl
@[simp] theorem Dev.setHrw_lsLast (n : Nat) (x : Harrow) : (d.setHrw n x).lsLast = d.lsLast := rfl
@[simp] theorem Dev.setHrw_gen0 (n : Nat) (x : Harrow) : (d.setHrw n x).gen0 = d.gen0 := rfl
@[simp] theorem Dev.setHrw_snap (n : Nat) (x : Harrow) : (d.setHrw n x).snap = d.snap := rfl
@[simp] theorem Dev.setHrw_capture (n : Nat) (x : Harrow) : (d.setHrw n x).capture = d.capture := rfl
@[simp] theorem Dev.setHrw_ports (n : Nat) (x : Harrow) : (d.setHrw n x).ports = d.ports := rfl
@[simp] theorem Dev.setHrw_xacts (n : Nat) (x : Harrow) : (d.setHrw n x).xacts = d.xacts := rfl
@[simp] theorem Dev.setHrw_nextXid (n : Nat) (x : Harrow) : (d.setHrw n x).nextXid = d.nextXid := rfl
@[simp] theorem Dev.setHrw_acks (n : Nat) (x : Harrow) : (d.setHrw n x).acks = d.acks := rfl
@[simp] theorem Dev.setHrw_sheaf (n : Nat) (x : Harrow) : (d.setHrw n x).sheaf = d.sheaf := rfl
@[simp] theorem Dev.setHrw_copies (n : Nat) (x : Harrow) : (d.setHrw n x).copies = d.copies := rfl
@[simp] theorem Dev.setHrw_job (n : Nat) (x : Harrow) : (d.setHrw n x).job = d.job := rfl
@[simp] theorem Dev.setHrw_epoch (n : Nat) (x : Harrow) : (d.setHrw n x).epoch = d.epoch := rfl
@[simp] theorem Dev.setHrw_gov (n : Nat) (x : Harrow) : (d.setHrw n x).gov = d.gov := rfl
@[simp] theorem Dev.setHrw_clk (n : Nat) (x : Harrow) : (d.setHrw n x).clk = d.clk := rfl
@[simp] theorem Dev.setHrw_tb (n : Nat) (x : Harrow) : (d.setHrw n x).tb = d.tb := rfl
@[simp] theorem Dev.setHrw_ist (n : Nat) (x : Harrow) : (d.setHrw n x).ist = d.ist := rfl
@[simp] theorem Dev.setHrw_selfRef (n : Nat) (x : Harrow) : (d.setHrw n x).selfRef = d.selfRef := rfl
@[simp] theorem Dev.setHrw_training (n : Nat) (x : Harrow) : (d.setHrw n x).training = d.training := rfl
@[simp] theorem Dev.setHrw_hot (n : Nat) (x : Harrow) : (d.setHrw n x).hot = d.hot := rfl
@[simp] theorem Dev.setHrw_rates (n : Nat) (x : Harrow) : (d.setHrw n x).rates = d.rates := rfl
@[simp] theorem Dev.setHrw_boot (n : Nat) (x : Harrow) : (d.setHrw n x).boot = d.boot := rfl
@[simp] theorem Dev.setHrw_mgmt (n : Nat) (x : Harrow) : (d.setHrw n x).mgmt = d.mgmt := rfl
@[simp] theorem Dev.setHrw_jtag (n : Nat) (x : Harrow) : (d.setHrw n x).jtag = d.jtag := rfl
@[simp] theorem Dev.setHrw_pcie (n : Nat) (x : Harrow) : (d.setHrw n x).pcie = d.pcie := rfl
@[simp] theorem Dev.setHrw_pins (n : Nat) (x : Harrow) : (d.setHrw n x).pins = d.pins := rfl
@[simp] theorem Dev.setHrw_halt (n : Nat) (x : Harrow) : (d.setHrw n x).halt = d.halt := rfl
@[simp] theorem Dev.setHrw_suspects (n : Nat) (x : Harrow) : (d.setHrw n x).suspects = d.suspects := rfl
@[simp] theorem Dev.setHrw_lostTrace (n : Nat) (x : Harrow) : (d.setHrw n x).lostTrace = d.lostTrace := rfl
@[simp] theorem Dev.setHrw_out (n : Nat) (x : Harrow) : (d.setHrw n x).out = d.out := rfl
@[simp] theorem Dev.setHrw_free (n : Nat) (x : Harrow) : (d.setHrw n x).free = d.free := rfl

/-! ### setPort -/
@[simp] theorem Dev.setPort_regs (n : Nat) (x : Port) : (d.setPort n x).regs = d.regs := rfl
@[simp] theorem Dev.setPort_mem (n : Nat) (x : Port) : (d.setPort n x).mem = d.mem := rfl
@[simp] theorem Dev.setPort_hdrs (n : Nat) (x : Port) : (d.setPort n x).hdrs = d.hdrs := rfl
@[simp] theorem Dev.setPort_eccUE (n : Nat) (x : Port) : (d.setPort n x).eccUE = d.eccUE := rfl
@[simp] theorem Dev.setPort_eccCE (n : Nat) (x : Port) : (d.setPort n x).eccCE = d.eccCE := rfl
@[simp] theorem Dev.setPort_flags (n : Nat) (x : Port) : (d.setPort n x).flags = d.flags := rfl
@[simp] theorem Dev.setPort_ctrs (n : Nat) (x : Port) : (d.setPort n x).ctrs = d.ctrs := rfl
@[simp] theorem Dev.setPort_decls (n : Nat) (x : Port) : (d.setPort n x).decls = d.decls := rfl
@[simp] theorem Dev.setPort_furrows (n : Nat) (x : Port) : (d.setPort n x).furrows = d.furrows := rfl
@[simp] theorem Dev.setPort_waits (n : Nat) (x : Port) : (d.setPort n x).waits = d.waits := rfl
@[simp] theorem Dev.setPort_mxa (n : Nat) (x : Port) : (d.setPort n x).mxa = d.mxa := rfl
@[simp] theorem Dev.setPort_tme (n : Nat) (x : Port) : (d.setPort n x).tme = d.tme := rfl
@[simp] theorem Dev.setPort_l1 (n : Nat) (x : Port) : (d.setPort n x).l1 = d.l1 := rfl
@[simp] theorem Dev.setPort_cplot (n : Nat) (x : Port) : (d.setPort n x).cplot = d.cplot := rfl
@[simp] theorem Dev.setPort_coreCopy (n : Nat) (x : Port) : (d.setPort n x).coreCopy = d.coreCopy := rfl
@[simp] theorem Dev.setPort_dieCopy (n : Nat) (x : Port) : (d.setPort n x).dieCopy = d.dieCopy := rfl
@[simp] theorem Dev.setPort_dir (n : Nat) (x : Port) : (d.setPort n x).dir = d.dir := rfl
@[simp] theorem Dev.setPort_harrow (n : Nat) (x : Port) : (d.setPort n x).harrow = d.harrow := rfl
@[simp] theorem Dev.setPort_seals (n : Nat) (x : Port) : (d.setPort n x).seals = d.seals := rfl
@[simp] theorem Dev.setPort_ls (n : Nat) (x : Port) : (d.setPort n x).ls = d.ls := rfl
@[simp] theorem Dev.setPort_lsLast (n : Nat) (x : Port) : (d.setPort n x).lsLast = d.lsLast := rfl
@[simp] theorem Dev.setPort_gen0 (n : Nat) (x : Port) : (d.setPort n x).gen0 = d.gen0 := rfl
@[simp] theorem Dev.setPort_snap (n : Nat) (x : Port) : (d.setPort n x).snap = d.snap := rfl
@[simp] theorem Dev.setPort_capture (n : Nat) (x : Port) : (d.setPort n x).capture = d.capture := rfl
@[simp] theorem Dev.setPort_xacts (n : Nat) (x : Port) : (d.setPort n x).xacts = d.xacts := rfl
@[simp] theorem Dev.setPort_nextXid (n : Nat) (x : Port) : (d.setPort n x).nextXid = d.nextXid := rfl
@[simp] theorem Dev.setPort_acks (n : Nat) (x : Port) : (d.setPort n x).acks = d.acks := rfl
@[simp] theorem Dev.setPort_sheaf (n : Nat) (x : Port) : (d.setPort n x).sheaf = d.sheaf := rfl
@[simp] theorem Dev.setPort_copies (n : Nat) (x : Port) : (d.setPort n x).copies = d.copies := rfl
@[simp] theorem Dev.setPort_job (n : Nat) (x : Port) : (d.setPort n x).job = d.job := rfl
@[simp] theorem Dev.setPort_epoch (n : Nat) (x : Port) : (d.setPort n x).epoch = d.epoch := rfl
@[simp] theorem Dev.setPort_gov (n : Nat) (x : Port) : (d.setPort n x).gov = d.gov := rfl
@[simp] theorem Dev.setPort_clk (n : Nat) (x : Port) : (d.setPort n x).clk = d.clk := rfl
@[simp] theorem Dev.setPort_tb (n : Nat) (x : Port) : (d.setPort n x).tb = d.tb := rfl
@[simp] theorem Dev.setPort_ist (n : Nat) (x : Port) : (d.setPort n x).ist = d.ist := rfl
@[simp] theorem Dev.setPort_selfRef (n : Nat) (x : Port) : (d.setPort n x).selfRef = d.selfRef := rfl
@[simp] theorem Dev.setPort_training (n : Nat) (x : Port) : (d.setPort n x).training = d.training := rfl
@[simp] theorem Dev.setPort_hot (n : Nat) (x : Port) : (d.setPort n x).hot = d.hot := rfl
@[simp] theorem Dev.setPort_rates (n : Nat) (x : Port) : (d.setPort n x).rates = d.rates := rfl
@[simp] theorem Dev.setPort_boot (n : Nat) (x : Port) : (d.setPort n x).boot = d.boot := rfl
@[simp] theorem Dev.setPort_mgmt (n : Nat) (x : Port) : (d.setPort n x).mgmt = d.mgmt := rfl
@[simp] theorem Dev.setPort_jtag (n : Nat) (x : Port) : (d.setPort n x).jtag = d.jtag := rfl
@[simp] theorem Dev.setPort_pcie (n : Nat) (x : Port) : (d.setPort n x).pcie = d.pcie := rfl
@[simp] theorem Dev.setPort_pins (n : Nat) (x : Port) : (d.setPort n x).pins = d.pins := rfl
@[simp] theorem Dev.setPort_halt (n : Nat) (x : Port) : (d.setPort n x).halt = d.halt := rfl
@[simp] theorem Dev.setPort_suspects (n : Nat) (x : Port) : (d.setPort n x).suspects = d.suspects := rfl
@[simp] theorem Dev.setPort_lostTrace (n : Nat) (x : Port) : (d.setPort n x).lostTrace = d.lostTrace := rfl
@[simp] theorem Dev.setPort_out (n : Nat) (x : Port) : (d.setPort n x).out = d.out := rfl
@[simp] theorem Dev.setPort_free (n : Nat) (x : Port) : (d.setPort n x).free = d.free := rfl

/-! ### setSeal -/
@[simp] theorem Dev.setSeal_regs (k : Nat) (x : StepSeal) : (d.setSeal k x).regs = d.regs := rfl
@[simp] theorem Dev.setSeal_mem (k : Nat) (x : StepSeal) : (d.setSeal k x).mem = d.mem := rfl
@[simp] theorem Dev.setSeal_hdrs (k : Nat) (x : StepSeal) : (d.setSeal k x).hdrs = d.hdrs := rfl
@[simp] theorem Dev.setSeal_eccUE (k : Nat) (x : StepSeal) : (d.setSeal k x).eccUE = d.eccUE := rfl
@[simp] theorem Dev.setSeal_eccCE (k : Nat) (x : StepSeal) : (d.setSeal k x).eccCE = d.eccCE := rfl
@[simp] theorem Dev.setSeal_flags (k : Nat) (x : StepSeal) : (d.setSeal k x).flags = d.flags := rfl
@[simp] theorem Dev.setSeal_ctrs (k : Nat) (x : StepSeal) : (d.setSeal k x).ctrs = d.ctrs := rfl
@[simp] theorem Dev.setSeal_decls (k : Nat) (x : StepSeal) : (d.setSeal k x).decls = d.decls := rfl
@[simp] theorem Dev.setSeal_furrows (k : Nat) (x : StepSeal) : (d.setSeal k x).furrows = d.furrows := rfl
@[simp] theorem Dev.setSeal_waits (k : Nat) (x : StepSeal) : (d.setSeal k x).waits = d.waits := rfl
@[simp] theorem Dev.setSeal_mxa (k : Nat) (x : StepSeal) : (d.setSeal k x).mxa = d.mxa := rfl
@[simp] theorem Dev.setSeal_tme (k : Nat) (x : StepSeal) : (d.setSeal k x).tme = d.tme := rfl
@[simp] theorem Dev.setSeal_l1 (k : Nat) (x : StepSeal) : (d.setSeal k x).l1 = d.l1 := rfl
@[simp] theorem Dev.setSeal_cplot (k : Nat) (x : StepSeal) : (d.setSeal k x).cplot = d.cplot := rfl
@[simp] theorem Dev.setSeal_coreCopy (k : Nat) (x : StepSeal) : (d.setSeal k x).coreCopy = d.coreCopy := rfl
@[simp] theorem Dev.setSeal_dieCopy (k : Nat) (x : StepSeal) : (d.setSeal k x).dieCopy = d.dieCopy := rfl
@[simp] theorem Dev.setSeal_dir (k : Nat) (x : StepSeal) : (d.setSeal k x).dir = d.dir := rfl
@[simp] theorem Dev.setSeal_harrow (k : Nat) (x : StepSeal) : (d.setSeal k x).harrow = d.harrow := rfl
@[simp] theorem Dev.setSeal_ls (k : Nat) (x : StepSeal) : (d.setSeal k x).ls = d.ls := rfl
@[simp] theorem Dev.setSeal_lsLast (k : Nat) (x : StepSeal) : (d.setSeal k x).lsLast = d.lsLast := rfl
@[simp] theorem Dev.setSeal_gen0 (k : Nat) (x : StepSeal) : (d.setSeal k x).gen0 = d.gen0 := rfl
@[simp] theorem Dev.setSeal_snap (k : Nat) (x : StepSeal) : (d.setSeal k x).snap = d.snap := rfl
@[simp] theorem Dev.setSeal_capture (k : Nat) (x : StepSeal) : (d.setSeal k x).capture = d.capture := rfl
@[simp] theorem Dev.setSeal_ports (k : Nat) (x : StepSeal) : (d.setSeal k x).ports = d.ports := rfl
@[simp] theorem Dev.setSeal_xacts (k : Nat) (x : StepSeal) : (d.setSeal k x).xacts = d.xacts := rfl
@[simp] theorem Dev.setSeal_nextXid (k : Nat) (x : StepSeal) : (d.setSeal k x).nextXid = d.nextXid := rfl
@[simp] theorem Dev.setSeal_acks (k : Nat) (x : StepSeal) : (d.setSeal k x).acks = d.acks := rfl
@[simp] theorem Dev.setSeal_sheaf (k : Nat) (x : StepSeal) : (d.setSeal k x).sheaf = d.sheaf := rfl
@[simp] theorem Dev.setSeal_copies (k : Nat) (x : StepSeal) : (d.setSeal k x).copies = d.copies := rfl
@[simp] theorem Dev.setSeal_job (k : Nat) (x : StepSeal) : (d.setSeal k x).job = d.job := rfl
@[simp] theorem Dev.setSeal_epoch (k : Nat) (x : StepSeal) : (d.setSeal k x).epoch = d.epoch := rfl
@[simp] theorem Dev.setSeal_gov (k : Nat) (x : StepSeal) : (d.setSeal k x).gov = d.gov := rfl
@[simp] theorem Dev.setSeal_clk (k : Nat) (x : StepSeal) : (d.setSeal k x).clk = d.clk := rfl
@[simp] theorem Dev.setSeal_tb (k : Nat) (x : StepSeal) : (d.setSeal k x).tb = d.tb := rfl
@[simp] theorem Dev.setSeal_ist (k : Nat) (x : StepSeal) : (d.setSeal k x).ist = d.ist := rfl
@[simp] theorem Dev.setSeal_selfRef (k : Nat) (x : StepSeal) : (d.setSeal k x).selfRef = d.selfRef := rfl
@[simp] theorem Dev.setSeal_training (k : Nat) (x : StepSeal) : (d.setSeal k x).training = d.training := rfl
@[simp] theorem Dev.setSeal_hot (k : Nat) (x : StepSeal) : (d.setSeal k x).hot = d.hot := rfl
@[simp] theorem Dev.setSeal_rates (k : Nat) (x : StepSeal) : (d.setSeal k x).rates = d.rates := rfl
@[simp] theorem Dev.setSeal_boot (k : Nat) (x : StepSeal) : (d.setSeal k x).boot = d.boot := rfl
@[simp] theorem Dev.setSeal_mgmt (k : Nat) (x : StepSeal) : (d.setSeal k x).mgmt = d.mgmt := rfl
@[simp] theorem Dev.setSeal_jtag (k : Nat) (x : StepSeal) : (d.setSeal k x).jtag = d.jtag := rfl
@[simp] theorem Dev.setSeal_pcie (k : Nat) (x : StepSeal) : (d.setSeal k x).pcie = d.pcie := rfl
@[simp] theorem Dev.setSeal_pins (k : Nat) (x : StepSeal) : (d.setSeal k x).pins = d.pins := rfl
@[simp] theorem Dev.setSeal_halt (k : Nat) (x : StepSeal) : (d.setSeal k x).halt = d.halt := rfl
@[simp] theorem Dev.setSeal_suspects (k : Nat) (x : StepSeal) : (d.setSeal k x).suspects = d.suspects := rfl
@[simp] theorem Dev.setSeal_lostTrace (k : Nat) (x : StepSeal) : (d.setSeal k x).lostTrace = d.lostTrace := rfl
@[simp] theorem Dev.setSeal_out (k : Nat) (x : StepSeal) : (d.setSeal k x).out = d.out := rfl
@[simp] theorem Dev.setSeal_free (k : Nat) (x : StepSeal) : (d.setSeal k x).free = d.free := rfl

/-! ### setHdr -/
@[simp] theorem Dev.setHdr_regs (a v : Nat) : (d.setHdr a v).regs = d.regs := rfl
@[simp] theorem Dev.setHdr_mem (a v : Nat) : (d.setHdr a v).mem = d.mem := rfl
@[simp] theorem Dev.setHdr_eccUE (a v : Nat) : (d.setHdr a v).eccUE = d.eccUE := rfl
@[simp] theorem Dev.setHdr_eccCE (a v : Nat) : (d.setHdr a v).eccCE = d.eccCE := rfl
@[simp] theorem Dev.setHdr_flags (a v : Nat) : (d.setHdr a v).flags = d.flags := rfl
@[simp] theorem Dev.setHdr_ctrs (a v : Nat) : (d.setHdr a v).ctrs = d.ctrs := rfl
@[simp] theorem Dev.setHdr_decls (a v : Nat) : (d.setHdr a v).decls = d.decls := rfl
@[simp] theorem Dev.setHdr_furrows (a v : Nat) : (d.setHdr a v).furrows = d.furrows := rfl
@[simp] theorem Dev.setHdr_waits (a v : Nat) : (d.setHdr a v).waits = d.waits := rfl
@[simp] theorem Dev.setHdr_mxa (a v : Nat) : (d.setHdr a v).mxa = d.mxa := rfl
@[simp] theorem Dev.setHdr_tme (a v : Nat) : (d.setHdr a v).tme = d.tme := rfl
@[simp] theorem Dev.setHdr_l1 (a v : Nat) : (d.setHdr a v).l1 = d.l1 := rfl
@[simp] theorem Dev.setHdr_cplot (a v : Nat) : (d.setHdr a v).cplot = d.cplot := rfl
@[simp] theorem Dev.setHdr_coreCopy (a v : Nat) : (d.setHdr a v).coreCopy = d.coreCopy := rfl
@[simp] theorem Dev.setHdr_dieCopy (a v : Nat) : (d.setHdr a v).dieCopy = d.dieCopy := rfl
@[simp] theorem Dev.setHdr_dir (a v : Nat) : (d.setHdr a v).dir = d.dir := rfl
@[simp] theorem Dev.setHdr_harrow (a v : Nat) : (d.setHdr a v).harrow = d.harrow := rfl
@[simp] theorem Dev.setHdr_seals (a v : Nat) : (d.setHdr a v).seals = d.seals := rfl
@[simp] theorem Dev.setHdr_ls (a v : Nat) : (d.setHdr a v).ls = d.ls := rfl
@[simp] theorem Dev.setHdr_lsLast (a v : Nat) : (d.setHdr a v).lsLast = d.lsLast := rfl
@[simp] theorem Dev.setHdr_gen0 (a v : Nat) : (d.setHdr a v).gen0 = d.gen0 := rfl
@[simp] theorem Dev.setHdr_snap (a v : Nat) : (d.setHdr a v).snap = d.snap := rfl
@[simp] theorem Dev.setHdr_capture (a v : Nat) : (d.setHdr a v).capture = d.capture := rfl
@[simp] theorem Dev.setHdr_ports (a v : Nat) : (d.setHdr a v).ports = d.ports := rfl
@[simp] theorem Dev.setHdr_xacts (a v : Nat) : (d.setHdr a v).xacts = d.xacts := rfl
@[simp] theorem Dev.setHdr_nextXid (a v : Nat) : (d.setHdr a v).nextXid = d.nextXid := rfl
@[simp] theorem Dev.setHdr_acks (a v : Nat) : (d.setHdr a v).acks = d.acks := rfl
@[simp] theorem Dev.setHdr_sheaf (a v : Nat) : (d.setHdr a v).sheaf = d.sheaf := rfl
@[simp] theorem Dev.setHdr_copies (a v : Nat) : (d.setHdr a v).copies = d.copies := rfl
@[simp] theorem Dev.setHdr_job (a v : Nat) : (d.setHdr a v).job = d.job := rfl
@[simp] theorem Dev.setHdr_epoch (a v : Nat) : (d.setHdr a v).epoch = d.epoch := rfl
@[simp] theorem Dev.setHdr_gov (a v : Nat) : (d.setHdr a v).gov = d.gov := rfl
@[simp] theorem Dev.setHdr_clk (a v : Nat) : (d.setHdr a v).clk = d.clk := rfl
@[simp] theorem Dev.setHdr_tb (a v : Nat) : (d.setHdr a v).tb = d.tb := rfl
@[simp] theorem Dev.setHdr_ist (a v : Nat) : (d.setHdr a v).ist = d.ist := rfl
@[simp] theorem Dev.setHdr_selfRef (a v : Nat) : (d.setHdr a v).selfRef = d.selfRef := rfl
@[simp] theorem Dev.setHdr_training (a v : Nat) : (d.setHdr a v).training = d.training := rfl
@[simp] theorem Dev.setHdr_hot (a v : Nat) : (d.setHdr a v).hot = d.hot := rfl
@[simp] theorem Dev.setHdr_rates (a v : Nat) : (d.setHdr a v).rates = d.rates := rfl
@[simp] theorem Dev.setHdr_boot (a v : Nat) : (d.setHdr a v).boot = d.boot := rfl
@[simp] theorem Dev.setHdr_mgmt (a v : Nat) : (d.setHdr a v).mgmt = d.mgmt := rfl
@[simp] theorem Dev.setHdr_jtag (a v : Nat) : (d.setHdr a v).jtag = d.jtag := rfl
@[simp] theorem Dev.setHdr_pcie (a v : Nat) : (d.setHdr a v).pcie = d.pcie := rfl
@[simp] theorem Dev.setHdr_pins (a v : Nat) : (d.setHdr a v).pins = d.pins := rfl
@[simp] theorem Dev.setHdr_halt (a v : Nat) : (d.setHdr a v).halt = d.halt := rfl
@[simp] theorem Dev.setHdr_suspects (a v : Nat) : (d.setHdr a v).suspects = d.suspects := rfl
@[simp] theorem Dev.setHdr_lostTrace (a v : Nat) : (d.setHdr a v).lostTrace = d.lostTrace := rfl
@[simp] theorem Dev.setHdr_out (a v : Nat) : (d.setHdr a v).out = d.out := rfl
@[simp] theorem Dev.setHdr_free (a v : Nat) : (d.setHdr a v).free = d.free := rfl

/-! ### setSlot -/
@[simp] theorem Dev.setSlot_regs (c j : Nat) (x : Slot) : (d.setSlot c j x).regs = d.regs := rfl
@[simp] theorem Dev.setSlot_mem (c j : Nat) (x : Slot) : (d.setSlot c j x).mem = d.mem := rfl
@[simp] theorem Dev.setSlot_hdrs (c j : Nat) (x : Slot) : (d.setSlot c j x).hdrs = d.hdrs := rfl
@[simp] theorem Dev.setSlot_eccUE (c j : Nat) (x : Slot) : (d.setSlot c j x).eccUE = d.eccUE := rfl
@[simp] theorem Dev.setSlot_eccCE (c j : Nat) (x : Slot) : (d.setSlot c j x).eccCE = d.eccCE := rfl
@[simp] theorem Dev.setSlot_flags (c j : Nat) (x : Slot) : (d.setSlot c j x).flags = d.flags := rfl
@[simp] theorem Dev.setSlot_ctrs (c j : Nat) (x : Slot) : (d.setSlot c j x).ctrs = d.ctrs := rfl
@[simp] theorem Dev.setSlot_decls (c j : Nat) (x : Slot) : (d.setSlot c j x).decls = d.decls := rfl
@[simp] theorem Dev.setSlot_furrows (c j : Nat) (x : Slot) : (d.setSlot c j x).furrows = d.furrows := rfl
@[simp] theorem Dev.setSlot_waits (c j : Nat) (x : Slot) : (d.setSlot c j x).waits = d.waits := rfl
@[simp] theorem Dev.setSlot_mxa (c j : Nat) (x : Slot) : (d.setSlot c j x).mxa = d.mxa := rfl
@[simp] theorem Dev.setSlot_l1 (c j : Nat) (x : Slot) : (d.setSlot c j x).l1 = d.l1 := rfl
@[simp] theorem Dev.setSlot_cplot (c j : Nat) (x : Slot) : (d.setSlot c j x).cplot = d.cplot := rfl
@[simp] theorem Dev.setSlot_coreCopy (c j : Nat) (x : Slot) : (d.setSlot c j x).coreCopy = d.coreCopy := rfl
@[simp] theorem Dev.setSlot_dieCopy (c j : Nat) (x : Slot) : (d.setSlot c j x).dieCopy = d.dieCopy := rfl
@[simp] theorem Dev.setSlot_dir (c j : Nat) (x : Slot) : (d.setSlot c j x).dir = d.dir := rfl
@[simp] theorem Dev.setSlot_harrow (c j : Nat) (x : Slot) : (d.setSlot c j x).harrow = d.harrow := rfl
@[simp] theorem Dev.setSlot_seals (c j : Nat) (x : Slot) : (d.setSlot c j x).seals = d.seals := rfl
@[simp] theorem Dev.setSlot_ls (c j : Nat) (x : Slot) : (d.setSlot c j x).ls = d.ls := rfl
@[simp] theorem Dev.setSlot_lsLast (c j : Nat) (x : Slot) : (d.setSlot c j x).lsLast = d.lsLast := rfl
@[simp] theorem Dev.setSlot_gen0 (c j : Nat) (x : Slot) : (d.setSlot c j x).gen0 = d.gen0 := rfl
@[simp] theorem Dev.setSlot_snap (c j : Nat) (x : Slot) : (d.setSlot c j x).snap = d.snap := rfl
@[simp] theorem Dev.setSlot_capture (c j : Nat) (x : Slot) : (d.setSlot c j x).capture = d.capture := rfl
@[simp] theorem Dev.setSlot_ports (c j : Nat) (x : Slot) : (d.setSlot c j x).ports = d.ports := rfl
@[simp] theorem Dev.setSlot_xacts (c j : Nat) (x : Slot) : (d.setSlot c j x).xacts = d.xacts := rfl
@[simp] theorem Dev.setSlot_nextXid (c j : Nat) (x : Slot) : (d.setSlot c j x).nextXid = d.nextXid := rfl
@[simp] theorem Dev.setSlot_acks (c j : Nat) (x : Slot) : (d.setSlot c j x).acks = d.acks := rfl
@[simp] theorem Dev.setSlot_sheaf (c j : Nat) (x : Slot) : (d.setSlot c j x).sheaf = d.sheaf := rfl
@[simp] theorem Dev.setSlot_copies (c j : Nat) (x : Slot) : (d.setSlot c j x).copies = d.copies := rfl
@[simp] theorem Dev.setSlot_job (c j : Nat) (x : Slot) : (d.setSlot c j x).job = d.job := rfl
@[simp] theorem Dev.setSlot_epoch (c j : Nat) (x : Slot) : (d.setSlot c j x).epoch = d.epoch := rfl
@[simp] theorem Dev.setSlot_gov (c j : Nat) (x : Slot) : (d.setSlot c j x).gov = d.gov := rfl
@[simp] theorem Dev.setSlot_clk (c j : Nat) (x : Slot) : (d.setSlot c j x).clk = d.clk := rfl
@[simp] theorem Dev.setSlot_tb (c j : Nat) (x : Slot) : (d.setSlot c j x).tb = d.tb := rfl
@[simp] theorem Dev.setSlot_ist (c j : Nat) (x : Slot) : (d.setSlot c j x).ist = d.ist := rfl
@[simp] theorem Dev.setSlot_selfRef (c j : Nat) (x : Slot) : (d.setSlot c j x).selfRef = d.selfRef := rfl
@[simp] theorem Dev.setSlot_training (c j : Nat) (x : Slot) : (d.setSlot c j x).training = d.training := rfl
@[simp] theorem Dev.setSlot_hot (c j : Nat) (x : Slot) : (d.setSlot c j x).hot = d.hot := rfl
@[simp] theorem Dev.setSlot_rates (c j : Nat) (x : Slot) : (d.setSlot c j x).rates = d.rates := rfl
@[simp] theorem Dev.setSlot_boot (c j : Nat) (x : Slot) : (d.setSlot c j x).boot = d.boot := rfl
@[simp] theorem Dev.setSlot_mgmt (c j : Nat) (x : Slot) : (d.setSlot c j x).mgmt = d.mgmt := rfl
@[simp] theorem Dev.setSlot_jtag (c j : Nat) (x : Slot) : (d.setSlot c j x).jtag = d.jtag := rfl
@[simp] theorem Dev.setSlot_pcie (c j : Nat) (x : Slot) : (d.setSlot c j x).pcie = d.pcie := rfl
@[simp] theorem Dev.setSlot_pins (c j : Nat) (x : Slot) : (d.setSlot c j x).pins = d.pins := rfl
@[simp] theorem Dev.setSlot_halt (c j : Nat) (x : Slot) : (d.setSlot c j x).halt = d.halt := rfl
@[simp] theorem Dev.setSlot_suspects (c j : Nat) (x : Slot) : (d.setSlot c j x).suspects = d.suspects := rfl
@[simp] theorem Dev.setSlot_lostTrace (c j : Nat) (x : Slot) : (d.setSlot c j x).lostTrace = d.lostTrace := rfl
@[simp] theorem Dev.setSlot_out (c j : Nat) (x : Slot) : (d.setSlot c j x).out = d.out := rfl
@[simp] theorem Dev.setSlot_free (c j : Nat) (x : Slot) : (d.setSlot c j x).free = d.free := rfl

/-! ### opDone -/

/-- Marking an operation performed changes the furrows, and puts an acknowledgement aside where sharers are to answer. -/
theorem Dev.opDone_only (f : Nat) : d.opDone f = { d with furrows := (d.opDone f).furrows, acks := (d.opDone f).acks } := by
  unfold Dev.opDone Dev.awaits
  split <;> rename_i h
  · split at h
    · cases h
    · cases h; rfl
  · rfl

@[simp] theorem Dev.opDone_regs (f : Nat) : (d.opDone f).regs = d.regs := (congrArg Dev.regs (Dev.opDone_only d f)).trans rfl
@[simp] theorem Dev.opDone_mem (f : Nat) : (d.opDone f).mem = d.mem := (congrArg Dev.mem (Dev.opDone_only d f)).trans rfl
@[simp] theorem Dev.opDone_hdrs (f : Nat) : (d.opDone f).hdrs = d.hdrs := (congrArg Dev.hdrs (Dev.opDone_only d f)).trans rfl
@[simp] theorem Dev.opDone_eccUE (f : Nat) : (d.opDone f).eccUE = d.eccUE := (congrArg Dev.eccUE (Dev.opDone_only d f)).trans rfl
@[simp] theorem Dev.opDone_eccCE (f : Nat) : (d.opDone f).eccCE = d.eccCE := (congrArg Dev.eccCE (Dev.opDone_only d f)).trans rfl
@[simp] theorem Dev.opDone_flags (f : Nat) : (d.opDone f).flags = d.flags := (congrArg Dev.flags (Dev.opDone_only d f)).trans rfl
@[simp] theorem Dev.opDone_ctrs (f : Nat) : (d.opDone f).ctrs = d.ctrs := (congrArg Dev.ctrs (Dev.opDone_only d f)).trans rfl
@[simp] theorem Dev.opDone_decls (f : Nat) : (d.opDone f).decls = d.decls := (congrArg Dev.decls (Dev.opDone_only d f)).trans rfl
@[simp] theorem Dev.opDone_waits (f : Nat) : (d.opDone f).waits = d.waits := (congrArg Dev.waits (Dev.opDone_only d f)).trans rfl
@[simp] theorem Dev.opDone_mxa (f : Nat) : (d.opDone f).mxa = d.mxa := (congrArg Dev.mxa (Dev.opDone_only d f)).trans rfl
@[simp] theorem Dev.opDone_tme (f : Nat) : (d.opDone f).tme = d.tme := (congrArg Dev.tme (Dev.opDone_only d f)).trans rfl
@[simp] theorem Dev.opDone_l1 (f : Nat) : (d.opDone f).l1 = d.l1 := (congrArg Dev.l1 (Dev.opDone_only d f)).trans rfl
@[simp] theorem Dev.opDone_cplot (f : Nat) : (d.opDone f).cplot = d.cplot := (congrArg Dev.cplot (Dev.opDone_only d f)).trans rfl
@[simp] theorem Dev.opDone_coreCopy (f : Nat) : (d.opDone f).coreCopy = d.coreCopy := (congrArg Dev.coreCopy (Dev.opDone_only d f)).trans rfl
@[simp] theorem Dev.opDone_dieCopy (f : Nat) : (d.opDone f).dieCopy = d.dieCopy := (congrArg Dev.dieCopy (Dev.opDone_only d f)).trans rfl
@[simp] theorem Dev.opDone_dir (f : Nat) : (d.opDone f).dir = d.dir := (congrArg Dev.dir (Dev.opDone_only d f)).trans rfl
@[simp] theorem Dev.opDone_harrow (f : Nat) : (d.opDone f).harrow = d.harrow := (congrArg Dev.harrow (Dev.opDone_only d f)).trans rfl
@[simp] theorem Dev.opDone_seals (f : Nat) : (d.opDone f).seals = d.seals := (congrArg Dev.seals (Dev.opDone_only d f)).trans rfl
@[simp] theorem Dev.opDone_ls (f : Nat) : (d.opDone f).ls = d.ls := (congrArg Dev.ls (Dev.opDone_only d f)).trans rfl
@[simp] theorem Dev.opDone_lsLast (f : Nat) : (d.opDone f).lsLast = d.lsLast := (congrArg Dev.lsLast (Dev.opDone_only d f)).trans rfl
@[simp] theorem Dev.opDone_gen0 (f : Nat) : (d.opDone f).gen0 = d.gen0 := (congrArg Dev.gen0 (Dev.opDone_only d f)).trans rfl
@[simp] theorem Dev.opDone_snap (f : Nat) : (d.opDone f).snap = d.snap := (congrArg Dev.snap (Dev.opDone_only d f)).trans rfl
@[simp] theorem Dev.opDone_capture (f : Nat) : (d.opDone f).capture = d.capture := (congrArg Dev.capture (Dev.opDone_only d f)).trans rfl
@[simp] theorem Dev.opDone_ports (f : Nat) : (d.opDone f).ports = d.ports := (congrArg Dev.ports (Dev.opDone_only d f)).trans rfl
@[simp] theorem Dev.opDone_xacts (f : Nat) : (d.opDone f).xacts = d.xacts := (congrArg Dev.xacts (Dev.opDone_only d f)).trans rfl
@[simp] theorem Dev.opDone_nextXid (f : Nat) : (d.opDone f).nextXid = d.nextXid := (congrArg Dev.nextXid (Dev.opDone_only d f)).trans rfl
@[simp] theorem Dev.opDone_sheaf (f : Nat) : (d.opDone f).sheaf = d.sheaf := (congrArg Dev.sheaf (Dev.opDone_only d f)).trans rfl
@[simp] theorem Dev.opDone_copies (f : Nat) : (d.opDone f).copies = d.copies := (congrArg Dev.copies (Dev.opDone_only d f)).trans rfl
@[simp] theorem Dev.opDone_job (f : Nat) : (d.opDone f).job = d.job := (congrArg Dev.job (Dev.opDone_only d f)).trans rfl
@[simp] theorem Dev.opDone_epoch (f : Nat) : (d.opDone f).epoch = d.epoch := (congrArg Dev.epoch (Dev.opDone_only d f)).trans rfl
@[simp] theorem Dev.opDone_gov (f : Nat) : (d.opDone f).gov = d.gov := (congrArg Dev.gov (Dev.opDone_only d f)).trans rfl
@[simp] theorem Dev.opDone_clk (f : Nat) : (d.opDone f).clk = d.clk := (congrArg Dev.clk (Dev.opDone_only d f)).trans rfl
@[simp] theorem Dev.opDone_tb (f : Nat) : (d.opDone f).tb = d.tb := (congrArg Dev.tb (Dev.opDone_only d f)).trans rfl
@[simp] theorem Dev.opDone_ist (f : Nat) : (d.opDone f).ist = d.ist := (congrArg Dev.ist (Dev.opDone_only d f)).trans rfl
@[simp] theorem Dev.opDone_selfRef (f : Nat) : (d.opDone f).selfRef = d.selfRef := (congrArg Dev.selfRef (Dev.opDone_only d f)).trans rfl
@[simp] theorem Dev.opDone_training (f : Nat) : (d.opDone f).training = d.training := (congrArg Dev.training (Dev.opDone_only d f)).trans rfl
@[simp] theorem Dev.opDone_hot (f : Nat) : (d.opDone f).hot = d.hot := (congrArg Dev.hot (Dev.opDone_only d f)).trans rfl
@[simp] theorem Dev.opDone_rates (f : Nat) : (d.opDone f).rates = d.rates := (congrArg Dev.rates (Dev.opDone_only d f)).trans rfl
@[simp] theorem Dev.opDone_boot (f : Nat) : (d.opDone f).boot = d.boot := (congrArg Dev.boot (Dev.opDone_only d f)).trans rfl
@[simp] theorem Dev.opDone_mgmt (f : Nat) : (d.opDone f).mgmt = d.mgmt := (congrArg Dev.mgmt (Dev.opDone_only d f)).trans rfl
@[simp] theorem Dev.opDone_jtag (f : Nat) : (d.opDone f).jtag = d.jtag := (congrArg Dev.jtag (Dev.opDone_only d f)).trans rfl
@[simp] theorem Dev.opDone_pcie (f : Nat) : (d.opDone f).pcie = d.pcie := (congrArg Dev.pcie (Dev.opDone_only d f)).trans rfl
@[simp] theorem Dev.opDone_pins (f : Nat) : (d.opDone f).pins = d.pins := (congrArg Dev.pins (Dev.opDone_only d f)).trans rfl
@[simp] theorem Dev.opDone_halt (f : Nat) : (d.opDone f).halt = d.halt := (congrArg Dev.halt (Dev.opDone_only d f)).trans rfl
@[simp] theorem Dev.opDone_suspects (f : Nat) : (d.opDone f).suspects = d.suspects := (congrArg Dev.suspects (Dev.opDone_only d f)).trans rfl
@[simp] theorem Dev.opDone_lostTrace (f : Nat) : (d.opDone f).lostTrace = d.lostTrace := (congrArg Dev.lostTrace (Dev.opDone_only d f)).trans rfl
@[simp] theorem Dev.opDone_out (f : Nat) : (d.opDone f).out = d.out := (congrArg Dev.out (Dev.opDone_only d f)).trans rfl
@[simp] theorem Dev.opDone_free (f : Nat) : (d.opDone f).free = d.free := (congrArg Dev.free (Dev.opDone_only d f)).trans rfl

end

end Sys2Proof.Machine
end

