-- ==== Sys2Proof/Laws/Ops.lean ====
section
/-! SUPPORT. What the shared operations do: running a meaning, register and field access, and which fields each operation leaves alone. -/
namespace Sys2Proof.Machine
open Sys2Proof

/-! ### Running a meaning -/

theorem runDev_ok {ok : Bool} (h : ok = true) (f : Dev → Dev) (s : State) :
    runDev ok f s = .next { s with dev := f { s.dev with out := [] } } := by simp [runDev, h]

theorem runDev_bad {ok : Bool} (h : ok = false) (f : Dev → Dev) (s : State) : runDev ok f s = .fault .noSuchUnit := by simp [runDev, h]

theorem live_out (d : Dev) (o : List Out) : Dev.live { d with out := o } = d.live := rfl
theorem reach_out (d : Dev) (o : List Out) (w : Who) : Dev.reach { d with out := o } w = d.reach w := rfl

theorem runLive_ok {ok : Bool} (h : ok = true) {s : State} (hl : s.dev.live = true) (f : Dev → Dev) :
    runLive ok f s = .next { s with dev := f { s.dev with out := [] } } := by simp [runLive, runDev, h, live_out, hl]

theorem runLive_dead {ok : Bool} (h : ok = true) {s : State} (hl : s.dev.live = false) (f : Dev → Dev) :
    runLive ok f s = .next { s with dev := { s.dev with out := [] } } := by simp [runLive, runDev, h, live_out, hl]

theorem runWho_ok {ok : Bool} (h : ok = true) {s : State} {w : Who} (hr : s.dev.reach w = true) (f : Dev → Dev) :
    runWho ok w f s = .next { s with dev := f { s.dev with out := [] } } := by simp [runWho, runDev, h, reach_out, hr]

theorem runReg_ok {ok : Bool} (h : ok = true) {s : State} {w : Who} (hr : s.dev.reach w = true) {o : Dev → Nat}
    (hg : Dev.gatedReg { s.dev with out := [] } (o { s.dev with out := [] }) = false) (f : Dev → Dev) :
    runReg ok w o f s = .next { s with dev := f { s.dev with out := [] } } := by
  simp [runReg, runWho, runDev, h, reach_out, hr, Dev.atReg, hg]

/-! ### Registers -/

@[simp] theorem mkW_toNat (n : Nat) : (mkW n).toNat = n % 2 ^ 64 := BitVec.toNat_ofNat n 64

/-- A Reset value fits the register. -/
theorem RegDef.reset_lt {r : RegDef} (h : ∀ f ∈ r.flds, f.lo + f.w ≤ 64) (i : Nat) : r.reset i < 2 ^ 64 := by
  unfold RegDef.reset
  have key : ∀ (l : List FldDef) (a : Nat), a < 2 ^ 64 → (∀ f ∈ l, f.lo + f.w ≤ 64) →
      l.foldl (fun a f => a ||| (f.reset i % 2 ^ f.w) <<< f.lo) a < 2 ^ 64 := by
    intro l
    induction l with
    | nil => intro a ha _; exact ha
    | cons f t ih =>
      intro a ha hl
      refine ih _ (Nat.or_lt_two_pow ha ?_) fun g hg => hl g (List.mem_cons_of_mem _ hg)
      have h1 : f.reset i % 2 ^ f.w < 2 ^ f.w := Nat.mod_lt _ (Nat.two_pow_pos _)
      have h2 := hl f List.mem_cons_self
      rw [Nat.shiftLeft_eq]
      calc f.reset i % 2 ^ f.w * 2 ^ f.lo < 2 ^ f.w * 2 ^ f.lo := Nat.mul_lt_mul_of_pos_right h1 (Nat.two_pow_pos _)
        _ = 2 ^ (f.w + f.lo) := (Nat.pow_add _ _ _).symm
        _ ≤ 2 ^ 64 := Nat.pow_le_pow_right (by decide) (by omega)
  exact key r.flds 0 (by decide) h

theorem Dev.find_setReg_ne {d : Dev} {r : RegDef} {v u i o : Nat} (h : o ≠ r.addr u i) :
    SMap.find (d.setReg r v u i).regs o = SMap.find d.regs o := by simpa [Dev.setReg] using SMap.find_put_ne h _ _ _

theorem Dev.reg_setReg_ne {d : Dev} {r q : RegDef} {v u i u' i' : Nat} (h : q.addr u' i' ≠ r.addr u i) :
    (d.setReg r v u i).reg q u' i' = d.reg q u' i' := by simp [Dev.reg, Dev.find_setReg_ne h]

theorem Dev.reg_setReg {d : Dev} {r : RegDef} {v u i : Nat} (hr : r.reset i < 2 ^ 64) :
    (d.setReg r v u i).reg r u i = v % 2 ^ 64 := by
  unfold Dev.reg Dev.setReg
  simp only [SMap.find_put_same]
  by_cases h : mkW v = mkW (r.reset i)
  · have := congrArg BitVec.toNat h
    simp only [mkW_toNat, Nat.mod_eq_of_lt hr] at this
    simpa [h] using this.symm
  · simp [h]

theorem Dev.setFld_eq (d : Dev) (r : RegDef) (f : FldDef) (x u i : Nat) :
    d.setFld r f x u i = d.setReg r (setBits (d.reg r u i) f.lo f.w x) u i := rfl
theorem Dev.stick_eq (d : Dev) (r : RegDef) (f : FldDef) (n u i : Nat) :
    d.stick r f n u i = d.setReg r (setBits (d.reg r u i) f.lo f.w (min (d.fld r f u i + n) (2 ^ f.w - 1))) u i := rfl
theorem Dev.bump_eq (d : Dev) (r : RegDef) (f : FldDef) (n u i : Nat) :
    d.bump r f n u i = d.setReg r (setBits (d.reg r u i) f.lo f.w (d.fld r f u i + n)) u i := rfl

theorem Dev.reg_of_find {d e : Dev} {r : RegDef} {u i : Nat} (h : SMap.find e.regs (r.addr u i) = SMap.find d.regs (r.addr u i)) :
    e.reg r u i = d.reg r u i := by unfold Dev.reg; rw [h]

theorem Dev.reg_lt (d : Dev) {r : RegDef} (u : Nat) {i : Nat} (hr : r.reset i < 2 ^ 64) : d.reg r u i < 2 ^ 64 := by
  unfold Dev.reg; split
  · exact BitVec.isLt _
  · exact hr

/-- A field after it is stored. -/
theorem Dev.fld_setFld {d : Dev} {r : RegDef} {f : FldDef} {x u i : Nat} (hr : r.reset i < 2 ^ 64) (hf : f.lo + f.w ≤ 64) :
    (d.setFld r f x u i).fld r f u i = x % 2 ^ f.w := by
  unfold Dev.fld
  rw [Dev.setFld_eq, Dev.reg_setReg hr, Nat.mod_eq_of_lt (setBits_lt hf (Dev.reg_lt d u hr)), bitsOf_setBits]

/-- Another field of the register. -/
theorem Dev.fld_setFld_ne {d : Dev} {r : RegDef} {f g : FldDef} {x u i : Nat} (hr : r.reset i < 2 ^ 64) (hf : f.lo + f.w ≤ 64)
    (h : g.lo + g.w ≤ f.lo ∨ f.lo + f.w ≤ g.lo) : (d.setFld r f x u i).fld r g u i = d.fld r g u i := by
  unfold Dev.fld
  rw [Dev.setFld_eq, Dev.reg_setReg hr, Nat.mod_eq_of_lt (setBits_lt hf (Dev.reg_lt d u hr)), bitsOf_setBits_ne h]

theorem Dev.fld_setReg_ne {d : Dev} {r q : RegDef} {f : FldDef} {v u i u' i' : Nat} (h : q.addr u' i' ≠ r.addr u i) :
    (d.setReg r v u i).fld q f u' i' = d.fld q f u' i' := by unfold Dev.fld; rw [Dev.reg_setReg_ne h]

theorem Dev.fld_setReg {d : Dev} {r : RegDef} {f : FldDef} {v u i : Nat} (hr : r.reset i < 2 ^ 64) (hv : v < 2 ^ 64) :
    (d.setReg r v u i).fld r f u i = bitsOf v f.lo f.w := by unfold Dev.fld; rw [Dev.reg_setReg hr, Nat.mod_eq_of_lt hv]

/-! ### Registers alone change -/

/-- `d'` is `d` with other register contents, at offsets of `p` at most. -/
def Dev.RegsOnly (p : Nat → Prop) (d d' : Dev) : Prop :=
  d' = { d with regs := d'.regs } ∧ ∀ o, ¬ p o → SMap.find d'.regs o = SMap.find d.regs o

theorem Dev.RegsOnly.refl (p : Nat → Prop) (d : Dev) : Dev.RegsOnly p d d := ⟨rfl, by intros; rfl⟩

theorem Dev.RegsOnly.trans {p : Nat → Prop} {a b c : Dev} (h : Dev.RegsOnly p a b) (g : Dev.RegsOnly p b c) : Dev.RegsOnly p a c :=
  ⟨by rw [g.1, h.1], fun o ho => (g.2 o ho).trans (h.2 o ho)⟩

theorem Dev.RegsOnly.mono {p q : Nat → Prop} {a b : Dev} (h : Dev.RegsOnly p a b) (hpq : ∀ o, p o → q o) : Dev.RegsOnly q a b :=
  ⟨h.1, fun o ho => h.2 o fun x => ho (hpq o x)⟩

theorem Dev.RegsOnly.setReg {p : Nat → Prop} (d : Dev) {r : RegDef} {v u i : Nat} (h : p (r.addr u i)) : Dev.RegsOnly p d (d.setReg r v u i) :=
  ⟨rfl, fun _ ho => Dev.find_setReg_ne fun e => ho (e ▸ h)⟩

theorem Dev.RegsOnly.setFld {p : Nat → Prop} (d : Dev) {r : RegDef} {f : FldDef} {x u i : Nat} (h : p (r.addr u i)) :
    Dev.RegsOnly p d (d.setFld r f x u i) := Dev.RegsOnly.setReg d h

theorem Dev.RegsOnly.stick {p : Nat → Prop} (d : Dev) {r : RegDef} {f : FldDef} {n u i : Nat} (h : p (r.addr u i)) :
    Dev.RegsOnly p d (d.stick r f n u i) := Dev.RegsOnly.setReg d h

theorem Dev.RegsOnly.bump {p : Nat → Prop} (d : Dev) {r : RegDef} {f : FldDef} {n u i : Nat} (h : p (r.addr u i)) :
    Dev.RegsOnly p d (d.bump r f n u i) := Dev.RegsOnly.setReg d h

theorem Dev.RegsOnly.each {α : Type} {p : Nat → Prop} (f : Dev → α → Dev) (hf : ∀ d a, Dev.RegsOnly p d (f d a)) (l : List α) (d : Dev) :
    Dev.RegsOnly p d (d.each l f) := by
  induction l generalizing d with
  | nil => exact Dev.RegsOnly.refl p d
  | cons a t ih => exact (hf d a).trans (ih (f d a))

theorem Dev.RegsOnly.elog {p : Nat → Prop} (d : Dev) {cnt a b : RegDef} {u x c t k : Nat} (h1 : p (cnt.addr u 0)) (h2 : ∀ n < 16, p (a.addr u n))
    (h3 : ∀ n < 16, p (b.addr u n)) : Dev.RegsOnly p d (d.elog cnt a b u x c t k) := by
  unfold Dev.elog
  simp only []
  split
  · exact Dev.RegsOnly.setReg d h1
  · next hn =>
    have hn : bitsOf (d.reg cnt u) 0 5 < 16 := by omega
    exact ((Dev.RegsOnly.setReg d (h2 _ hn)).trans (Dev.RegsOnly.setReg _ (h3 _ hn))).trans (Dev.RegsOnly.setReg _ h1)

theorem Dev.RegsOnly.glog {p : Nat → Prop} (d : Dev) {x c q t k : Nat} (h1 : p (ERR_GLOG_CNT.addr 0 0)) (h2 : ∀ n < 16, p (ERR_GLOG_A.addr 0 n))
    (h3 : ∀ n < 16, p (ERR_GLOG_B.addr 0 n)) : Dev.RegsOnly p d (d.glog x c q t k) := by
  unfold Dev.glog
  simp only []
  split
  · exact Dev.RegsOnly.setReg d h1
  · next hn =>
    have hn : bitsOf (d.reg ERR_GLOG_CNT 0) 0 5 < 16 := by omega
    exact ((Dev.RegsOnly.setReg d (h2 _ hn)).trans (Dev.RegsOnly.setReg _ (h3 _ hn))).trans (Dev.RegsOnly.setReg _ h1)

theorem Dev.RegsOnly.glog' (d : Dev) (x c q t k : Nat) : Dev.RegsOnly glogOffset d (d.glog x c q t k) :=
  Dev.RegsOnly.glog d (Or.inl rfl) (fun n hn => Or.inr ⟨n, hn, Or.inl rfl⟩) (fun n hn => Or.inr ⟨n, hn, Or.inr rfl⟩)

/-! ### Trace records and interrupts -/

/-- `d'` is `d` with trace records written and interrupts raised at most. -/
def Dev.TraceOnly (d d' : Dev) : Prop :=
  d' = { d with
    mem := d'.mem, regs := d'.regs, lostTrace := d'.lostTrace, out := d'.out, pcie := d'.pcie, dir := d'.dir, xacts := d'.xacts
    nextXid := d'.nextXid } ∧
    ∀ o, ¬ traceOffset o → SMap.find d'.regs o = SMap.find d.regs o

theorem Dev.TraceOnly.refl (d : Dev) : Dev.TraceOnly d d := ⟨rfl, fun _ _ => rfl⟩

theorem Dev.TraceOnly.trans {a b c : Dev} (h : Dev.TraceOnly a b) (g : Dev.TraceOnly b c) : Dev.TraceOnly a c :=
  ⟨by rw [g.1, h.1], fun o ho => (g.2 o ho).trans (h.2 o ho)⟩

theorem Dev.TraceOnly.of {a b : Dev} (h : Dev.RegsOnly traceOffset a b) : Dev.TraceOnly a b := ⟨by rw [h.1], h.2⟩

theorem Dev.TraceOnly.lost {a b : Dev} (h : Dev.TraceOnly a b) (l : SMap Nat) : Dev.TraceOnly a { b with lostTrace := l } :=
  ⟨by conv_lhs => rw [h.1], h.2⟩

theorem Dev.irq_only (d : Dev) (n : Nat) : Dev.TraceOnly d (d.irq n) := by
  have h : Dev.RegsOnly traceOffset d (d.setFld HUB_IRQ_STATUS HUB_IRQ_STATUS_CAUSE (d.fld HUB_IRQ_STATUS HUB_IRQ_STATUS_CAUSE + 2 ^ n)) :=
    Dev.RegsOnly.setFld d (Or.inl rfl)
  unfold Dev.irq
  simp only []
  split
  · exact Dev.TraceOnly.refl d
  · split
    · split
      · exact (Dev.TraceOnly.of h).trans ⟨rfl, fun _ _ => rfl⟩
      · exact (Dev.TraceOnly.of h).trans ⟨rfl, fun _ _ => rfl⟩
    · exact Dev.TraceOnly.of h

theorem Dev.traceMark_only (d : Dev) (r : Nat) : Dev.TraceOnly d (d.traceMark r) := by
  unfold Dev.traceMark; simp only []; split
  · exact Dev.irq_only d _
  · exact Dev.TraceOnly.refl d

theorem Dev.TraceOnly.each {α : Type} (f : Dev → α → Dev) (hf : ∀ d a, Dev.TraceOnly d (f d a)) (l : List α) (d : Dev) :
    Dev.TraceOnly d (d.each l f) := by
  induction l generalizing d with
  | nil => exact Dev.TraceOnly.refl d
  | cons a t ih => exact (hf d a).trans (ih (f d a))

/-- Invalidations leave, and with them the directory, the count and the outstanding transactions change. -/
theorem Dev.invSharers_only (d : Dev) (g : Nat) (l : List Nat) : Dev.TraceOnly d (d.invSharers g l) := by
  unfold Dev.invSharers
  refine Dev.TraceOnly.each _ (fun d s => ?_) l d
  have h : Dev.RegsOnly traceOffset d (d.bump HUB_DIR_INV HUB_DIR_INV_COUNT 1) := Dev.RegsOnly.bump d (Or.inr (Or.inl rfl))
  exact (Dev.TraceOnly.of h).trans ⟨rfl, fun _ _ => rfl⟩

theorem Dev.yokeWrite_only (d : Dev) (a n : Nat) : Dev.TraceOnly d (d.yokeWrite a n) := by
  unfold Dev.yokeWrite
  have h (q : SMap (List Nat)) : Dev.TraceOnly d { d with dir := q } := ⟨rfl, fun _ _ => rfl⟩
  exact (h _).trans (Dev.TraceOnly.each _ (fun d (p : Nat × List Nat) => Dev.invSharers_only d p.1 p.2) _ _)

theorem Dev.TraceOnly.mem {a b : Dev} (h : Dev.TraceOnly a b) (m : Mem) : Dev.TraceOnly a { b with mem := m } :=
  ⟨by conv_lhs => rw [h.1], h.2⟩

theorem Dev.tracePut_only (d : Dev) {r : Nat} (hr : r < 4) (b : List Byte) : Dev.TraceOnly d (d.tracePut r b) :=
  ((Dev.yokeWrite_only d _ _).mem _).trans (Dev.TraceOnly.of (Dev.RegsOnly.setReg _ (Or.inr (Or.inr ⟨r, hr, Or.inl rfl⟩))))

theorem Dev.traceRing_only (d : Dev) {r : Nat} (hr : r < 4) (b : List Byte) : Dev.TraceOnly d (d.traceRing r b) := by
  have lose : ∀ e : Dev, Dev.TraceOnly e { e.stick TRC_LOST TRC_LOST_COUNT 1 0 r with
      lostTrace := SMap.put 0 e.lostTrace r (SMap.get 0 e.lostTrace r + 1) } := fun e => by
    have h : Dev.RegsOnly traceOffset e (e.stick TRC_LOST TRC_LOST_COUNT 1 0 r) :=
      Dev.RegsOnly.stick e (Or.inr (Or.inr ⟨r, hr, Or.inr (Or.inr rfl)⟩))
    exact (Dev.TraceOnly.of h).lost _
  have put : ∀ e : Dev, Dev.TraceOnly e ((e.tracePut r b).traceMark r) := fun e => (Dev.tracePut_only e hr b).trans (Dev.traceMark_only _ r)
  unfold Dev.traceRing
  simp only []
  split
  · exact Dev.TraceOnly.refl d
  · split
    · refine Dev.TraceOnly.trans ?_ (put _)
      split
      · exact Dev.TraceOnly.of (Dev.RegsOnly.setReg _ (Or.inr (Or.inr ⟨r, hr, Or.inr (Or.inl rfl)⟩)))
      · exact Dev.TraceOnly.refl d
    · split
      · exact lose d
      · have first := fun (l : Nat) (x : List Byte) => show Dev.TraceOnly d (if l = 0 then d
            else { d.tracePut r x with lostTrace := SMap.put 0 d.lostTrace r 0 }) by
          split
          · exact Dev.TraceOnly.refl d
          · exact (Dev.tracePut_only d hr x).lost _
        refine Dev.TraceOnly.trans (first (SMap.get 0 d.lostTrace r) (traceBytes d.tb.time trcLost 0 0xFFFF 0 noStep d.jobId 0xFFFF 0
          (leBytes 8 (SMap.get 0 d.lostTrace r)))) ?_
        generalize (if SMap.get 0 d.lostTrace r = 0 then d else _ : Dev) = e
        split
        · exact (lose e).trans (Dev.traceMark_only _ r)
        · exact put e

theorem Dev.trace_only (d : Dev) (t kind flags furrow tag step rtn pos : Nat) (data : List Byte) :
    Dev.TraceOnly d (d.trace t kind flags furrow tag step rtn pos data) := by
  unfold Dev.trace; simp only []; split
  · next h => exact Dev.traceRing_only d h _
  · exact Dev.TraceOnly.refl d

end Sys2Proof.Machine
end

