-- ==== Sys2Proof/Laws/Memory.lean ====
section
/-! SUPPORT. What writing local memory does: the bytes read back, everything else is left alone, the canonical form is kept. -/
namespace Sys2Proof.Machine
open Sys2Proof

/-- `d'` is `d` but for memory, its error marks and headers, caches, the yoke's directory and invalidations, the counts of memory errors and the
global log. -/
def Dev.MemOnly (d d' : Dev) : Prop :=
  d' = { d with
    mem := d'.mem, hdrs := d'.hdrs, eccUE := d'.eccUE, eccCE := d'.eccCE, l1 := d'.l1, cplot := d'.cplot, dir := d'.dir, regs := d'.regs
    out := d'.out, xacts := d'.xacts, nextXid := d'.nextXid } ∧
  (∀ o, ¬ memOffset o → SMap.find d'.regs o = SMap.find d.regs o) ∧
  (SMap.wf 0 d.mem = true → SMap.wf 0 d'.mem = true) ∧
  (∀ c, SMap.find d.l1 c = none → SMap.find d'.l1 c = none)

theorem Dev.MemOnly.refl (d : Dev) : Dev.MemOnly d d := ⟨rfl, fun _ _ => rfl, id, fun _ => id⟩

theorem Dev.MemOnly.trans {a b c : Dev} (h : Dev.MemOnly a b) (g : Dev.MemOnly b c) : Dev.MemOnly a c :=
  ⟨by rw [g.1, h.1], fun o ho => (g.2.1 o ho).trans (h.2.1 o ho), fun w => g.2.2.1 (h.2.2.1 w), fun c w => g.2.2.2 c (h.2.2.2 c w)⟩

theorem Dev.MemOnly.foldl {α : Type} (f : Dev → α → Dev) (hf : ∀ d a, Dev.MemOnly d (f d a)) (l : List α) (d : Dev) : Dev.MemOnly d (l.foldl f d) := by
  induction l generalizing d with
  | nil => exact Dev.MemOnly.refl d
  | cons a t ih => exact (hf d a).trans (ih (f d a))

/-- As `foldl`, where only the list's own elements need keep the rest. -/
theorem Dev.MemOnly.foldl_mem {α : Type} (f : Dev → α → Dev) (l : List α) (hf : ∀ d, ∀ a ∈ l, Dev.MemOnly d (f d a)) (d : Dev) :
    Dev.MemOnly d (l.foldl f d) := by
  induction l generalizing d with
  | nil => exact Dev.MemOnly.refl d
  | cons a t ih => exact (hf d a List.mem_cons_self).trans (ih (fun d b hb => hf d b (List.mem_cons_of_mem _ hb)) (f d a))

theorem Dev.MemOnly.of {p : Nat → Prop} (hp : ∀ o, p o → memOffset o) {a b : Dev} (h : Dev.RegsOnly p a b) : Dev.MemOnly a b := by
  refine ⟨by rw [h.1], fun o ho => h.2 o fun x => ho (hp o x), fun w => ?_, fun c w => ?_⟩
  · rw [h.1]; exact w
  · rw [h.1]; exact w

theorem stackOf_lt (a : Nat) : stackOf a < 20 := Nat.mod_lt _ (by decide)

theorem Dev.correct_memOnly (d : Dev) (w : Nat) : Dev.MemOnly d (d.correct w) := by
  unfold Dev.correct
  refine Dev.MemOnly.trans (b := { d with eccCE := d.eccCE.del w }) ⟨rfl, fun _ _ => rfl, id, fun _ => id⟩ ?_
  refine (Dev.MemOnly.of (p := eccOffset) (fun o h => .inr (.inl h)) (Dev.RegsOnly.stick _ ?_)).trans
    (Dev.MemOnly.of (p := eccOffset) (fun o h => .inr (.inl h)) (Dev.RegsOnly.setReg _ ?_))
  · exact ⟨_, stackOf_lt _, .inl rfl⟩
  · exact ⟨_, stackOf_lt _, .inr rfl⟩

theorem Dev.countUE_memOnly (d : Dev) (w : Nat) : Dev.MemOnly d (d.countUE w) := by
  unfold Dev.countUE
  refine Dev.MemOnly.trans (b := { d with eccUE := d.eccUE.add w }) ⟨rfl, fun _ _ => rfl, id, fun _ => id⟩ ?_
  exact Dev.MemOnly.of (p := eccOffset) (fun o h => .inr (.inl h)) (Dev.RegsOnly.stick _ ⟨_, stackOf_lt _, .inl rfl⟩)

theorem Dev.glog_memOnly (d : Dev) (x c q t k : Nat) : Dev.MemOnly d (d.glog x c q t k) :=
  Dev.MemOnly.of (fun _ h => .inr (.inr h)) (Dev.RegsOnly.glog' d x c q t k)

theorem Dev.yokeWrite_memOnly (d : Dev) (a n : Nat) : Dev.MemOnly d (d.yokeWrite a n) := by
  unfold Dev.yokeWrite
  have h0 : Dev.MemOnly d { d with dir := d.dir.filter fun p => !(decide (a / 256 ≤ p.1) && decide (p.1 ≤ (a + n - 1) / 256)) } :=
    ⟨rfl, fun _ _ => rfl, id, fun _ => id⟩
  refine h0.trans (Dev.MemOnly.foldl _ (fun d p => ?_) _ _)
  unfold Dev.invSharers
  refine Dev.MemOnly.foldl _ (fun d s => ?_) _ _
  have h : Dev.MemOnly d (d.bump HUB_DIR_INV HUB_DIR_INV_COUNT 1) :=
    Dev.MemOnly.of (p := (· = HUB_DIR_INV.addr 0 0)) (fun _ h => .inl h) (Dev.RegsOnly.bump d rfl)
  exact h.trans ⟨rfl, fun _ _ => rfl, id, fun _ => id⟩

theorem Dev.write_only (d : Dev) (a : Nat) (bs : List Byte) : Dev.MemOnly d (d.write a bs) := by
  unfold Dev.write
  split
  · exact Dev.MemOnly.refl d
  · simp only []
    have h0 : Dev.MemOnly d (if a < hbmSize then d.yokeWrite a bs.length else d) := by
      split
      · exact Dev.yokeWrite_memOnly d _ _
      · exact Dev.MemOnly.refl d
    refine h0.trans ⟨rfl, fun _ _ => rfl, fun w => ?_, fun _ => id⟩
    exact Mem.wf_write w a bs

theorem SMap.find_map {α : Type} (f : Nat × α → Nat × α) (hf : ∀ p, (f p).1 = p.1) (m : SMap α) (k : Nat) :
    SMap.find m k = none → SMap.find (m.map f) k = none := by
  induction m with
  | nil => exact id
  | cons p t ih =>
    intro h
    have hk : p.1 ≠ k := by
      intro e
      obtain ⟨a, v⟩ := p
      simp only at e
      simp [SMap.find, e] at h
    have h' : SMap.find t k = none := by
      obtain ⟨a, v⟩ := p
      simpa [SMap.find, hk] using h
    rw [List.map_cons]
    have hq := hf p
    generalize f p = q at *
    obtain ⟨a, v⟩ := q
    simp only at hq
    have : ¬ a = k := by rw [hq]; exact hk
    simp only [SMap.find, this, if_false]
    exact ih h'

theorem Dev.cpPatch_only (d : Dev) (die a : Nat) (bs : List Byte) : Dev.MemOnly d (d.cpPatch die a bs) :=
  ⟨rfl, fun _ _ => rfl, id, fun _ => id⟩

theorem Dev.cachePatch_only (d : Dev) (c a : Nat) (bs : List Byte) : Dev.MemOnly d (d.cachePatch c a bs) := by
  refine Dev.MemOnly.trans (b := d.l1Patch c a bs) ⟨rfl, fun _ _ => rfl, id, fun c' h => ?_⟩ (Dev.cpPatch_only _ _ a bs)
  exact SMap.find_map _ (fun p => by split <;> rfl) _ _ h

theorem Dev.plain_only (d : Dev) (a n : Nat) : Dev.MemOnly d (d.plain a n) := by
  unfold Dev.plain; split
  · exact Dev.MemOnly.refl d
  · exact ⟨rfl, fun _ _ => rfl, id, fun _ => id⟩

theorem Dev.homeWrite_only (d : Dev) (a : Nat) (bs : List Byte) : Dev.MemOnly d (d.homeWrite a bs) := by
  unfold Dev.homeWrite; simp only []; split
  · exact Dev.write_only d a bs
  · exact (Dev.write_only d a bs).trans (Dev.plain_only _ _ _)

theorem Dev.teamWrite_only (d : Dev) (c a : Nat) (bs : List Byte) : Dev.MemOnly d (d.teamWrite c a bs) :=
  (Dev.homeWrite_only d a bs).trans (Dev.cachePatch_only _ c a bs)

theorem Dev.writeMasked_only (d : Dev) (a : Nat) (bs : List Byte) (m : List Bool) : Dev.MemOnly d (d.writeMasked a bs m) := by
  unfold Dev.writeMasked
  refine Dev.MemOnly.trans (b := if a < hbmSize then d.each ((partMasked a m).filter d.eccCE.has) Dev.correct else d) ?_ ?_
  · split
    · exact Dev.MemOnly.foldl _ Dev.correct_memOnly _ _
    · exact Dev.MemOnly.refl d
  · exact Dev.MemOnly.foldl _ (fun d _ => Dev.write_only d _ _) _ _

theorem Dev.writeBack_only (d : Dev) (c : Nat) (l : Line) : Dev.MemOnly d (d.writeBack c l) := by
  have hc (e : Dev) (ws : List Nat) : Dev.MemOnly e (e.each ws fun d w => (d.countUE w).glog (8 * w) 0x07 reqTeam 0 noStep) :=
    Dev.MemOnly.foldl _ (fun d w => (Dev.countUE_memOnly d w).trans (Dev.glog_memOnly _ _ _ _ _ _)) _ _
  have hp (e : Dev) (b : Bool) : Dev.MemOnly e (if b then e else e.plain l.addr l.bytes.length) := by
    split
    · exact Dev.MemOnly.refl _
    · exact Dev.plain_only _ _ _
  have hf (e : Dev) (ps : List ((Byte × Bool) × Nat)) :
      Dev.MemOnly e (ps.foldl (fun d p => if p.1.2 then d.cpPatch (dieOf c) (l.addr + p.2) [p.1.1] else d) e) :=
    Dev.MemOnly.foldl _ (fun d p => by
      split
      · exact Dev.cpPatch_only d _ _ _
      · exact Dev.MemOnly.refl d) _ _
  unfold Dev.writeBack
  generalize (if l.addr < hbmSize then (partMasked l.addr l.mask).filter d.eccUE.has else []) = bad
  exact (((hc d bad).trans (Dev.writeMasked_only _ _ _ _)).trans (hp _ _)).trans (hf _ _)

theorem Dev.flushCore_only (d : Dev) (c : Nat) : Dev.MemOnly { d with coreCopy := SMap.erase d.coreCopy c } (d.flushCore c) := by
  unfold Dev.flushCore; exact Dev.MemOnly.foldl _ (fun d l => Dev.writeBack_only d c l) _ _

theorem Dev.flushDie_only (d : Dev) (c : Nat) : Dev.MemOnly { d with dieCopy := SMap.erase d.dieCopy (dieOf c) } (d.flushDie c) := by
  unfold Dev.flushDie; exact Dev.MemOnly.foldl _ (fun d l => Dev.writeBack_only d c l) _ _

/-- The end of a launch: the core's and its die's private copies are gone into memory, its L1 is empty; nothing but memory and caches changed. -/
theorem Dev.launchEnd_spec (d : Dev) (c : Nat) :
    let e := d.launchEnd c
    e = { d with
      mem := e.mem, hdrs := e.hdrs, eccUE := e.eccUE, eccCE := e.eccCE, l1 := e.l1, cplot := e.cplot, coreCopy := SMap.erase d.coreCopy c
      dieCopy := SMap.erase d.dieCopy (dieOf c), dir := e.dir, regs := e.regs, out := e.out, xacts := e.xacts, nextXid := e.nextXid } ∧
    (∀ o, ¬ memOffset o → SMap.find e.regs o = SMap.find d.regs o) ∧ SMap.find e.l1 c = none ∧
    (SMap.wf 0 d.mem = true → SMap.wf 0 e.mem = true) := by
  have h1 := Dev.flushCore_only d c
  have h2 := Dev.flushDie_only (d.flushCore c) c
  unfold Dev.launchEnd
  generalize (d.flushCore c).flushDie c = e at *
  generalize d.flushCore c = b at *
  simp only [Dev.dropL1]
  refine ⟨?_, fun o ho => (h2.2.1 o ho).trans (h1.2.1 o ho), SMap.find_erase_same _ _, fun w => h2.2.2.1 (h1.2.2.1 w)⟩
  conv_lhs => rw [h2.1, h1.1]

/-- A byte of memory after a write: the bytes written, and no other. -/
theorem Dev.write_byte (d : Dev) (a : Nat) (bs : List Byte) (x : Nat) :
    (d.write a bs).mem.byte x = if a ≤ x ∧ x < a + bs.length then bs.getD (x - a) 0 else d.mem.byte x := by
  have hs : ∀ (g : Nat) (l : List Nat) (e : Dev), (e.invSharers g l).mem = e.mem := fun g l => by
    unfold Dev.invSharers Dev.each
    induction l with
    | nil => intro e; rfl
    | cons s t ih => intro e; rw [List.foldl_cons, ih]; rfl
  have hy : ∀ n, (d.yokeWrite a n).mem = d.mem := fun n => by
    have g : ∀ (l : List (Nat × List Nat)) (e : Dev), (l.foldl (fun d p => d.invSharers p.1 p.2) e).mem = e.mem := by
      intro l
      induction l with
      | nil => intro e; rfl
      | cons p t ih => intro e; rw [List.foldl_cons, ih, hs]
    unfold Dev.yokeWrite; exact g _ _
  unfold Dev.write
  split
  · next h0 => rw [if_neg (by omega)]
  · simp only []
    rw [Mem.byte_write]
    split
    · rfl
    · split
      · rw [hy]
      · rfl

/-- The device's memory stays canonical when bytes are written to it. -/
theorem Dev.write_wf {d : Dev} (h : Memory.wf d.mem = true) (a : Nat) (bs : List Byte) : Memory.wf (d.write a bs).mem = true :=
  (Dev.write_only d a bs).2.2.1 h

/-- Memory at reset is canonical. -/
theorem reset_mem_wf : Memory.wf State.reset.dev.mem = true := rfl

end Sys2Proof.Machine
end

