-- ==== Sys2Proof/Laws/Run.lean ====
section
/-! SUPPORT. What running a meaning does, once for each way of running one: when it completes and in which state, when it faults, what it leaves
alone, and what it does while the device is stopped. -/
namespace Sys2Proof.Machine
open Sys2Proof

/-- The outcome of a command is a next state with tally and queue as they were, where the operands name units that exist, and a fault elsewhere. -/
def onDevice (ok : Bool) (s : State) (o : Host.Outcome State Fault Refusal) : Prop :=
  (ok = true → ∃ t, o = .next t ∧ devOnly s t) ∧ (ok = false → o = .fault .noSuchUnit)

theorem runDev_onDevice (ok : Bool) (f : Dev → Dev) (s : State) : onDevice ok s (runDev ok f s) := by
  cases ok <;> simp [onDevice, runDev, devOnly]

theorem runLive_onDevice (ok : Bool) (f : Dev → Dev) (s : State) : onDevice ok s (runLive ok f s) := runDev_onDevice _ _ _

theorem runWho_onDevice (ok : Bool) (w : Who) (f : Dev → Dev) (s : State) : onDevice ok s (runWho ok w f s) := runDev_onDevice _ _ _

theorem runReg_onDevice (ok : Bool) (w : Who) (o : Dev → Nat) (f : Dev → Dev) (s : State) : onDevice ok s (runReg ok w o f s) := by
  unfold runReg; exact runWho_onDevice _ _ _ _

theorem runAccess_onDevice (ok : Bool) (w : Who) (f g : Dev → Dev) (s : State) : onDevice ok s (runAccess ok w f g s) := runDev_onDevice _ _ _

theorem runMgmt_onDevice (f : Dev → Dev) (s : State) : onDevice true s (runMgmt f s) := runDev_onDevice _ _ _

theorem runTap_onDevice (f : Dev → Dev) (s : State) : onDevice true s (runTap f s) := runDev_onDevice _ _ _

/-- A tally command runs on the tally alone. -/
theorem runTally_only (f : Tally → Tally) (s : State) : ∃ t, runTally f s = .next t ∧ tallyOnly s t ∧ t.tally = f s.tally :=
  ⟨_, rfl, ⟨rfl, rfl⟩, rfl⟩

theorem runAccess_ok {ok : Bool} (h : ok = true) {s : State} {w : Who} (hr : s.dev.reach w = true) (f g : Dev → Dev) :
    runAccess ok w f g s = .next { s with dev := f { s.dev with out := [] } } := by simp [runAccess, runDev, h, reach_out, hr]

theorem runMgmt_ok {s : State} (h : s.dev.firmware = true) (f : Dev → Dev) : runMgmt f s = .next { s with dev := f { s.dev with out := [] } } := by
  have : Dev.firmware { s.dev with out := [] } = true := h
  simp [runMgmt, runDev, this]

theorem runTap_ok {s : State} (h : s.dev.halt ≠ .por) (f : Dev → Dev) : runTap f s = .next { s with dev := f { s.dev with out := [] } } := by
  simp [runTap, runDev, h]

/-! ### A stopped device -/

/-- The device is as it was, but for the answers of the last command. -/
def idled (s : State) (out : List Out) (o : Host.Outcome State Fault Refusal) : Prop := o = .next { s with dev := { s.dev with out := out } }

theorem reach_dead {d : Dev} (h : d.live = false) (w : Who) : d.reach w = false := by simp [Dev.reach, h]

/-- What a device that does not run answers: nothing to the host, an error to others (R409). -/
def deadOut (w : Who) : List Out := if w = .host then [] else [.err]

theorem unreached_dead {d : Dev} (hl : d.live = false) (w : Who) : Dev.unreached { d with out := [] } w = { d with out := deadOut w } := by
  cases w <;> simp [Dev.unreached, deadOut, live_out, hl, Dev.emit]

theorem runWho_dead {ok : Bool} (h : ok = true) {s : State} (hl : s.dev.live = false) (w : Who) (f : Dev → Dev) :
    idled s (deadOut w) (runWho ok w f s) := by
  simp [idled, runWho, runDev, h, reach_out, reach_dead hl, unreached_dead hl]

theorem runAccess_dead {ok : Bool} (h : ok = true) {s : State} (hl : s.dev.live = false) (w : Who) (f g : Dev → Dev) :
    idled s (deadOut w) (runAccess ok w f g s) := by
  have : Dev.inRecovery { s.dev with out := [] } w = false := by simp [Dev.inRecovery, live_out, hl]
  simp [idled, runAccess, runDev, h, reach_out, reach_dead hl, this, unreached_dead hl]

theorem runMgmt_dead {s : State} (hl : s.dev.live = false) (f : Dev → Dev) : idled s [] (runMgmt f s) := by
  have : Dev.firmware { s.dev with out := [] } = false := by simp [Dev.firmware, live_out, hl]
  simp [idled, runMgmt, runDev, this]

end Sys2Proof.Machine
end

