-- ==== Sys2Proof/Laws/Tally.lean ====
section
/-! SUPPORT. What the tally's shared operations do: logging an event, adding a sample period's energies, ending a sample period. -/
namespace Sys2Proof.Machine
open Sys2Proof

/-- Logging changes the log and the count of lost events only. -/
theorem Tally.event_eq (t : Tally) (c x : Nat) : t.event c x = { t with log := (t.event c x).log, lost := (t.event c x).lost } := by
  unfold Tally.event; split
  · rfl
  · split <;> rfl

/-- Log entries stay, in their order (R346). -/
theorem Tally.event_log (t : Tally) (c x : Nat) : t.log <+: (t.event c x).log := by
  unfold Tally.event; split
  · exact List.prefix_append _ _
  · split
    · exact List.prefix_append _ _
    · exact List.prefix_rfl

/-- With two places left an event is one entry more (R346). -/
theorem Tally.event_room {t : Tally} (h : t.log.length < 1023) (c x : Nat) : t.event c x = { t with log := t.log ++ [tallyEntry t c x] } := by
  simp [Tally.event, h, tallyEntry, Tally.uwh]

/-- The log never exceeds its 1,024 entries, and events are lost only when all are in use (R346). -/
theorem Tally.event_bound {t : Tally} (h : t.log.length ≤ 1024) (hl : 0 < t.lost → t.log.length = 1024) (hm : t.lost < 2 ^ 32) (c x : Nat) :
    (t.event c x).log.length ≤ 1024 ∧ (0 < (t.event c x).lost → (t.event c x).log.length = 1024) ∧ (t.event c x).lost < 2 ^ 32 := by
  unfold Tally.event; split
  · exact ⟨by simp; omega, fun h0 => by have := hl h0; omega, hm⟩
  · split
    · exact ⟨by simp; omega, fun _ => by simp; omega, hm⟩
    · refine ⟨h, fun _ => by simp only; omega, ?_⟩
      simp only; omega

theorem sum_zip_add (a b : List Nat) (h : a.length = b.length) : ((a.zip b).map fun p => p.1 + p.2).sum = a.sum + b.sum := by
  induction a generalizing b with
  | nil => cases b <;> simp_all
  | cons x a ih =>
    cases b with
    | nil => simp at h
    | cons y b =>
      have := ih b (by simpa using h)
      simp only [List.zip_cons_cons, List.map_cons, List.sum_cons, this]; omega

theorem foldl_add_sum (l : List Nat) : l.foldl (· + ·) 0 = l.sum := by
  rw [List.sum_eq_foldl]

/-- Energies added per channel are added to the package (R340). -/
theorem Tally.addEnergy_sum {t : Tally} {es : List Nat} (h : t.ch.length = es.length) (hs : t.ch.sum = t.energy) :
    (t.addEnergy es).ch.sum = (t.addEnergy es).energy ∧ (t.addEnergy es).energy = t.energy + es.sum ∧ (t.addEnergy es).ch.length = es.length := by
  simp [Tally.addEnergy, foldl_add_sum, sum_zip_add _ _ h, hs, h]

/-- A sample period's energies leave log, calibration, seal and copies alone, and pulses only grow (R342). -/
theorem Tally.addEnergy_frame (t : Tally) (es : List Nat) :
    t.addEnergy es = { t with energy := (t.addEnergy es).energy, ch := (t.addEnergy es).ch, wsum := (t.addEnergy es).wsum, pulses := (t.addEnergy es).pulses,
                              pulseLow := (t.addEnergy es).pulseLow } ∧ t.pulses ≤ (t.addEnergy es).pulses := ⟨rfl, Nat.le_add_right _ _⟩

/-- The end of a sample period moves time only. -/
theorem Tally.period_frame (t : Tally) :
    t.period = { t with
      samples := t.period.samples, secs := t.period.secs, xtalSecs := t.period.xtalSecs, watts := t.period.watts, wsum := t.period.wsum
      annRate := t.period.annRate } := by
  unfold Tally.period; split <;> rfl

/-- Time stays in its range (R346). -/
theorem Tally.period_bound {t : Tally} (h : t.secs < 2 ^ 48) : t.period.secs < 2 ^ 48 ∧ t.period.samples < 8000 := by
  unfold Tally.period; split
  · exact ⟨h, by assumption⟩
  · exact ⟨Nat.mod_lt _ (by decide), by show 0 < 8000; decide⟩

end Sys2Proof.Machine
end

