-- ==== Sys2Proof/Laws/Team.lean ====
section
/-! SUPPORT. What issuing, retiring and the register forms of a team's instruction do. -/
namespace Sys2Proof

/-! ### Lists -/

theorem setAt_length {α : Type} (l : List α) (i : Nat) (v : α) : (setAt l i v).length = l.length := by
  induction l generalizing i with
  | nil => rfl
  | cons a t ih => cases i <;> simp [setAt, ih]

theorem setAt_get {α : Type} (l : List α) (i k : Nat) (v : α) :
    (setAt l i v)[k]? = if k = i ∧ i < l.length then some v else l[k]? := by
  induction l generalizing i k with
  | nil => simp [setAt]
  | cons a t ih =>
    cases i with
    | zero => cases k <;> simp [setAt]
    | succ i => cases k <;> simp [setAt, ih]

/-! ### Registers of a slot -/

theorem Slot.rv_wv (x : Slot) {r l v r' l' : Nat} (hl : l < 32) (hl' : l' < 32) :
    (x.wv r l v).rv r' l' = if r' = r ∧ l' = l ∧ r ≠ 255 then v % 2 ^ 32 else x.rv r' l' := by
  unfold Slot.wv Slot.rv
  by_cases h255 : r = 255
  · simp [h255]
  · by_cases h' : r' = 255
    · have : r' ≠ r := by omega
      rw [if_pos h', if_neg (fun h => this h.1), if_pos h']
    · simp only [h255, h', if_false, SMap.get_put]
      by_cases e : r' = r ∧ l' = l
      · obtain ⟨rfl, rfl⟩ := e; simp [h255]
      · have : 32 * r' + l' ≠ 32 * r + l := by
          intro h; apply e; omega
        simp [this]; intro h1 h2; exact absurd ⟨h1, h2⟩ e

@[simp] theorem Slot.wv_u (x : Slot) (r l v : Nat) : (x.wv r l v).u = x.u := by unfold Slot.wv; split <;> rfl
@[simp] theorem Slot.wv_p (x : Slot) (r l v : Nat) : (x.wv r l v).p = x.p := by unfold Slot.wv; split <;> rfl
@[simp] theorem Slot.wu_v (x : Slot) (r v : Nat) : (x.wu r v).v = x.v := rfl
@[simp] theorem Slot.wu_p (x : Slot) (r v : Nat) : (x.wu r v).p = x.p := rfl

theorem Slot.ru_wu (x : Slot) (r v r' : Nat) : (x.wu r v).ru r' = if r' = r then v % 2 ^ 32 else x.ru r' := by
  simp [Slot.wu, Slot.ru, SMap.get_put]

/-- `y` is `x` but for its v, u and p registers. -/
def Slot.RegsOf (x y : Slot) : Prop := y = { x with v := y.v, u := y.u, p := y.p }

theorem Slot.RegsOf.refl (x : Slot) : Slot.RegsOf x x := rfl
theorem Slot.RegsOf.trans {x y z : Slot} (h : Slot.RegsOf x y) (g : Slot.RegsOf y z) : Slot.RegsOf x z := by
  unfold Slot.RegsOf at *; rw [g, h]
theorem Slot.RegsOf.wv (x : Slot) (r l v : Nat) : Slot.RegsOf x (x.wv r l v) := by unfold Slot.wv Slot.RegsOf; split <;> rfl
theorem Slot.RegsOf.wu (x : Slot) (r v : Nat) : Slot.RegsOf x (x.wu r v) := rfl
theorem Slot.RegsOf.wp (x : Slot) (i a m : Nat) : Slot.RegsOf x (x.wp i a m) := by unfold Slot.wp Slot.RegsOf; split <;> rfl

theorem Slot.RegsOf.foldl {α : Type} (f : Slot → α → Slot) (h : ∀ x a, Slot.RegsOf x (f x a)) (l : List α) (x : Slot) : Slot.RegsOf x (l.foldl f x) := by
  induction l generalizing x with
  | nil => rfl
  | cons a t ih => exact (h x a).trans (ih (f x a))

theorem Slot.RegsOf.wr (x : Slot) (r n l v : Nat) : Slot.RegsOf x (x.wr r n l v) := by
  unfold Slot.wr; split
  · rfl
  · exact Slot.RegsOf.foldl _ (fun x i => Slot.RegsOf.wv x _ _ _) _ _

theorem Slot.RegsOf.result (x : Slot) (w n : Nat) (vals : List (Nat × Nat)) : Slot.RegsOf x (x.result w n vals) := by
  unfold Slot.result; split
  · split
    · exact Slot.RegsOf.foldl _ (fun x i => Slot.RegsOf.wu x _ _) _ _
    · rfl
  · exact Slot.RegsOf.foldl _ (fun x (p : Nat × Nat) => Slot.RegsOf.wr x _ _ p.1 p.2) _ _

@[simp] theorem Slot.wr_u (x : Slot) (r n l v : Nat) : (x.wr r n l v).u = x.u := by
  unfold Slot.wr; split
  · rfl
  · generalize List.range n = is
    induction is generalizing x with
    | nil => rfl
    | cons i t ih => simp [List.foldl_cons, ih]

@[simp] theorem Slot.wr_p (x : Slot) (r n l v : Nat) : (x.wr r n l v).p = x.p := by
  unfold Slot.wr; split
  · rfl
  · generalize List.range n = is
    induction is generalizing x with
    | nil => rfl
    | cons i t ih => simp [List.foldl_cons, ih]

/-- A v register after a write of `n` words from register `r` up in lane `l`. -/
theorem Slot.rv_wr (x : Slot) {r n l v r' l' : Nat} (hl : l < 32) (hl' : l' < 32) :
    (x.wr r n l v).rv r' l' =
      if r ≠ 255 ∧ r' ≠ 255 ∧ l' = l ∧ r ≤ r' ∧ r' < r + n then v / 2 ^ (32 * (r' - r)) % 2 ^ 32 else x.rv r' l' := by
  unfold Slot.wr
  by_cases h255 : r = 255
  · simp [h255]
  · simp only [h255, if_false]
    induction n with
    | zero =>
      rw [if_neg (by omega)]; rfl
    | succ n ih =>
      rw [List.range_succ, List.foldl_append, List.foldl_cons, List.foldl_nil, Slot.rv_wv _ hl hl', ih]
      by_cases e : r' = r + n
      · subst e
        by_cases e2 : l' = l <;> by_cases e3 : r + n = 255 <;> simp [e2, e3, h255]
      · have : (r' < r + (n + 1)) = (r' < r + n) := by
          apply propext; omega
        simp [e, this]

@[simp] theorem Slot.foldl_wr_u (w n : Nat) (vals : List (Nat × Nat)) (x : Slot) :
    (vals.foldl (fun (x : Slot) (p : Nat × Nat) => x.wr w n p.1 p.2) x).u = x.u := by
  induction vals generalizing x with
  | nil => rfl
  | cons a t ih => simp [ih]

@[simp] theorem Slot.foldl_wr_p (w n : Nat) (vals : List (Nat × Nat)) (x : Slot) :
    (vals.foldl (fun (x : Slot) (p : Nat × Nat) => x.wr w n p.1 p.2) x).p = x.p := by
  induction vals generalizing x with
  | nil => rfl
  | cons a t ih => simp [ih]

/-- The v registers after each lane of a list wrote its own value. -/
theorem Slot.rv_results (r n : Nat) (f : Nat → Nat) (ls : List Nat) (hls : ∀ l ∈ ls, l < 32) (x : Slot) {r' l' : Nat} (hl' : l' < 32) :
    ((ls.map fun l => (l, f l)).foldl (fun (x : Slot) (p : Nat × Nat) => x.wr r n p.1 p.2) x).rv r' l' =
      if r ≠ 255 ∧ r' ≠ 255 ∧ l' ∈ ls ∧ r ≤ r' ∧ r' < r + n then f l' / 2 ^ (32 * (r' - r)) % 2 ^ 32 else x.rv r' l' := by
  induction ls generalizing x with
  | nil => simp
  | cons a t ih =>
    have ha : a < 32 := hls a (by simp)
    rw [List.map_cons, List.foldl_cons, ih (fun l h => hls l (by simp [h])), Slot.rv_wr x ha hl']
    by_cases h : l' = a
    · subst h
      by_cases hc : r ≠ 255 ∧ r' ≠ 255 ∧ r ≤ r' ∧ r' < r + n
      · obtain ⟨h1, h2, h3, h4⟩ := hc
        simp [h1, h2, h3, h4]
      · have n1 : ¬ (r ≠ 255 ∧ r' ≠ 255 ∧ l' ∈ t ∧ r ≤ r' ∧ r' < r + n) := fun g => hc ⟨g.1, g.2.1, g.2.2.2⟩
        have n2 : ¬ (r ≠ 255 ∧ r' ≠ 255 ∧ l' = l' ∧ r ≤ r' ∧ r' < r + n) := fun g => hc ⟨g.1, g.2.1, g.2.2.2⟩
        have n3 : ¬ (r ≠ 255 ∧ r' ≠ 255 ∧ l' ∈ l' :: t ∧ r ≤ r' ∧ r' < r + n) := fun g => hc ⟨g.1, g.2.1, g.2.2.2⟩
        rw [if_neg n1, if_neg n2, if_neg n3]
    · simp [h]

theorem lanesOf_lt {m l : Nat} (h : l ∈ lanesOf m) : l < 32 := by
  have := List.mem_of_mem_filter h
  simpa using this

theorem Slot.wru_p (x : Slot) (r n v : Nat) : (x.wru r n v).p = x.p ∧ (x.wru r n v).v = x.v := by
  unfold Slot.wru
  generalize List.range n = is
  induction is generalizing x with
  | nil => exact ⟨rfl, rfl⟩
  | cons i t ih =>
    have h := ih (x.wu (r + i) (v / 2 ^ (32 * i)))
    exact ⟨h.1, h.2⟩

theorem Slot.ru_wru (x : Slot) (r n v r' : Nat) :
    (x.wru r n v).ru r' = if r ≤ r' ∧ r' < r + n then v / 2 ^ (32 * (r' - r)) % 2 ^ 32 else x.ru r' := by
  unfold Slot.wru
  induction n with
  | zero =>
    rw [if_neg (by omega)]; rfl
  | succ n ih =>
    rw [List.range_succ, List.foldl_append, List.foldl_cons, List.foldl_nil, Slot.ru_wu, ih]
    by_cases e : r' = r + n
    · subst e; simp
    · have : (r' < r + (n + 1)) = (r' < r + n) := by
        apply propext; omega
      simp [e, this]

end Sys2Proof

namespace Sys2Proof.Machine
open Sys2Proof

/-- A lane result leaves the registers as `teamResult` says. -/
theorem teamResult_result (k : TCtx) (n : Nat) (f : Nat → Nat) {y : Slot}
    (hv : y.v = (k.x.result k.w n ((lanesOf k.act).map fun l => (l, f l))).v)
    (hu : y.u = (k.x.result k.w n ((lanesOf k.act).map fun l => (l, f l))).u)
    (hp : y.p = (k.x.result k.w n ((lanesOf k.act).map fun l => (l, f l))).p) : teamResult k n f y := by
  have rvy : ∀ r l, y.rv r l = (k.x.result k.w n ((lanesOf k.act).map fun l => (l, f l))).rv r l := by
    intro r l; simp [Slot.rv, hv]
  have ruy : ∀ r, y.ru r = (k.x.result k.w n ((lanesOf k.act).map fun l => (l, f l))).ru r := by
    intro r; simp [Slot.ru, hu]
  by_cases h : tUD k.w = true
  · have e : k.x.result k.w n ((lanesOf k.act).map fun l => (l, f l)) =
        match (lanesOf k.act).map (fun l => (l, f l)) with | (_, v) :: _ => k.x.wru (tD k.w) n v | [] => k.x := by
      unfold Slot.result; rw [if_pos h]
      all_goals (cases (lanesOf k.act).map (fun l => (l, f l)) <;> rfl)
    rw [e] at hv hp ruy
    cases hl : lanesOf k.act with
    | nil =>
      simp only [hl, List.map_nil] at hv hp ruy
      exact ⟨hp, fun h' => by simp [h] at h', fun _ => ⟨hv, by simp [hl], fun r _ => ruy r⟩⟩
    | cons a t =>
      simp only [hl, List.map_cons] at hv hp ruy
      refine ⟨hp.trans (Slot.wru_p _ _ _ _).1, fun h' => by simp [h] at h', fun _ => ⟨hv.trans (Slot.wru_p _ _ _ _).2, ?_, ?_⟩⟩
      · intro l hl2 i hi
        have : a = l := by simpa [hl] using hl2
        subst this
        rw [ruy, Slot.ru_wru]; simp [hi]
      · intro r hr
        rw [ruy, Slot.ru_wru]
        have : ¬ (tD k.w ≤ r ∧ r < tD k.w + n) := by
          rcases hr with hr | hr | hr
          · simp [hl] at hr
          · omega
          · omega
        simp [this]
  · have h' : tUD k.w = false := by simpa using h
    simp only [Slot.result, h', Bool.false_eq_true, if_false] at hv hu hp rvy
    refine ⟨hp.trans (Slot.foldl_wr_p _ _ _ _), fun _ => ⟨hu.trans (Slot.foldl_wr_u _ _ _ _), ?_, ?_⟩, fun h2 => by simp [h2] at h'⟩
    · intro l hl i hi h1 h2
      rw [rvy, Slot.rv_results _ _ _ _ (fun _ => lanesOf_lt) _ (lanesOf_lt hl)]
      simp [h1, h2, hl, hi]
    · intro r l hl hr
      rw [rvy, Slot.rv_results _ _ _ _ (fun _ => lanesOf_lt) _ hl]
      have : ¬ (tD k.w ≠ 255 ∧ r ≠ 255 ∧ l ∈ lanesOf k.act ∧ tD k.w ≤ r ∧ r < tD k.w + n) := by
        rintro ⟨a, b, c, d, e⟩
        rcases hr with hr | hr | hr | hr
        · exact a hr
        · omega
        · omega
        · exact hr c
      rw [if_neg this]

/-! ### Issue -/

theorem Slot.pick_spec {st : List (Nat × Nat)} {x x' : Slot} {pc iss : Nat} (h : Slot.pick st x = some (x', pc, iss)) :
    (∃ l, l < 32 ∧ bitOf x.exited l = false) ∧ x' = { x with stack := x'.stack } := by
  induction st with
  | nil =>
    simp only [Slot.pick] at h
    split at h
    · next l hl =>
      simp only [Option.some.injEq, Prod.mk.injEq] at h
      obtain ⟨rfl, -, -⟩ := h
      have h1 := List.find?_some hl
      have h2 := List.mem_of_find?_eq_some hl
      refine ⟨⟨l, by simpa using h2, ?_⟩, rfl⟩
      simpa [Slot.eligible, Bool.and_eq_true] using (And.right (by simpa [Slot.eligible] using h1))
    · exact absurd h (by simp)
  | cons p t ih =>
    obtain ⟨a, m⟩ := p
    simp only [Slot.pick] at h
    split at h
    · next l hl =>
      simp only [Option.some.injEq, Prod.mk.injEq] at h
      obtain ⟨rfl, -, -⟩ := h
      have h1 := List.find?_some hl
      have h2 := List.mem_of_find?_eq_some hl
      have h3 : (bitOf m l = true ∧ bitOf x.exited l = false) ∧ ¬x.pcOf l = a := by simpa [Slot.eligible] using h1
      exact ⟨⟨l, by simpa using h2, h3.1.2⟩, rfl⟩
    · exact ih h

theorem maskGo_spec (ls : List Nat) (n : Nat) :
    let m := (List.range n).foldl (fun m l => if ls.contains l then m + 2 ^ l else m) 0
    m < 2 ^ n ∧ ∀ i, m.testBit i = (decide (i < n) && ls.contains i) := by
  induction n with
  | zero => simp
  | succ n ih =>
    simp only [List.range_succ, List.foldl_append, List.foldl_cons, List.foldl_nil] at *
    generalize (List.range n).foldl (fun m l => if ls.contains l = true then m + 2 ^ l else m) 0 = m at *
    obtain ⟨h1, h2⟩ := ih
    have h3 : (2 : Nat) ^ (n + 1) = 2 ^ n + 2 ^ n := by rw [Nat.pow_succ]; omega
    by_cases hc : ls.contains n = true
    · rw [if_pos hc]
      refine ⟨by omega, fun i => ?_⟩
      rw [Nat.add_comm m]
      by_cases hi : i = n
      · subst hi
        rw [Nat.testBit_two_pow_add_eq, h2]; simp at hc ⊢; exact hc
      · by_cases hlt : i < n
        · rw [Nat.testBit_two_pow_add_gt hlt, h2]; simp [hlt]; omega
        · have : 2 ^ n + m < 2 ^ i := by
            have : (2 : Nat) ^ (n + 1) ≤ 2 ^ i := Nat.pow_le_pow_right (by decide) (by omega)
            omega
          rw [Nat.testBit_lt_two_pow this]
          have : ¬ i < n + 1 := by omega
          simp [this]
    · rw [if_neg hc]
      refine ⟨by omega, fun i => ?_⟩
      rw [h2]
      by_cases hi : i = n
      · subst hi
        have : ls.contains i = false := by simpa using hc
        simp only [this, Bool.and_false]
      · have : (i < n + 1) = (i < n) := by apply propext; omega
        simp [this]

theorem maskOf_lt (ls : List Nat) : maskOf ls < 2 ^ 32 := (maskGo_spec ls 32).1
theorem maskOf_testBit (ls : List Nat) (i : Nat) : (maskOf ls).testBit i = (decide (i < 32) && ls.contains i) := (maskGo_spec ls 32).2 i

theorem Slot.pick_mask {st : List (Nat × Nat)} {x x' : Slot} {pc iss : Nat} (h : Slot.pick st x = some (x', pc, iss)) : iss < 2 ^ 32 := by
  induction st with
  | nil =>
    simp only [Slot.pick] at h
    split at h
    · simp only [Option.some.injEq, Prod.mk.injEq] at h
      obtain ⟨-, -, rfl⟩ := h; exact maskOf_lt _
    · exact absurd h (by simp)
  | cons p t ih =>
    obtain ⟨a, m⟩ := p
    simp only [Slot.pick] at h
    split at h
    · simp only [Option.some.injEq, Prod.mk.injEq] at h
      obtain ⟨-, -, rfl⟩ := h; exact maskOf_lt _
    · exact ih h

theorem bitOf_allLanes {l : Nat} (h : l < 32) : bitOf allLanes l = true := by
  revert h; revert l; decide

theorem Slot.pick_some (x : Slot) (h : ∃ l, l < 32 ∧ bitOf x.exited l = false) (st : List (Nat × Nat)) :
    ∃ p, Slot.pick st x = some p := by
  obtain ⟨l, hl, he⟩ := h
  induction st with
  | nil =>
    simp only [Slot.pick]
    cases hf : (List.range 32).find? (x.eligible allLanes none) with
    | some l => exact ⟨_, rfl⟩
    | none =>
      have := List.find?_eq_none.mp hf l (by simpa using hl)
      simp [Slot.eligible, bitOf_allLanes hl, he] at this
  | cons p t ih =>
    obtain ⟨a, m⟩ := p
    simp only [Slot.pick]
    split
    · exact ⟨_, rfl⟩
    · exact ih

theorem Dev.readySlot_spec {d : Dev} {c j : Nat} {x : Slot} (h : d.readySlot c j = some x) :
    SMap.find (d.core c).slots j = some x ∧ x.park = none ∧ x.waiting = false ∧ x.access = none := by
  unfold Dev.readySlot at h
  simp only [] at h
  split at h
  · next y hy =>
    split at h
    · next hc =>
      cases h
      simp only [Bool.and_eq_true, Bool.not_eq_true', Option.isNone_iff_eq_none] at hc
      exact ⟨hy, hc.1.1.2, hc.1.2, hc.2⟩
    · cases h
  · cases h

/-- What a fetched instruction is: of a ready team, as its pops leave it. -/
theorem Dev.fetchT_spec {d : Dev} {c j a : Nat} {k : TCtx} (h : d.fetchT c j = .word k a) :
    k.c = c ∧ k.j = j ∧ k.t = d.core c ∧ d.agentAddr k.pc = some a ∧ k.w = d.readN a 8 ∧
    (∃ x0 x1 iss, d.readySlot c j = some x0 ∧ Slot.pick x0.stack x0 = some (x1, k.pc, iss) ∧ k.iss = iss ∧ k.act ≤ iss ∧
      k.x = if x1.stack.length < x0.stack.length then x1.progress d.tb.time else x1) := by
  unfold Dev.fetchT at h
  split at h
  · cases h
  · next x0 hr =>
    split at h
    · cases h
    · next x1 pc iss hp =>
      simp only [] at h
      split at h
      · cases h
      · next a' ha =>
        split at h
        · cases h
        · split at h
          · cases h
          · simp only [Fetched.word.injEq] at h
            obtain ⟨rfl, rfl⟩ := h
            refine ⟨rfl, rfl, rfl, ha, rfl, x0, x1, iss, hr, hp, rfl, ?_, rfl⟩
            dsimp only
            split
            · exact Nat.le_trans Nat.and_le_left Nat.and_le_left
            · exact Nat.and_le_left

/-- Everything that the issuing instruction is known to be. -/
theorem Dev.issuing_spec {d : Dev} {c j : Nat} {k : TCtx} (h : d.issuing c j = some k) :
    k.c = c ∧ k.j = j ∧ k.t = d.core c ∧ k.x.waiting = false ∧ k.x.access = none ∧ k.x.park = none ∧
      (∃ l, l < 32 ∧ bitOf k.x.exited l = false) ∧ k.act < 2 ^ 32 ∧
      (∃ x0, SMap.find (d.core c).slots j = some x0 ∧ k.x = { x0 with stack := k.x.stack, since := k.x.since, counted := k.x.counted }) ∧
      ∀ (u : Upset) (cls : Nat) (num : Nat → Bool) (body : TCtx → Dev → Dev), tCls k.w = cls → num (tNum k.w) = true →
        ∃ a, d.agentAddr k.pc = some a ∧ d.issueT c j u cls num body =
          if ((d.took c j).teamUpset k u).2 then
            body k ((((d.took c j).teamUpset k u).1.corrects a 8).bump TME_ISSUE TME_ISSUE_COUNT 1 c)
          else ((d.took c j).teamUpset k u).1 := by
  unfold Dev.issuing at h
  split at h
  · cases h
  · next ht =>
    split at h
    · next k' a hf =>
      split at h
      · next hl =>
        cases h
        obtain ⟨hc, hj, h3, ha, -, x0, x1, iss, hr, hp, -, hact, hx⟩ := Dev.fetchT_spec hf
        obtain ⟨s1, s2, s3, s4⟩ := Dev.readySlot_spec hr
        obtain ⟨he, hx1⟩ := Slot.pick_spec hp
        have hk : k.x = { x0 with stack := k.x.stack, since := k.x.since, counted := k.x.counted } := by
          rw [hx, hx1]; split <;> rfl
        refine ⟨hc, hj, h3, ?_, ?_, ?_, ?_, Nat.lt_of_le_of_lt hact (Slot.pick_mask hp), ⟨x0, s1, hk⟩, ?_⟩
        · rw [hk]; exact s3
        · rw [hk]; exact s4
        · rw [hk]; exact s2
        · rw [hk]; exact he
        · intro u cls num body h1 h2
          refine ⟨a, ha, ?_⟩
          have ht' : d.turn c j = true := by simpa using ht
          rw [Bool.and_eq_true] at hl
          unfold Dev.issueT
          simp only [ht', hf, hl.1, hl.2, h1, h2, Bool.not_true, Bool.false_eq_true, if_false, decide_true, Bool.and_self, if_true]
      · cases h
    · cases h

/-! ### Parking and retiring -/

theorem Dev.core_setCore (d : Dev) (c c' : Nat) (t : Tme) : (d.setCore c t).core c' = if c' = c then t else d.core c' := by
  simp [Dev.core, Dev.setCore, SMap.get_put]

/-- Storing a slot changes that slot of its core alone. -/
theorem Dev.setSlot_spec (d : Dev) (c j : Nat) (x : Slot) :
    SMap.find ((d.setSlot c j x).core c).slots j = some x ∧
    (d.setSlot c j x).core c = { d.core c with slots := ((d.setSlot c j x).core c).slots } ∧
    (∀ i, i ≠ j → SMap.find ((d.setSlot c j x).core c).slots i = SMap.find (d.core c).slots i) ∧
    (∀ c', c' ≠ c → (d.setSlot c j x).core c' = d.core c') ∧
    d.setSlot c j x = { d with tme := (d.setSlot c j x).tme } := by
  have e : (d.setSlot c j x).core c = { d.core c with slots := SMap.insert j x (d.core c).slots } := by
    unfold Dev.setSlot; rw [Dev.core_setCore, if_pos rfl]
  refine ⟨?_, ?_, fun i h => ?_, fun c' h => ?_, rfl⟩
  · rw [e]; exact SMap.find_insert_same _ _ _
  · rw [e]
  · rw [e]; exact SMap.find_insert_ne h _ _
  · unfold Dev.setSlot; rw [Dev.core_setCore, if_neg h]

/-- Parking stores the slot with its record; trace and interrupt follow. -/
theorem Dev.parkTeam_spec (d : Dev) (c j : Nat) (x : Slot) (k : Park) :
    Dev.TraceOnly (d.setSlot c j { x.still d.tb.time with park := some k, replay := none, step1 := false }) (d.parkTeam c j x k) := by
  unfold Dev.parkTeam Dev.traceAt; simp only []
  exact (Dev.trace_only _ _ _ _ _ _ _ _ _ _).trans (Dev.irq_only _ _)

theorem Dev.TraceOnly.core {a b : Dev} (h : Dev.TraceOnly a b) (c : Nat) : b.core c = a.core c := by rw [h.1]; rfl

/-- After an instruction the slot stays, parked again under a STEP action. -/
theorem Dev.retire_spec (d : Dev) (c j : Nat) (x : Slot) (he : ∃ l, l < 32 ∧ bitOf x.exited l = false) :
    ∃ y : Slot, y = { x with park := y.park, replay := none, step1 := false, since := y.since, counted := y.counted } ∧
      Dev.TraceOnly (d.setSlot c j y) (d.retire c j x) ∧
      (x.step1 = true → ∃ p, y.park = some p ∧ p.cause = pkStepped) ∧
      (x.step1 = false → y.park = x.park ∧ d.retire c j x = d.setSlot c j y) := by
  unfold Dev.retire
  simp only []
  by_cases hs : x.step1 = true
  · obtain ⟨⟨x', pc, iss⟩, hp⟩ := Slot.pick_some { x with replay := none } he x.stack
    rw [if_pos hs]
    simp only [hp]
    exact ⟨{ x.still d.tb.time with park := some ⟨pkStepped, pc, 0, iss, iss⟩, replay := none, step1 := false }, rfl, Dev.parkTeam_spec _ _ _ _ _,
      fun _ => ⟨⟨pkStepped, pc, 0, iss, iss⟩, rfl, rfl⟩, fun h => by simp [hs] at h⟩
  · have hs' : x.step1 = false := by simpa using hs
    refine ⟨{ x with replay := none, step1 := false }, rfl, ?_, fun h => absurd h hs, fun _ => ⟨rfl, ?_⟩⟩
    · rw [if_neg hs]
      have : ({ x with replay := none, step1 := false } : Slot) = { x with replay := none } := by rw [← hs']
      rw [this]; exact Dev.TraceOnly.refl _
    · rw [if_neg hs]
      have : ({ x with replay := none, step1 := false } : Slot) = { x with replay := none } := by rw [← hs']
      rw [this]

theorem Dev.ecc_trans {a b c : Dev} (h : b = { a with regs := b.regs, eccCE := b.eccCE }) (g : c = { b with regs := c.regs, eccCE := c.eccCE }) :
    c = { a with regs := c.regs, eccCE := c.eccCE } := by rw [g, h]

/-- Correcting an HBM word touches that word's mark and its stack's ECC registers. -/
theorem Dev.correct_spec (d : Dev) (w : Nat) :
    d.correct w = { d with regs := (d.correct w).regs, eccCE := (d.correct w).eccCE } ∧
    ∀ o, ¬ eccOffset o → SMap.find (d.correct w).regs o = SMap.find d.regs o := by
  have hs : stackOf (8 * w) < 20 := Nat.mod_lt _ (by decide)
  have h : Dev.RegsOnly eccOffset { d with eccCE := d.eccCE.del w } (d.correct w) :=
    (Dev.RegsOnly.stick _ ⟨_, hs, Or.inl rfl⟩).trans (Dev.RegsOnly.setReg _ ⟨_, hs, Or.inr rfl⟩)
  exact ⟨by conv_lhs => rw [h.1]
            rw [h.1], h.2⟩

theorem Dev.corrects_spec (d : Dev) (a n : Nat) :
    d.corrects a n = { d with regs := (d.corrects a n).regs, eccCE := (d.corrects a n).eccCE } ∧
    ∀ o, ¬ eccOffset o → SMap.find (d.corrects a n).regs o = SMap.find d.regs o := by
  unfold Dev.corrects Dev.each
  generalize d.eccCE.filter _ = l
  induction l generalizing d with
  | nil => exact ⟨rfl, fun _ _ => rfl⟩
  | cons w t ih =>
    obtain ⟨h1, h2⟩ := ih (d.correct w)
    obtain ⟨g1, g2⟩ := Dev.correct_spec d w
    rw [List.foldl_cons]
    generalize List.foldl Dev.correct (d.correct w) t = e at *
    generalize d.correct w = b at *
    exact ⟨Dev.ecc_trans g1 h1, fun o ho => (h2 o ho).trans (g2 o ho)⟩

theorem bump_addr_ne {c o : Nat} (h : eccOffset o ∨ traceOffset o) : o ≠ TME_ISSUE.addr c 0 := by
  rintro rfl
  rcases h with ⟨n, hn, h | h⟩ | h | h | ⟨r, hr, h | h | h⟩ <;>
    simp only [RegDef.addr, Blk.base, TME_ISSUE, HBM_ECC, HBM_ECC_LAST, HUB_IRQ_STATUS, HUB_DIR_INV, TRC_WR, TRC_RD, TRC_LOST] at h <;> omega

/-- What the device looks like when an instruction retires that has changed registers of `p` at most. -/
def teamBase (p : Nat → Prop) (s : State) (k : TCtx) (d : Dev) : Prop :=
  d = { s.dev with out := [], regs := d.regs, eccCE := d.eccCE, free := d.free, tme := (s.dev.took k.c k.j).tme } ∧
  regsAgree (fun o => o = TME_ISSUE.addr k.c 0 ∨ eccOffset o ∨ p o) s.dev d ∧
  d.fld TME_ISSUE TME_ISSUE_COUNT k.c = (s.dev.fld TME_ISSUE TME_ISSUE_COUNT k.c + 1) % 2 ^ 48

theorem TME_ISSUE_not_ecc (c : Nat) : ¬ eccOffset (TME_ISSUE.addr c 0) := fun h => bump_addr_ne (Or.inl h) rfl

/-- An upset that lets its consumer go on counts the rereads and changes nothing else (R352). -/
theorem Dev.teamUpset_passes (d : Dev) (k : TCtx) {u : Upset} (hu : u.passes = true) :
    (d.teamUpset k u).2 = true ∧ Dev.RegsOnly (replayOffset u) d (d.teamUpset k u).1 := by
  cases u with
  | none => exact ⟨rfl, Dev.RegsOnly.refl _ _⟩
  | replays n => exact ⟨rfl, Dev.RegsOnly.stick _ ⟨by simp, rfl⟩⟩
  | persistent a => cases hu
  | uncorrectable => cases hu

theorem TME_ISSUE_not_replay (c : Nat) (u : Upset) : ¬ replayOffset u (TME_ISSUE.addr c 0) := by
  rintro ⟨-, h⟩
  simp only [RegDef.addr, Blk.base, TME_ISSUE, ERR_REPLAY] at h; omega

/-- The device as `issueT` hands it to the body of an instruction. -/
theorem teamBase_bump (s : State) (k : TCtx) (a : Nat) {u : Upset} (hu : u.passes = true) :
    teamBase (replayOffset u) s k
      (((((Dev.took { s.dev with out := [] } k.c k.j).teamUpset k u).1.corrects a 8).bump TME_ISSUE TME_ISSUE_COUNT 1 k.c)) := by
  obtain ⟨g1, g2⟩ := (Dev.teamUpset_passes (Dev.took { s.dev with out := [] } k.c k.j) k hu).2
  generalize ((Dev.took { s.dev with out := [] } k.c k.j).teamUpset k u).1 = b at *
  obtain ⟨h1, h2⟩ := Dev.corrects_spec b a 8
  generalize Dev.corrects b a 8 = e at *
  have hf : SMap.find e.regs (TME_ISSUE.addr k.c 0) = SMap.find s.dev.regs (TME_ISSUE.addr k.c 0) :=
    (h2 _ (TME_ISSUE_not_ecc k.c)).trans (g2 _ (TME_ISSUE_not_replay k.c u))
  have hr : e.reg TME_ISSUE k.c = s.dev.reg TME_ISSUE k.c := Dev.reg_of_find hf
  refine ⟨?_, fun o ho => ?_, ?_⟩
  · rw [h1, g1]; rfl
  · rw [Dev.bump_eq, Dev.find_setReg_ne (fun x => ho (Or.inl x)), h2 o fun x => ho (Or.inr (Or.inl x))]
    exact g2 o fun x => ho (Or.inr (Or.inr x))
  · have hb : e.fld TME_ISSUE TME_ISSUE_COUNT k.c = s.dev.fld TME_ISSUE TME_ISSUE_COUNT k.c := by unfold Dev.fld; rw [hr]
    rw [Dev.bump_eq]
    unfold Dev.fld at *
    rw [Dev.reg_setReg (by decide)]
    simp only [TME_ISSUE_COUNT] at *
    have hlt : e.reg TME_ISSUE k.c < 2 ^ 64 := by
      unfold Dev.reg; split
      · exact BitVec.isLt _
      · decide
    rw [Nat.mod_eq_of_lt (setBits_lt (by decide) hlt), bitsOf_setBits, hb]

/-- The cores as they are once slot `j` of core `c` has been issued from. -/
theorem Dev.took_core (d : Dev) (c j c' : Nat) : (d.took c j).core c' = if c' = c then (d.core c).tookBy j else d.core c' := by
  unfold Dev.took; rw [Dev.core_setCore]

theorem teamBase.core {p : Nat → Prop} {s : State} {k : TCtx} {d : Dev} (h : teamBase p s k d) (c' : Nat) :
    d.core c' = if c' = k.c then (s.dev.core k.c).tookBy k.j else s.dev.core c' := by
  rw [← Dev.took_core]; unfold Dev.core; rw [h.1]

/-- A fresh free value keeps the base. -/
theorem teamBase.fresh {p : Nat → Prop} {s : State} {k : TCtx} {d : Dev} (h : teamBase p s k d) : teamBase p s k d.fresh := by
  obtain ⟨h1, h2, h3⟩ := h
  exact ⟨by conv_lhs => rw [h1]
            rfl, h2, h3⟩

theorem Dev.TraceOnly.setSlot_find {d e : Dev} {c j : Nat} {y : Slot} (h : Dev.TraceOnly (d.setSlot c j y) e) {o : Nat} (ho : ¬ traceOffset o) :
    SMap.find e.regs o = SMap.find d.regs o := h.2 o ho

/-- An instruction whose slot stays retires as `teamIssued` says. -/
theorem teamIssued_retire {p : Nat → Prop} {s : State} {k : TCtx} {d : Dev} (hd : teamBase p s k d)
    (x : Slot) (he : ∃ l, l < 32 ∧ bitOf x.exited l = false)
    (hx : x.team = k.x.team ∧ x.waiting = false ∧ x.access = none ∧ x.park = none ∧ x.step1 = k.x.step1) :
    ∃ y, teamIssued p s { s with dev := d.retire k.c k.j x } k y ∧
      y = { x with park := y.park, replay := none, step1 := false, since := y.since, counted := y.counted } := by
  obtain ⟨x1, x3, x4, x5, x6⟩ := hx
  have hcore := hd.core
  obtain ⟨h1, h2, h3⟩ := hd
  obtain ⟨y, hy, ht, hp1, hp2⟩ := Dev.retire_spec d k.c k.j x he
  obtain ⟨s1, s2, s3, s4, s5⟩ := Dev.setSlot_spec d k.c k.j y
  have hck : d.core k.c = (s.dev.core k.c).tookBy k.j := by rw [hcore, if_pos rfl]
  refine ⟨y, ⟨⟨⟨rfl, rfl⟩, ?_, ?_, ?_, ?_, ?_, ?_, ?_, ?_, ?_, ?_, ?_, ?_⟩, ?_⟩, hy⟩
  · show SMap.find ((d.retire k.c k.j x).core k.c).slots k.j = some y
    rw [ht.core]; exact s1
  · show (d.retire k.c k.j x).core k.c = { (s.dev.core k.c).tookBy k.j with slots := ((d.retire k.c k.j x).core k.c).slots }
    rw [ht.core, ← hck]; exact s2
  · intro i hi
    show SMap.find ((d.retire k.c k.j x).core k.c).slots i = _
    rw [ht.core, s3 i hi, hck]; rfl
  · intro c' hc'
    show (d.retire k.c k.j x).core c' = _
    rw [ht.core, s4 c' hc', hcore, if_neg hc']
  · rw [hy]; exact x1
  · rw [hy]; exact x3
  · rw [hy]; exact x4
  · rw [hy]
  · rw [hy]
  · show (d.retire k.c k.j x).fld TME_ISSUE TME_ISSUE_COUNT k.c = _
    rw [← h3]
    unfold Dev.fld
    rw [Dev.reg_of_find (d := d)]
    exact ht.setSlot_find fun hh => bump_addr_ne (Or.inr hh) rfl
  · intro hs; exact hp1 (by rw [x6]; exact hs)
  · intro hs
    obtain ⟨g1, g2⟩ := hp2 (by rw [x6]; exact hs)
    rw [g1]; exact x5
  · intro hs
    obtain ⟨g1, g2⟩ := hp2 (by rw [x6]; exact hs)
    refine ⟨?_, ?_⟩
    · show d.retire k.c k.j x = _
      rw [g2, s5]
      generalize (d.setSlot k.c k.j y).tme = z
      rw [h1]
    · intro o ho
      show SMap.find (d.retire k.c k.j x).regs o = _
      rw [g2, s5]; exact h2 o ho

/-- A row of the team engine on an instruction of its own runs the body. -/
theorem teamRow_issuing {s : State} {k : TCtx} {c j cls : Nat} {num : Nat → Bool} {u : Upset} (hs : isSlot c j = true) (hl : s.dev.live = true)
    (h : s.dev.issuing c j = some k) (hu : u.passes = true) (hc : tCls k.w = cls) (hn : num (tNum k.w) = true) (body : TCtx → Dev → Dev) :
    ∃ d, teamBase (replayOffset u) s k d ∧ teamRow c j u cls num body s = .next { s with dev := body k d } := by
  have h' : Dev.issuing { s.dev with out := [] } c j = some k := h
  obtain ⟨hkc, hkj, -, -, -, -, -, -, -, hi⟩ := Dev.issuing_spec h'
  obtain ⟨a, -, ha⟩ := hi u cls num body hc hn
  refine ⟨_, teamBase_bump s k a hu, ?_⟩
  unfold teamRow
  rw [runLive_ok hs hl, ha, hkc, hkj, if_pos (Dev.teamUpset_passes _ _ hu).1]

theorem setPcs_passed (x : Slot) (m pc : Nat) :
    (x.setPcs m pc).pcs.length = x.pcs.length ∧ ∀ l, l < x.pcs.length → (x.setPcs m pc).pcOf l = if bitOf m l then pc else x.pcOf l := by
  refine ⟨by simp [Slot.setPcs], fun l hl => ?_⟩
  simp only [Slot.setPcs, Slot.pcOf, List.getElem?_map, List.getElem?_zipIdx]
  rw [List.getElem?_eq_getElem hl]
  simp

/-- An instruction that goes on with other register contents. -/
theorem goOn_spec {p : Nat → Prop} {s : State} {k : TCtx} {c j : Nat} (h : s.dev.issuing c j = some k) {d : Dev} (hd : teamBase p s k d) (x : Slot)
    (hx : Slot.RegsOf k.x x) :
    ∃ y, teamIssued p s { s with dev := d.goOn k x } k y ∧ teamPassed k y ∧ y.v = x.v ∧ y.u = x.u ∧ y.p = x.p := by
  obtain ⟨-, -, -, w1, w2, w3, w4, -, -, -⟩ := Dev.issuing_spec h
  have e : x = { k.x with v := x.v, u := x.u, p := x.p } := hx
  obtain ⟨y, hy, he⟩ := teamIssued_retire hd (x.setPcs k.iss (pcMask (k.pc + 8))) (by rw [e]; exact w4)
    (by rw [e]; exact ⟨rfl, w1, w2, w3, rfl⟩)
  refine ⟨y, hy, ⟨?_, ?_, ?_, ?_⟩, ?_, ?_, ?_⟩
  · rw [he, e]; rfl
  · rw [he, e]; rfl
  · rw [he]; show (x.setPcs k.iss (pcMask (k.pc + 8))).pcs.length = _
    rw [(setPcs_passed _ _ _).1, e]
  · intro l hl
    have hl' : l < x.pcs.length := by rw [e]; exact hl
    have := (setPcs_passed x k.iss (pcMask (k.pc + 8))).2 l hl'
    rw [he]; show (x.setPcs k.iss (pcMask (k.pc + 8))).pcOf l = _
    rw [this, e]; rfl
  · rw [he]; rfl
  · rw [he]; rfl
  · rw [he]; rfl

/-- An instruction that gives each active lane a value. -/
theorem laneOp_spec {p : Nat → Prop} {s : State} {k : TCtx} {c j : Nat} (h : s.dev.issuing c j = some k) {d : Dev} (hd : teamBase p s k d) (n : Nat)
    (f : Nat → Nat) : ∃ y, teamIssued p s { s with dev := d.laneOp k n f } k y ∧ teamPassed k y ∧ teamResult k n f y := by
  obtain ⟨y, h1, h2, h3, h4, h5⟩ := goOn_spec h hd _ (Slot.RegsOf.result k.x k.w n ((lanesOf k.act).map fun l => (l, f l)))
  exact ⟨y, h1, h2, teamResult_result k n f h3 h4 h5⟩

/-! ### Predicates -/

theorem mem_lanesOf {m l : Nat} : l ∈ lanesOf m ↔ l < 32 ∧ bitOf m l = true := by simp [lanesOf]

theorem allLanes_sub {m l : Nat} (hm : m < 2 ^ 32) (hl : l < 32) : (allLanes - m).testBit l = !m.testBit l := by
  have : allLanes - m = 2 ^ 32 - (m + 1) := by unfold allLanes; omega
  rw [this, Nat.testBit_two_pow_sub_succ hm]; simp [hl]

/-- A predicate after a write in the lanes of a mask. -/
theorem Slot.pr_wp (x : Slot) {i m n i' l : Nat} (hm : m < 2 ^ 32) (hl : l < 32) (hi : i < x.p.length) (h7 : i ≠ 7) :
    (x.wp i m n).pr i' l = if i' = i ∧ bitOf m l = true then bitOf n l else x.pr i' l := by
  unfold Slot.wp Slot.pr Slot.pm
  rw [if_neg h7]
  by_cases h' : i' = 7
  · subst h'; simp [Ne.symm h7]
  · simp only [h', if_false, setAt_get, hi, and_true]
    by_cases e : i' = i
    · subst e
      simp only [if_true, Option.getD_some, bitOf_eq_testBit, Nat.testBit_or, Nat.testBit_and, allLanes_sub hm hl, true_and, h7, if_false]
      cases m.testBit l <;> simp
    · simp [e]

theorem Slot.wp_other (x : Slot) (i m n : Nat) : (x.wp i m n).v = x.v ∧ (x.wp i m n).u = x.u ∧ (x.wp i m n).p.length = x.p.length := by
  unfold Slot.wp; split
  · exact ⟨rfl, rfl, rfl⟩
  · exact ⟨rfl, rfl, setAt_length _ _ _⟩

theorem setAt_out {α : Type} (l : List α) (i : Nat) (v : α) (h : l.length ≤ i) : setAt l i v = l := by
  induction l generalizing i with
  | nil => rfl
  | cons a t ih =>
    cases i with
    | zero => simp at h
    | succ i => simp [setAt, ih i (by simpa using h)]

/-- An instruction that gives each active lane a predicate. -/
theorem predOp_spec {p : Nat → Prop} {s : State} {k : TCtx} {c j : Nat} (h : s.dev.issuing c j = some k) {d : Dev} (hd : teamBase p s k d)
    (f : Nat → Bool) : ∃ y, teamIssued p s { s with dev := d.predOp k f } k y ∧ teamPassed k y ∧ teamPredicate k f y := by
  obtain ⟨-, -, -, -, -, -, -, hm, -, -⟩ := Dev.issuing_spec h
  obtain ⟨y, h1, h2, h3, h4, h5⟩ := goOn_spec h hd _ (Slot.RegsOf.wp k.x (tD k.w) k.act (maskOf ((lanesOf k.act).filter f)))
  obtain ⟨w1, w2, w3⟩ := Slot.wp_other k.x (tD k.w) k.act (maskOf ((lanesOf k.act).filter f))
  have hpr : ∀ i l, y.pr i l = (k.x.wp (tD k.w) k.act (maskOf ((lanesOf k.act).filter f))).pr i l := fun i l => by
    simp [Slot.pr, Slot.pm, h5]
  refine ⟨y, h1, h2, h3.trans w1, h4.trans w2, by rw [h5]; exact w3, ?_, ?_⟩
  · intro i l hl hor
    rw [hpr]
    by_cases h7 : tD k.w = 7
    · unfold Slot.wp; rw [if_pos h7]
    · by_cases hi : tD k.w < k.x.p.length
      · rw [Slot.pr_wp _ hm hl hi h7, if_neg]
        rintro ⟨e1, e2⟩
        rcases hor with g | g
        · exact g e1
        · exact g (mem_lanesOf.mpr ⟨hl, e2⟩)
      · unfold Slot.wp; rw [if_neg h7, setAt_out _ _ _ (by omega)]
  · intro l hl hi h7
    have hl32 := lanesOf_lt hl
    rw [hpr, Slot.pr_wp _ hm hl32 hi h7, if_pos ⟨rfl, (mem_lanesOf.mp hl).2⟩, bitOf_eq_testBit, maskOf_testBit]
    simp [hl32, hl]

/-! ### Parking -/

/-- Raising an interrupt sets its bit. -/
theorem Dev.irq_bit (d : Dev) {n : Nat} (hn : n < 12) :
    bitOf ((d.irq n).fld HUB_IRQ_STATUS HUB_IRQ_STATUS_CAUSE) n = true := by
  have key : ∀ e : Dev, bitOf (d.fld HUB_IRQ_STATUS HUB_IRQ_STATUS_CAUSE) n = false →
      e.regs = (d.setFld HUB_IRQ_STATUS HUB_IRQ_STATUS_CAUSE (d.fld HUB_IRQ_STATUS HUB_IRQ_STATUS_CAUSE + 2 ^ n)).regs →
      bitOf (e.fld HUB_IRQ_STATUS HUB_IRQ_STATUS_CAUSE) n = true := by
    intro e hb he
    have : e.fld HUB_IRQ_STATUS HUB_IRQ_STATUS_CAUSE = (d.fld HUB_IRQ_STATUS HUB_IRQ_STATUS_CAUSE + 2 ^ n) % 2 ^ 12 := by
      unfold Dev.fld
      rw [Dev.reg_of_find (d := d.setFld HUB_IRQ_STATUS HUB_IRQ_STATUS_CAUSE (d.fld HUB_IRQ_STATUS HUB_IRQ_STATUS_CAUSE + 2 ^ n)) (by rw [he]),
        Dev.setFld_eq, Dev.reg_setReg (by decide)]
      have hlt : d.reg HUB_IRQ_STATUS < 2 ^ 64 := by
        unfold Dev.reg; split
        · exact BitVec.isLt _
        · decide
      simp only [HUB_IRQ_STATUS_CAUSE]
      rw [Nat.mod_eq_of_lt (setBits_lt (by decide) hlt), bitsOf_setBits]
      rfl
    rw [this, bitOf_eq_testBit, Nat.testBit_mod_two_pow, Nat.add_comm, Nat.testBit_two_pow_add_eq, ← bitOf_eq_testBit, hb]
    simp [hn]
  unfold Dev.irq
  simp only []
  split
  · assumption
  · next h =>
    have h : bitOf (d.fld HUB_IRQ_STATUS HUB_IRQ_STATUS_CAUSE) n = false := by simpa using h
    split
    · split
      · exact key _ h rfl
      · exact key _ h rfl
    · exact key _ h rfl

theorem Dev.irq_mem (d : Dev) (n : Nat) :
    (d.irq n).mem = d.mem ∧ (d.irq n).lostTrace = d.lostTrace ∧ (d.irq n).dir = d.dir ∧ (d.irq n).xacts = d.xacts ∧ (d.irq n).nextXid = d.nextXid := by
  unfold Dev.irq
  simp only []
  split
  · exact ⟨rfl, rfl, rfl, rfl, rfl⟩
  · split
    · split <;> exact ⟨rfl, rfl, rfl, rfl, rfl⟩
    · exact ⟨rfl, rfl, rfl, rfl, rfl⟩

theorem Dev.trace_off (d : Dev) {n : Nat} (h : tracesOff d n) (kind flags furrow tag step rtn pos : Nat) (data : List Byte) :
    d.trace n kind flags furrow tag step rtn pos data = d := by
  unfold Dev.trace; unfold tracesOff at h; simp only []; rw [if_neg (by omega)]

theorem tracesOff_of {d e : Dev} {n : Nat} (h : SMap.find e.regs (TRC_SEL.addr 0 0) = SMap.find d.regs (TRC_SEL.addr 0 0)) :
    tracesOff d n → tracesOff e n := fun g => by unfold tracesOff; rw [Dev.reg_of_find h]; exact g

theorem TRC_SEL_not_trap {c : Nat} {u : Upset} : ¬ trapOffset c u (TRC_SEL.addr 0 0) := by
  rintro (h | ⟨n, hn, h | h⟩ | ⟨-, h⟩) <;>
    simp only [RegDef.addr, Blk.base, TME_ISSUE, HBM_ECC, HBM_ECC_LAST, TRC_SEL, ERR_REPLAY] at h <;> omega

/-- Parking, from a device that differs in `p`'s registers and in the core's `last` only. -/
theorem teamParked_of {p : Nat → Prop} {s : State} {c j : Nat} {d : Dev}
    (h1 : d = { s.dev with out := [], regs := d.regs, eccCE := d.eccCE, free := d.free, tme := (s.dev.took c j).tme }) (h2 : regsAgree p s.dev d)
    (hp : ¬ p (TRC_SEL.addr 0 0)) (x : Slot) (q : Park) :
    teamParked p s { s with dev := d.parkTeam c j x q } c j ((s.dev.core c).tookBy j) x q := by
  have ht := Dev.parkTeam_spec d c j x q
  have htb : d.tb.time = s.dev.tb.time := by rw [h1]
  rw [htb] at ht
  obtain ⟨s1, s2, s3, s4, s5⟩ := Dev.setSlot_spec d c j { x.still s.dev.tb.time with park := some q, replay := none, step1 := false }
  have hcore : ∀ c', d.core c' = if c' = c then (s.dev.core c).tookBy j else s.dev.core c' := fun c' => by
    rw [← Dev.took_core]; unfold Dev.core; rw [h1]
  have hcc : d.core c = (s.dev.core c).tookBy j := by rw [hcore, if_pos rfl]
  refine ⟨⟨rfl, rfl⟩, ?_, ?_, ?_, ?_, ?_, ?_, ?_, ?_⟩
  · show SMap.find ((d.parkTeam c j x q).core c).slots j = _
    rw [ht.core]; exact s1
  · show (d.parkTeam c j x q).core c = { (s.dev.core c).tookBy j with slots := ((d.parkTeam c j x q).core c).slots }
    rw [ht.core, ← hcc]; exact s2
  · intro i hi
    show SMap.find ((d.parkTeam c j x q).core c).slots i = _
    rw [ht.core, s3 i hi, hcc]; rfl
  · intro c' hc'
    show (d.parkTeam c j x q).core c' = _
    rw [ht.core, s4 c' hc', hcore, if_neg hc']
  · exact Dev.irq_bit _ (by decide)
  · show d.parkTeam c j x q = _
    have e1 := ht.1
    generalize d.parkTeam c j x q = e at *
    rw [e1, s5]
    generalize (d.setSlot c j { x.still s.dev.tb.time with park := some q, replay := none, step1 := false }).tme = z
    rw [h1]
  · intro o ho
    show SMap.find (d.parkTeam c j x q).regs o = _
    rw [ht.2 o fun g => ho (Or.inr g)]
    exact h2 o fun g => ho (Or.inl g)
  · intro hoff
    have hoff' : tracesOff (d.setSlot c j { x.still d.tb.time with park := some q, replay := none, step1 := false }) 2 :=
      tracesOff_of (h2 _ hp) hoff
    have e : d.parkTeam c j x q = (d.setSlot c j { x.still d.tb.time with park := some q, replay := none, step1 := false }).irq irqParked := by
      unfold Dev.parkTeam Dev.traceAt; simp only []
      rw [Dev.trace_off _ hoff']
    show (d.parkTeam c j x q).mem = _ ∧ (d.parkTeam c j x q).lostTrace = _ ∧ (d.parkTeam c j x q).dir = _ ∧
      (d.parkTeam c j x q).xacts = _ ∧ (d.parkTeam c j x q).nextXid = _
    obtain ⟨i1, i2, i3, i4, i5⟩ := Dev.irq_mem (d.setSlot c j { x.still d.tb.time with park := some q, replay := none, step1 := false }) irqParked
    rw [e, i1, i2, i3, i4, i5]
    refine ⟨?_, ?_, ?_, ?_, ?_⟩
    · show d.mem = _; rw [h1]
    · show d.lostTrace = _; rw [h1]
    · show d.dir = _; rw [h1]
    · show d.xacts = _; rw [h1]
    · show d.nextXid = _; rw [h1]

theorem teamBase.mono {p q : Nat → Prop} {s : State} {k : TCtx} {d : Dev} (h : teamBase p s k d) (hpq : ∀ o, p o → q o) : teamBase q s k d :=
  ⟨h.1, fun o ho => h.2.1 o fun g => ho (g.imp_right (Or.imp_right (hpq o))), h.2.2⟩

theorem teamBase.setReg {p : Nat → Prop} {s : State} {k : TCtx} {d : Dev} (h : teamBase p s k d) {r : RegDef} {v u i : Nat}
    (hp : p (r.addr u i)) (hn : r.addr u i ≠ TME_ISSUE.addr k.c 0) : teamBase p s k (d.setReg r v u i) := by
  obtain ⟨h1, h2, h3⟩ := h
  refine ⟨?_, fun o ho => ?_, ?_⟩
  · unfold Dev.setReg; conv_lhs => rw [h1]
  · have hne : o ≠ r.addr u i := fun e => ho (Or.inr (Or.inr (by rw [e]; exact hp)))
    rw [Dev.find_setReg_ne hne]; exact h2 o ho
  · rw [← h3]; unfold Dev.fld; rw [Dev.reg_setReg_ne hn.symm]

/-- Retiring leaves every register but those of trace and interrupt. -/
theorem Dev.retire_regs (d : Dev) (c j : Nat) (x : Slot) {o : Nat} (ho : ¬ traceOffset o) :
    SMap.find (d.retire c j x).regs o = SMap.find d.regs o := by
  unfold Dev.retire
  simp only []
  split
  · split
    · exact (Dev.parkTeam_spec d c j _ _).2 o ho
    · rfl
  · rfl

/-- An event of a step marks its slot (R160). -/
theorem Dev.stepEvt_bits (d : Dev) {k : Nat} (hk : k < noStep) {ovf nf : Bool} (h : ovf = true ∨ nf = true) :
    (d.stepEvt k ovf nf).stepBits k = ((d.stepBits k).1 || ovf, (d.stepBits k).2 || nf) := by
  have hr : HUB_STEP_EVT.reset (k % 4) < 2 ^ 64 := RegDef.reset_lt (by decide) _
  have hlt : d.reg HUB_STEP_EVT 0 (k % 4) < 2 ^ 64 := Dev.reg_lt d 0 hr
  unfold noStep at hk
  have hstep : ¬ k = noStep := by unfold noStep; omega
  have hor : (ovf || nf) = true := by rcases h with h | h <;> simp [h]
  unfold Dev.stepEvt
  simp only [hstep, decide_false, hor, Bool.not_true, Bool.or_false, Bool.false_eq_true, if_false]
  generalize hv0 : (if (bitOf (d.reg HUB_STEP_EVT 0 (k % 4)) 34 && bitsOf (d.reg HUB_STEP_EVT 0 (k % 4)) 0 32 == k) = true then d.reg HUB_STEP_EVT 0 (k % 4) else k + 2 ^ 34) = v0
  have f : v0 < 2 ^ 64 ∧ bitOf v0 34 = true ∧ bitsOf v0 0 32 = k ∧ (bitOf v0 32, bitOf v0 33) = d.stepBits k := by
    unfold Dev.stepBits
    by_cases hc : (bitOf (d.reg HUB_STEP_EVT 0 (k % 4)) 34 && bitsOf (d.reg HUB_STEP_EVT 0 (k % 4)) 0 32 == k) = true
    · simp only [hc, if_true] at hv0 ⊢
      subst hv0
      simp only [Bool.and_eq_true, beq_iff_eq] at hc
      exact ⟨hlt, hc.1, hc.2, rfl⟩
    · simp only [hc, Bool.false_eq_true, if_false] at hv0 ⊢
      subst hv0
      refine ⟨by omega, ?_, ?_, ?_⟩
      · unfold bitOf; rw [Nat.shiftRight_eq_div_pow]; simp only [beq_iff_eq]; omega
      · unfold bitsOf; rw [Nat.shiftRight_eq_div_pow]; omega
      · have a : bitOf (k + 2 ^ 34) 32 = false := by unfold bitOf; rw [Nat.shiftRight_eq_div_pow]; simp only [beq_eq_false_iff_ne]; omega
        have b : bitOf (k + 2 ^ 34) 33 = false := by unfold bitOf; rw [Nat.shiftRight_eq_div_pow]; simp only [beq_eq_false_iff_ne]; omega
        rw [a, b]
  obtain ⟨f1, f2, f3, f4⟩ := f
  generalize hv1 : (if ovf = true then setBits v0 32 1 1 else v0) = v1
  have g1 : v1 < 2 ^ 64 ∧ bitOf v1 34 = true ∧ bitsOf v1 0 32 = k ∧ bitOf v1 32 = (bitOf v0 32 || ovf) ∧ bitOf v1 33 = bitOf v0 33 := by
    subst hv1; cases ovf
    · simp only [Bool.false_eq_true, if_false, Bool.or_false]; exact ⟨f1, f2, f3, trivial, trivial⟩
    · simp only [if_true]
      refine ⟨setBits_lt (by decide) f1, ?_, ?_, ?_, ?_⟩
      · rw [bitOf_setBits]; exact f2
      · rw [bitsOf_setBits_ne (Or.inl (by decide))]; exact f3
      · rw [bitOf_setBits]; simp [bitOf]
      · rw [bitOf_setBits]; rfl
  obtain ⟨g1, g2, g3, g4, g5⟩ := g1
  generalize hv2 : (if nf = true then setBits v1 33 1 1 else v1) = v2
  have q : v2 < 2 ^ 64 ∧ bitOf v2 34 = true ∧ bitsOf v2 0 32 = k ∧ bitOf v2 32 = bitOf v1 32 ∧ bitOf v2 33 = (bitOf v1 33 || nf) := by
    subst hv2; cases nf
    · simp only [Bool.false_eq_true, if_false, Bool.or_false]; exact ⟨g1, g2, g3, trivial, trivial⟩
    · simp only [if_true]
      refine ⟨setBits_lt (by decide) g1, ?_, ?_, ?_, ?_⟩
      · rw [bitOf_setBits]; exact g2
      · rw [bitsOf_setBits_ne (Or.inl (by decide))]; exact g3
      · rw [bitOf_setBits]; rfl
      · rw [bitOf_setBits]; simp [bitOf]
  obtain ⟨q1, q2, q3, q4, q5⟩ := q
  generalize d.stepLate k = late
  generalize hv3 : (if late = true then setBits v2 35 1 1 else v2) = v3
  have r : v3 < 2 ^ 64 ∧ bitOf v3 34 = true ∧ bitsOf v3 0 32 = k ∧ bitOf v3 32 = bitOf v2 32 ∧ bitOf v3 33 = bitOf v2 33 := by
    have hor3 : v3 = setBits v2 35 1 1 ∨ v3 = v2 := by
      rw [← hv3]; split_ifs <;> simp
    rcases hor3 with e | e <;> rw [e]
    · refine ⟨setBits_lt (by decide) q1, ?_, ?_, ?_, ?_⟩
      · rw [bitOf_setBits]; exact q2
      · rw [bitsOf_setBits_ne (Or.inl (by decide))]; exact q3
      · rw [bitOf_setBits]; rfl
      · rw [bitOf_setBits]; rfl
    · exact ⟨q1, q2, q3, rfl, rfl⟩
  obtain ⟨r1, r2, r3, r4, r5⟩ := r
  conv_lhs => unfold Dev.stepBits
  simp only [Dev.reg_setReg hr, Nat.mod_eq_of_lt r1, r2, r3, Bool.true_and, beq_self_eq_true, if_true]
  rw [← f4, r4, r5, q4, q5, g4, g5]

end Sys2Proof.Machine
end

