-- ==== Sys2Proof/Tests/Slice0.lean ====
section
/-! SUPPORT. Tests of the model on small states, and witnesses that the hypotheses of the statements can be met. -/
set_option Elab.async false

namespace Sys2Proof.Tests
open Sys2Proof Sys2Proof.Machine

/-! ### Small states -/

/-- A device whose boot is over. -/
def tD : Dev := Dev.reset.setReg HUB_BOOT 1

/-- A machine with the tally of reset and no command waiting. -/
def tS (d : Dev) : State := ⟨d, tallyReset, []⟩

/-- Does a command leave a state with the property? -/
def leads (i : Instr) (s : State) (p : State → Bool) : Bool :=
  match exec i s with
  | .next t => p t
  | _ => false

/-- The tile buffer of physical core 0. -/
def tile0 : Nat := 0x300_0000_0000

/-- A team in slot 0 of core 0, at the start of tile buffer 0, with 3 and 4 in lane 0 of v1 and v2. -/
def tSlot : Slot :=
  ⟨0, List.replicate 32 tile0, 0, [], [(32, 3), (64, 4)], [], List.replicate 7 0, none, false, none, false, none, none, 0⟩

/-- Core 0 runs a launch of one team, `x`, with 64 registers; the word `w` lies at the start of its tile buffer. -/
def tCore (x : Slot) (w : Nat) : Dev :=
  { tD with
    mem := Mem.write [] tile0 (leBytes 8 w)
    tme := [(0, { Tme.empty with active := true, teams := 1, started := 1, regs := 8, slots := [(0, x)] })] }

/-- The team of `tSlot` at the word `w`. -/
def tTeam (w : Nat) : Dev := tCore tSlot w

/-- A word of format R or I (Table 11.3), unguarded: class, OPC[4:0], D, A, B, the low 28 bits. -/
def tWord (cls op d a b low : Nat) : Nat := (cls * 32 + op) * 2 ^ 56 + 7 * 2 ^ 52 + d * 2 ^ 44 + a * 2 ^ 36 + b * 2 ^ 28 + low

/-- The same guarded by p0. -/
def tWord0 (cls op d a b low : Nat) : Nat := tWord cls op d a b low - 7 * 2 ^ 52

/-- A team whose p0 is set in lane 0, whose u0 and u1 hold the address of byte 0x100 of its tile buffer, and whose u2 is 5. -/
def tOne : Slot := { tSlot with p := 1 :: List.replicate 6 0, u := [(0, 0x100), (1, 0x300), (2, 5)] }

/-- The context in which slot 0 of core 0 issues, when it has the class and number. -/
def ctxOf (d : Dev) (cls num : Nat) (q : TCtx → Bool) : Bool :=
  match d.issuing 0 0 with
  | some k => tCls k.w == cls && tNum k.w == num && q k
  | none => false

/-- Does slot 0 of core 0 issue an instruction of the class and number? -/
def issues (d : Dev) (cls num : Nat) : Bool := ctxOf d cls num fun _ => true

/-- A team's register in lane 0, as it stands in slot 0 of core 0. -/
def lane0 (t : State) (r : Nat) : Nat :=
  match SMap.find (t.dev.core 0).slots 0 with
  | some y => y.rv r 0
  | none => 0

/-- What slot 0 of core 0 holds. -/
def slot0 (t : State) (q : Slot → Bool) : Bool :=
  match SMap.find (t.dev.core 0).slots 0 with
  | some y => q y
  | none => false

/-! ### Teams: what issues (witnesses), and results computed by hand from Tables 11.3 and 11.4a -/

theorem witness_TeamIntegerResults : (isSlot 0 0 && tD.live && intRows.all fun r =>
    issues (tTeam (tWord 0 r.1 3 1 (if r.1 = 0xF then 0 else 2) (if r.1 = 4 then 0x0200000 else 0))) 0 r.1) = true ∧
    (let d : Dev := { tTeam (tWord 0 0 3 1 2 0) with
       furrows := [(120, { Furrow.empty with cur := some ⟨Desc.zero, 0, 1, 0xFFFF, 1, 7, 0, Desc.zero, 0xFFFF, 0⟩ })]
       tme := [(0, { Tme.empty with active := true, teams := 1, started := 1, regs := 8, furrow := 120, slots := [(0, tSlot)] })] }
     issues d 0 0 && (d.frw (d.core 0).furrow).cur.isSome && (d.core 0).furrow == 120) = true := by decide +kernel

/-- 3 + 4. -/
theorem test_intAdd : leads (.intAdd 0 0 .none) (tS (tTeam (tWord 0 0 3 1 2 0))) (fun t => lane0 t 3 == 7) = true := by decide +kernel

/-- Table 11.4a: B = 0 gives all ones; v5 is zero. -/
theorem test_intDiv_zero : leads (.intDiv 0 0 .none) (tS (tTeam (tWord 0 5 3 1 5 0))) (fun t => lane0 t 3 == 0xFFFFFFFF) = true := by decide +kernel

/-- 3 − 4 in 32 bits; D = 255 discards. -/
theorem test_intSub : leads (.intSub 0 0 .none) (tS (tTeam (tWord 0 1 3 1 2 0))) (fun t => lane0 t 3 == 0xFFFFFFFF) = true ∧
    leads (.intSub 0 0 .none) (tS (tTeam (tWord 0 1 255 1 2 0))) (fun t => slot0 t fun y => y.v == tSlot.v) = true := by decide +kernel

theorem witness_TeamFloatResults :
    (fpRows.all fun r => issues (tTeam (tWord 1 r.1 3 1 (if 0xD ≤ r.1 then 0 else 2) (if r.1 = 3 then 0x0200000 else 0))) 1 r.1) = true ∧
    (fpFnRows.all fun r => issues (tTeam (tWord 1 r.1 3 1 0 0)) 1 r.1) = true := by decide +kernel

/-- 1.5 × 2.0 = 3.0 and its sign flipped. -/
theorem test_fp : leads (.fpMul 0 0 .none) (tS (tCore { tSlot with v := [(32, 0x3FC00000), (64, 0x40000000)] } (tWord 1 2 3 1 2 0))) (fun t => lane0 t 3 == 0x40400000) = true ∧
    leads (.fpNeg 0 0 .none) (tS (tCore { tSlot with v := [(32, 0x7FC00000)] } (tWord 1 0xD 3 1 0 0))) (fun t => lane0 t 3 == 0xFFC00000) = true := by decide +kernel

theorem witness_TeamMoveResults : (moveRows.all fun r =>
    issues (tTeam (tWord 2 r.1 3 (if r.1 = 1 then 0 else 1) (if r.1 = 3 ∨ r.1 = 8 then 2 else 0) 0)) 2 r.1) = true ∧
    issues (tTeam (tWord 2 2 3 1 0 (0x11 * 32 + 0x10))) 2 2 = true ∧ (cvtOut 0x10 0 (cvtVal 0x11 3 0)).isSome = true := by decide +kernel

/-- Lane 0 reads lane 0 XOR 4, which is lane 4; not active, its own. -/
theorem test_xch : leads (.xchLane 0 0 .none) (tS (tCore { tSlot with v := [(32, 3), (36, 9), (64, 4)] } (tWord 2 8 3 1 2 3))) (fun t => lane0 t 3 == 9) = true ∧
    leads (.xchLane 0 0 .none) (tS (tCore { tOne with v := [(32, 3), (36, 9), (64, 4)] } (tWord0 2 8 3 1 2 3))) (fun t => lane0 t 3 == 3) = true := by
  decide +kernel

theorem witness_TeamPredicates : (predRows.all fun r =>
    issues (tTeam (tWord r.1 r.2.1 3 (if r.2.1 = 6 then 0 else 1) (if r.1 = 0 then 2 else 0) 0)) r.1 r.2.1) = true ∧
    ([0, 1].all fun ty => ctxOf (tTeam (tWord 1 0xE 3 2 4 ty)) 1 0xE fun k => fType k.w == ty) = true := by decide +kernel

/-- 3 < 4 in lane 0, 0 < 0 not. -/
theorem test_intCmp : leads (.intCmp 0 0 .none) (tS (tTeam (tWord 0 0xE 3 1 2 0x20))) (fun t => slot0 t fun y => y.pm 3 == 1) = true := by decide +kernel

theorem witness_TeamControl :
    issues (tTeam (tWord 3 0x10 0 0 0 16)) 3 0 = true ∧
    (ctxOf (tTeam (tWord 3 0x11 0 0 0 16)) 3 1 fun k => k.act != 0 && decide (k.x.stack.length < 32)) = true ∧
    (ctxOf (tCore { tSlot with stack := List.replicate 32 (0, allLanes) } (tWord 3 0x11 0 0 0 16)) 3 1 fun k => k.act != 0 && decide (32 ≤ k.x.stack.length)) = true ∧
    ([(0x11, 1, 16), (3, 3, 0)].all fun r => ctxOf (tTeam (tWord0 3 r.1 0 0 0 r.2.2)) 3 r.2.1 fun k => k.act == 0) = true ∧
    (ctxOf (tTeam (tWord 3 3 0 0 0 0)) 3 3 fun k => k.act != 0) = true ∧
    (ctxOf { tCore tOne (tWord 3 4 0 0 0 0) with tme := [(0, { Tme.empty with active := true, teams := 1, regs := 8, step := 0, slots := [(0, tOne)] })] } 3 4
      fun k => k.polled != 0 && decide (k.t.step < noStep)) = true ∧
    issues (tTeam (tWord 3 5 0 0 0 0)) 3 5 = true := by decide +kernel

/-- A jump over one instruction. -/
theorem test_jmp : leads (.jmp 0 0 .none) (tS (tTeam (tWord 3 0x10 0 0 0 16))) (fun t => slot0 t fun y => y.pcOf 31 == tile0 + 16) = true := by decide +kernel

theorem witness_TeamExitsAndParks :
    (ctxOf (tCore tOne (tWord0 3 2 0 0 0 0)) 3 2 fun k => !bitOf (k.x.exited ||| k.act) 1) = true ∧
    (ctxOf (tTeam (tWord 3 2 0 0 0 0)) 3 2 fun k => (k.x.exited ||| k.act) == allLanes && decide (((tTeam 0).core 0).teams ≤ ((tTeam 0).core 0).ended + 1)) = true ∧
    (Slot.pick tSlot.stack tSlot).map (fun r => (r.2.1, r.2.2)) = some (tile0, allLanes) ∧ (tTeam 0).agentAddr tile0 = some tile0 ∧
    (tTeam 0).sheafMem tile0 8 = true ∧ (tTeam 0).turn 0 0 = true ∧ ¬ tile0 < hbmSize ∧
    (match (tTeam (7 * 2 ^ 61)).fetchT 0 0 with | .word k _ => !tLegal k.w | _ => false) = true ∧
    (match (tTeam (tWord 0 0 64 1 2 0)).fetchT 0 0 with | .word k _ => tLegal k.w && !tInRange k.w (8 * k.t.regs) | _ => false) = true ∧
    (match (tCore { tSlot with pcs := List.replicate 32 hbmSize } 0).fetchT 0 0 with | .bad .. => true | _ => false) = true := by
  decide +kernel

/-- v64 with 64 registers parks with REG_RANGE. -/
theorem test_regRange : leads (.intAdd 0 0 .none) (tS (tTeam (tWord 0 0 64 1 2 0))) (fun t => slot0 t fun y => y.park == some ⟨pkRegRange, tile0, 0, allLanes, allLanes⟩) = true := by
  decide +kernel

/-- The last `exit` completes the launch. -/
theorem test_exit : leads (.exit 0 0 .none) (tS (tTeam (tWord 3 2 0 0 0 0))) (fun t => !(t.dev.core 0).active && (t.dev.frw 0).done) = true := by decide +kernel

/-- A word of format M guarded by p0, with UA set: class, OPC[4:0], D, A, B, SCOPE, SIZE, OFF. -/
def tMem (cls op d a b scope size off : Nat) : Nat := tWord0 cls op d a b (2 ^ 27 + scope * 2 ^ 20 + size * 2 ^ 15 + off)

theorem witness_TeamAccessStarts : (accessRows.all fun r => (List.range 32).any fun n => r.2.1 n &&
      ctxOf (tCore tOne (tMem r.1 n 4 0 6 3 2 4)) r.1 n fun k => k.act != 0 &&
        ((lanesOf k.act).all fun l => k.addr l % mBytes k.w == 0)) = true ∧
    (accessRows.all fun r => (List.range 32).any fun n => r.2.1 n &&
      ctxOf (tCore tOne (tMem r.1 n 4 0 6 3 2 2)) r.1 n fun k => ((lanesOf k.act).filter fun l => k.addr l % mBytes k.w != 0).head? == some 0) = true ∧
    (tCore tOne 0).target (tile0 + 0x104) 4 = .mem (tile0 + 0x104) ∧ (tCore tOne 0).eccUE = [] := by decide +kernel

/-- `ld.w32` at byte 0x108 of the tile buffer, where 0xAB lies; `st.w32` of v1. -/
theorem test_ld : leads (.ld 0 0 .none) (tS { tCore tOne (tMem 4 0 4 0 0 0 2 8) with mem := Mem.write (Mem.write [] tile0 (leBytes 8 (tMem 4 0 4 0 0 0 2 8))) (tile0 + 0x108) [0xAB] })
    (fun t => slot0 t fun y => y.access.map Access.data == some [(0, 0xAB)]) = true ∧
    leads (.st 0 0 .none) (tS (tCore tOne (tMem 4 1 0 0 1 0 2 8))) (fun t => t.dev.mem.byte (tile0 + 0x108) == 3) = true := by decide +kernel

theorem witness_TeamLocalMemory :
    (∀ w ∈ [tMem 4 1 0 0 1 0 2 8, tMem 4 0 4 0 0 0 2 8], (ctxOf (tCore tOne w) 4 (bitsOf w 56 5) fun k => k.act == 1 &&
      ((lanesOf k.act).all fun l => k.addr l % mBytes k.w == 0 && (tCore tOne w).target (k.addr l) (mBytes k.w) == .mem (tile0 + 0x108))) = true) ∧
    (∀ n ∈ [0, 1, 3, 4, 5, 6, 7, 9, 10, 16], (ctxOf (tCore tOne (tMem 5 n 4 0 6 3 2 8)) 5 n fun k => lanesOf k.act == [0] && decide (3 ≤ mScope k.w) &&
      (tCore tOne (tMem 5 n 4 0 6 3 2 8)).target (k.addr 0) (mBytes k.w) == .mem (tile0 + 0x108)) = true) ∧
    region (tile0 + 0x108) = .tile 0 ∧ noCopies (tCore tOne 0) 0 := by
  refine ⟨by decide +kernel, by decide +kernel, by decide +kernel, by unfold noCopies; decide +kernel⟩

/-- `rmw.add.n32.device` of v1 = 3 onto 0xAB: the old value is the datum, 0xAE lies in memory. -/
theorem test_rmwAdd : leads (.rmwAdd 0 0 .none) (tS { tCore tOne 0 with
      mem := Mem.write (Mem.write [] tile0 (leBytes 8 (tMem 5 0 4 0 1 3 2 8))) (tile0 + 0x108) [0xAB] })
    (fun t => t.dev.mem.byte (tile0 + 0x108) == 0xAE && slot0 t fun y => y.access.map Access.data == some [(0, 0xAB)]) = true := by decide +kernel

/-- A load of 8 bytes into v4 and v5 in lane 0, as it waits without responses missing. -/
def tAcc : Access := ⟨4, 8, true, [(0, 0x1_0000_0002)], [(0, tile0 + 0x108)], 0, 0, 1, 1, false, 0, tile0, 0, false, false⟩

theorem witness_TeamAccessCompletes :
    leads (.teamAccessComplete 0 0) (tS (tCore { tOne with access := some tAcc } 0)) (fun t => lane0 t 4 == 2 && lane0 t 5 == 1) = true ∧
    leads (.teamAccessComplete 0 0) (tS (tCore { tOne with access := some { tAcc with err := 1 } } 0))
      (fun t => slot0 t fun y => y.park == some ⟨pkAccess, tile0, tile0 + 0x108, 1, 1⟩) = true ∧
    leads (.teamAccessComplete 0 0) (tS (tCore { tOne with access := some { tAcc with err := 1, chk := true, cp := 2 } } 0))
      (fun t => slot0 t fun y => !y.pr 2 0 && y.park.isNone) = true := by decide +kernel

/-- Flag 5 and counter 5 are declared. -/
def tSync (w : Nat) : Dev := { tCore tOne w with decls := [⟨false, 5, 1, false, true⟩, ⟨true, 5, 1, false, true⟩] }

/-- Class 6, guarded by p0, A = u2 = 5, B = v6 and v7 (zero) or v2 and v3. -/
def tSix (n b low : Nat) : Nat := tWord0 6 n 0 2 b (2 ^ 18 + low)

theorem witness_TeamSync :
    (∀ r ∈ [(0, 0), (1, 0), (2, 6), (3, 6)], (ctxOf (tSync (tSix r.1 r.2 0)) 6 r.1 fun k => (lanesOf k.act).head? == some 0 && k.a 1 0 == 5 &&
      (tSync 0).declared (r.1 == 2 || r.1 == 3) 5 && !(tCore tOne 0).declared (r.1 == 2 || r.1 == 3) 5) = true) ∧
    (ctxOf (tSync (tSix 3 2 0)) 6 3 fun k => decide ((tSync 0).ctr 5 < k.b 2 0)) = true ∧
    (ctxOf (tSync (tSix 3 6 0)) 6 3 fun k => decide (k.b 2 0 ≤ (tSync 0).ctr 5)) = true ∧
    issues (tSync (tWord 6 4 0 0 0 2)) 6 4 = true ∧ { tSync 0 with flags := [5] }.flags.has 5 = true ∧ (tSync 0).flags.has 5 = false ∧ (tSync 0).waits = [] := by
  decide +kernel

/-- `flg.wait` with CONSUME of a set flag clears it and goes on; of a clear one suspends. -/
theorem test_flgWait : leads (.flgWait 0 0 .none) (tS { tSync (tSix 1 0 1) with flags := [5] }) (fun t => t.dev.flags == [] && slot0 t fun y => y.pcOf 0 == tile0 + 8) = true ∧
    leads (.flgWait 0 0 .none) (tS (tSync (tSix 1 0 1))) (fun t => t.dev.waits.length == 1 && slot0 t fun y => y.waiting) = true := by decide +kernel

/-! ### Launches and actions on parked teams -/

/-- A sheaf of two steps with furrows 0, 120, 240, 400, 440 and 500, the first 16 MiB of HBM, flag 5 and counter 5. -/
def tSheaf : Sheaf :=
  { jobId := 9, steps := 2, seed := 0, lsInit := 0, carry := false, lsGrow := 2000, cores := 1, ports := 1, plots := 1, stackSet := 1, movers := 1
    sync := [⟨false, 5, 1, true, true⟩, ⟨true, 5, 1, true, true⟩], ddls := [⟨3, 0, 1, 0, 0, 1, 1, 100, 0⟩], power := [], mem := [⟨0, 0x100_0000, 1, 0⟩], peers := []
    store := [], frws := [0, 120, 240, 400, 440, 500].map fun f => ⟨f, 1, 1, 1, 0x10_0000, 12, 0x11_0000, 0x12_0000⟩, lats := [], sowNs := 0
    profile := [(0, 100, 500, 0)], phaseUs := [1, 1, 1], nStamp := 0, nSeal := 1, nUpd := 1, digest := [] }

/-- A running job of that sheaf; plot 0 is the sheaf's. -/
def tJob : Dev :=
  { (((tD.setFld ADM_STATUS ADM_STATUS_ADMITTED 1).setFld ADM_STATUS ADM_STATUS_RUNNING 1).setFld TLT_MARK TLT_MARK_RESERVED 1) with
    sheaf := some tSheaf, decls := tSheaf.sync }

/-- A descriptor of the opcode with operand words. -/
def tDesc (op : Nat) (w0 w1 w2 w3 w4 : Nat) : Desc := { Desc.zero with op := op, tag := 7, w0 := mkW w0, w1 := mkW w1, w2 := mkW w2, w3 := mkW w3, w4 := mkW w4 }

/-- A descriptor of step 0 in a furrow's ring. -/
def tItem (x : Desc) : FItem := ⟨x, 0, 1, 0xFFFF, 1, 7, 0, Desc.zero, 0xFFFF, 0⟩

/-- `d` with the descriptor `x` in progress at furrow `f`. -/
def tRun (d : Dev) (f : Nat) (x : Desc) : Dev := { d with furrows := [(f, { Furrow.empty with cur := some (tItem x) })] }

/-- Is the operation `op` to be performed at furrow `f` of the device? -/
def performing (d : Dev) (f op : Nat) : Bool :=
  match (d.frw f).cur with
  | some i => i.d.op == op && !(d.frw f).done && d.frwErr f == 0
  | none => false

/-- A launch of two teams with 64 registers each at tile buffer 0, arguments there too. -/
def tLaunch : Desc := tDesc opLaunch tile0 (2 + 8 * 2 ^ 16) 1000 tile0 0

/-- Core 0 runs that launch with one team resident, parked at a break. -/
def tParked : Dev :=
  { tCore { tOne with park := some ⟨pkBreak, tile0, 0, allLanes, allLanes⟩ } 0 with
    tme := [(0, { Tme.empty with active := true, teams := 2, started := 1, regs := 8, slots := [(0, { tOne with park := some ⟨pkBreak, tile0, 0, allLanes, allLanes⟩ })] })] }

/-- A team whose no-progress count has run since 0, at a time base beyond every limit. -/
def tIdle : Dev := let d := tCore { tOne with since := some 0 } 0; { d with tb := { d.tb with time := 2 ^ 60 } }

theorem witness_TeamLaunch :
    performing (tRun tJob 120 tLaunch) 120 opLaunch = true ∧ tJob.physOf (furrowUnit 120) = some 0 ∧ (tJob.core 0).active = false ∧
    tJob.agentAddr (bitsOf tLaunch.w3.toNat 0 48) = some tile0 ∧ tJob.sheafMem tile0 256 = true ∧ ¬ tile0 < hbmSize ∧ tJob.live = true ∧
    (tParked.core 0).active = true ∧ (tParked.core 0).started < (tParked.core 0).teams ∧ (tParked.core 0).slots.length < residentMax (tParked.core 0).regs ∧
    (SMap.find (tParked.core 0).slots 1).isNone = true ∧ (SMap.find (tParked.core 0).slots 0).isSome = true ∧ (tParked.core 0).overrun = false ∧
    (Slot.pick tOne.stack tOne).isSome = true ∧ tIdle.stuck 0 { tOne with since := some 0 } = true ∧ tOne.park = none ∧ tOne.waiting = false ∧ tOne.access = none := by decide +kernel

/-- The launch begins with no team resident; the next one becomes resident in slot 1 with team number 1. -/
theorem test_launch : leads (.launch 120 .none) (tS (tRun tJob 120 tLaunch)) (fun t => (t.dev.core 0).active && (t.dev.core 0).teams == 2 && (t.dev.core 0).slots == []) = true ∧
    leads (.teamResident 0) (tS tParked) (fun t => match SMap.find (t.dev.core 0).slots 1 with | some y => y.team == 1 && y.pcOf 5 == 0 | none => false) = true ∧
    leads (.noProgress 0 0) (tS tIdle) (fun t => slot0 t fun y => y.park == some ⟨pkNoProgress, tile0, 0, allLanes, allLanes⟩) = true := by decide +kernel

theorem witness_TeamActions : tParked.reach .host = true ∧ tParked.gatedReg (coreBase 0) = false ∧ tParked.parkSel 0 = 0 ∧ (tParked.core 0).active = true ∧
    tParked.fld TME_REG_SEL TME_REG_SEL_FILE 0 = 0 ∧ tParked.fld TME_REG_SEL TME_REG_SEL_REG 0 < 64 ∧
    (tParked.setFld TME_REG_SEL TME_REG_SEL_FILE 1).fld TME_REG_SEL TME_REG_SEL_FILE 0 = 1 := by decide +kernel

/-- STEP resumes behind the break; KILL ends the launch. -/
theorem test_actions : leads (.stepTeam .host 0) (tS tParked) (fun t => slot0 t fun y => y.step1 && y.park.isNone && y.pcOf 0 == tile0 + 8) = true ∧
    leads (.kill .host 0) (tS tParked) (fun t => !(t.dev.core 0).active) = true ∧
    leads (.tmeRegData .host 0 77) (tS tParked) (fun t => lane0 t 0 == 77) = true := by decide +kernel

/-! ### Furrows -/

/-- A control descriptor: SIGNAL sets flag 5 of this device (KIND 1, INDEX 5, DEVICE 0xFFFF). -/
def tCtl (op : Nat) : Desc := { tDesc op 1000 0 0 0 0 with sig := mkW (1 + 5 * 2 ^ 8 + 0xFFFF * 2 ^ 24) }

theorem witness_FurrowControl :
    (∀ op ∈ [opNop, opFill, opWait, opCall, opSignal, opRet, opTrc], performing (tRun tJob 0 (tCtl op)) 0 op = true) ∧
    tJob.sigRemote (tCtl opSignal).sig.toNat = false ∧ tJob.sigRemote Desc.zero.sig.toNat = false ∧ tJob.waits = [] ∧
    tJob.tb.time < ((tRun tJob 0 (tCtl opWait)).frw 0).t0 + 1000 ∧ ((tRun tJob 0 (tCtl opWait)).frw 0).t0 + 1000 ≤ { tJob.tb with time := 1000 }.time ∧
    (let d := (tJob.setFld TRC_SIZE TRC_SIZE_LOG2_SIZE 16).setReg TRC_SEL 0
     bitsOf (d.reg TRC_SEL) (3 * furrowType 0) 3 = 0 ∧ 16 ≤ d.fld TRC_SIZE TRC_SIZE_LOG2_SIZE ∧ SMap.get 0 d.lostTrace 0 = 0 ∧
     (d.reg TRC_WR + 2 ^ 64 - d.reg TRC_RD) % 2 ^ 64 < 2 ^ (d.fld TRC_SIZE TRC_SIZE_LOG2_SIZE - 6)) ∧
    4 ≤ bitsOf ((tJob.setReg TRC_SEL 0x3FFFFFFF).reg TRC_SEL) (3 * furrowType 0) 3 ∧
    tJob.physOf 0 = some 0 := by decide +kernel

/-- A SIGNAL sets its flag; a RET of depth 1 comes back to 0. -/
theorem test_signal : leads (.signal 0) (tS (tRun tJob 0 (tCtl opSignal))) (fun t => t.dev.flags == [5] && (t.dev.frw 0).done) = true ∧
    leads (.ret 0) (tS ((tRun tJob 0 (tCtl opRet)).setFf 0 FRW_STATUS FRW_STATUS_DEPTH 1)) (fun t => t.dev.flags == [5] && t.dev.ff 0 FRW_STATUS FRW_STATUS_DEPTH == 0) = true ∧
    leads (.waitDelayExpiry 0) (tS (tRun tJob 0 (tCtl opWait))) (fun t => !(t.dev.frw 0).done) = true := by decide +kernel

/-- A furrow with one descriptor in its FIFO, which waits for counter 5 to reach 8. -/
def tHead (w : WaitSt) : Dev :=
  { tJob with furrows := [(0, { Furrow.empty with fifo := [tItem { tCtl opNop with wait := mkW (2 + 5 * 2 ^ 8 + 8 * 2 ^ 24) }], wait := w, bodies := 1 })] }

theorem witness_FurrowFlow :
    { Furrow.empty with infl := [[tItem (tCtl opNop)]] }.infl = [tItem (tCtl opNop)] :: [] ∧ (tJob.frwImg 0).isSome = true ∧ tJob.running = true ∧
    (tHead .satisfied).frwErr 0 = 0 ∧ ((tHead .satisfied).frw 0).cur = none ∧ (tHead .satisfied).ff 0 FRW_CTRL FRW_CTRL_HOLD = 0 ∧
    ((tHead .satisfied).frw 0).wait = .satisfied ∧ usesLs (tCtl opNop) = false ∧ tJob.job.sowEnd ≤ tJob.tb.time ∧
    tJob.gatePass 0 (estimate 0 (tCtl opNop)) = true ∧ ((tHead .untested).frw 0).wait = .untested ∧ waitKind (2 + 5 * 2 ^ 8 + 8 * 2 ^ 24) ≠ 0 ∧
    (tHead .untested).waitMet (headWait 0 (tItem { tCtl opNop with wait := mkW (2 + 5 * 2 ^ 8 + 8 * 2 ^ 24) })) = false ∧
    ownSignal opNop = false ∧ (tJob.frw 0).bodies < 2 ∧ (tJob.frw 0).bodies ≤ tJob.lastStep ∧ tJob.gatedReg (tJob.frwBase 0) = false ∧
    tJob.hasFrw 0 = true ∧ tJob.reach .host = true ∧
    tJob.eccUE = [] := by decide +kernel

/-- A head whose WAIT is not met waits at the synchronisation unit; one that is satisfied begins; a NOP that is done completes and signals. -/
theorem test_begin : leads (.descriptorBegin 0 .none) (tS (tHead .untested)) (fun t => (t.dev.frw 0).wait == .pending && t.dev.waits.length == 1) = true ∧
    leads (.descriptorBegin 0 .none) (tS (tHead .satisfied)) (fun t => (t.dev.frw 0).cur.isSome && (t.dev.frw 0).fifo == []) = true ∧
    leads (.descriptorComplete 0) (tS { tJob with furrows := [(0, { Furrow.empty with cur := some (tItem (tCtl opNop)), done := true })] })
      (fun t => t.dev.flags == [5] && (t.dev.frw 0).cur.isNone) = true := by decide +kernel

/-! ### Matrix array, tilth units, movers -/

/-- An MM of M = N = 1, K = 2 on ACC0 in FP32 with NODRAIN: A at 0x1000 and B at 0x1200 of the tile buffer, which hold (1, 2) and (3, 4). -/
def tMm (op : Nat) : Desc := tDesc op (1 + 2 ^ 10 + 2 * 2 ^ 18 + 2 ^ 37 + 2 ^ 40) (8 * 2 ^ 16 + 9 * 2 ^ 29) 0 0 0

def tMxa (op : Nat) : Dev :=
  { tRun tJob 0 (tMm op) with
    mem := Mem.write (Mem.write [] (tile0 + 0x1000) (leBytes 4 0x3F800000 ++ leBytes 4 0x40000000)) (tile0 + 0x1200) (leBytes 4 0x40400000 ++ leBytes 4 0x40800000) }

/-- The MM that drains ACC0 to tile buffer 0: K = 0, ACCUM. -/
def tDrain (op : Nat) : Desc := tDesc op (1 + 2 ^ 10 + 2 ^ 37 + 2 ^ 39) 0 (tile0 + 0x2000) (0x3F800000 * 2 ^ 32) 0

/-- The accumulator is owned by a chain of the same shape whose element is 11. -/
def tOwned (op : Nat) : Dev :=
  { tRun tJob 0 (tDrain op) with mxa := [(0, ⟨{ AccTile.empty with owned := true, m := 1, n := 1, ksum := 2 }, AccTile.empty⟩)] }

theorem witness_MatrixAccumulates : ∀ r ∈ mmRows, performing (tMxa r.1) 0 r.1 = true ∧ Mm.ownOk (Mm.of (tMm r.1)) ((tMxa r.1).mx 0) = true ∧
    (Mm.of (tMm r.1)).tm * (Mm.of (tMm r.1)).tn = 1 ∧ (Mm.of (tMm r.1)).k = 2 ∧ (Mm.of (tMm r.1)).nodrain = true ∧ (Mm.of (tMm r.1)).accum = false ∧
    (Mm.of (tMm r.1)).heritage = false ∧ Fmt.ofCode (Mm.of (tMm r.1)).afmt = some .fp32 ∧ Fmt.ofCode (Mm.of (tMm r.1)).bfmt = some .fp32 ∧
    ((tMxa r.1).mmA 0 r.1 (Mm.of (tMm r.1)) .fp32 0).isLeft = true ∧ ((tMxa r.1).mmB 0 r.1 (Mm.of (tMm r.1)) .fp32 0).isLeft = true := by decide +kernel

theorem witness_MatrixDrains : ∀ r ∈ mmRows, performing (tOwned r.1) 0 r.1 = true ∧ Mm.ownOk (Mm.of (tDrain r.1)) ((tOwned r.1).mx 0) = true ∧
    (Mm.of (tDrain r.1)).tm * (Mm.of (tDrain r.1)).tn = 1 ∧ (Mm.of (tDrain r.1)).k = 0 ∧ (Mm.of (tDrain r.1)).nodrain = false ∧
    (Mm.of (tDrain r.1)).accum = true ∧ (Mm.of (tDrain r.1)).top = 0 ∧ (Mm.of (tDrain r.1)).fmap = false ∧
    (tOwned r.1).agentAddr (Mm.of (tDrain r.1)).dst = some (tile0 + 0x2000) ∧ (tOwned r.1).sheafMem (tile0 + 0x2000) (footprint 1 1 .fp32) = true := by decide +kernel

/-- A tilth operation on one row of two FP32 values of plot 0 to the block behind it. -/
def tTil (op func : Nat) : Desc := tDesc op (func + 0x1F * 2 ^ 13) (1 + 2 * 2 ^ 32) plotBase plotBase (plotBase + 0x200)

theorem witness_TilthResults :
    (∀ op ∈ tilthRows.map (fun r => r.1) ++ [opRed2, opCvt24], performing (tRun tJob 240 (tTil op 1)) 240 op = true) ∧
    (Til.of (tTil opElt 1)).fmap = false ∧ Fmt.ofCode (Til.of (tTil opElt 1)).xfmt = some .fp32 ∧ Fmt.ofCode (Til.of (tTil opElt 1)).zfmt = some .fp32 ∧
    Fmt.ofCode (Til.of (tTil opElt 1)).yfmt = none ∧ tJob.plotOk 0 = true ∧ (tJob.tltRead (Til.of (tTil opElt 1)) .fp32 none).isLeft = true ∧
    tJob.treesOff 0 = false := by decide +kernel

/-- A MOV of one row of 16 bytes inside tile buffer 0, which adds its bytes to counter 5. -/
def tMov : Desc := tDesc opMov tile0 (tile0 + 0x1000) (16 + 2 ^ 32) 0 (5 + 2 ^ 13)

theorem witness_MoverCopies : performing (tRun tJob 400 tMov) 400 opMov = true ∧ (tJob.movRow (MovOp.of tMov) 0) = some (tile0, tile0 + 0x1000) ∧
    (MovOp.of tMov).rows = 1 ∧ (MovOp.of tMov).rowBytes = 16 ∧ tJob.movCase (MovOp.of tMov) tile0 (tile0 + 0x1000) = 5 ∧ tJob.waits = [] ∧
    tJob.movUE (MovOp.of tMov) tile0 (tile0 + 0x1000) = none := by decide +kernel

theorem test_mov : leads (.mov 400 .none) (tS { tRun tJob 400 tMov with mem := Mem.write [] tile0 [1, 2, 3] })
    (fun t => t.dev.mem.byte (tile0 + 0x1002) == 3 && t.dev.ctr 5 == 16 && (t.dev.frw 400).done) = true := by decide +kernel

/-! ### Headland and harrow -/

/-- The job of `tJob` with port 0 UP and a route to device 3 by it. -/
def tFab : Dev := { (tJob.setReg HUB_ROUTE (2 ^ 31 + 2 ^ 4) 0 3).setFld HDL_STATUS HDL_STATUS_STATE 2 with nextXid := 6 }

/-- A headland operation with device 3: 32 bytes of plot 0. -/
def tHdl (op : Nat) : Desc := tDesc op (0x1000 + 3 * 2 ^ 48) plotBase 32 0 0

theorem witness_HeadlandSends : ∀ r ∈ hdlRows, performing (tRun tFab 440 (tHdl r.1)) 440 r.1 = true ∧ tFab.quiesced = false ∧
    tFab.hdlPort (furrowUnit 440) (Hdl.of (tHdl r.1)).dev = .inl 0 ∧ tFab.sheafMem (Hdl.of (tHdl r.1)).loc (Hdl.of (tHdl r.1)).bytes = true ∧
    ¬ (Hdl.of (tHdl r.1)).loc < hbmSize ∧ tFab.touchesFallow (Hdl.of (tHdl r.1)).loc (Hdl.of (tHdl r.1)).bytes = false := by decide +kernel

theorem test_hdlPut : leads (.hdlPut 440 .none) (tS (tRun tFab 440 (tHdl opPut)))
    (fun t => t.dev.xacts.length == 1 && t.dev.nextXid == 7 && (t.dev.frw 440).held == 1) = true := by decide +kernel

/-- An UPD of group 0 with its record at 0x1000 of HBM: one record at 0x4E00, which lies in stack 0, one contributor, APPLIED as STEPC. -/
def tUpd : Desc := tDesc opUpd (12 * 2 ^ 4 + 12 * 2 ^ 9 + 0x1F * 2 ^ 14) 0x1000 1 0 0

def tHrw (v : HVerd) : Dev :=
  { tRun tJob 500 tUpd with
    mem := Mem.write [] 0x1000 (leBytes 8 0x4E00 ++ leBytes 4 1 ++ leBytes 2 1 ++ leBytes 2 1 ++ List.replicate 64 0 ++ leBytes 4 1 ++ List.replicate 76 0 ++ leBytes 4 0)
    harrow := [(0, { Harrow.empty with verds := [(0, v)] })] }

theorem witness_UpdApplies : let d := tHrw ⟨0, vCommit, false, 1, 0⟩
    let u := Upd.of tUpd
    let p := GRec.of (d.read u.record 256) 0
    performing d 500 opUpd = true ∧ (d.frwImg 500).map (fun g => g.phaseOf (tItem tUpd)) = some 1 ∧ d.reserved u.record 256 = true ∧ p.stepc ≠ 0xFFFFFFFF ∧
    u.nblk = p.count ∧ recordsIn p 0 = [0] ∧ p.ok u = true ∧ d.reserved p.base (512 * p.nrec) = true ∧ (∀ r ∈ recordsIn p 0, d.appliedOf p r = p.stepc) ∧ u.cfmt = none ∧ u.rule ≠ 3 ∧
    d.snapOn p = false ∧ d.eccUE = [] := by decide +kernel

/-- Under COMMIT the record counts on to 1, and so does the group's count of the stack. -/
theorem test_upd : leads (.upd 500 .none) (tS (tHrw ⟨0, vCommit, false, 1, 0⟩))
    (fun t => t.dev.mem.byte 0x4FF4 == 1 && t.dev.mem.byte 0x10A0 == 1 && (t.dev.frw 500).done) = true := by decide +kernel

/-- A SEAL of group 0 at stack 0, with an empty peer table at 0x3000. -/
def tSealD : Desc := tDesc opSeal 0 0x3000 0 0 0

/-- Group 0 is registered at stack 0 with one contributor, device 0; its header of step 0 is `x`. -/
def tSealed (x : HHdr) : Dev :=
  { tRun tJob 500 tSealD with harrow := [(0, { Harrow.empty with groups := [(0, ⟨0x1000, 0x2000, 1, 1, [0], 100, 100⟩)], hdrs := [x] })], seals := [(0, { StepSeal.empty with verdict := vUnknown })] }

theorem witness_SealFlow :
    performing (tSealed (HHdr.empty 0 0)) 500 opSeal = true ∧ ((tSealed (HHdr.empty 0 0)).sealHdr 0 0 0).map (fun q => q.2.closed) = some false ∧
    ((tSealed { HHdr.empty 0 0 with closed := true, deposited := true }).sealHdr 0 0 0).map (fun q => (q.2.closed, q.2.deposited)) = some (true, true) ∧
    ((tSealed { HHdr.empty 0 0 with closed := true }).sealHdr 0 0 0).map (fun q => (q.2.closed, q.2.deposited)) = some (true, false) ∧
    ((tSealed (HHdr.empty 0 0)).seal 0).verdict = vUnknown ∧ ({ StepSeal.empty with verdict := vCommit } : StepSeal).verdict = vCommit ∧
    tJob.reserved 0x3000 0 = true ∧ tJob.eccUE = [] ∧ (0 : Nat) ≠ noStep := by decide +kernel

/-- A closed header is deposited once. -/
theorem test_seal : leads (.seal 500 .none) (tS (tSealed { HHdr.empty 0 0 with closed := true, ovf := true })) (fun t => (t.dev.seal 0).dep == 1 && (t.dev.seal 0).ovf) = true ∧
    leads (.seal 500 .none) (tS (tSealed (HHdr.empty 0 0))) (fun t => (t.dev.seal 0).dep == 0 && !(t.dev.frw 500).done) = true := by decide +kernel

/-! ### Registers and host accesses -/

theorem witness_RegisterAccesses : (∀ w ∈ [Who.host, .jtag, .mgmt], tD.reach w = true) ∧
    (∀ q ∈ logRegs, ∃ u ∈ [0, 1, 14], regAt (q.1.addr u 0) = some (q.1, u, 0) ∧ tD.gatedReg (q.1.addr u 0) = false) := by decide +kernel

/-- HUB_IRQ_STATUS is RW1C: writing bit 1 clears it alone. PWR_EVT[15:0] is RC: a read clears it, and not bit 48. -/
theorem test_registers : leads (.registerWrite .host (HUB_IRQ_STATUS.addr 0 0) 8 2) (tS (tD.setReg HUB_IRQ_STATUS 3)) (fun t => t.dev.reg HUB_IRQ_STATUS == 1) = true ∧
    leads (.rcRead .jtag (PWR_EVT.addr 0 0) 8) (tS (tD.setReg PWR_EVT (5 + 2 ^ 48))) (fun t => t.dev.reg PWR_EVT == 2 ^ 48) = true ∧
    leads (.elogClear .host (ERR_GLOG_CNT.addr 0 0) 0x10000) (tS (tD.setReg ERR_GLOG_CNT 3)) (fun t => bitsOf (t.dev.reg ERR_GLOG_CNT) 0 5 == 0) = true := by decide +kernel

theorem witness_HostMemory : tD.reach .host = true ∧ tD.memServes 0x1000 8 = true ∧ tD.memServes plotBase 8 = true ∧ tD.memServes tile0 8 = true ∧ tD.eccUE = [] ∧
    tD.memServes (hbmSize - 8) 8 = true ∧ tD.memServes (hbmSize - 4) 8 = false ∧ region hbmSize = .hole ∧ hbmSize + 8 ≤ 2 ^ 42 ∧ 0x1000_0000 + 8 ≤ 2 ^ 29 := by
  decide +kernel

theorem test_host : leads (.hostWrite 2 0x1003 [7, 8]) (tS tD) (fun t => t.dev.mem == [(0x1003, 7), (0x1004, 8)]) = true ∧
    leads (.hostRead 2 0x1003 2 .none) (tS { tD with mem := [(0x1004, 8)] }) (fun t => t.dev.out == [.data [0, 8]]) = true ∧
    leads (.hostWrite 2 hbmSize [7]) (tS tD) (fun t => t.dev.mem == [] && t.dev.out == [.err]) = true := by decide +kernel

theorem witness_SyncStores : tJob.waits = [] ∧ (∀ w ∈ [Who.host, .jtag, .mgmt], tJob.reach w = true ∧ tJob.syncMay w true 5 = true ∧ tJob.syncMay w false 5 = true) ∧
    tJob.syncMay .host true 8191 = false ∧ tJob.syncMay .host false 65535 = false ∧ tJob.hostOk false 5 = true := by decide +kernel

theorem test_sync : leads (.flagCounterStore .host true 5 5 8 7 0) (tS tJob) (fun t => t.dev.ctr 5 == 7 && t.dev.out == [.value 0]) = true ∧
    leads (.doorbell 5) (tS tJob) (fun t => t.dev.flags == [5]) = true ∧
    leads (.flagCounterStore .host false 6 0 8 1 0) (tS tJob) (fun t => t.dev.flags == [] && t.dev.out == [.err]) = true := by decide +kernel

/-! ### Admission and the job -/

/-- A JOB reset that began at 0 is not over. -/
def tSoft : Dev := { tD with boot := { tD.boot with soft := some (2, 0) }, tb := { tD.tb with on := true } }

theorem witness_SubmitChecks : tD.reach .host = true ∧ tD.resetting = false ∧ tD.admitted = false ∧ tD.checking = false ∧ tJob.admitted = true ∧
    (tD.setFld ADM_STATUS ADM_STATUS_CHECKING 1).checking = true ∧
    tD.busyReset = false ∧ tSoft.busyReset = true ∧ tSoft.reach .host = true := by decide +kernel

theorem test_submit : leads (.submit .host) (tS tD) (fun t => t.dev.checking) = true ∧
    leads (.submit .host) (tS tJob) (fun t => t.dev.fld ADM_STATUS ADM_STATUS_CODE == 4) = true := by decide +kernel

theorem witness_AdmissionResults : (tD.setFld ADM_STATUS ADM_STATUS_CHECKING 1).live = true ∧ (tD.setFld ADM_STATUS ADM_STATUS_CHECKING 1).checking = true ∧
    (formatFault [] tD.seqLen (readFail tD.seqLen 0 none)).isSome = true := by decide +kernel

/-- An image of no bytes is refused with FORMAT, and ADMISSION is raised. -/
theorem test_admission : leads (.admissionComplete [] none) (tS (tD.setFld ADM_STATUS ADM_STATUS_CHECKING 1))
    (fun t => t.dev.fld ADM_STATUS ADM_STATUS_CODE == 1 && !t.dev.admitted && bitOf (t.dev.fld HUB_IRQ_STATUS HUB_IRQ_STATUS_CAUSE) irqAdmission) = true := by decide +kernel

/-- The sheaf of `tJob`, admitted and not started. -/
def tAdm : Dev := tJob.setFld ADM_STATUS ADM_STATUS_RUNNING 0

theorem witness_JobStartsAndFinishes : tAdm.sheaf = some tSheaf ∧ tAdm.live = true ∧ tAdm.fld SEQ_STATUS SEQ_STATUS_COPIED = 0 ∧ tAdm.running = false ∧
    tAdm.reach .host = true ∧ tAdm.resetting = false ∧ tAdm.admitted = true ∧ tAdm.job.faulted = false ∧ tD.sheaf = none ∧ tD.admitted = false ∧
    tJob.running = true ∧ tJob.job.last = none ∧ 0 < ((tHead .untested).frw 0).bodies ∧ (∃ g ∈ tSheaf.frws, g.f = 0) ∧
    tAdm.busyReset = false ∧ tAdm.busOk = true := by decide +kernel

theorem test_start : leads (.start .host) (tS { tAdm with flags := [5, 6] }) (fun t => t.dev.running && t.dev.flags == [6]) = true ∧
    leads (.start .host) (tS tD) (fun t => t.dev.out == [.err]) = true ∧
    leads (.finish .host) (tS (tHead .untested)) (fun t => t.dev.job.last == some 0) = true := by decide +kernel

/-- Deadline 3 of step 0 has been open since 0; its bound is 100. -/
def tLate (now : Nat) (late : Bool) : Dev := { tJob with tb := { tJob.tb with time := now }, job := { tJob.job with ivals := [⟨3, 0, 0, late⟩] } }

theorem witness_JobFaults : (tJob.ddlOf 3).map Ddl.bound = some 100 ∧ (tLate 101 false).live = true ∧ (tLate 101 false).job.faulted = false ∧
    0 + 100 < (tLate 101 false).tb.time ∧ 0 + 100 + (tLate 0 false).grace ≤ (tLate (100 + tJob.grace) true).tb.time ∧ 0 < tJob.grace ∧
    (∀ r ∈ mmRows, performing { tOwned r.1 with mxa := [] } 0 r.1 = true ∧ Mm.ownOk (Mm.of (tDrain r.1)) (Dev.mx { tOwned r.1 with mxa := [] } 0) = false) := by decide +kernel

/-- Before its bound an interval is not late; before the grace is over the watchdog does nothing. -/
theorem test_deadline : leads (.deadlineLate 3 0) (tS (tLate 100 false)) (fun t => t.dev.job.ivals == [⟨3, 0, 0, false⟩]) = true ∧
    leads (.deadline 3 0) (tS (tLate (99 + tJob.grace) true)) (fun t => !t.dev.job.faulted) = true := by decide +kernel

theorem witness_JobResets : tJob.resetting = false ∧ tJob.reach .host = true ∧ tAdm.running = false ∧ tJob.running = true ∧ tJob.sheaf ≠ none ∧ tJob.live = true ∧
    ({ tJob.job with aborting := true } : Job).aborting = true ∧ (tJob.setFld RST_CFG RST_CFG_AUTO_JOB 1).bit RST_CFG RST_CFG_AUTO_JOB = true ∧ tJob.xacts = [] ∧
    tJob.runsReset 2 = false ∧ tSoft.runsReset 2 = true ∧ tJob.pwrState = 0 ∧ tJob.bit TRC_SEL TRC_SEL_FILL = false := by decide +kernel

/-! ### Power and clocks -/

theorem witness_Envelope : (∀ n ∈ [0, 1, 2, 3, 4], (envRegs[n]?).isSome = true) ∧ tD.reach .host = true ∧ tD.admitted = false ∧
    tJob.admitted = true ∧ tJob.running = true ∧ tJob.sheaf = some tSheaf ∧ ({ tJob.gov with recheck := true } : Gov).recheck = true := by decide +kernel

theorem witness_Envelope_ranges : inEnvelope tD 1 4400 ∧ ¬ inEnvelope tD 1 8000 := by unfold inEnvelope; decide +kernel

/-- Table 15.5: PWR_THERM.LIMIT takes 85 and 105 and refuses 84 and 106. -/
theorem test_therm_range :
    leads (.registerWrite .host (PWR_THERM.addr 0 0) 8 85) (tS tD) (fun t => t.dev.out = [.ok] ∧ t.dev.fld PWR_THERM PWR_THERM_LIMIT = 85) = true ∧
    leads (.registerWrite .host (PWR_THERM.addr 0 0) 8 105) (tS tD) (fun t => t.dev.fld PWR_THERM PWR_THERM_LIMIT = 105) = true ∧
    leads (.registerWrite .host (PWR_THERM.addr 0 0) 8 84) (tS tD) (fun t => t.dev.out = [.err] ∧ t.dev.fld PWR_THERM PWR_THERM_LIMIT = 100) = true ∧
    leads (.registerWrite .host (PWR_THERM.addr 0 0) 8 106) (tS tD) (fun t => t.dev.out = [.err] ∧ t.dev.fld PWR_THERM PWR_THERM_LIMIT = 100) = true := by
  decide +kernel

theorem witness_GovernorTicks : tD.live = true ∧ (∀ i < 10, (List.replicate 10 45)[i]?.getD 0 < 110) ∧ (Gov.off.active = false ∧ Gov.off.ramp = false) ∧
    ({ Gov.off with active := true } : Gov).active = true ∧ tD.ist.running = [] ∧
    ({ Gov.off with ramp := true } : Gov).ramp = true ∧ ({ Gov.off with hold := true } : Gov).hold = true ∧ tD.ist.due = [] ∧
    (∀ i < 30, ([] : List Nat)[i]?.getD 0 < 110) := by decide +kernel

theorem test_governor : leads (.governorTick (List.replicate 27 (10, 750)) (List.replicate 10 110)) (tS tD) (fun t => t.dev.halt == .trip) = true := by
  decide +kernel

theorem witness_ThermalTrips : tJob.live = true ∧ tJob.sheaf ≠ none ∧ tJob.job.faulted = false ∧ 110 ≤ (List.replicate 10 110)[9]?.getD 0 ∧ tD.boot.tripDue = none ∧
    ({ tD.boot with tripDue := some ⟨30, 255, 0, 0, false⟩ } : Boot).tripDue.isSome = true := by decide +kernel

theorem test_trip : leads (.thermalTrip 30 111) (tS tD) (fun t => t.dev.halt == .trip && t.dev.boot.tripDue == some ⟨30, 111, 0, 0, false⟩) = true := by decide +kernel

/-- A transition from the state `m` to the state `g` runs. -/
def tGoal (m : Nat) (g : Option Nat) : Dev := { tD.setFld PWR_STATUS PWR_STATUS_STATE 3 with gov := { tD.gov with leaves := m, goal := g } }

/-- A tick of the governor without readings takes a device that runs, and that no reset holds, to a next state. -/
theorem ticks_exist (d : Dev) (h : d.live = true) (b : d.boot.soft = none) : ∃ t, ticks (tS d) t :=
  ⟨_, [], [], by intro i _; simp, h, b, rfl⟩

theorem witness_PowerStates : tD.reach .mgmt = true ∧ tD.admitted = false ∧ tJob.admitted = true ∧ tD.pwrState = 0 ∧
    (tGoal 0 (some 2)).pwrState = 3 ∧ (tGoal 0 (some 2)).gov.goal = some 2 ∧ (tGoal 0 (some 2)).landsDue = false ∧ (tGoal 2 (some 0)).gov.leaves = 2 ∧
    (tD.setFld PWR_STATUS PWR_STATUS_STATE 2).pwrState = 2 ∧ (tD.setFld HBM_STATUS HBM_STATUS_STATE 2).fld HBM_STATUS HBM_STATUS_STATE = 2 ∧
    keptDeep tD 0 = true ∧ tD.portState 0 = portOff ∧ (tD.setReg TRC_SEL 4).bit TRC_SEL TRC_SEL_FILL = false ∧ 4 ≤ bitsOf ((tD.setReg TRC_SEL 4).reg TRC_SEL) 0 3 := by decide +kernel

theorem witness_PowerStates_tick (m : Nat) (g : Option Nat) : ∃ t, ticks (tS (tGoal m g)) t := ticks_exist _ rfl rfl

theorem test_power : leads (.reqSleep .mgmt) (tS tD) (fun t => t.dev.pwrState == 3 && t.dev.gov.goal == some 1) = true ∧
    leads (.governorTick [] []) (tS (tGoal 0 (some 1))) (fun t => t.dev.pwrState == 1 && t.dev.gov.goal == none) = true ∧
    leads (.reqSleep .mgmt) (tS tJob) (fun t => t.dev.out == [.err]) = true := by decide +kernel

/-- XIN0 is present and loop 3 relocks. -/
def tLoop : Dev := { tD with clk := { tD.clk with relock := [3], settled := true } }

/-- Loop 3 has locked and the stack behind it trains. -/
def tTrains : Dev := { tLoop.setFld HBM_STATUS HBM_STATUS_STATE 1 1 with clk := { tLoop.clk with relock := [] }, training := [(1, 5)] }

theorem witness_ClockSources : tD.live = true ∧ tD.clk.xin0 = true ∧ tD.admitted = false ∧ tJob.admitted = true ∧ tD.reach .host = true ∧
    tLoop.clk.settled = true ∧ tLoop.reach .host = true ∧ tLoop.pwrMode ≠ 2 ∧ Dev.reset.clk.settled = false := by decide +kernel

theorem witness_Loops : tD.reach .jtag = true ∧ (loopSetting (CLK_CPLL.addr 0 0) 0).isSome = true ∧ tD.gatedReg (CLK_CPLL.addr 0 0) = false ∧
    tD.admitted = false ∧ tJob.admitted = true ∧ bitsOf 0x100010 0 5 ≤ 16 ∧ bitsOf 0x100010 16 5 ≤ 16 ∧ 16 < bitsOf 17 0 5 ∧
    tLoop.live = true ∧ tLoop.clk.relock.has 3 = true ∧ tLoop.clk.xin0 = true ∧ loopStack 3 ≠ none ∧ tLoop.boot.booting = true ∧
    tLoop.clk.relock.del 3 = [] ∧ pickSlot tLoop.boot = some 0 ∧ loopStack 0 = none ∧ (∀ m < 20, tLoop.fld HBM_STATUS HBM_STATUS_STATE m ≠ 1) ∧
    tTrains.locked 3 = true ∧ tTrains.fld HBM_STATUS HBM_STATUS_STATE 1 = 1 ∧ SMap.find tTrains.training 1 = some 5 ∧ tTrains.clk.relock = [] := by decide +kernel

/-- The last loop locks and its stack trains whole; as that ends, the device boots slot A. -/
theorem test_boot : leads (.loopLock 3 0 0) (tS tLoop) (fun t => t.dev.fld HBM_STATUS HBM_STATUS_STATE 1 == 1 && SMap.find t.dev.training 1 == some 5) = true ∧
    leads (.loopLock 3 0 0) (tS tTrains) (fun t => t.dev.bit HUB_BOOT HUB_BOOT_READY && t.dev.boot.booted == some 0) = true := by decide +kernel

/-- XIN0 runs, and the device boots but XO_SETTLE has not elapsed. -/
theorem witness_xoSettle : Dev.reset.live = true ∧ Dev.reset.boot.booting = true ∧ Dev.reset.clk.settled = false ∧ Dev.reset.clk.xin0 = true ∧
    tLoop.clk.settled = true ∧ ¬ tD.clk.settled = true := by decide +kernel

/-- A device whose time base follows port 0, with a TB_REQ of time 0 outstanding; and the root, disciplined by PPS_IN. -/
def tTb : Dev :=
  let d := tD.setFld HDL_STATUS HDL_STATUS_STATE 2
  { d with tb := { d.tb with on := true, reqT1 := some 0, time := 20 } }

def tPps : Dev := { (tTb.setFld CLK_TB_CFG CLK_TB_CFG_ROOT 1).setFld CLK_TB_CFG CLK_TB_CFG_DISCIPLINE 1 with tb := tTb.tb }

theorem witness_TimeExchange : tTb.live = true ∧ tTb.follows = true ∧ tTb.portIsUp 0 = true ∧ tTb.tb.on = true ∧ tTb.tb.reqT1 = some 0 ∧ tTb.admitted = false ∧
    1000 < (tbOffset 0 1100 1100 20).natAbs ∧ (tbOffset 0 10 12 20).natAbs ≤ 1000 ∧ tTb.disciplined = false ∧ tPps.disciplined = true ∧ tPps.tb.on = true := by
  decide +kernel

/-- TB_REQ is answered with the time twice; a lost PPS shows. -/
theorem test_tb : leads (.tbReq 0 7) (tS tTb) (fun t => t.dev.out == [.tbReply 0 20 20]) = true ∧
    leads .ppsLost (tS tPps) (fun t => t.dev.bit CLK_TB_STATUS CLK_TB_STATUS_PPS_LOST) = true := by decide +kernel

/-! ### Ports and arriving commands -/

/-- Port 0 trains; it has failed `n` times. -/
def tTrain (n : Nat) : Dev := { tD.setFld HDL_STATUS HDL_STATUS_STATE 1 with ports := [(0, { Port.off with step := 4, fails := n })] }

theorem witness_PortsTrainAndRecover : (∀ w ∈ [Who.host, .jtag, .mgmt], tD.reach w = true) ∧ tD.gatedReg (HDL_CFG.addr 0 0) = false ∧
    tD.gatedReg (HDL_CFG.addr 59 0) = false ∧ tD.fld HDL_CFG HDL_CFG_PMD 0 ≠ 3 ∧ (tTrain 0).live = true ∧ (tTrain 0).portState 0 = portTraining ∧
    tD.fld HDL_CFG HDL_CFG_PMD 0 ≠ 2 ∧ ((tTrain 0).port 0).fails + 1 ≤ (tTrain 0).fld HDL_CFG HDL_CFG_RETRIES 0 ∧
    (tTrain 9).fld HDL_CFG HDL_CFG_RETRIES 0 ≤ ((tTrain 9).port 0).fails ∧ tFab.portState 0 = portUp ∧ tFab.admitted = true ∧ tFab.sheaf = some tSheaf ∧
    tFab.job.faulted = false ∧ tTb.portState 0 = portUp ∧ tTb.admitted = false ∧ (tTb.port 0).nakRuns < 8 ∧ tD.portState 0 ≠ portUp ∧
    ({ Port.off with nakSeq := 5, nakRuns := 8 } : Port).nakRuns = 8 ∧
    (tTrain 0).clk.xin0 = true ∧ (tTrain 0).clk.coast = [] ∧
    ({ tD with clk := { tD.clk with coast := [40] } } : Dev).clk.coast ≠ [] ∧ flitCrc 0 [] ≠ flitCrc 0 [] + 1 ∧ (LinkHdr.of 0).kind = 0 ∧
    ([1, 2, 3].all fun k => (List.range 32).any fun b => (LinkHdr.of (k * 2 ^ b)).kind == k) = true := by decide +kernel

/-- HELLO with a round trip of 100 ns brings the port up; a rejected flit draws a NAK of the last good SEQ. -/
theorem test_port : leads (.hello 0 3 4 100) (tS (tTrain 0)) (fun t => t.dev.portState 0 == portUp && t.dev.fld HDL_PEER HDL_PEER_DEVID 0 == 3) = true ∧
    leads (.trainingTimeout 0 4) (tS (tTrain 9)) (fun t => t.dev.portState 0 == portFailed && t.dev.fld HDL_STATUS HDL_STATUS_CAUSE 0 == 0x70) = true ∧
    leads (.flitReject 0 0 (flitCrc 0 [] + 1) []) (tS tTb) (fun t => t.dev.out == [.nak 0 1023]) = true := by decide +kernel

/-- A command of device 3 for this device. -/
def tCmd (addr bytes : Nat) : Cmd := { Cmd.zero with src := 3, addr := addr, bytes := bytes, xid := 8 }

theorem witness_PutAndGet : tFab.live = true ∧ tFab.portIsUp 0 = true ∧ (tCmd plotBase 4).dst = tFab.devId ∧ tFab.job.refuseInbound = false ∧ tFab.waits = [] ∧
    tFab.remoteMem plotBase 4 = true ∧ tFab.remoteMem 0x1000 4 = true ∧ tFab.rcountOk (tCmd plotBase 4) = true ∧ tFab.rcountOk { tCmd plotBase 4 with flags := 1, rcounter := 5 } = true ∧
    tFab.touchesFallow plotBase 4 = false ∧ tFab.remoteMem tile0 4 = false ∧ tFab.remoteMem 0x1000 0 = false ∧ tFab.eccUE = [] ∧ tFab.egress 3 tFab.devId plotBase = .up 0 ∧
    (∀ die < 10, tFab.treesOff die = false) ∧ tFab.mergeUE 0x1000 4 = none := by
  decide +kernel

/-- A PUT of four bytes that counts them at counter 5 is answered. -/
theorem test_put : leads (.put 0 { tCmd 0x1000 4 with flags := 1, rcounter := 5 } [1, 2, 3, 4]) (tS tFab)
      (fun t => t.dev.mem.byte 0x1003 == 4 && t.dev.ctr 5 == 4 && t.dev.out == [.rsp 3 8 0 []]) = true ∧
    leads (.put 0 (tCmd tile0 4) [1, 2, 3, 4]) (tS tFab) (fun t => t.dev.mem == [] && t.dev.out == [.rsp 3 8 2 []]) = true ∧
    leads (.get 0 (tCmd 0x1000 2) false .none) (tS { tFab with mem := [(0x1001, 7)] }) (fun t => t.dev.out == [.rsp 3 8 0 [0, 7]]) = true := by decide +kernel

/-- A device whose stack 0 has group 0 with two records at 0x4E00 and device 3 as its contributor. -/
def tLandD : Dev := { tFab with harrow := [(0, { Harrow.empty with groups := [(0, ⟨0x1000, 0x4E00, 1, 1, [3], 100, 100⟩)] })] }

/-- One STAMP record in FP32 for step 0. -/
def tStamp : Cmd := { tCmd 0x4E00 128 with flags := 2 }

theorem witness_Accumulates : landBeta 0 = some (128, .fp32) ∧ tFab.remoteMem 0x1000 8 = true ∧ bitOf (tCmd 0x1000 8).flags 1 = false ∧ 0x1000 % 4 = 0 ∧
    (tLandD.landCheck tStamp).isLeft = true ∧ bitOf tStamp.flags 1 = true ∧ tStamp.addr < hbmSize ∧
    (match tLandD.landCheck tStamp with
     | .inl l => !l.late && l.touched.all fun st => tLandD.landSlot l 0 st == 0
     | .inr _ => false) = true ∧
    (match tLandD.landCheck tStamp with
     | .inl l => l.n == 1 && l.touched == [stackOf tStamp.addr] && stackOf (0x4E00 + 512 * l.r0) == 0
     | .inr _ => false) = true ∧ stackOf tStamp.addr = 0 ∧
    (tLandD.landCheck { tStamp with src := 4 }).isRight = true ∧ (tFab.landCheck tStamp).isRight = true := by decide +kernel

/-- Adding 1.0 to 2.0 in HBM gives 3.0; a STAMP record adds 1.0 to element 0 of its slot. -/
theorem test_acc : leads (.acc 0 (tCmd 0x1000 4) (leBytes 4 0x3F800000) .none) (tS { tFab with mem := Mem.write [] 0x1000 (leBytes 4 0x40000000) })
      (fun t => leNat (Mem.read t.dev.mem 0x1000 4) == 0x40400000 && t.dev.out == [.rsp 3 8 0 []]) = true ∧
    leads (.acc 0 tStamp (leBytes 4 0x3F800000 ++ List.replicate 124 0) .none) (tS tLandD) (fun t => leNat (Mem.read t.dev.mem 0x4E00 4) == 0x3F800000) = true := by decide +kernel

/-- A sector of a team's access: address, mask, 32 bytes. -/
def tSector (a m : Nat) (bs : List Byte) : List Byte := leBytes 8 a ++ leBytes 4 m ++ bs ++ List.replicate (32 - bs.length) 0

theorem witness_RemoteTeamAccesses :
    sectorsIn 10 (tSector 0x1000 3 [1, 2]) = [(0x1000, 3, [1, 2] ++ List.replicate 30 0)] ∧ tFab.sectorsOk (sectorsIn 10 (tSector 0x1000 3 [1, 2])) = true ∧
    isSync 0x1000 = false ∧ isSync (ctrlBase + 0x2010_0028) = true ∧ syncAt 0x10_0028 = some (true, 5) ∧ syncKind 0 0 = some 5 ∧
    tFab.remoteOk true 5 = true ∧ tFab.remoteMem 0x1008 8 = true ∧ (tFab.syncOp true 5 5 8 7 0).isSome = true ∧
    2 ^ ((tCmd 0x1008 0x300).bytes / 256 % 8) = 8 ∧ (tCmd 0x1008 0x307).bytes % 256 % 8 = 7 := by decide +kernel

/-- An atomic add to a counter answers the old value; a store replaces the masked bytes. -/
theorem test_remote : leads (.atomic 0 (tCmd (ctrlBase + 0x2010_0028) 0x300) (leBytes 8 7 ++ leBytes 8 0) false .none) (tS { tFab with ctrs := [(5, 2)] })
      (fun t => t.dev.ctr 5 == 9 && t.dev.out == [.rsp 3 8 0 (leBytes 8 2)]) = true ∧
    leads (.store 0 (tCmd 0x1000 0) (tSector 0x1000 2 [1, 2])) (tS tFab) (fun t => t.dev.mem == [(0x1001, 2)]) = true ∧
    leads (.load 0 (tCmd 0x1000 0) (tSector 0x1000 2 []) false .none) (tS { tFab with mem := [(0x1001, 2)] }) (fun t => t.dev.out == [.rsp 3 8 0 ([0, 2] ++ List.replicate 30 0)]) = true := by
  decide +kernel

theorem witness_SignalsAndTransit : tFab.remoteOk false 5 = true ∧ tFab.remoteOk true 5 = true ∧ tFab.remoteOk false 6 = false ∧ tFab.remoteOk true 65535 = false ∧
    (tCmd 5 1).addr % 2 ^ 16 = 5 ∧ tFab.egress 3 tFab.devId 5 = .up 0 ∧ { tCmd 5 1 with dst := 3 }.dst ≠ tFab.devId ∧
    (tCmd 5 1).hops ≠ tFab.fld HUB_FAB_CFG HUB_FAB_CFG_HOP_LIMIT ∧ tFab.egress 4 3 5 = .noRoute ∧
    (tFab.setFld HDL_STATUS HDL_STATUS_STATE 3).egress 3 4 5 = .down 0 ∧ ({ tFab.job with refuseInbound := true } : Job).refuseInbound = true ∧
    opAssigned 11 = false ∧ opAssigned 1 = true := by decide +kernel

theorem test_signalSet : leads (.signalSet 0 (tCmd 5 0)) (tS tFab) (fun t => t.dev.flags == [5] && t.dev.out == [.rsp 3 8 0 []]) = true ∧
    leads (.signalAdd 0 (tCmd 5 3)) (tS tFab) (fun t => t.dev.ctr 5 == 3) = true ∧
    leads (.echo 0 (tCmd 0 0)) (tS tFab) (fun t => t.dev.out == [.echoRsp 3 8 0 (tFab.fld HUB_YOKE_STATE HUB_YOKE_STATE_Y_NS) 0 false]) = true ∧
    leads (.transit 0 { tCmd 5 1 with dst := 3 } []) (tS tFab) (fun t => t.dev.out == [.cmd 0 { tCmd 5 1 with dst := 3, hops := 1 } []]) = true := by decide +kernel

/-! ### Responses, route epochs, tokens -/

/-- Furrow 440 waits for the answer to transaction 8, of the kind `k`. -/
def tXact (k : XKind) : Dev :=
  { tFab with
    xacts := [⟨8, k, 3, 0, tCmd 0x1000 4⟩]
    furrows := [(440, { Furrow.empty with cur := some (tItem (tHdl opPut)), held := 1, done := true })] }

/-- The team of slot 0 of core 0 waits for one answer. -/
def tXteam : Dev :=
  { tXact (.store 0 0 1 []) with tme := [(0, { Tme.empty with active := true, teams := 1, started := 1, regs := 8, slots := [(0, { tOne with access := some { tAcc with wait := 1 } })] })] }

/-- The answer to a PUT of device 3 waits for a sharer's, to transaction 8. -/
def tAwait : Dev := { tXact .inval with acks := [([8], .rsp { tCmd 0x1000 4 with xid := 9 } 0 [])] }

theorem witness_ResponsesSettle : (tXact (.put 440 0)).live = true ∧ (tXact (.put 440 0)).portIsUp 0 = true ∧ (tXact (.put 440 0)).quiesced = false ∧
    (∀ k ∈ [XKind.put 440 0, .acc 440 0 false, .get 440 0 0x1000 none, .store 0 0 1 []],
      ((tXact k).xacts.find? fun y => y.xid == 8).map Xact.kind = some k ∧ ((tXact k).frw 440).cur.isSome = true) ∧ tFab.job.aborting = false ∧
    tFab.sheaf = some tSheaf ∧ tFab.job.faulted = false ∧
    ((SMap.find (tXteam.core 0).slots 0).map fun y => y.access.isSome) = some true ∧ (tXteam.xacts.find? fun y => y.xid == 8).isSome = true ∧ tFab.xacts = [] ∧
    (∀ die < 10, tFab.treesOff die = false) ∧ tFab.mergeUE 0x1000 4 = none ∧
    tAwait.acks = [([8], .rsp { tCmd 0x1000 4 with xid := 9 } 0 [])] ∧ tAwait.egress 3 tAwait.devId 0x1000 = .up 0 ∧ tFab.egress 3 tFab.devId 0 = .up 0 := by decide +kernel

/-- A good answer to a GET writes the data; an error lane of a team's access is noted. -/
theorem test_response : leads (.response 0 tFab.devId 8 0 [1, 2, 3, 4]) (tS (tXact (.get 440 0 0x1000 none))) (fun t => t.dev.mem.byte 0x1002 == 3 && (t.dev.frw 440).held == 0 && t.dev.xacts == []) = true ∧
    leads (.response 0 tFab.devId 8 2 []) (tS tXteam) (fun t => slot0 t fun y => y.access.map Access.err == some 1) = true ∧
    leads (.response 0 tFab.devId 8 0 []) (tS tAwait) (fun t => t.dev.out == [.rsp 3 9 0 []] && t.dev.acks == []) = true ∧
    leads (.response 0 3 8 0 [7]) (tS (tXact (.put 440 0))) (fun t => t.dev.out == [.rsp 3 8 0 [7]] && t.dev.xacts.length == 1) = true := by decide +kernel

/-- A quiesced device whose commands have drained, and one whose next table is active. -/
def tDrained : Dev := (tFab.setFld HUB_EPOCH HUB_EPOCH_QUIESCED 1).setFld HUB_EPOCH HUB_EPOCH_DRAINED 1

def tSwapped : Dev := { tDrained with epoch := { tDrained.epoch with swapped := true } }

/-- The same without a route. -/
def tNoRoute : Dev := { tD with epoch := { tD.epoch with swapped := true } }

theorem witness_RouteEpochs : tDrained.reach .host = true ∧ tDrained.bit HUB_EPOCH HUB_EPOCH_DRAINED = true ∧ tFab.bit HUB_EPOCH HUB_EPOCH_DRAINED = false ∧
    tSwapped.epoch.swapped = true ∧ tFab.epoch.swapped = false ∧ tSwapped.egress 3 tSwapped.devId 0 = .up 0 ∧ routeValid (tSwapped.routeEntry 3) = true ∧
    tNoRoute.epoch.swapped = true ∧ tNoRoute.epoch.echoes = [] ∧ tNoRoute.live = true ∧ tNoRoute.validRoutes = [] := by decide +kernel

/-- An ECHO has stood unanswered for 20 ms. -/
def tEcho : Dev := { tFab with epoch := { tFab.epoch with echoes := [3], since := 0 }, tb := { tFab.tb with time := 20000000 } }

theorem witness_RouteEpochs_overdue : tEcho.epoch.echoes ≠ [] ∧ tEcho.epoch.since + 20000000 ≤ tEcho.tb.time ∧ ∃ t, ticks (tS tEcho) t :=
  ⟨by decide +kernel, by decide +kernel, ticks_exist _ rfl rfl⟩

/-- SWAP when drained counts the epoch. -/
theorem test_epoch : leads (.quiesce .host) (tS tFab) (fun t => t.dev.quiesced && t.dev.bit HUB_EPOCH HUB_EPOCH_DRAINED) = true ∧
    leads (.yokeInvalidate 3 2) (tS { tFab with l1 := [(0, [⟨3 * 2 ^ 48 + 512, [1], [true]⟩])] }) (fun t => t.dev.l1.all fun q => q.2.isEmpty) = true := by decide +kernel

/-- A token of device 3 for step 0 of job 9. -/
def tTok (kind job : Nat) : Tok := ⟨0, 3, 0, kind, 0, 0, 0, 0, 1, 0, job, 0, false, false⟩

/-- A run whose one SEAL of step 0 has deposited. -/
def tDep : Dev := { tJob with seals := [(0, { StepSeal.empty with dep := 1 })] }

theorem witness_TokensCount : tFab.live = true ∧ tFab.portIsUp 0 = true ∧ (tTok 1 9).dst = tFab.devId ∧ (tTok 1 9).rsvd = false ∧ tFab.admitted = true ∧
    (tTok 1 9).jobId = tFab.jobId ∧ (tTok 1 9).gen0 = tFab.gen0 ∧ (tTok 1 8).jobId ≠ tFab.jobId ∧ tFab.sheaf = some tSheaf ∧ tFab.job.faulted = false ∧
    tDep.live = true ∧ tDep.running = true ∧ (tDep.seal 0).sent = false ∧ 0 < tDep.nSeal ∧ tDep.nSeal ≤ (tDep.seal 0).dep ∧ tDep.nStamp ≤ (tDep.seal 0).stampDone ∧
    (tJob.seal 0).dep < tJob.nSeal := by decide +kernel

theorem test_token : leads (.token 0 (tTok 1 9)) (tS tFab) (fun t => (t.dev.seal 0).toks.map Tok.src == [3]) = true ∧
    leads (.doneToken 0 (tTok 2 8)) (tS tFab) (fun t => (t.dev.seal 0).dones == []) = true ∧
    leads (.sealTokenSend 0) (tS tDep) (fun t => (t.dev.seal 0).sent) = true := by decide +kernel

/-- Group 0 of stack 0 with windows of 100 ns; its header of step 2 has stood since 1. -/
def tClose (now : Nat) : Dev :=
  { tJob with
    tb := { tJob.tb with time := now }
    harrow := [(0, { Harrow.empty with groups := [(0, ⟨0x1000, 0x4E00, 1, 1, [3], 100, 100⟩)], hdrs := [{ HHdr.empty 0 2 with anchor := 1 }] })] }

/-- The last verdict is UNKNOWN. -/
def tUnk : Dev := tJob.setFld HUB_SEAL HUB_SEAL_VERDICT vUnknown

theorem witness_StepControls : (tClose 201).live = true ∧ (SMap.find ((tClose 201).hrw 0).groups 0).isSome = true ∧ (((tClose 201).hrw 0).hdr 0 2).closed = false ∧
    (((tClose 201).hrw 0).hdr 0 2).anchor = 1 ∧ partly ⟨0x1000, 0x4E00, 1, 1, [3], 100, 100⟩ (((tClose 201).hrw 0).hdr 0 2) = false ∧ 1 + 100 + 100 ≤ (tClose 201).tb.time ∧
    tUnk.reach .host = true ∧ tUnk.fld HUB_SEAL HUB_SEAL_VERDICT = vUnknown ∧ tD.fld HUB_SEAL HUB_SEAL_VERDICT ≠ vUnknown ∧
    tD.admitted = false ∧ tJob.admitted = true ∧ bitOf 1 0 ≠ tJob.bit HUB_SNAP HUB_SNAP_ENABLE ∧ bitOf 0 0 = tJob.bit HUB_SNAP HUB_SNAP_ENABLE := by decide +kernel

theorem test_headerClose : leads (.headerCloseTimeout 0 0 2) (tS (tClose 201)) (fun t => ((t.dev.hrw 0).hdr 0 2).closed) = true ∧
    leads (.headerCloseTimeout 0 0 2) (tS (tClose 200)) (fun t => !((t.dev.hrw 0).hdr 0 2).closed) = true ∧
    leads (.snapArm .host (mkW (1 + 5 * 2 ^ 32))) (tS tD) (fun t => t.dev.bit HUB_SNAP HUB_SNAP_ENABLE && t.dev.fld HUB_SNAP HUB_SNAP_STEP == 5) = true := by decide +kernel

/-! ### Stacks, in-service test, resets -/

/-- Stack 0 runs; the stack of `tD` as reset leaves it. -/
def tStack : Dev := { tD.setFld HBM_STATUS HBM_STATUS_STATE 2 with eccCE := [0x9C0] }

/-- Table 14.2: stack 14, pseudo-channel 63, granule 0 of row 0 in bank 3 of bank group 0 and SID 0. -/
theorem test_hbmPlace : hbmPlace 0x40_0300 = ⟨14, 63, 0, 0, 3, 0, 0⟩ ∧ granuleOf 0x40_0300 = 12 := by decide +kernel

theorem witness_StackUpkeep : tD.reach .host = true ∧ tD.gatedReg (HBM_CTRL.addr 0 0) = false ∧ tD.gatedReg (HBM_CTRL.addr 19 0) = false ∧ tD.admitted = false ∧
    tJob.admitted = true ∧ tStack.live = true ∧ tStack.fld HBM_STATUS HBM_STATUS_STATE = 2 ∧ stackOf 0x4E00 = 0 ∧ 0x4E00 % 8 = 0 ∧
    (tStack.setFld HBM_CFG HBM_CFG_SCRUB_EN 1).bit HBM_CFG HBM_CFG_SCRUB_EN = true ∧ ({ tStack with eccCE := [0x9C0] } : Dev).eccCE.has (0x4E00 / 8) = true ∧
    tTrains.locked (stackLoop 0) = true ∧ tLoop.locked (stackLoop 1) = false ∧ tD.trainsWhole 0 = false ∧ tTrains.trainsWhole 1 = true := by decide +kernel

theorem test_retrain : leads (.retrain .host 0) (tS tD) (fun t => SMap.find t.dev.training 0 == some 4) = true ∧
    leads (.refresh 0 [0x9C0, 0] 9) (tS tStack) (fun t => t.dev.fld HBM_RFM HBM_RFM_COUNT == 9 && t.dev.eccUE == [0x9C0] && t.dev.eccCE == [0]) = true ∧
    leads (.governorTick [] (List.replicate 10 40 ++ [86, 85])) (tS tStack) (fun t => t.dev.hot == [0]) = true := by decide +kernel

/-- Slice 0 of core 0 and window 0 of plot 0 are under test. -/
def tIst : Dev := { tD with ist := { tD.ist with running := [0, 2240] } }

theorem witness_InServiceTest : tD.live = true ∧ (tD.setFld IST_CFG IST_CFG_ENABLE 1).bit IST_CFG IST_CFG_ENABLE = true ∧ tD.ist.due.has 0 = false ∧
    tD.ist.running.has 0 = false ∧ tD.windowPlot (windowOf 2240) = true ∧ (tD.setFld TLT_MARK TLT_MARK_KEPT 1).windowPlot (windowOf 2240) = false ∧
    tIst.ist.running.has 0 = true ∧ tIst.ist.running.has 2240 = true ∧ tIst.bit TRC_SEL TRC_SEL_FILL = false ∧ ({ tIst.ist with failed := [0] } : Ist).failed.has 0 = true ∧
    tD.reach .host = true ∧ tD.admitted = false ∧ tJob.admitted = true ∧ tJob.reach .host = true ∧ tD.fld IST_LINK IST_LINK_UE_LIMIT < 2 ^ 16 := by decide +kernel

/-- A slice that fails is due again, and with no sheaf admitted runs at once; the link check adds up the codewords. -/
theorem test_ist : leads (.istSliceComplete 0 false) (tS tIst) (fun t => t.dev.ist.running.has 0 && t.dev.ist.failed == [0]) = true ∧
    leads (.istLinkCheck [(3, 0)]) (tS tD) (fun t => t.dev.fld HDL_FEC HDL_FEC_CORRECTED == 3) = true ∧
    leads (.istSliceComplete 2240 true) (tS { tIst with mem := [(plotBase + 5, 7), (plotBase + 0x10_0000, 8)] }) (fun t => t.dev.mem == [(plotBase + 0x10_0000, 8)]) = true := by decide +kernel

theorem witness_DeepResets : tD.reach .host = true ∧ tD.resetting = false ∧ tD.function = true ∧ tD.halt ≠ .por ∧ tD.pcie.d3 = false ∧ tD.admitted = false ∧
    tJob.admitted = true ∧ tJob.function = true ∧ tJob.pcie.d3 = false ∧ tD.running = false ∧ (tD.logOf 0) = some 0 ∧ tD.sheafCore 0 = false ∧ tJob.sheafCore 0 = true ∧
    tJob.job.faulted = false ∧ ({ tD with halt := .por } : Dev).halt = .por ∧ ({ tD with pcie := { tD.pcie with d3 := true } } : Dev).function = true ∧
    ({ tD with boot := { tD.boot with devReset := true } } : Dev).resetting = true ∧ ({ tD with boot := { tD.boot with devReset := true } } : Dev).reach .host = true ∧
    tD.runsReset 1 = false ∧ tSoft.busyReset = true ∧ tSoft.boot.soft = some (2, 0) ∧ tSoft.softOver 2 0 = false ∧
    ({ tSoft with tb := { tSoft.tb with time := 1000000 } } : Dev).softOver 2 0 = true ∧ tD.pwrState = 0 ∧ tSoft.epoch.echoes = [] := by decide +kernel

theorem test_resets : leads (.resetBrd 999) (tS tD) (fun t => t.dev.free == 1 && t.dev.bit HUB_BOOT HUB_BOOT_READY) = true ∧
    leads (.resetCore .host 10 0) (tS tD) (fun t => t.dev.out == [.err]) = true ∧
    leads .d3hotEntry (tS tD) (fun t => t.dev.pcie.d3 && t.dev.pwrState == 3 && t.dev.gov.goal == some 1) = true := by decide +kernel

/-! ### Management and test access -/

/-- Firmware of slot 0 runs. -/
def tFw : Dev := { tD with boot := { tD.boot with booted := some 0, booting := false } }

/-- Neither slot verified: the device is in recovery, with its loops locked. -/
def tRec : Dev := { Dev.reset.setReg HUB_BOOT 2 with clk := { Dev.reset.clk with settled := true } }

/-- A slot whose signature does not verify. -/
def slotBad : FwSlot := { slotZero with sigOk := false }

theorem witness_FirmwareAndMonitoring : tFw.firmware = true ∧ tFw.reach .mgmt = true ∧ tFw.bit HUB_BOOT HUB_BOOT_RECOVERY = false ∧ tRec.inRecovery .host = true ∧
    tRec.boot.booting = true ∧ tRec.clk.settled = true ∧ tRec.clk.relock = [] ∧ pickSlot { tRec.boot with slots := slotZero :: tRec.boot.slots.drop 1 } = some 0 ∧
    pickSlot { tRec.boot with slots := slotBad :: [slotBad, slotBad].drop 1 } = none ∧ (tFw.sensor 0).isSome = true ∧
    ({ tFw.boot with pldm := 1 } : Boot).slots[1]?.isSome = true ∧ tFw.boot.pldm ≠ 1 ∧
    tFw.busOk = true ∧ ({ tFw with regs := (tFw.setReg CLK_EN_RUN 0 0 2).regs } : Dev).gated 171 = true ∧
    (∀ m < 20, tRec.fld HBM_STATUS HBM_STATUS_STATE m ≠ 1) := by decide +kernel

/-- An update writes the slot that did not boot; its activation raises the rollback counter. -/
theorem test_update : leads (.pldmFirmwareUpdate { slotZero with ver := 3 }) (tS tFw) (fun t => t.dev.boot.slots.map FwSlot.ver == [0, 3] && t.dev.boot.pldm == 1) = true ∧
    leads .pldmActivation (tS { tFw with boot := { tFw.boot with pldm := 1, slots := [slotZero, { slotZero with ver := 3 }] } }) (fun t => t.dev.boot.rollback == 3) = true ∧
    leads (.mctpControl 1 8) (tS tFw) (fun t => t.dev.mgmt.eid == 8) = true := by decide +kernel

/-- An SPDM exchange after its negotiation. -/
def tSpdm : Dev := { tFw with mgmt := { tFw.mgmt with version := true, caps := true, algs := true } }

theorem witness_Attestation : tFw.firmware = true ∧ tSpdm.firmware = true ∧ tSpdm.negotiated = true ∧ (tSpdm.measurement 5).isSome = true ∧ (1 : Nat) ≠ 0 ∧
    ({ tSpdm.mgmt with keyEx := true } : Mgmt).keyEx = true ∧ ({ tSpdm.mgmt with session := true } : Mgmt).session = true ∧
    tFw.mgmt.version = false ∧ tFw.negotiated = false ∧ tFw.mgmt.keyEx = false ∧ tFw.mgmt.session = false ∧ tFw.mgmt.meas5 = [] := by decide +kernel

theorem test_spdm : leads .getVersion (tS tFw) (fun t => t.dev.mgmt.version && !t.dev.mgmt.caps) = true ∧
    leads .getCapabilities (tS tFw) (fun t => t.dev.out == [.spdm 0x7F (leBytes 1 4)]) = true ∧
    leads (.spdmFinish true) (tS { tSpdm with mgmt := { tSpdm.mgmt with keyEx := true } }) (fun t => t.dev.mgmt.session) = true := by decide +kernel

theorem witness_TestAccess : tD.halt ≠ .por ∧ tJob.live = true ∧ tJob.admitted = true ∧ tJob.sheaf = some tSheaf ∧ tJob.job.faulted = false ∧ tD.admitted = false ∧
    ({ tD.boot with jtagMode := 1 } : Boot).jtagMode = 1 ∧ tD.boot.jtagMode ≠ 1 ∧ tD.reach .jtag = true ∧ tD.memServes 0x1000 4 = true ∧ tD.memServes (hbmSize - 4) 4 = true ∧
    tD.memServes 0x1FFC 4 = true ∧ tD.ueIn 0x1000 4 = none ∧ (∀ w ∈ partWords 0x1000 4, tD.eccUE.has w = false) := by decide +kernel

theorem test_jtag : leads .idcode (tS tD) (fun t => t.dev.out == [.jtag (leBytes 4 0x112805A3)]) = true ∧
    leads .highz (tS tD) (fun t => t.dev.halt == .boundary && t.dev.jtag.ir == 6) = true ∧
    leads (.regacc 0x1000 true 5) (tS tD) (fun t => t.dev.mem == [(0x1000, 5)]) = true := by decide +kernel

/-! ### The tally -/

theorem witness_TallyMeters : tallyReset.powered = true ∧ tallyReset.romBad = false ∧ tallyReset.dead.has 3 = false ∧ ({ tallyReset with dead := [3] } : Tally).dead.has 3 = true ∧
    tallyReset.log.length + 16 ≤ 1023 ∧ tallyReset.ch.length = 16 ∧ tallyReset.samples + 1 < 8000 ∧ ({ tallyReset with samples := 7999 } : Tally).samples + 1 = 8000 ∧
    ({ tallyReset with romBad := true } : Tally).romBad = true ∧ ({ tallyReset with powered := false } : Tally).powered = false ∧
    (∀ x ∈ tallyReset.nv, x.good = true) ∧ tallyReset.deadCh 3 = false ∧ ({ tallyReset with dead := [6] } : Tally).deadCh 3 = true := by decide +kernel

/-- The 8,000th sample ends the second; the self-test that finds converter 5 failed takes channel 2 out of service. -/
theorem test_tally : leads (.tallySample []) ⟨tD, { tallyReset with samples := 7999, romBad := true }, []⟩ (fun t => t.tally.samples == 0 && t.tally.secs == 1 && t.tally.energy == 0) = true ∧
    leads (.selftest true [] [5]) (tS tD) (fun t => t.tally.dead == [5] && t.tally.deadCh 2 && t.tally.log.map TlyEvt.code == [0x40, 0x21]) = true := by decide +kernel

/-- An unpowered tally with a copy of 5 µWh. -/
def tOff : Tally := { tallyReset with powered := false, nvSeq := 1, nv := [⟨5 * 2 ^ 32, 5 * 2 ^ 32 :: List.replicate 15 0, 7, 0, true, true⟩] }

theorem witness_TallySupply : tallyReset.powered = true ∧ tallyReset.log.length < 1023 ∧ tOff.powered = false ∧ (tOff.nv.head?).isSome = true ∧ (∀ x ∈ tOff.nv, x.good = true) ∧
    tOff.log.length < 1020 ∧ ({ tOff with nv := tOff.nv ++ tOff.nv } : Tally).nv.length = 2 ∧ tallyReset.xtal = true ∧ ({ tallyReset with xtal := false } : Tally).xtal = false ∧
    tD.live = true := by decide +kernel

theorem test_powerUp : leads (.powerUp true [] [] false) ⟨tD, tOff, []⟩ (fun t => t.tally.uwh == 5 && t.tally.log.map TlyEvt.code == [0x01]) = true ∧
    leads .powerDown (tS tD) (fun t => !t.tally.powered && t.tally.nv.map NvCopy.atLoss == [true] && t.tally.log.map TlyEvt.code == [0x02]) = true := by decide +kernel

/-- The frame of an annotation of job 9, kind 1, at time 5. -/
def tFrame : List Byte := leBytes 8 5 ++ leBytes 4 9 ++ leBytes 1 1

theorem witness_TallyPort : tallyReset.powered = true ∧ 0x08 % 8 = 0 ∧ tlyRw 0x08 = false ∧ tlyRw 0x60 = true ∧ tallyReset.cal.length = 16 ∧ tallyReset.sealed = false ∧
    tallyReset.log.length < 1023 ∧ crc8 (leBytes 1 (2 * tallyReset.i2cAddr) ++ leBytes 2 0x60 ++ leBytes 8 3) < 256 ∧
    ({ tallyReset with sealKey := true } : Tally).sealKey = true ∧ tallyReset.sealKey = false ∧ tallyReset.annRate < 1000 ∧
    (0 ≠ crc32c tFrame % 2 ^ 24 ∨ 1 ≠ crc32c tFrame % 2 ^ 24) ∧ tD.live = true ∧ tD.busOk = true ∧ tD.reach .host = true := by decide +kernel

/-- The two seal keys in order blow the fuse; a good token is recorded. -/
theorem test_seal_keys : leads (.tlySealCmd 0x0F5E true) ⟨tD, { tallyReset with sealKey := true }, []⟩ (fun t => t.tally.sealed) = true ∧
    leads (.tlySealCmd 0x0F5E true) (tS tD) (fun t => !t.tally.sealed && !t.tally.sealKey) = true ∧
    leads (.tokenFrame (tFrame ++ leBytes 3 (crc32c tFrame))) (tS tD) (fun t => t.tally.ann.map TlyAnn.job == [9] && t.tally.annCnt == 1) = true := by decide +kernel

/-! ### The whole machine -/

theorem witness_StepRunsFront : (tS tD).pending = [] ∧ ({ tS tD with pending := [Instr.nop 0] } : State).pending = Instr.nop 0 :: [] := by decide +kernel

theorem witness_WellFormedCompletes : (Instr.nop 0).wf = true ∧ (Instr.nop 520).wf = false := by decide +kernel

/-- The tally as shipped has its invariant, and a step follows. -/
theorem witness_TallyWfKept : tallyReset.cal.length = 16 ∧ tallyReset.ch.length = 16 ∧ tallyReset.chNow.length = 16 ∧ tallyReset.ch.sum = tallyReset.energy ∧
    tallyReset.log.length ≤ 1024 ∧ tallyReset.lost = 0 ∧ tallyReset.log[1023]? = none ∧ tallyReset.ann.length ≤ 4096 ∧ tallyReset.annRate ≤ 1000 ∧ tallyReset.annCnt < 2 ^ 32 ∧
    tallyReset.annBad < 2 ^ 32 ∧ tallyReset.secs < 2 ^ 48 ∧ tallyReset.samples < 8000 ∧ tallyReset.chSel < 16 ∧ tallyReset.logSel < 1024 ∧ tallyReset.annSel < 4096 ∧
    tallyReset.nv = [] := by decide +kernel

theorem witness_TallyWfKept_step : ∃ t, step State.reset = .next t := ⟨_, rfl⟩

theorem witness_TallyKept : (∃ t, step { State.reset with pending := [.nop 0] } = .next t) ∧ tallyCommand (.nop 0) = false := ⟨⟨_, rfl⟩, rfl⟩

theorem witness_StoppedDevice : ({ tD with halt := .trip } : Dev).live = false ∧ ({ tD with halt := .por } : Dev).live = false ∧
    (∃ t, exec .bypass (tS { tD with halt := .trip }) = .next t) ∧ (∀ n, Instr.bypass ≠ .resetBrd n) ∧ (∀ g, Instr.bypass ≠ .resetPor g) :=
  ⟨by decide +kernel, by decide +kernel, ⟨_, rfl⟩, (by intro n h; cases h), (by intro g h; cases h)⟩

/-- A stopped device takes no PUT. -/
theorem test_stopped : leads (.put 0 (tCmd 0x1000 1) [1]) (tS { tFab with halt := .trip }) (fun t => t.dev.mem == []) = true := by decide +kernel

/-! ### Operands that name nothing (Table 0.3) -/

/-- One command per check of well-formedness, each just beyond the last thing that there is. -/
def illFormed : List Instr :=
  [.registerWrite .host (2 ^ 32) 8 0, .rcRead .host 0 9, .hostRead 0 (2 ^ 32) 1 .none, .hostWrite 7 0 [0], .elogClear .host 8 0, .loaderAppend 520, .nop 520, .mmF 120 .none,
   .elt 239 .none, .elt 400 .none, .mov 399 .none, .mov 440 .none, .hdlPut 439 .none, .hdlGet 500 .none, .upd 499 .none, .seal 520 .none, .launch 119 .none, .launch 240 .none,
   .teamResident 140, .intAdd 140 0 .none, .intAdd 0 64 .none, .flagCounterStore .host true 8192 0 8 0 0, .flagCounterStore .host false 65536 0 8 0 0, .flagCounterStore .host true 0 6 8 0 0,
   .replay .host 140, .envelopeWrite .host 5 0, .thermalTrip 31 0, .thermalTrip 0 256, .loopSettingWrite .host 0 0, .loopLock 41 0 0, .spreadWrite .host 10 0, .tbReq 60 0,
   .tbReq 0 (2 ^ 64), .tbReply 0 0 256, .portEnable .host 60, .trainingTimeout 0 1, .trainingTimeout 0 7, .nak 0 1024, .put 60 Cmd.zero [], .headerCloseTimeout 20 0 0,
   .headerCloseTimeout 0 4096 0, .yokeInvalidate 65536 0, .yokeInvalidate 0 0x5000_0000, .retrain .host 20, .refresh 20 [] 0, .scrub 0 hbmSize .none, .scrub 0 4 .none,
   .scrub 19 0x4E00 .none, .istDue 12480, .istSliceComplete 12480 true, .runAll .host [12480], .resetCore .host 16 0, .resetCore .host 0 16, .regacc (2 ^ 48) false 0, .hello 0 65536 0 0,
   .hello 0 0 60 0, .token 60 (tTok 1 9)]

theorem test_illFormed : (illFormed.all fun i => !i.wf && match exec i (tS tD) with | .fault .noSuchUnit => true | _ => false) = true := by decide +kernel

/-- No row of the table has bits: no word spells a command, and nothing is placed. -/
theorem test_noBits (s : State) (nbits w : Nat) : decodeTableWord nbits w = none ∧ s.withFetchWord nbits w = s := ⟨rfl, rfl⟩

end Sys2Proof.Tests
end

section
/-! PROOFS. Control instructions of a team (R237, R241, R243): what a retiring team keeps whatever its program counters and reconvergence stack
become, the jump's lanes, the parks, and the event that `stat.nf` records. -/
namespace Sys2Proof.Machine
open Sys2Proof

/-! ### Program counters of lanes -/

theorem bitOf_two_pow (n i : Nat) : bitOf (2 ^ n) i = decide (n = i) := by
  rw [bitOf_eq_testBit, Nat.testBit_two_pow]

/-- `x` with other program counters. -/
def Slot.PcsOf (x y : Slot) : Prop := y = { x with pcs := y.pcs } ∧ y.pcs.length = x.pcs.length

theorem Slot.PcsOf.setPcs (x : Slot) (m pc : Nat) : Slot.PcsOf x (x.setPcs m pc) := ⟨rfl, (setPcs_passed x m pc).1⟩

theorem Slot.PcsOf.trans {x y z : Slot} (h : Slot.PcsOf x y) (g : Slot.PcsOf y z) : Slot.PcsOf x z :=
  ⟨by rw [g.1, h.1], g.2.trans h.2⟩

/-- Sending each lane of a list to its own target moves those lanes and no other. -/
theorem Slot.foldl_setPcs (f : Nat → Nat) (ls : List Nat) (x : Slot) :
    Slot.PcsOf x (ls.foldl (fun x l => x.setPcs (2 ^ l) (f l)) x) ∧
    ∀ l, l < x.pcs.length → (ls.foldl (fun x l => x.setPcs (2 ^ l) (f l)) x).pcOf l = if l ∈ ls then f l else x.pcOf l := by
  induction ls generalizing x with
  | nil => exact ⟨⟨rfl, rfl⟩, fun l _ => by simp⟩
  | cons a t ih =>
    have ha := Slot.PcsOf.setPcs x (2 ^ a) (f a)
    obtain ⟨ht, hpc⟩ := ih (x.setPcs (2 ^ a) (f a))
    refine ⟨ha.trans ht, fun l hl => ?_⟩
    rw [List.foldl_cons, hpc l (by rwa [ha.2]), (setPcs_passed x (2 ^ a) (f a)).2 l hl, bitOf_two_pow]
    by_cases hm : l ∈ t
    · simp [hm]
    · by_cases e : a = l
      · simp [e]
      · simp [hm, e, Ne.symm e]

/-! ### Retiring with other program counters and another stack -/

/-- An instruction that changes program counters and the reconvergence stack alone retires with the registers and the exited lanes kept. -/
theorem retire_flow_spec {p : Nat → Prop} {s : State} {k : TCtx} {c j : Nat} (h : s.dev.issuing c j = some k) {d : Dev} (hd : teamBase p s k d)
    (st : List (Nat × Nat)) {x : Slot} (hx : Slot.PcsOf { k.x with stack := st } x) :
    ∃ y, teamIssued p s { s with dev := d.retire k.c k.j x } k y ∧ teamRegsKept k y ∧ y.exited = k.x.exited ∧ y.stack = st ∧
      y.pcs.length = k.x.pcs.length ∧ ∀ l, y.pcOf l = x.pcOf l := by
  obtain ⟨-, -, -, hwait, hacc, hpark, hlane, -, -, -⟩ := Dev.issuing_spec h
  obtain ⟨e, hlen⟩ := hx
  obtain ⟨y, hy, he⟩ := teamIssued_retire hd x (by rw [e]; exact hlane) (by rw [e]; exact ⟨rfl, hwait, hacc, hpark, rfl⟩)
  have hpcs : y.pcs = x.pcs := by rw [he]
  refine ⟨y, hy, ?_, ?_, ?_, by rw [hpcs]; exact hlen, fun l => by unfold Slot.pcOf; rw [hpcs]⟩
  · rw [he, e]; exact ⟨rfl, rfl, rfl⟩
  · rw [he, e]
  · rw [he, e]

/-- A team that goes on behind its instruction with the stack `st`. -/
theorem goOn_stack_spec {p : Nat → Prop} {s : State} {k : TCtx} {c j : Nat} (h : s.dev.issuing c j = some k) {d : Dev} (hd : teamBase p s k d)
    (st : List (Nat × Nat)) :
    ∃ y, teamIssued p s { s with dev := d.goOn k { k.x with stack := st } } k y ∧ teamRegsKept k y ∧ y.exited = k.x.exited ∧ y.stack = st ∧
      y.pcs.length = k.x.pcs.length ∧
      ∀ l, l < k.x.pcs.length → y.pcOf l = if bitOf k.iss l then pcMask (k.pc + 8) else k.x.pcOf l := by
  obtain ⟨y, hy, hregs, hex, hst, hlen, hpc⟩ := retire_flow_spec h hd st (Slot.PcsOf.setPcs _ k.iss (pcMask (k.pc + 8)))
  exact ⟨y, hy, hregs, hex, hst, hlen, fun l hl => (hpc l).trans ((setPcs_passed { k.x with stack := st } _ _).2 l hl)⟩

/-- A team that goes on behind its instruction and changes nothing else. -/
theorem goOn_self_spec {p : Nat → Prop} {s : State} {k : TCtx} {c j : Nat} (h : s.dev.issuing c j = some k) {d : Dev} (hd : teamBase p s k d) :
    ∃ y, teamIssued p s { s with dev := d.goOn k k.x } k y ∧ teamPassed k y ∧ teamRegsKept k y := by
  obtain ⟨y, hy, hregs, hpassed⟩ := goOn_stack_spec h hd k.x.stack
  exact ⟨y, hy, hpassed, hregs⟩

/-- A team that parks at its instruction. -/
theorem parkAt_spec {s : State} {k : TCtx} {c j : Nat} {u : Upset} (h : s.dev.issuing c j = some k) {d : Dev}
    (hd : teamBase (replayOffset u) s k d) (cause addr fault : Nat) :
    teamParked (trapOffset c u) s { s with dev := d.parkAt k cause addr fault } c j ((s.dev.core c).tookBy j) k.x
      ⟨cause, k.pc, addr, k.iss, fault⟩ := by
  obtain ⟨rfl, rfl, -⟩ := Dev.issuing_spec h
  exact teamParked_of hd.1 hd.2.1 TRC_SEL_not_trap _ _

/-! ### The event of `stat.nf` -/

/-- A step event writes its slot's register alone, which is none of the team engine's. -/
theorem teamBase.stepEvt {p : Nat → Prop} {s : State} {k : TCtx} {d : Dev} (h : teamBase p s k d) {n : Nat}
    (hp : n ≠ noStep → p (HUB_STEP_EVT.addr 0 (n % 4))) (ovf nf : Bool) : teamBase p s k (d.stepEvt n ovf nf) := by
  unfold Dev.stepEvt
  simp only []
  split
  · exact h
  · next hn =>
    refine h.setReg (hp fun e => hn (by simp [e])) ?_
    simp only [RegDef.addr, Blk.base, HUB_STEP_EVT, TME_ISSUE]
    omega

theorem HUB_STEP_EVT_not_trace (n : Nat) : ¬ traceOffset (HUB_STEP_EVT.addr 0 (n % 4)) := by
  rintro (h | h | ⟨r, hr, h | h | h⟩) <;>
    simp only [RegDef.addr, Blk.base, HUB_STEP_EVT, HUB_IRQ_STATUS, HUB_DIR_INV, TRC_WR, TRC_RD, TRC_LOST] at h <;> omega

/-- Going on keeps the step events. -/
theorem Dev.goOn_stepBits (d : Dev) (k : TCtx) (x : Slot) (n : Nat) : (d.goOn k x).stepBits n = d.stepBits n := by
  have hreg : (d.goOn k x).reg HUB_STEP_EVT 0 (n % 4) = d.reg HUB_STEP_EVT 0 (n % 4) :=
    Dev.reg_of_find (Dev.retire_regs _ _ _ _ (HUB_STEP_EVT_not_trace n))
  unfold Dev.stepBits
  rw [hreg]

/-! ### One lemma per instruction -/

section
variable {s : State} {c j : Nat} {k : TCtx} {u : Upset} (hs : isSlot c j = true) (hl : s.dev.live = true) (h : s.dev.issuing c j = some k)
  (hu : u.passes = true) (hc : tCls k.w = 3)
include hs hl h hu hc

/-- R237: the active lanes branch, the others go on. -/
theorem execJmp_spec (hn : tNum k.w = 0) :
    ∃ t y, execJmp c j u s = .next t ∧ teamIssued (replayOffset u) s t k y ∧ teamRegsKept k y ∧ y.exited = k.x.exited ∧ y.stack = k.x.stack ∧
      y.pcs.length = k.x.pcs.length ∧ ∀ l, l < k.x.pcs.length → l < 32 → y.pcOf l =
        if bitOf k.act l then k.target l else if bitOf k.iss l then pcMask (k.pc + 8) else k.x.pcOf l := by
  obtain ⟨d, hd, he⟩ : ∃ d, teamBase (replayOffset u) s k d ∧ execJmp c j u s = .next { s with
      dev := d.retire k.c k.j ((lanesOf k.act).foldl (fun x l => x.setPcs (2 ^ l) (k.target l)) (k.x.setPcs k.iss (pcMask (k.pc + 8)))) } :=
    teamRow_issuing hs hl h hu hc (by simp [hn]) _
  have hpast := Slot.PcsOf.setPcs k.x k.iss (pcMask (k.pc + 8))
  obtain ⟨hjump, hlane⟩ := Slot.foldl_setPcs k.target (lanesOf k.act) (k.x.setPcs k.iss (pcMask (k.pc + 8)))
  obtain ⟨y, hy, hregs, hex, hst, hlen, hpc⟩ := retire_flow_spec h hd k.x.stack (hpast.trans hjump)
  refine ⟨_, y, he, hy, hregs, hex, hst, hlen, fun l hl hl32 => ?_⟩
  rw [hpc, hlane l (by rwa [hpast.2]), (setPcs_passed _ _ _).2 l hl]
  simp [mem_lanesOf, hl32]

theorem execRcvSet_issuing (hn : tNum k.w = 1) : ∃ d, teamBase (replayOffset u) s k d ∧ execRcvSet c j u s = .next { s with
    dev := if k.act = 0 then d.goOn k k.x else if 32 ≤ k.x.stack.length then d.parkAt k pkRcv 0 k.iss
      else d.goOn k { k.x with stack := (k.target 0, k.act) :: k.x.stack } } := teamRow_issuing hs hl h hu hc (by simp [hn]) _

/-- R237: an entry of the instruction's target and the active lanes is pushed. -/
theorem execRcvSet_push (hn : tNum k.w = 1) (ha : k.act ≠ 0) (hst : k.x.stack.length < 32) :
    ∃ t y, execRcvSet c j u s = .next t ∧ teamIssued (replayOffset u) s t k y ∧ teamRegsKept k y ∧ y.exited = k.x.exited ∧
      y.stack = (k.target 0, k.act) :: k.x.stack ∧ y.pcs.length = k.x.pcs.length ∧
      ∀ l, l < k.x.pcs.length → y.pcOf l = if bitOf k.iss l then pcMask (k.pc + 8) else k.x.pcOf l := by
  obtain ⟨d, hd, he⟩ := execRcvSet_issuing hs hl h hu hc hn
  rw [if_neg ha, if_neg (by omega)] at he
  obtain ⟨y, hy⟩ := goOn_stack_spec h hd ((k.target 0, k.act) :: k.x.stack)
  exact ⟨_, y, he, hy⟩

/-- R237: the 33rd entry parks the team. -/
theorem execRcvSet_full (hn : tNum k.w = 1) (ha : k.act ≠ 0) (hst : 32 ≤ k.x.stack.length) :
    ∃ t, execRcvSet c j u s = .next t ∧
      teamParked (trapOffset c u) s t c j ((s.dev.core c).tookBy j) k.x ⟨pkRcv, k.pc, 0, k.iss, k.iss⟩ := by
  obtain ⟨d, hd, he⟩ := execRcvSet_issuing hs hl h hu hc hn
  rw [if_neg ha, if_pos hst] at he
  exact ⟨_, he, parkAt_spec h hd _ _ _⟩

theorem execRcvSet_idle (hn : tNum k.w = 1) (ha : k.act = 0) :
    ∃ t y, execRcvSet c j u s = .next t ∧ teamIssued (replayOffset u) s t k y ∧ teamPassed k y ∧ teamRegsKept k y := by
  obtain ⟨d, hd, he⟩ := execRcvSet_issuing hs hl h hu hc hn
  rw [if_pos ha] at he
  obtain ⟨y, hy⟩ := goOn_self_spec h hd
  exact ⟨_, y, he, hy⟩

theorem execBrk_issuing (hn : tNum k.w = 3) : ∃ d, teamBase (replayOffset u) s k d ∧ execBrk c j u s = .next { s with
    dev := if k.act = 0 then d.goOn k k.x else d.parkAt k pkBreak 0 k.iss } := teamRow_issuing hs hl h hu hc (by simp [hn]) _

theorem execBrk_idle (hn : tNum k.w = 3) (ha : k.act = 0) :
    ∃ t y, execBrk c j u s = .next t ∧ teamIssued (replayOffset u) s t k y ∧ teamPassed k y ∧ teamRegsKept k y := by
  obtain ⟨d, hd, he⟩ := execBrk_issuing hs hl h hu hc hn
  rw [if_pos ha] at he
  obtain ⟨y, hy⟩ := goOn_self_spec h hd
  exact ⟨_, y, he, hy⟩

/-- R243: a lane at `brk` parks the team. -/
theorem execBrk_parks (hn : tNum k.w = 3) (ha : k.act ≠ 0) :
    ∃ t, execBrk c j u s = .next t ∧
      teamParked (trapOffset c u) s t c j ((s.dev.core c).tookBy j) k.x ⟨pkBreak, k.pc, 0, k.iss, k.iss⟩ := by
  obtain ⟨d, hd, he⟩ := execBrk_issuing hs hl h hu hc hn
  rw [if_neg ha] at he
  exact ⟨_, he, parkAt_spec h hd _ _ _⟩

/-- R241: a polled lane marks the step's slot with NF, no polled lane leaves the step events alone. -/
theorem execStatNf_spec (hn : tNum k.w = 4) :
    ∃ t y, execStatNf c j u s = .next t ∧
      teamIssued (fun o => replayOffset u o ∨ (k.polled ≠ 0 ∧ k.t.step ≠ noStep ∧ o = HUB_STEP_EVT.addr 0 (k.t.step % 4))) s t k y ∧
      teamPassed k y ∧ teamRegsKept k y ∧ (k.polled ≠ 0 → k.t.step < noStep → (t.dev.stepBits k.t.step).2 = true) := by
  obtain ⟨d, hd, he⟩ : ∃ d, teamBase (replayOffset u) s k d ∧ execStatNf c j u s = .next { s with
      dev := (if k.polled != 0 then d.stepEvt k.t.step false true else d).goOn k k.x } := teamRow_issuing hs hl h hu hc (by simp [hn]) _
  have hb := hd.mono (q := fun o => replayOffset u o ∨ (k.polled ≠ 0 ∧ k.t.step ≠ noStep ∧ o = HUB_STEP_EVT.addr 0 (k.t.step % 4)))
    fun _ => Or.inl
  by_cases hp : k.polled = 0
  · obtain ⟨y, hy, hpass, hregs⟩ := goOn_self_spec h hb
    exact ⟨_, y, by simpa [hp] using he, hy, hpass, hregs, fun hq => absurd hp hq⟩
  · obtain ⟨y, hy, hpass, hregs⟩ := goOn_self_spec h (hb.stepEvt (fun hne => Or.inr ⟨hp, hne, rfl⟩) false true)
    refine ⟨_, y, by simpa [hp] using he, hy, hpass, hregs, fun _ hlt => ?_⟩
    rw [Dev.goOn_stepBits, Dev.stepEvt_bits _ hlt (Or.inr rfl), Bool.or_true]

theorem execTeamNop_spec (hn : tNum k.w = 5) :
    ∃ t y, execTeamNop c j u s = .next t ∧ teamIssued (replayOffset u) s t k y ∧ teamPassed k y ∧ teamRegsKept k y := by
  obtain ⟨d, hd, he⟩ : ∃ d, teamBase (replayOffset u) s k d ∧ execTeamNop c j u s = .next { s with dev := d.goOn k k.x } :=
    teamRow_issuing hs hl h hu hc (by simp [hn]) _
  obtain ⟨y, hy⟩ := goOn_self_spec h hd
  exact ⟨_, y, he, hy⟩

end

/-- Settles O5: each control instruction by its own lemma; the jump's targets and the pushed entry come from the lanes that the guard lets act. -/
theorem teamControl : Obligations.TeamControl := by
  intro s c j k u hs hl h hu hc
  refine ⟨execJmp_spec hs hl h hu hc, execRcvSet_push hs hl h hu hc, execRcvSet_full hs hl h hu hc, ?_, execBrk_parks hs hl h hu hc,
    execStatNf_spec hs hl h hu hc, execTeamNop_spec hs hl h hu hc⟩
  intro ha r hr hn
  simp only [List.mem_cons, List.not_mem_nil, or_false] at hr
  obtain rfl | rfl := hr
  · exact execRcvSet_idle hs hl h hu hc hn ha
  · exact execBrk_idle hs hl h hu hc hn ha

end Sys2Proof.Machine
end

section
/-! PROOFS. Refused accesses, contract breaches, whole writes of the hub's registers, and the envelope with its recheck (R49, R304, R314, R355,
R357, Table 15.5). -/
namespace Sys2Proof.Machine
open Sys2Proof

/-! ### Refused accesses -/

/-- R357: while the global log has room, an entry takes the next place with its cause. -/
theorem Dev.glog_entry (d : Dev) (addr req tag step : Nat) {cause : Nat} (hc : cause < 256) (h : bitsOf (d.reg ERR_GLOG_CNT) 0 5 < 16) :
    bitsOf ((d.glog addr cause req tag step).reg ERR_GLOG_CNT) 0 5 = bitsOf (d.reg ERR_GLOG_CNT) 0 5 + 1 ∧
    bitsOf ((d.glog addr cause req tag step).reg ERR_GLOG_A 0 (bitsOf (d.reg ERR_GLOG_CNT) 0 5)) 48 8 = cause := by
  unfold Dev.glog
  simp only [if_neg (Nat.not_le.mpr h)]
  have hcnt : setBits (d.reg ERR_GLOG_CNT) 0 5 (bitsOf (d.reg ERR_GLOG_CNT) 0 5 + 1) < 2 ^ 64 :=
    setBits_lt (by decide) (Dev.reg_lt d 0 (by decide))
  generalize bitsOf (d.reg ERR_GLOG_CNT) 0 5 = n at *
  constructor
  · rw [Dev.reg_setReg (by decide), Nat.mod_eq_of_lt hcnt, bitsOf_setBits]
    exact Nat.mod_eq_of_lt (by omega)
  · have hA : ERR_GLOG_A.addr 0 n ≠ ERR_GLOG_CNT.addr 0 0 := by simp only [RegDef.addr, Blk.base, ERR_GLOG_A, ERR_GLOG_CNT]; omega
    have hAB : ERR_GLOG_A.addr 0 n ≠ ERR_GLOG_B.addr 0 n := by simp only [RegDef.addr, Blk.base, ERR_GLOG_A, ERR_GLOG_B]; omega
    rw [Dev.reg_setReg_ne hA, Dev.reg_setReg_ne hAB, Dev.reg_setReg (RegDef.reset_lt (by decide) n)]
    simp only [bitsOf, Nat.shiftLeft_eq, Nat.shiftRight_eq_div_pow]
    omega

/-- R355: what a refused access leaves behind. -/
theorem refuse_refusedAs (s : State) (who : Who) (a : Nat) {cause : Nat} (hc : cause < 256) :
    refusedAs s { s with dev := Dev.refuse { s.dev with out := [] } who a cause } cause := by
  obtain ⟨hframe, hregs⟩ := Dev.RegsOnly.glog' { s.dev with out := [] } a cause who.req 0 noStep
  have hentry := Dev.glog_entry { s.dev with out := [] } a who.req 0 noStep hc
  unfold Dev.refuse
  generalize Dev.glog { s.dev with out := [] } a cause who.req 0 noStep = d at hframe hregs hentry ⊢
  refine ⟨⟨rfl, rfl⟩, ?_, hregs, hentry⟩
  rw [hframe]
  rfl

/-! ### Contract breaches -/

/-- Offset of a register that the record of a breach writes: the global log, trace records, interrupts. -/
def breachLogOffset (o : Nat) : Prop := glogOffset o ∨ traceOffset o

/-- The first part of a breach: it is counted, and its cause stored (R49). -/
def Dev.breachCounted (d : Dev) (cause where_ : Nat) (x : At) : Dev :=
  (d.stick ADM_BREACH ADM_BREACH_COUNT 1).setReg ADM_BREACH_LAST (cause % 16 + (where_ % 2 ^ 16) <<< 16 + (x.tag % 2 ^ 32) <<< 32)

/-- `d'` is `d` with trace records and log entries written, interrupts raised and free values used at most. -/
def Dev.LogsOnly (d d' : Dev) : Prop :=
  d' = { d with
    mem := d'.mem, regs := d'.regs, lostTrace := d'.lostTrace, out := d'.out, pcie := d'.pcie, dir := d'.dir, xacts := d'.xacts
    nextXid := d'.nextXid, free := d'.free } ∧
    ∀ o, ¬ breachLogOffset o → SMap.find d'.regs o = SMap.find d.regs o

theorem Dev.LogsOnly.trans {a b c : Dev} (h : Dev.LogsOnly a b) (g : Dev.LogsOnly b c) : Dev.LogsOnly a c :=
  ⟨by rw [g.1, h.1], fun o ho => (g.2 o ho).trans (h.2 o ho)⟩

theorem Dev.TraceOnly.logs {a b : Dev} (h : Dev.TraceOnly a b) : Dev.LogsOnly a b := ⟨by rw [h.1], fun o ho => h.2 o fun x => ho (Or.inr x)⟩

theorem Dev.RegsOnly.logs {a b : Dev} (h : Dev.RegsOnly glogOffset a b) : Dev.LogsOnly a b := ⟨by rw [h.1], fun o ho => h.2 o fun x => ho (Or.inl x)⟩

theorem Dev.fresh_logs (d : Dev) : Dev.LogsOnly d d.fresh := ⟨rfl, fun _ _ => rfl⟩

/-- What follows the count of a breach: a trace record, a log entry and an interrupt at most. -/
theorem Dev.breach_only (d : Dev) (cause where_ : Nat) (x : At) : Dev.LogsOnly (d.breachCounted cause where_ x) (d.breach cause where_ x) := by
  unfold Dev.breach Dev.traceAt
  have htrace := (Dev.trace_only (d.breachCounted cause where_ x) 0 trcBreach (4 * b2n (x.rtn != 0xFFFF)) x.furrow x.tag x.step x.rtn x.pos
    (leBytes 4 cause ++ leBytes 4 where_)).logs
  exact htrace.trans ((Dev.RegsOnly.glog' _ _ _ _ _ _).logs.trans ((Dev.fresh_logs _).trans (Dev.irq_only _ _).logs))

theorem Dev.breachCounted_only (d : Dev) (cause where_ : Nat) (x : At) :
    Dev.RegsOnly (fun o => o = ADM_BREACH.addr 0 0 ∨ o = ADM_BREACH_LAST.addr 0 0) d (d.breachCounted cause where_ x) :=
  (Dev.RegsOnly.stick d (Or.inl rfl)).trans (Dev.RegsOnly.setReg _ (Or.inr rfl))

/-- The registers of the admission block are no log, trace or interrupt registers. -/
theorem not_breachLogOffset {o : Nat} (h : ADM_CTRL.addr 0 0 ≤ o) (h' : o < 0x200000) : ¬ breachLogOffset o := by
  simp only [RegDef.addr, Blk.base, ADM_CTRL] at h
  rintro ((e | ⟨n, hn, e | e⟩) | e | e | ⟨r, hr, e | e | e⟩) <;>
    simp only [RegDef.addr, Blk.base, ERR_GLOG_CNT, ERR_GLOG_A, ERR_GLOG_B, HUB_IRQ_STATUS, HUB_DIR_INV, TRC_WR, TRC_RD, TRC_LOST] at e <;> omega

/-- R49: a breach is counted, shown with its cause and raised. -/
theorem breach_breached (s : State) {d : Dev} (hd : d.regs = s.dev.regs) {cause : Nat} (hc : cause < 16) (where_ : Nat) (x : At) :
    breached s { s with dev := d.breach cause where_ x } cause := by
  obtain ⟨-, hregs⟩ := Dev.breach_only d cause where_ x
  have keeps : ∀ (r : RegDef) (f : FldDef), ¬ breachLogOffset (r.addr 0 0) →
      (d.breach cause where_ x).fld r f = (d.breachCounted cause where_ x).fld r f := fun r f h => by
    unfold Dev.fld; rw [Dev.reg_of_find (hregs _ h)]
  refine ⟨?_, ?_, ?_⟩
  · show (d.breach cause where_ x).fld _ _ = _
    have hold : s.dev.fld ADM_BREACH ADM_BREACH_COUNT = d.fld ADM_BREACH ADM_BREACH_COUNT := by
      unfold Dev.fld Dev.reg; rw [hd]
    rw [keeps _ _ (not_breachLogOffset (by decide) (by decide)), hold]
    unfold Dev.breachCounted
    rw [Dev.fld_setReg_ne (by decide)]
    refine (Dev.fld_setFld (by decide) (by decide)).trans (Nat.mod_eq_of_lt ?_)
    simp only [ADM_BREACH_COUNT]
    omega
  · show (d.breach cause where_ x).fld _ _ = _
    rw [keeps _ _ (not_breachLogOffset (by decide) (by decide))]
    unfold Dev.breachCounted
    rw [Dev.fld_setReg (by decide) (by simp only [Nat.shiftLeft_eq]; omega)]
    simp only [ADM_BREACH_LAST_CAUSE, bitsOf, Nat.shiftLeft_eq, Nat.shiftRight_eq_div_pow]
    omega
  · unfold Dev.breach
    exact Dev.irq_bit _ (by decide)

/-! ### Whole writes of hub registers -/

/-- A whole write of an RW field stores its bits (R8). -/
theorem fieldWrite_rw {f : FldDef} (hf : f.ty = .rw) {m : Nat} (hm : bitsOf m f.lo f.w = 2 ^ f.w - 1) (old w : Nat) :
    fieldWrite f old m w = bitsOf w f.lo f.w := by
  have hlt : ∀ v, bitsOf v f.lo f.w % 2 ^ f.w = bitsOf v f.lo f.w := fun v => Nat.mod_mod _ _
  simp only [fieldWrite, hf, hm, Nat.and_two_pow_sub_one_eq_mod, hlt, Nat.sub_self, Nat.zero_add]

/-- A write of all eight bytes of a 64-bit register of the hub runs that register's own meaning, and has one response. -/
theorem Dev.regWrite_hub (d : Dev) (who : Who) {r : RegDef} {i : Nat} (v : Nat) (hb : r.blk = .hub) (hw : r.w32 = false)
    (hcell : regCell (r.addr 0 i) = some (r, 0, i, 0)) (hlt : r.addr 0 i < 0x100_0000) (hal : r.addr 0 i % 8 = 0) (hcan : canWrite r = true)
    (hlog : ∀ w, clearsLog r w = false) :
    d.regWrite who (r.addr 0 i) 8 v =
      (d.hubWrite who r i (ctrlBase + r.addr 0 i) (byteMask 0 8) (v % 2 ^ 64) (mergeWrite r (d.reg r 0 i) (byteMask 0 8) (v % 2 ^ 64))).oneRsp := by
  have hshape : regShape (r.addr 0 i) 8 = true := by simp [regShape, hal]
  have hmir : inMirror (r.addr 0 i) = false := by simp [inMirror, Nat.not_le.mpr hlt]
  have hsync : inSync (r.addr 0 i) = false := by simp [inSync, syncBase, show ¬ 0x2000_0000 ≤ r.addr 0 i by omega]
  have hgate : d.gatedReg (r.addr 0 i) = false := by
    simp [Dev.gatedReg, regIsland, show r.addr 0 i < 0x1000_0000 by omega]
  simp [Dev.regWrite, hshape, hmir, hsync, hcell, hw, Dev.cellWrite, Dev.atReg, hgate, hcan, Dev.regAct, hlog, hb]

theorem Dev.oneRsp_putReg {d : Dev} (h : d.out = []) (r : RegDef) (u i v : Nat) :
    (d.putReg r u i v).oneRsp = { d.setReg r v u i with out := [.ok] } := by
  simp [Dev.oneRsp, Dev.putReg, Dev.emit, Dev.setReg, h, isRsp]

theorem Dev.glog_out (d : Dev) (addr cause req tag step : Nat) : (d.glog addr cause req tag step).out = d.out := by
  rw [(Dev.RegsOnly.glog' d addr cause req tag step).1]

theorem Dev.oneRsp_refuse {d : Dev} (h : d.out = []) (who : Who) (a cause : Nat) : (d.refuse who a cause).oneRsp = d.refuse who a cause := by
  simp [Dev.oneRsp, Dev.refuse, Dev.emit, Dev.glog_out, h, isRsp]

/-- Table 15.5: a whole write of PWR_THERM takes a LIMIT of 85 to 105 and refuses any other. -/
theorem Dev.regWrite_therm {d : Dev} (h : d.out = []) (who : Who) (v : Nat) :
    d.regWrite who (PWR_THERM.addr 0 0) 8 v =
      if 85 ≤ v % 128 ∧ v % 128 ≤ 105 then { d.setFld PWR_THERM PWR_THERM_LIMIT v with out := [.ok] }
      else d.refuse who (ctrlBase + PWR_THERM.addr 0 0) 0x02 := by
  rw [Dev.regWrite_hub d who v rfl rfl rfl (by decide) (by decide) (by decide) fun _ => rfl]
  have hv : bitsOf (v % 2 ^ 64) 0 7 = v % 128 := by simp only [bitsOf, Nat.shiftRight_zero]; omega
  have hmerge : mergeWrite PWR_THERM (d.reg PWR_THERM) (byteMask 0 8) (v % 2 ^ 64) = setBits (d.reg PWR_THERM) 0 7 v := by
    show setBits _ 0 7 (fieldWrite PWR_THERM_LIMIT _ _ _) = _
    rw [fieldWrite_rw rfl (by decide)]
    show setBits _ 0 7 (bitsOf (v % 2 ^ 64) 0 7) = _
    rw [hv]
    simp [setBits]
  have hub : ∀ a m w nv, d.hubWrite who PWR_THERM 0 a m w nv =
      if decide (85 ≤ bitsOf nv 0 7) && decide (bitsOf nv 0 7 ≤ 105) then d.putReg PWR_THERM 0 0 nv else d.refuse who a 0x02 := fun _ _ _ _ => rfl
  rw [hub, hmerge, bitsOf_setBits]
  by_cases hr : 85 ≤ v % 128 ∧ v % 128 ≤ 105
  · rw [if_pos hr, if_pos (by simpa using hr), Dev.oneRsp_putReg h]
    rfl
  · rw [if_neg hr, if_neg (by simpa using hr), Dev.oneRsp_refuse h]

/-! ### Writes of the envelope -/

theorem envRegs_lt {which : Nat} {r : RegDef} (h : envRegs[which]? = some r) : which < 5 := (List.getElem?_eq_some_iff.mp h).1

/-- An envelope register is not the admission status, and its Reset value fits it. -/
theorem envRegs_spec {which : Nat} {r : RegDef} (h : envRegs[which]? = some r) : ADM_STATUS.addr 0 0 ≠ r.addr 0 0 ∧ r.reset 0 < 2 ^ 64 :=
  (by decide : ∀ r ∈ envRegs, ADM_STATUS.addr 0 0 ≠ r.addr 0 0 ∧ r.reset 0 < 2 ^ 64) r (List.mem_of_getElem? h)

theorem Dev.envOk_iff (d : Dev) {which : Nat} (h : which < 5) (v : Nat) : d.envOk which v = true ↔ inEnvelope d which v := by
  match which, h with
  | 0, _ => simp [Dev.envOk, inEnvelope]
  | 1, _ => simp [Dev.envOk, inEnvelope, and_assoc]
  | 2, _ => simp [Dev.envOk, inEnvelope]
  | 3, _ => simp [Dev.envOk, inEnvelope]
  | 4, _ => simp [Dev.envOk, inEnvelope]

section
variable {d : Dev} {who : Who} {which : Nat} {r : RegDef} (hr : envRegs[which]? = some r)
include hr

/-- R304: START and END are locked while a sheaf is admitted. -/
theorem Dev.envWrite_locked (h3 : 3 ≤ which) (ha : d.admitted = true) (x : Nat) : d.envWrite who which x = d.refuse who (ctrlBase + r.off) 0x05 := by
  simp [Dev.envWrite, hr, h3, ha]

section
variable (hfree : 3 ≤ which → d.admitted = false)
include hfree

/-- R304: a value outside the register's range is refused. -/
theorem Dev.envWrite_outside {x : Nat} (hx : ¬ inEnvelope d which x) : d.envWrite who which x = d.refuse who (ctrlBase + r.off) 0x02 := by
  have hok : d.envOk which x = false := by simpa [← d.envOk_iff (envRegs_lt hr)] using hx
  have hlock : (decide (3 ≤ which) && d.admitted) = false := by simpa using hfree
  simp [Dev.envWrite, hr, hlock, hok]

/-- R304, R314: a value in the register's range is stored; FLOOR, CEILING and SLEW call for a recheck under a running job. -/
theorem Dev.envWrite_inside {x : Nat} (hx : inEnvelope d which x) :
    d.envWrite who which x = { d with
      out := d.out ++ [.ok], regs := (d.setReg r x).regs
      gov := if d.running && decide (which < 3) then { d.gov with recheck := true } else d.gov } := by
  have hok : d.envOk which x = true := (d.envOk_iff (envRegs_lt hr) x).mpr hx
  have hlock : (decide (3 ≤ which) && d.admitted) = false := by simpa using hfree
  have hrun : (d.setReg r x).running = d.running := by
    unfold Dev.running Dev.bit
    rw [Dev.fld_setReg_ne (envRegs_spec hr).1]
  simp only [Dev.envWrite, hr, hlock, hok, hrun, Bool.false_eq_true, if_false, Bool.not_true]
  split <;> rfl

end

end

/-! ### The recheck -/

/-- Can the admitted profile of `sh` no longer be held with the envelope as it stands (R44)? -/
def Dev.envFail (d : Dev) (sh : Sheaf) : Option Nat :=
  holdFail sh.profile ((sh.profile.map fun (p : Nat × Nat × Nat × Nat) => p.2.1).foldl max 0) (d.fld PWR_FLOOR PWR_FLOOR_W)
    (d.fld PWR_CEIL PWR_CEIL_W) (d.fld PWR_SLEW PWR_SLEW_W_PER_MS) (d.fld PWR_START PWR_START_W)

/-- The device with no recheck called for any more. -/
def Dev.recheckDone (d : Dev) : Dev := { d with gov := { d.gov with recheck := false } }

/-- R314: a recheck that is called for is done with once, and breaches the contract where the profile cannot be held. -/
theorem Dev.recheck_due {d : Dev} {sh : Sheaf} (hsh : d.sheaf = some sh) (hrun : d.running = true) (hdue : d.gov.recheck = true) :
    d.recheck = if d.envFail sh = none then d.recheckDone else d.recheckDone.breach brEnvelope 0 {} := by
  have hrecheck : d.recheck = match d.sheaf with
      | some sh =>
        if d.running && d.gov.recheck then
          match d.envFail sh with
          | some _ => d.recheckDone.breach brEnvelope 0 {}
          | none => d.recheckDone
        else d
      | none => d := rfl
  rw [hrecheck, hsh]
  simp only [hrun, hdue, Bool.and_self, if_true]
  cases d.envFail sh <;> simp

/-- A breach writes logs and registers, and leaves governor, job and furrows as they were. -/
theorem Dev.breach_keeps (d : Dev) (cause where_ : Nat) (x : At) :
    (d.breach cause where_ x).gov = d.gov ∧ (d.breach cause where_ x).job = d.job ∧ (d.breach cause where_ x).furrows = d.furrows ∧
    (d.breach cause where_ x).running = d.running := by
  obtain ⟨hlog, rlog⟩ := Dev.breach_only d cause where_ x
  obtain ⟨hcnt, rcnt⟩ := Dev.breachCounted_only d cause where_ x
  refine ⟨by rw [hlog, hcnt], by rw [hlog, hcnt], by rw [hlog, hcnt], ?_⟩
  have hfind := (rlog _ (not_breachLogOffset (o := ADM_STATUS.addr 0 0) (by decide) (by decide))).trans (rcnt _ (by decide))
  unfold Dev.running Dev.bit Dev.fld
  rw [Dev.reg_of_find hfind]

/-! ### The statement -/

theorem execEnvelopeWrite_next {who : Who} {which : Nat} {r : RegDef} {s : State} (hr : envRegs[which]? = some r) (hw : s.dev.reach who = true) (v : Word) :
    exec (.envelopeWrite who which v) s =
      .next { s with dev := Dev.envWrite { s.dev with out := [] } who which (v.toNat % 2 ^ (if which = 2 then 14 else 13)) } :=
  runWho_ok (ok := decide (which < 5)) (decide_eq_true (envRegs_lt hr)) hw fun d =>
    d.envWrite who which (wnat v % 2 ^ (if which = 2 then 14 else 13))

theorem execRegisterWrite_therm {who : Who} {s : State} (hw : s.dev.reach who = true) (v : Word) :
    exec (.registerWrite who (PWR_THERM.addr 0 0) 8 v) s =
      .next { s with dev := Dev.regWrite { s.dev with out := [] } who (PWR_THERM.addr 0 0) 8 v.toNat } := by
  show execRegisterWrite who (PWR_THERM.addr 0 0) 8 v s = _
  unfold execRegisterWrite
  rw [runAccess_ok (by decide) hw]
  rfl

theorem execEnvelopeRecheck_next {s : State} {sh : Sheaf} (hl : s.dev.live = true) (hsh : s.dev.sheaf = some sh) (hrun : s.dev.running = true)
    (hdue : s.dev.gov.recheck = true) :
    exec .envelopeRecheck s = .next { s with
      dev := if s.dev.envFail sh = none then Dev.recheckDone { s.dev with out := [] }
        else (Dev.recheckDone { s.dev with out := [] }).breach brEnvelope 0 {} } := by
  refine (runLive_ok rfl hl fun d => d.recheck).trans ?_
  rw [Dev.recheck_due (d := { s.dev with out := [] }) hsh hrun hdue]
  rfl

/-- Settles O30: the writes by the three cases of `Dev.envWrite` and the two of PWR_THERM, the recheck by what a breach shows and keeps. -/
theorem envelope : Obligations.Envelope := by
  intro s
  refine ⟨fun who which v r x hr hw hx => ?_, fun who v x hw hx => ?_, fun sh hl hsh hrun hdue => ?_⟩
  · rw [execEnvelopeWrite_next hr hw, ← hx]
    refine ⟨fun hin hfree => ⟨_, rfl, ⟨rfl, rfl⟩, ?_⟩, fun hout hfree => ⟨_, rfl, ?_⟩, fun h3 ha => ⟨_, rfl, ?_⟩⟩
    · have hreset := (envRegs_spec hr).2
      have hx64 : x < 2 ^ 64 := by rw [hx]; split <;> omega
      rw [Dev.envWrite_inside (d := { s.dev with out := [] }) hr hfree hin]
      refine ⟨?_, rfl, fun o ho => Dev.find_setReg_ne ho⟩
      exact (Dev.reg_setReg (d := { s.dev with out := [] }) hreset).trans (Nat.mod_eq_of_lt hx64)
    · rw [Dev.envWrite_outside (d := { s.dev with out := [] }) hr hfree hout]
      exact refuse_refusedAs s who _ (by decide)
    · rw [Dev.envWrite_locked (d := { s.dev with out := [] }) hr h3 ha]
      exact refuse_refusedAs s who _ (by decide)
  · rw [execRegisterWrite_therm hw, Dev.regWrite_therm rfl, ← hx]
    refine ⟨fun h85 h105 => ⟨_, rfl, ⟨rfl, rfl⟩, ?_⟩, fun hout => ⟨_, rfl, ?_⟩⟩
    · rw [if_pos ⟨h85, h105⟩]
      refine ⟨rfl, ?_, fun o ho => Dev.find_setReg_ne ho⟩
      rw [hx]
      exact Dev.fld_setFld (d := { s.dev with out := [] }) (by decide) (by decide)
    · rw [if_neg (by omega)]
      exact refuse_refusedAs s who _ (by decide)
  · rw [execEnvelopeRecheck_next hl hsh hrun hdue]
    refine ⟨_, rfl, ⟨rfl, rfl⟩, ?_⟩
    by_cases hq : s.dev.envFail sh = none
    · rw [if_pos hq]
      exact ⟨rfl, rfl, hrun, rfl, fun q e => ⟨fun hne => absurd (e.trans hq) hne, fun _ => ⟨rfl, rfl⟩⟩⟩
    · rw [if_neg hq]
      have hkeeps := Dev.breach_keeps (Dev.recheckDone { s.dev with out := [] }) brEnvelope 0 {}
      have hbreach := breach_breached s (d := Dev.recheckDone { s.dev with out := [] }) rfl (cause := brEnvelope) (by decide) 0 {}
      generalize (Dev.recheckDone { s.dev with out := [] }).breach brEnvelope 0 {} = e at hkeeps hbreach ⊢
      obtain ⟨hgov, hjob, hfrw, hkeep⟩ := hkeeps
      exact ⟨hgov, hjob, hkeep.trans hrun, hfrw, fun q hfail => ⟨fun _ => hbreach, fun h => absurd (hfail.symm.trans h) hq⟩⟩

end Sys2Proof.Machine
end

section
/-! PROOFS. Start, loss and return of the clock sources (R320 to R323, R331 to R333): what a job fault, a port that goes down and a stack whose
base die coasts leave of clocks, time and other registers, and from that the loss of XIN0 and RELOCK as folds over ports and stacks. -/
namespace Sys2Proof.Machine
open Sys2Proof

/-! ### Clocks, time and registers that an operation keeps -/

/-- `d'` has the clock sources, the time and a job fault on record as `d` has them, and its registers but at offsets of `p`. -/
structure Dev.ClockKept (p : Nat → Prop) (d d' : Dev) : Prop where
  clk : d'.clk = d.clk
  time : d'.tb.time = d.tb.time
  faulted : d.job.faulted = true → d'.job.faulted = true
  regs : regsAgree p d d'

theorem Dev.ClockKept.refl (p : Nat → Prop) (d : Dev) : Dev.ClockKept p d d := ⟨rfl, rfl, id, fun _ _ => rfl⟩

theorem Dev.ClockKept.trans {p : Nat → Prop} {a b c : Dev} (h : Dev.ClockKept p a b) (g : Dev.ClockKept p b c) : Dev.ClockKept p a c :=
  ⟨g.clk.trans h.clk, g.time.trans h.time, fun f => g.faulted (h.faulted f), fun o ho => (g.regs o ho).trans (h.regs o ho)⟩

theorem Dev.ClockKept.mono {p q : Nat → Prop} {a b : Dev} (h : Dev.ClockKept p a b) (hpq : ∀ o, p o → q o) : Dev.ClockKept q a b :=
  ⟨h.clk, h.time, h.faulted, fun o ho => h.regs o fun x => ho (hpq o x)⟩

theorem Dev.each_keeps {α : Type} {I : Dev → Prop} {f : Dev → α → Dev} (hI : ∀ d a, I d → I (f d a)) (l : List α) {d : Dev} (hd : I d) :
    I (d.each l f) := by
  induction l generalizing d with
  | nil => exact hd
  | cons a t ih => exact ih (hI d a hd)

theorem Dev.ClockKept.each {α : Type} {p : Nat → Prop} {f : Dev → α → Dev} (hf : ∀ d a, Dev.ClockKept p d (f d a)) (l : List α) (d : Dev) :
    Dev.ClockKept p d (d.each l f) := Dev.each_keeps (I := Dev.ClockKept p d) (fun e a h => h.trans (hf e a)) l (.refl p d)

theorem Dev.ClockKept.fld {p : Nat → Prop} {d e : Dev} (h : Dev.ClockKept p d e) {r : RegDef} {u i : Nat} (ho : ¬ p (r.addr u i)) (f : FldDef) :
    e.fld r f u i = d.fld r f u i := by
  unfold Dev.fld
  rw [Dev.reg_of_find (h.regs _ ho)]

/-- Fields besides clocks, time base, job and registers may change. -/
theorem Dev.ClockKept.rest {p : Nat → Prop} {a b : Dev} (hc : b.clk = a.clk) (ht : b.tb = a.tb) (hj : b.job = a.job) (hr : b.regs = a.regs) :
    Dev.ClockKept p a b := ⟨hc, by rw [ht], fun f => by rw [hj]; exact f, fun _ _ => by rw [hr]⟩

theorem Dev.RegsOnly.clockKept {p : Nat → Prop} {a b : Dev} (h : Dev.RegsOnly p a b) : Dev.ClockKept p a b :=
  ⟨by rw [h.1], by rw [h.1], fun f => by rw [h.1]; exact f, h.2⟩

theorem Dev.TraceOnly.clockKept {p : Nat → Prop} {a b : Dev} (h : Dev.TraceOnly a b) (hp : ∀ o, traceOffset o → p o) : Dev.ClockKept p a b :=
  ⟨by rw [h.1], by rw [h.1], fun f => by rw [h.1]; exact f, fun o ho => h.2 o fun x => ho (hp o x)⟩

theorem Dev.setFld_kept (d : Dev) (r : RegDef) (f : FldDef) (x : Nat) (u : Nat := 0) (i : Nat := 0) :
    Dev.ClockKept (· = r.addr u i) d (d.setFld r f x u i) := (Dev.RegsOnly.setFld (p := (· = r.addr u i)) d rfl).clockKept

theorem Dev.setFrw_kept {p : Nat → Prop} (d : Dev) (f : Nat) (x : Furrow) : Dev.ClockKept p d (d.setFrw f x) := .rest rfl rfl rfl rfl

theorem Dev.setPort_kept {p : Nat → Prop} (d : Dev) (n : Nat) (x : Port) : Dev.ClockKept p d (d.setPort n x) := .rest rfl rfl rfl rfl

/-- A fold establishes `J` where one of its elements brings it about from `I`, and every element keeps both. -/
theorem Dev.each_reaches {α : Type} {I J : Dev → Prop} {f : Dev → α → Dev} (hI : ∀ d a, I d → I (f d a)) (hJ : ∀ d a, J d → J (f d a)) {x : α}
    (hx : ∀ d, I d → J (f d x)) {l : List α} (hl : x ∈ l) {d : Dev} (hd : I d) : J (d.each l f) := by
  induction l generalizing d with
  | nil => cases hl
  | cons a t ih =>
    rcases List.mem_cons.mp hl with rfl | ht
    · exact Dev.each_keeps hJ t (hx d hd)
    · exact ih ht (hI d a hd)

/-! ### The abort of a job -/

/-- Offset of a register that the abort of the work and the notices of a job fault write (R307, R362, Table 18.4): memory and its errors, trace and
interrupts, the gate's waits, the ramp, the furrows' errors, the flits sent and the error logs of the ports. -/
def abortOffset (o : Nat) : Prop :=
  memOffset o ∨ traceOffset o ∨ (∃ r ∈ [PWR_GATE, PWR_STATUS], o = r.addr 0 0) ∨ (∃ (d : Dev) (f : Nat), o = FRW_ERR.addr (d.frwBase f) 0) ∨
  ∃ p, o = HDL_TX.addr p 0 ∨ o = HDL_ELOG_CNT.addr p 0 ∨ ∃ n < 16, o = HDL_ELOG_A.addr p n ∨ o = HDL_ELOG_B.addr p n

/-- Offset of a register that a job fault writes: the report and RUNNING besides. -/
def faultOffset (o : Nat) : Prop :=
  abortOffset o ∨ ∃ r ∈ [ERR_FAULT, ERR_FAULT_B, ERR_FAULT_T, ERR_FAULT_U, ADM_STATUS], o = r.addr 0 0

theorem Dev.frwBase_spec (d : Dev) (f : Nat) : 0x0F00_0000 ≤ d.frwBase f ∧ d.frwBase f % 256 = 0 := by
  unfold Dev.frwBase
  simp only []
  split
  · cases d.physOf (furrowUnit f) <;> simp only [coreBase, Blk.base] <;> omega
  · cases d.physOf (furrowUnit f) <;> simp only [coreBase, Blk.base] <;> omega
  all_goals simp only [Blk.base]; omega

/-- No status register of a port or a stack, nor the report or RUNNING, is among those that an abort writes. -/
theorem not_abortOffset {o : Nat}
    (h : (∃ n, o = HDL_STATUS.addr n 0) ∨ (∃ n, o = HBM_STATUS.addr n 0) ∨ o = ERR_FAULT.addr 0 0 ∨ o = ADM_STATUS.addr 0 0) : ¬ abortOffset o := by
  have hnum : (0x1000_0000 ≤ o ∧ (o % 0x1_0000 = 0x8 ∨ o % 0x1_0000 = 0x1010)) ∨ o = 0x50_0000 ∨ o = 0x10_0008 := by
    rcases h with ⟨n, e⟩ | ⟨n, e⟩ | e | e <;> simp only [RegDef.addr, Blk.base, HDL_STATUS, HBM_STATUS, ERR_FAULT, ADM_STATUS] at e <;> omega
  rintro ((e | ⟨n, -, e | e⟩ | e | ⟨n, hn, e | e⟩) | (e | e | ⟨r, hr, e | e | e⟩) | ⟨r, hr, e⟩ | ⟨d, f, e⟩ | ⟨p, e | e | ⟨n, hn, e | e⟩⟩)
  case inr.inr.inl =>
    simp only [List.mem_cons, List.not_mem_nil, or_false] at hr
    rcases hr with rfl | rfl <;> simp only [RegDef.addr, Blk.base, PWR_GATE, PWR_STATUS] at e <;> omega
  case inr.inr.inr.inl =>
    obtain ⟨hge, hmod⟩ := d.frwBase_spec f
    simp only [RegDef.addr, Blk.base, FRW_ERR] at e
    omega
  all_goals
    simp only [RegDef.addr, Blk.base, HUB_DIR_INV, HBM_ECC, HBM_ECC_LAST, ERR_GLOG_CNT, ERR_GLOG_A, ERR_GLOG_B, HUB_IRQ_STATUS, TRC_WR, TRC_RD,
      TRC_LOST, HDL_TX, HDL_ELOG_CNT, HDL_ELOG_A, HDL_ELOG_B] at e
    omega

theorem not_faultOffset {o : Nat} (h : (∃ n, o = HDL_STATUS.addr n 0) ∨ ∃ n, o = HBM_STATUS.addr n 0) : ¬ faultOffset o := by
  rintro (ha | ⟨r, hr, e⟩)
  · exact not_abortOffset (h.imp_right Or.inl) ha
  · have hge : 0x1000_0000 ≤ o := by
      rcases h with ⟨n, rfl⟩ | ⟨n, rfl⟩ <;> simp only [RegDef.addr, Blk.base, HDL_STATUS, HBM_STATUS] <;> omega
    have hlt : ∀ r ∈ [ERR_FAULT, ERR_FAULT_B, ERR_FAULT_T, ERR_FAULT_U, ADM_STATUS], r.addr 0 0 < 0x1000_0000 := by decide
    exact absurd (hlt r hr) (by omega)

theorem traceOffset.abort {o : Nat} (h : traceOffset o) : abortOffset o := Or.inr (Or.inl h)

theorem FRW_ERR_abort (d : Dev) (f : Nat) : abortOffset (FRW_ERR.addr (d.frwBase f) 0) := Or.inr (Or.inr (Or.inr (Or.inl ⟨d, f, rfl⟩)))

theorem Dev.traceFill_kept (d : Dev) (t kind furrow : Nat) : Dev.ClockKept abortOffset d (d.traceFill t kind furrow) := by
  unfold Dev.traceFill
  split
  · exact (Dev.trace_only _ _ _ _ _ _ _ _ _ _).clockKept fun _ => traceOffset.abort
  · exact .refl _ d

theorem Dev.handOver_kept (d : Dev) (f : Nat) : Dev.ClockKept abortOffset d (d.handOver f) := by
  unfold Dev.handOver
  split
  · split
    · refine Dev.ClockKept.trans ?_ (Dev.traceFill_kept _ _ _ _)
      exact .rest rfl rfl rfl rfl
    · exact .refl _ d
  · exact .refl _ d

theorem Dev.abortFurrow_kept (d : Dev) (f : Nat) : Dev.ClockKept abortOffset d (d.abortFurrow f) := by
  have herr : ∀ (c : Bool) (v : Nat), Dev.ClockKept abortOffset d (if c then d else d.setFr f FRW_ERR v) := fun c v => by
    split
    · exact .refl _ d
    · exact (Dev.RegsOnly.setReg d (FRW_ERR_abort d f)).clockKept
  unfold Dev.abortFurrow
  exact ((herr _ _).trans (Dev.handOver_kept _ f)).trans (Dev.setFrw_kept _ f _)

theorem Dev.abortCore_kept (d : Dev) (c : Nat) : Dev.ClockKept abortOffset d (d.abortCore c) := by
  unfold Dev.abortCore
  split
  · obtain ⟨hframe, hregs, -⟩ := Dev.launchEnd_spec (d.endTeams c) c
    exact ⟨by rw [hframe]; rfl, by rw [hframe]; rfl, fun h => by rw [hframe]; exact h, fun o ho => hregs o fun hm => ho (Or.inl hm)⟩
  · exact .rest rfl rfl rfl rfl

theorem Dev.abortEngines_kept (d : Dev) (s : Sheaf) : Dev.ClockKept abortOffset d (d.abortEngines s) := by
  have hgate : abortOffset (PWR_GATE.addr 0 0) := Or.inr (Or.inr (Or.inl ⟨PWR_GATE, by simp, rfl⟩))
  have hfurrows : ∀ e : Dev, Dev.ClockKept abortOffset e (if e.running then e.each (s.frws.map (·.f)) Dev.abortFurrow else e) := fun e => by
    split
    · exact .each Dev.abortFurrow_kept _ e
    · exact .refl _ e
  unfold Dev.abortEngines
  exact (((Dev.RegsOnly.bump d hgate).clockKept.trans (hfurrows _)).trans (.each Dev.abortCore_kept _ _)).trans (.rest rfl rfl rfl rfl)

theorem Dev.sendTok_kept (d : Dev) (t : Tok) : Dev.ClockKept abortOffset d (d.sendTok t) := by
  have hport : ∀ {o : Nat} (p : Nat), (o = HDL_TX.addr p 0 ∨ o = HDL_ELOG_CNT.addr p 0 ∨
      ∃ n < 16, o = HDL_ELOG_A.addr p n ∨ o = HDL_ELOG_B.addr p n) → abortOffset o := fun p h => Or.inr (Or.inr (Or.inr (Or.inr ⟨p, h⟩)))
  have hlog : ∀ p a c g k, Dev.ClockKept abortOffset d (d.elogHdl p a c g k) := fun p a c g k =>
    (Dev.RegsOnly.elog d (hport p (Or.inr (Or.inl rfl))) (fun n hn => hport p (Or.inr (Or.inr ⟨n, hn, Or.inl rfl⟩)))
      fun n hn => hport p (Or.inr (Or.inr ⟨n, hn, Or.inr rfl⟩))).clockKept
  unfold Dev.sendTok
  split
  · exact .rest rfl rfl rfl rfl
  · split
    · next p _ => exact (Dev.RegsOnly.bump d (hport p (Or.inl rfl))).clockKept.trans (.rest rfl rfl rfl rfl)
    · exact hlog _ _ _ _ _
    · exact hlog _ _ _ _ _

theorem Dev.notices_kept (d : Dev) (s : Sheaf) (r : FaultRep) : Dev.ClockKept abortOffset d (d.notices s r) := by
  unfold Dev.notices
  split
  · exact .each (fun d p => Dev.sendTok_kept d _) _ d
  · exact .refl _ d

theorem Dev.tlySend_kept (d : Dev) (value kind : Nat) : Dev.ClockKept abortOffset d (d.tlySend value kind) := by
  unfold Dev.tlySend Dev.bus
  split
  · exact .rest rfl rfl rfl rfl
  · split <;> exact .rest rfl rfl rfl rfl

/-! ### Job faults -/

/-- The first part of a job fault: the report is written, the engines abandon their work, the run ends (R358, R359). -/
def Dev.jobStopped (d : Dev) (s : Sheaf) (r : FaultRep) : Dev :=
  let d := ((d.report s.jobId r).abortEngines s).setFld ADM_STATUS ADM_STATUS_RUNNING 0
  { d with
    job := { d.job with faulted := true, aborting := true, abortAt := d.tb.time, refuseInbound := true, ivals := [] }
    gov := { d.gov with ramp := true, active := false }
    capture := none }

/-- The rest of a job fault: the ramp down, the trace record, the notices to peers and tally, the interrupt (R360 to R362). -/
def Dev.faultAnnounced (d : Dev) (s : Sheaf) (r : FaultRep) : Dev :=
  let d := (d.setFld PWR_STATUS PWR_STATUS_RAMP_DOWN 1).setFld PWR_STATUS PWR_STATUS_SOWING 0
  let d := d.traceAt 0 trcFault ⟨r.furrow, r.tag, r.step, r.rtn, r.pos⟩ (leBytes 8 (d.reg ERR_FAULT) ++ leBytes 8 (d.reg ERR_FAULT_U))
  ((d.notices s r).tlySend s.jobId 3).irq irqJobFault

theorem Dev.jobFault_first {d : Dev} {s : Sheaf} (hs : d.sheaf = some s) (hf : d.job.faulted = false) (r : FaultRep) :
    d.jobFault r = (d.jobStopped s r).faultAnnounced s r := by
  unfold Dev.jobFault
  rw [hs]
  simp only [hf, Bool.false_eq_true, if_false]
  rfl

theorem Dev.faultAnnounced_kept (d : Dev) (s : Sheaf) (r : FaultRep) : Dev.ClockKept abortOffset d (d.faultAnnounced s r) := by
  have hramp : abortOffset (PWR_STATUS.addr 0 0) := Or.inr (Or.inr (Or.inl ⟨PWR_STATUS, by simp, rfl⟩))
  have hpwr := ((Dev.RegsOnly.setFld (f := PWR_STATUS_RAMP_DOWN) (x := 1) d hramp).trans
    (Dev.RegsOnly.setFld (f := PWR_STATUS_SOWING) (x := 0) _ hramp)).clockKept
  unfold Dev.faultAnnounced Dev.traceAt
  exact (((hpwr.trans ((Dev.trace_only _ _ _ _ _ _ _ _ _ _).clockKept fun _ => traceOffset.abort)).trans (Dev.notices_kept _ s r)).trans
    (Dev.tlySend_kept _ _ _)).trans ((Dev.irq_only _ _).clockKept fun _ => traceOffset.abort)

theorem Dev.report_only (d : Dev) (job : Nat) (r : FaultRep) : Dev.RegsOnly faultOffset d (d.report job r) := by
  have hrep : ∀ q ∈ [ERR_FAULT, ERR_FAULT_B, ERR_FAULT_T, ERR_FAULT_U, ADM_STATUS], faultOffset (q.addr 0 0) := fun q hq => Or.inr ⟨q, hq, rfl⟩
  unfold Dev.report
  exact (((Dev.RegsOnly.setReg d (hrep ERR_FAULT (by simp))).trans (.setReg _ (hrep ERR_FAULT_B (by simp)))).trans
    (.setReg _ (hrep ERR_FAULT_T (by simp)))).trans (.setReg _ (hrep ERR_FAULT_U (by simp)))

theorem Dev.report_cause (d : Dev) (job : Nat) (r : FaultRep) : (d.report job r).fld ERR_FAULT ERR_FAULT_CAUSE = r.cause % 256 := by
  unfold Dev.report
  rw [Dev.fld_setReg_ne (by decide), Dev.fld_setReg_ne (by decide), Dev.fld_setReg_ne (by decide),
    Dev.fld_setReg (by decide) (by simp only [Nat.shiftLeft_eq]; omega)]
  simp only [ERR_FAULT_CAUSE, bitsOf, Nat.shiftLeft_eq, Nat.shiftRight_zero]
  omega

theorem Dev.jobStopped_kept (d : Dev) (s : Sheaf) (r : FaultRep) : Dev.ClockKept faultOffset d (d.jobStopped s r) := by
  have hadm : faultOffset (ADM_STATUS.addr 0 0) := Or.inr ⟨ADM_STATUS, by simp, rfl⟩
  have hstop : Dev.ClockKept faultOffset d (((d.report s.jobId r).abortEngines s).setFld ADM_STATUS ADM_STATUS_RUNNING 0) :=
    ((Dev.report_only d s.jobId r).clockKept.trans ((Dev.abortEngines_kept _ s).mono fun _ => Or.inl)).trans (Dev.RegsOnly.setFld _ hadm).clockKept
  exact ⟨hstop.clk, hstop.time, fun _ => rfl, hstop.regs⟩

/-- R359: a fault after the first of a run counts in MORE and changes nothing else. -/
theorem Dev.jobFault_again {d : Dev} (hf : d.job.faulted = true) (r : FaultRep) :
    Dev.ClockKept (· = ERR_FAULT_U.addr 0 0) d (d.jobFault r) := by
  unfold Dev.jobFault
  split
  · exact .refl _ d
  · rw [if_pos hf]
    exact (Dev.RegsOnly.stick (p := (· = ERR_FAULT_U.addr 0 0)) d rfl).clockKept

theorem Dev.jobFault_kept (d : Dev) (r : FaultRep) : Dev.ClockKept faultOffset d (d.jobFault r) := by
  by_cases hf : d.job.faulted = true
  · exact (Dev.jobFault_again hf r).mono fun o e => Or.inr ⟨ERR_FAULT_U, by simp, e⟩
  · cases hs : d.sheaf with
    | none => unfold Dev.jobFault; rw [hs]; exact .refl _ d
    | some s =>
      rw [Dev.jobFault_first hs (by simpa using hf)]
      exact (Dev.jobStopped_kept d s r).trans ((Dev.faultAnnounced_kept _ s r).mono fun _ => Or.inl)

/-- The run has ended by a job fault of cause `c`. -/
def Dev.faultedBy (d : Dev) (c : Nat) : Prop := d.job.faulted = true ∧ d.running = false ∧ d.fld ERR_FAULT ERR_FAULT_CAUSE = c

/-- An operation that leaves the report and RUNNING alone leaves the fault as it is. -/
theorem Dev.ClockKept.faultedBy {p : Nat → Prop} {d e : Dev} (h : Dev.ClockKept p d e) (hfault : ¬ p (ERR_FAULT.addr 0 0))
    (hadm : ¬ p (ADM_STATUS.addr 0 0)) {c : Nat} (hd : d.faultedBy c) : e.faultedBy c := by
  obtain ⟨hf, hrun, hcause⟩ := hd
  refine ⟨h.faulted hf, ?_, (h.fld hfault _).trans hcause⟩
  unfold Dev.running Dev.bit
  rw [h.fld hadm]
  exact hrun

theorem not_abortOffset_report : ¬ abortOffset (ERR_FAULT.addr 0 0) ∧ ¬ abortOffset (ADM_STATUS.addr 0 0) :=
  ⟨not_abortOffset (Or.inr (Or.inr (Or.inl rfl))), not_abortOffset (Or.inr (Or.inr (Or.inr rfl)))⟩

/-- R358, R359: the first fault of a run ends it and is reported. -/
theorem Dev.jobFault_faultedBy {d : Dev} {s : Sheaf} (hs : d.sheaf = some s) (hf : d.job.faulted = false) (r : FaultRep) :
    (d.jobFault r).faultedBy (r.cause % 256) := by
  rw [Dev.jobFault_first hs hf]
  obtain ⟨hfault, hadm⟩ := not_abortOffset_report
  refine (Dev.faultAnnounced_kept _ s r).faultedBy hfault hadm ⟨rfl, ?_, ?_⟩
  · have hrun : (d.jobStopped s r).fld ADM_STATUS ADM_STATUS_RUNNING = 0 :=
      Dev.fld_setFld (d := (d.report s.jobId r).abortEngines s) (x := 0) (by decide) (by decide)
    unfold Dev.running Dev.bit
    rw [hrun]
    rfl
  · calc (d.jobStopped s r).fld ERR_FAULT ERR_FAULT_CAUSE
        = ((d.report s.jobId r).abortEngines s).fld ERR_FAULT ERR_FAULT_CAUSE := Dev.fld_setReg_ne (by decide)
      _ = (d.report s.jobId r).fld ERR_FAULT ERR_FAULT_CAUSE := (Dev.abortEngines_kept _ s).fld hfault _
      _ = r.cause % 256 := Dev.report_cause d s.jobId r

/-! ### Ports -/

/-- Offset of a register that a change of port `p`'s state writes: its status, trace and interrupt registers. -/
def portOffset (p o : Nat) : Prop := o = HDL_STATUS.addr p 0 ∨ traceOffset o

/-- With the port the time base's lock may go (R288). -/
def portDownOffset (p o : Nat) : Prop := portOffset p o ∨ o = CLK_TB_STATUS.addr 0 0

theorem HDL_STATUS_inj {p q : Nat} (h : HDL_STATUS.addr p 0 = HDL_STATUS.addr q 0) : p = q := by
  simp only [RegDef.addr, Blk.base, HDL_STATUS] at h
  omega

/-- Registers of the blocks of dies, ports and stacks are no trace or interrupt registers. -/
theorem not_traceOffset {o : Nat} (h : 0x1000_0000 ≤ o) : ¬ traceOffset o := by
  rintro (e | e | ⟨r, hr, e | e | e⟩) <;> simp only [RegDef.addr, Blk.base, HUB_IRQ_STATUS, HUB_DIR_INV, TRC_WR, TRC_RD, TRC_LOST] at e <;> omega

theorem HDL_STATUS_not_trace (p : Nat) : ¬ traceOffset (HDL_STATUS.addr p 0) := not_traceOffset (by simp only [RegDef.addr, Blk.base, HDL_STATUS]; omega)

theorem not_portOffset {p q : Nat} (h : q ≠ p) : ¬ portOffset p (HDL_STATUS.addr q 0) := by
  rintro (e | e)
  · exact h (HDL_STATUS_inj e)
  · exact HDL_STATUS_not_trace q e

theorem HDL_STATUS_not_tb (p : Nat) : HDL_STATUS.addr p 0 ≠ CLK_TB_STATUS.addr 0 0 := by
  simp only [RegDef.addr, Blk.base, HDL_STATUS, CLK_TB_STATUS]
  omega

/-- Table 13.10: a port's STATE takes one of the codes given, and its status alone changes, besides interrupts. -/
theorem Dev.setPortState_spec (d : Dev) (p : Nat) {st : Nat} (hst : st < 8) :
    Dev.ClockKept (portOffset p) d (d.setPortState p st) ∧ (d.setPortState p st).portState p = st := by
  unfold Dev.setPortState
  split
  · next h => exact ⟨.refl _ d, h⟩
  · have hirq := (Dev.irq_only (d.setFld HDL_STATUS HDL_STATUS_STATE st p) irqLink).clockKept (p := traceOffset) fun _ => id
    refine ⟨((d.setFld_kept HDL_STATUS HDL_STATUS_STATE st p).mono fun _ => Or.inl).trans (hirq.mono fun _ => Or.inr), ?_⟩
    exact ((hirq.fld (HDL_STATUS_not_trace p) _).trans (Dev.fld_setFld (RegDef.reset_lt (by decide) 0) (by decide))).trans (Nat.mod_eq_of_lt hst)

/-- Another field of a port's status leaves its STATE. -/
theorem Dev.portState_setFld (d : Dev) {f : FldDef} (hf : f.lo + f.w ≤ 64) (hlo : 3 ≤ f.lo) (x p : Nat) :
    (d.setFld HDL_STATUS f x p).portState p = d.portState p := Dev.fld_setFld_ne (RegDef.reset_lt (by decide) 0) hf (Or.inl hlo)

theorem Dev.portState_setPort (d : Dev) (n : Nat) (x : Port) (p : Nat) : (d.setPort n x).portState p = d.portState p := rfl

/-- R270: training starts, and clocks and the other ports are left alone. -/
theorem Dev.trainPort_spec (d : Dev) (p fails : Nat) :
    Dev.ClockKept (portOffset p) d (d.trainPort p fails) ∧ (d.trainPort p fails).portState p = portTraining := by
  obtain ⟨hkept, hst⟩ := d.setPortState_spec p (st := portTraining) (by decide)
  unfold Dev.trainPort
  generalize d.setPortState p portTraining = e at hkept hst ⊢
  have hlock := (e.setFld_kept HDL_STATUS HDL_STATUS_FEC_LOCK 0 p).mono (q := portOffset p) fun _ => Or.inl
  refine ⟨(hkept.trans hlock).trans (Dev.setPort_kept _ p _), ?_⟩
  rw [Dev.portState_setPort, Dev.portState_setFld e (by decide) (by decide), hst]

theorem Dev.setPortState_mem (d : Dev) (p st : Nat) : (d.setPortState p st).mem = d.mem := by
  unfold Dev.setPortState
  split
  · rfl
  · rw [(Dev.irq_mem _ _).1, Dev.setFld_mem]

theorem Dev.trainPort_mem (d : Dev) (p fails : Nat) : (d.trainPort p fails).mem = d.mem := by
  unfold Dev.trainPort
  rw [Dev.setPort_mem, Dev.setFld_mem, Dev.setPortState_mem]

theorem Dev.parentLost_kept (d : Dev) (p : Nat) : Dev.ClockKept (· = CLK_TB_STATUS.addr 0 0) d (d.parentLost p) := by
  unfold Dev.parentLost
  split
  · exact (d.setFld_kept CLK_TB_STATUS CLK_TB_STATUS_LOCKED 0).trans ⟨rfl, rfl, id, fun _ _ => rfl⟩
  · exact .refl _ d

/-- STATE of a port after its clock is lost (R331): UP and training end in DOWN. -/
def clkLostState (st : Nat) : Nat := if st = portUp ∨ st = portTraining then portDown else st

theorem clkLostState_idem (st : Nat) : clkLostState (clkLostState st) = clkLostState st := by
  unfold clkLostState
  by_cases h : st = portUp ∨ st = portTraining
  · rw [if_pos h]; decide
  · rw [if_neg h, if_neg h]

/-- A port goes DOWN with a cause, from whatever state. -/
theorem Dev.portDown_spec (d : Dev) (p cause : Nat) :
    let e := (d.setPortState p portDown).setFld HDL_STATUS HDL_STATUS_CAUSE cause p
    Dev.ClockKept (portOffset p) d e ∧ e.portState p = portDown := by
  obtain ⟨hkept, hst⟩ := d.setPortState_spec p (st := portDown) (by decide)
  exact ⟨hkept.trans ((Dev.setFld_kept _ HDL_STATUS HDL_STATUS_CAUSE cause p).mono fun _ => Or.inl), (Dev.portState_setFld _ (by decide) (by decide) cause p).trans hst⟩

/-- R271, R331: without XIN0 a port that is UP goes DOWN and does not train again; a sheaf's job may fault with it. -/
theorem Dev.linkDown_cases {d : Dev} (hx : d.clk.xin0 = false) {p : Nat} (hu : d.portState p = portUp) (cause : Nat) :
    ∃ e, Dev.ClockKept (portDownOffset p) d e ∧ e.portState p = portDown ∧ (d.linkDown p cause = e ∨ ∃ r, d.linkDown p cause = e.jobFault r) := by
  have hup : d.portIsUp p = true := by simp [Dev.portIsUp, hu]
  obtain ⟨hkept, hst⟩ := d.portDown_spec p cause
  unfold Dev.linkDown
  simp only [hup, Bool.not_true, Bool.false_eq_true, if_false]
  generalize (d.setPortState p portDown).setFld HDL_STATUS HDL_STATUS_CAUSE cause p = a at hkept hst ⊢
  have hlock := (a.setFld_kept HDL_STATUS HDL_STATUS_FEC_LOCK 0 p).mono (q := portOffset p) fun _ => Or.inl
  have hb : ((a.setFld HDL_STATUS HDL_STATUS_FEC_LOCK 0 p).setPort p Port.off).portState p = portDown := by
    rw [Dev.portState_setPort, Dev.portState_setFld a (by decide) (by decide), hst]
  have hkept := (hkept.trans hlock).trans (Dev.setPort_kept _ p Port.off)
  generalize (a.setFld HDL_STATUS HDL_STATUS_FEC_LOCK 0 p).setPort p Port.off = b at hkept hb ⊢
  have htb := b.parentLost_kept p
  have hkept := (hkept.mono fun _ => Or.inl).trans (htb.mono (q := portDownOffset p) fun _ => Or.inr)
  refine ⟨b.parentLost p, hkept, (htb.fld (HDL_STATUS_not_tb p) _).trans hb, ?_⟩
  have hx : (b.parentLost p).clk.xin0 = false := by rw [hkept.clk, hx]
  simp only [hx, Bool.and_false, Bool.false_eq_true, if_false]
  split
  · exact Or.inr ⟨_, rfl⟩
  · exact Or.inl rfl

/-- R271, R331: the loss of XIN0 at one port. -/
theorem Dev.portClkLoss_cases {d : Dev} (hx : d.clk.xin0 = false) (p : Nat) :
    ∃ e, Dev.ClockKept (portDownOffset p) d e ∧ e.portState p = clkLostState (d.portState p) ∧
      (d.portClkLoss p = e ∨ ∃ r, d.portClkLoss p = e.jobFault r) := by
  unfold Dev.portClkLoss clkLostState
  by_cases ht : d.portState p = portTraining
  · obtain ⟨hkept, hst⟩ := d.portDown_spec p 0x76
    rw [if_pos ht, if_pos (Or.inr ht)]
    exact ⟨_, (hkept.trans (Dev.setPort_kept _ p Port.off)).mono fun _ => Or.inl, (Dev.portState_setPort _ p _ p).trans hst, Or.inl rfl⟩
  · rw [if_neg ht]
    by_cases hu : d.portState p = portUp
    · rw [if_pos (Or.inl hu)]
      exact Dev.linkDown_cases hx hu 0x76
    · rw [if_neg (by simp [hu, ht])]
      exact ⟨d, .refl _ d, rfl, Or.inl (by simp [Dev.linkDown, Dev.portIsUp, hu])⟩

/-- Offset of a register that the loss of XIN0 at a port writes, with the fault of the job that it may bring. -/
def portLossOffset (p o : Nat) : Prop := portDownOffset p o ∨ faultOffset o

theorem Dev.portClkLoss_kept {d : Dev} (hx : d.clk.xin0 = false) (p : Nat) : Dev.ClockKept (portLossOffset p) d (d.portClkLoss p) := by
  obtain ⟨e, hkept, -, he | ⟨r, he⟩⟩ := Dev.portClkLoss_cases hx p
  · exact he ▸ hkept.mono fun _ => Or.inl
  · exact he ▸ (hkept.mono fun _ => Or.inl).trans ((e.jobFault_kept r).mono fun _ => Or.inr)

theorem Dev.portClkLoss_state {d : Dev} (hx : d.clk.xin0 = false) (p q : Nat) :
    (d.portClkLoss q).portState p = if p = q then clkLostState (d.portState p) else d.portState p := by
  by_cases h : p = q
  · subst h
    obtain ⟨e, -, hst, he | ⟨r, he⟩⟩ := Dev.portClkLoss_cases hx p
    · rw [if_pos rfl, he, hst]
    · rw [if_pos rfl, he, ← hst]
      exact (e.jobFault_kept r).fld (not_faultOffset (Or.inl ⟨p, rfl⟩)) _
  · rw [if_neg h]
    refine (Dev.portClkLoss_kept hx q).fld ?_ _
    rintro ((e | e) | e)
    · exact not_portOffset h e
    · exact HDL_STATUS_not_tb p e
    · exact not_faultOffset (Or.inl ⟨p, rfl⟩) e

/-- The fault of a job stays as it is while the ports lose their clock. -/
theorem Dev.portClkLoss_faultedBy {d : Dev} (hx : d.clk.xin0 = false) (p : Nat) {c : Nat} (hf : d.faultedBy c) : (d.portClkLoss p).faultedBy c := by
  have hlow : ∀ o, o = ERR_FAULT.addr 0 0 ∨ o = ADM_STATUS.addr 0 0 → ¬ portDownOffset p o := by
    rintro o ho ((e | e) | e)
    · rcases ho with rfl | rfl <;> simp only [RegDef.addr, Blk.base, HDL_STATUS, ERR_FAULT, ADM_STATUS] at e <;> omega
    · exact not_abortOffset (by tauto) (traceOffset.abort e)
    · subst e
      exact absurd ho (by decide)
  obtain ⟨e, hkept, -, he⟩ := Dev.portClkLoss_cases hx p
  have hfe := hkept.faultedBy (hlow _ (Or.inl rfl)) (hlow _ (Or.inr rfl)) hf
  rcases he with he | ⟨r, he⟩
  · exact he ▸ hfe
  · rw [he]
    exact (Dev.jobFault_again hfe.1 r).faultedBy (by decide) (by decide) hfe

theorem not_portLossOffset_stack (p n : Nat) : ¬ portLossOffset p (HBM_STATUS.addr n 0) := by
  rintro (((e | e) | e) | e)
  · simp only [RegDef.addr, Blk.base, HDL_STATUS, HBM_STATUS] at e; omega
  · exact not_abortOffset (Or.inr (Or.inl ⟨n, rfl⟩)) (traceOffset.abort e)
  · simp only [RegDef.addr, Blk.base, CLK_TB_STATUS, HBM_STATUS] at e; omega
  · exact not_faultOffset (Or.inr ⟨n, rfl⟩) e

/-- R331: what the loss of XIN0 at all ports leaves alone. -/
theorem Dev.ports_clkLoss_kept {d : Dev} (hx : d.clk.xin0 = false) :
    Dev.ClockKept (fun o => ∃ p, portLossOffset p o) d (d.each (List.range 60) Dev.portClkLoss) :=
  Dev.each_keeps (I := Dev.ClockKept (fun o => ∃ p, portLossOffset p o) d)
    (fun e p h => h.trans ((Dev.portClkLoss_kept (by rw [h.clk, hx]) p).mono fun _ ho => ⟨p, ho⟩)) _ (.refl _ d)

/-- R331: no port is UP or trains after the loss of XIN0. -/
theorem Dev.ports_clkLoss_state {d : Dev} (hx : d.clk.xin0 = false) {p : Nat} (hp : p < 60) :
    (d.each (List.range 60) Dev.portClkLoss).portState p = clkLostState (d.portState p) := by
  have hx' : ∀ (e : Dev) (q : Nat), e.clk.xin0 = false → (e.portClkLoss q).clk.xin0 = false := fun e q h => by rw [(Dev.portClkLoss_kept h q).clk, h]
  refine (Dev.each_reaches (I := fun e => e.clk.xin0 = false ∧ clkLostState (e.portState p) = clkLostState (d.portState p))
    (J := fun e => e.clk.xin0 = false ∧ e.portState p = clkLostState (d.portState p))
    (fun e q h => ⟨hx' e q h.1, ?_⟩) (fun e q h => ⟨hx' e q h.1, ?_⟩) (fun e h => ⟨hx' e p h.1, ?_⟩) (List.mem_range.mpr hp) ⟨hx, rfl⟩).2
  · rw [Dev.portClkLoss_state h.1]
    split
    · rw [clkLostState_idem, h.2]
    · exact h.2
  · rw [Dev.portClkLoss_state h.1]
    split
    · rw [h.2, clkLostState_idem]
    · exact h.2
  · rw [Dev.portClkLoss_state h.1, if_pos rfl, h.2]

/-! ### The loss of XIN0 -/

/-- The first part of a loss of XIN0: a running job faults, and the source is gone. -/
def Dev.sourceLost (d : Dev) : Dev :=
  let d := if d.running then d.jobFault { cause := jfClkLoss, kind := kHub } else d
  { d with clk := { d.clk with xin0 := false } }

theorem Dev.sourceLost_spec (d : Dev) :
    let e := d.sourceLost
    e.clk = { d.clk with xin0 := false } ∧ e.tb.time = d.tb.time ∧ regsAgree faultOffset d e ∧
    (d.running = true → d.sheaf ≠ none → d.job.faulted = false → e.faultedBy jfClkLoss) := by
  unfold Dev.sourceLost
  by_cases hr : d.running = true
  · rw [if_pos hr]
    obtain ⟨hclk, htime, -, hregs⟩ := d.jobFault_kept { cause := jfClkLoss, kind := kHub }
    have hrep := fun s (hs : d.sheaf = some s) hf => Dev.jobFault_faultedBy hs hf { cause := jfClkLoss, kind := kHub }
    generalize d.jobFault { cause := jfClkLoss, kind := kHub } = a at hclk htime hregs hrep ⊢
    refine ⟨show { a.clk with xin0 := false } = _ by rw [hclk], htime, hregs, fun _ hs hf => ?_⟩
    obtain ⟨s, hs⟩ := Option.ne_none_iff_exists'.mp hs
    exact hrep s hs hf
  · rw [if_neg hr]
    exact ⟨rfl, rfl, fun _ _ => rfl, fun h => absurd h hr⟩

/-- The second part: the ports. -/
def Dev.portsUnclocked (d : Dev) : Dev := d.sourceLost.each (List.range 60) Dev.portClkLoss

theorem Dev.portsUnclocked_spec (d : Dev) :
    let e := d.portsUnclocked
    e.clk = { d.clk with xin0 := false } ∧ e.tb.time = d.tb.time ∧ (∀ p, p < 60 → e.portState p = clkLostState (d.portState p)) ∧
    (∀ n, e.fld HBM_STATUS HBM_STATUS_STATE n = d.fld HBM_STATUS HBM_STATUS_STATE n) ∧
    (d.running = true → d.sheaf ≠ none → d.job.faulted = false → e.faultedBy jfClkLoss) := by
  obtain ⟨hclk, htime, hregs, hrep⟩ := d.sourceLost_spec
  unfold Dev.portsUnclocked
  generalize d.sourceLost = b at hclk htime hregs hrep ⊢
  have hx : b.clk.xin0 = false := by rw [hclk]
  have hkept := Dev.ports_clkLoss_kept hx
  have hstate := fun p hp => Dev.ports_clkLoss_state hx (p := p) hp
  have hfaulted : b.faultedBy jfClkLoss → (b.each (List.range 60) Dev.portClkLoss).faultedBy jfClkLoss := fun h =>
    (Dev.each_keeps (I := fun e => e.clk.xin0 = false ∧ e.faultedBy jfClkLoss)
      (fun e p h => ⟨by rw [(Dev.portClkLoss_kept h.1 p).clk, h.1], Dev.portClkLoss_faultedBy h.1 p h.2⟩) _ ⟨hx, h⟩).2
  generalize b.each (List.range 60) Dev.portClkLoss = e at hkept hstate hfaulted ⊢
  refine ⟨hkept.clk.trans hclk, hkept.time.trans htime, fun p hp => ?_, fun n => ?_, fun hr hs hf => hfaulted (hrep hr hs hf)⟩
  · rw [hstate p hp]
    unfold Dev.portState Dev.fld
    rw [Dev.reg_of_find (hregs _ (not_faultOffset (Or.inl ⟨p, rfl⟩)))]
  · rw [hkept.fld fun ⟨p, ho⟩ => not_portLossOffset_stack p n ho]
    unfold Dev.fld
    rw [Dev.reg_of_find (hregs _ (not_faultOffset (Or.inr ⟨n, rfl⟩)))]

theorem HBM_STATUS_inj {n m : Nat} (h : HBM_STATUS.addr n 0 = HBM_STATUS.addr m 0) : n = m := by
  simp only [RegDef.addr, Blk.base, HBM_STATUS] at h
  omega

/-- Stack `n` is in self-refresh. -/
def Dev.asleep (d : Dev) (n : Nat) : Prop := d.fld HBM_STATUS HBM_STATUS_STATE n = 4 ∧ d.selfRef.has n = true

theorem NSet.has_add (s : NSet) (k x : Nat) : (s.add k).has x = true ↔ x = k ∨ s.has x = true := by
  simp only [NSet.has, List.contains_iff_mem]
  induction s with
  | nil => simp [NSet.add]
  | cons a t ih =>
    unfold NSet.add
    split
    · exact List.mem_cons
    · split
      · next h => subst h; simp
      · rw [List.mem_cons, ih, List.mem_cons]; tauto

theorem Dev.stackCoast_kept (d : Dev) (s : Nat) : Dev.ClockKept (· = HBM_STATUS.addr s 0) d (d.stackCoast s) := by
  have hset := fun x => d.setFld_kept HBM_STATUS HBM_STATUS_STATE x s
  unfold Dev.stackCoast
  simp only []
  split
  · exact ⟨(hset 4).clk, (hset 4).time, (hset 4).faulted, (hset 4).regs⟩
  · split
    · exact hset _
    · exact .refl _ d

theorem Dev.stackCoast_other (d : Dev) {s n : Nat} (h : n ≠ s) :
    (d.stackCoast s).fld HBM_STATUS HBM_STATUS_STATE n = d.fld HBM_STATUS HBM_STATUS_STATE n :=
  (d.stackCoast_kept s).fld (fun e => h (HBM_STATUS_inj e)) _

/-- R332: a TRAINED stack goes into self-refresh as its base die coasts. -/
theorem Dev.stackCoast_trained {d : Dev} {n : Nat} (h : d.fld HBM_STATUS HBM_STATUS_STATE n = 2) : (d.stackCoast n).asleep n := by
  unfold Dev.stackCoast
  simp only [h, decide_true, Bool.true_or, if_true]
  exact ⟨Dev.fld_setFld (RegDef.reset_lt (by decide) 0) (by decide), (NSet.has_add _ n n).mpr (Or.inl rfl)⟩

theorem Dev.stackCoast_selfRef (d : Dev) {s n : Nat} (h : d.selfRef.has n = true) : (d.stackCoast s).selfRef.has n = true := by
  unfold Dev.stackCoast
  simp only []
  split
  · exact (NSet.has_add _ s n).mpr (Or.inr h)
  · split <;> simp [h]

theorem Dev.stackCoast_asleep {d : Dev} {n : Nat} (h : d.asleep n) (s : Nat) : (d.stackCoast s).asleep n := by
  obtain ⟨hst, href⟩ := h
  refine ⟨?_, d.stackCoast_selfRef href⟩
  by_cases hs : n = s
  · subst hs
    simp [Dev.stackCoast, hst]
  · rw [d.stackCoast_other hs, hst]

/-- R332: every TRAINED stack goes into self-refresh. -/
theorem Dev.stacks_coast {d : Dev} {n : Nat} (hn : n < 20) (h : d.fld HBM_STATUS HBM_STATUS_STATE n = 2) :
    (d.each (List.range 20) Dev.stackCoast).asleep n := by
  have settle : ∀ (e : Dev) (s : Nat), e.fld HBM_STATUS HBM_STATUS_STATE n = 2 ∨ e.asleep n →
      (e.stackCoast s).fld HBM_STATUS HBM_STATUS_STATE n = 2 ∨ (e.stackCoast s).asleep n := by
    rintro e s (he | he)
    · by_cases hs : n = s
      · exact Or.inr (hs ▸ Dev.stackCoast_trained he)
      · exact Or.inl ((e.stackCoast_other hs).trans he)
    · exact Or.inr (Dev.stackCoast_asleep he s)
  refine Dev.each_reaches (I := fun e => e.fld HBM_STATUS HBM_STATUS_STATE n = 2 ∨ e.asleep n) (J := fun e => e.asleep n) settle
    (fun e s he => Dev.stackCoast_asleep he s) (x := n) ?_ (List.mem_range.mpr hn) (Or.inl h)
  rintro e (he | he)
  · exact Dev.stackCoast_trained he
  · exact Dev.stackCoast_asleep he n

/-- Offset of a register by which the loops and stacks show the loss of XIN0. -/
def loopLossOffset (o : Nat) : Prop :=
  (∃ die, o = CLK_DSTAT.addr die 0) ∨ o = CLK_STATUS.addr 0 0 ∨ (∃ n, o = HBM_STATUS.addr n 0) ∨ o = CLK_TB_STATUS.addr 0 0

/-- The third part: the loops' LOSS bits, the stacks, the lock of the time base. -/
def Dev.loopsUnclocked (d : Dev) : Dev :=
  (((d.each (List.range 10) Dev.dieLoss).setFld CLK_STATUS CLK_STATUS_LOSS 1).each (List.range 20) Dev.stackCoast).setFld
    CLK_TB_STATUS CLK_TB_STATUS_LOCKED 0

theorem CLK_STATUS_not_stack (n : Nat) : CLK_STATUS.addr 0 0 ≠ HBM_STATUS.addr n 0 := by
  simp only [RegDef.addr, Blk.base, CLK_STATUS, HBM_STATUS]
  omega

theorem Dev.loopsUnclocked_spec (d : Dev) :
    let e := d.loopsUnclocked
    Dev.ClockKept loopLossOffset d e ∧ e.fld CLK_STATUS CLK_STATUS_LOSS = 1 ∧
    (∀ n, n < 20 → d.fld HBM_STATUS HBM_STATUS_STATE n = 2 → e.asleep n) ∧ e.fld CLK_TB_STATUS CLK_TB_STATUS_LOCKED = 0 := by
  have hdies : Dev.ClockKept (fun o => ∃ die, o = CLK_DSTAT.addr die 0) d (d.each (List.range 10) Dev.dieLoss) :=
    .each (fun e die => (Dev.RegsOnly.setReg e ⟨die, rfl⟩).clockKept) _ d
  unfold Dev.loopsUnclocked
  generalize d.each (List.range 10) Dev.dieLoss = a at hdies ⊢
  have hloss := a.setFld_kept CLK_STATUS CLK_STATUS_LOSS 1
  have hbit : (a.setFld CLK_STATUS CLK_STATUS_LOSS 1).fld CLK_STATUS CLK_STATUS_LOSS = 1 :=
    Dev.fld_setFld (f := CLK_STATUS_LOSS) (x := 1) (by decide) (by decide)
  generalize a.setFld CLK_STATUS CLK_STATUS_LOSS 1 = b at hloss hbit ⊢
  have hstacks : Dev.ClockKept (fun o => ∃ n, o = HBM_STATUS.addr n 0) b (b.each (List.range 20) Dev.stackCoast) :=
    .each (fun e n => (e.stackCoast_kept n).mono fun _ ho => ⟨n, ho⟩) _ b
  have hsleep := fun n hn (h : b.fld HBM_STATUS HBM_STATUS_STATE n = 2) => Dev.stacks_coast hn h
  generalize b.each (List.range 20) Dev.stackCoast = c at hstacks hsleep ⊢
  have htb := c.setFld_kept CLK_TB_STATUS CLK_TB_STATUS_LOCKED 0
  refine ⟨(((hdies.mono fun _ => Or.inl).trans (hloss.mono fun _ h => Or.inr (Or.inl h))).trans
    (hstacks.mono fun _ h => Or.inr (Or.inr (Or.inl h)))).trans (htb.mono fun _ h => Or.inr (Or.inr (Or.inr h))), ?_, fun n hn h => ?_, ?_⟩
  · rw [htb.fld (by decide), hstacks.fld fun ⟨n, e⟩ => CLK_STATUS_not_stack n e, hbit]
  · have hb : b.fld HBM_STATUS HBM_STATUS_STATE n = 2 := by
      rw [hloss.fld (CLK_STATUS_not_stack n).symm, hdies.fld, h]
      rintro ⟨die, e⟩
      simp only [RegDef.addr, Blk.base, CLK_DSTAT, HBM_STATUS] at e
      omega
    obtain ⟨hst, href⟩ := hsleep n hn hb
    refine ⟨(htb.fld ?_ _).trans hst, href⟩
    simp only [RegDef.addr, Blk.base, CLK_TB_STATUS, HBM_STATUS]
    omega
  · exact Dev.fld_setFld (by decide) (by decide)

/-- PWR_EVT counts a loss of control, where `governed`. -/
def Dev.uncontrolled (d : Dev) (governed : Bool) : Dev := if governed then d.stick PWR_EVT PWR_EVT_UNCONTROLLED 1 else d

theorem Dev.uncontrolled_only (d : Dev) (governed : Bool) : Dev.RegsOnly (· = PWR_EVT.addr 0 0) d (d.uncontrolled governed) := by
  unfold Dev.uncontrolled
  split
  · exact .stick (p := (· = PWR_EVT.addr 0 0)) d rfl
  · exact .refl _ d

/-- The loss of XIN0 by its parts, with every loop left coasting. -/
theorem Dev.clkLoss_eq {d : Dev} (hx : d.clk.xin0 = true) (hs : d.clk.settled = true) :
    let e := d.portsUnclocked.loopsUnclocked.uncontrolled (d.running || d.gov.ramp || d.gov.fill != 0)
    d.clkLoss = { e with clk := { e.clk with coast := List.range 41, relock := [] }, tb := { e.tb with good := 0, reqT1 := none } } := by
  unfold Dev.clkLoss
  simp only [hx, hs, Bool.and_self, Bool.not_true, Bool.false_eq_true, if_false]
  rfl

/-- A port's status, the report and RUNNING are not among the registers that show the loss. -/
theorem not_loopLossOffset {o : Nat} (h : (∃ p, o = HDL_STATUS.addr p 0) ∨ o = ERR_FAULT.addr 0 0 ∨ o = ADM_STATUS.addr 0 0) :
    ¬ loopLossOffset o ∧ o ≠ PWR_EVT.addr 0 0 := by
  have hnum : (0x1000_0000 ≤ o ∧ o % 0x1_0000 = 0x8) ∨ o = 0x50_0000 ∨ o = 0x10_0008 := by
    rcases h with ⟨p, e⟩ | e | e <;> simp only [RegDef.addr, Blk.base, HDL_STATUS, ERR_FAULT, ADM_STATUS] at e <;> omega
  constructor
  · rintro (⟨n, e⟩ | e | ⟨n, e⟩ | e) <;> simp only [RegDef.addr, Blk.base, CLK_DSTAT, CLK_STATUS, HBM_STATUS, CLK_TB_STATUS] at e <;> omega
  · simp only [RegDef.addr, Blk.base, PWR_EVT]
    omega

/-- R331, R332: what the loss of XIN0 brings. -/
theorem Dev.clkLoss_spec {d : Dev} (hx : d.clk.xin0 = true) (hs : d.clk.settled = true) :
    let e := d.clkLoss
    e.clk = { d.clk with xin0 := false, coast := List.range 41, relock := [] } ∧ e.tb.time = d.tb.time ∧
    e.fld CLK_STATUS CLK_STATUS_LOSS = 1 ∧ e.fld CLK_TB_STATUS CLK_TB_STATUS_LOCKED = 0 ∧
    (∀ p, p < 60 → e.portState p = clkLostState (d.portState p)) ∧
    (∀ n, n < 20 → d.fld HBM_STATUS HBM_STATUS_STATE n = 2 → e.asleep n) ∧
    (d.running = true → d.sheaf ≠ none → d.job.faulted = false → e.faultedBy jfClkLoss) := by
  obtain ⟨hclk, htime, hports, hstacks, hrep⟩ := d.portsUnclocked_spec
  obtain ⟨hloops, hloss, hsleep, hlock⟩ := d.portsUnclocked.loopsUnclocked_spec
  have hpwr := d.portsUnclocked.loopsUnclocked.uncontrolled_only (d.running || d.gov.ramp || d.gov.fill != 0)
  have href : (d.portsUnclocked.loopsUnclocked.uncontrolled (d.running || d.gov.ramp || d.gov.fill != 0)).selfRef =
      d.portsUnclocked.loopsUnclocked.selfRef := by rw [hpwr.1]
  have hpwr := hpwr.clockKept
  rw [Dev.clkLoss_eq hx hs]
  generalize d.portsUnclocked.loopsUnclocked.uncontrolled (d.running || d.gov.ramp || d.gov.fill != 0) = c at hpwr href ⊢
  generalize d.portsUnclocked.loopsUnclocked = b at hloops hloss hsleep hlock hpwr href
  generalize d.portsUnclocked = a at hclk htime hports hstacks hrep hloops hsleep
  refine ⟨?_, ?_, ?_, ?_, fun p hp => ?_, fun n hn h => ?_, fun hr hs hf => ?_⟩
  · show { c.clk with coast := List.range 41, relock := [] } = _
    rw [hpwr.clk, hloops.clk, hclk]
  · exact hpwr.time.trans (hloops.time.trans htime)
  · exact (hpwr.fld (by decide) _).trans hloss
  · exact (hpwr.fld (by decide) _).trans hlock
  · obtain ⟨hl, hw⟩ := not_loopLossOffset (Or.inl ⟨p, rfl⟩)
    exact (hpwr.fld hw _).trans ((hloops.fld hl _).trans (hports p hp))
  · obtain ⟨hst, hself⟩ := hsleep n hn ((hstacks n).trans h)
    refine ⟨(hpwr.fld ?_ _).trans hst, href ▸ hself⟩
    simp only [RegDef.addr, Blk.base, PWR_EVT, HBM_STATUS]
    omega
  · obtain ⟨hlf, hwf⟩ := not_loopLossOffset (o := ERR_FAULT.addr 0 0) (by simp)
    obtain ⟨hla, hwa⟩ := not_loopLossOffset (o := ADM_STATUS.addr 0 0) (by simp)
    exact hpwr.faultedBy hwf hwa (hloops.faultedBy hlf hla (hrep hr hs hf))

/-! ### RELOCK -/

/-- What RELOCK does at a port: an enabled one trains (R333). -/
def Dev.portRelock (d : Dev) (p : Nat) : Dev := if d.bit HDL_CFG HDL_CFG_ENABLE p then d.portRun p true else d

/-- R270, R333: an enabled port trains at RELOCK unless it is UP or trains, and no other port is touched. -/
theorem Dev.portRelock_cases (d : Dev) (p : Nat) :
    d.portRelock p = d ∧ (d.bit HDL_CFG HDL_CFG_ENABLE p = true → d.portState p = portUp ∨ d.portState p = portTraining) ∨
    d.portRelock p = d.trainPort p 0 ∧ d.portState p ≠ portUp := by
  unfold Dev.portRelock Dev.portRun
  by_cases hen : d.bit HDL_CFG HDL_CFG_ENABLE p = true
  · by_cases hst : d.portState p = portUp ∨ d.portState p = portTraining
    · exact Or.inl ⟨by simp [hen, hst], fun _ => hst⟩
    · exact Or.inr ⟨by simp [hen, hst], fun h => hst (Or.inl h)⟩
  · exact Or.inl ⟨by simp [hen], fun h => absurd h hen⟩

theorem Dev.portRelock_kept (d : Dev) (p : Nat) : Dev.ClockKept (portOffset p) d (d.portRelock p) ∧ (d.portRelock p).mem = d.mem := by
  rcases d.portRelock_cases p with ⟨h, -⟩ | ⟨h, -⟩ <;> rw [h]
  · exact ⟨.refl _ d, rfl⟩
  · exact ⟨(d.trainPort_spec p 0).1, d.trainPort_mem p 0⟩

theorem HDL_CFG_not_portOffset (p q : Nat) : ¬ portOffset q (HDL_CFG.addr p 0) := by
  rintro (e | e)
  · simp only [RegDef.addr, Blk.base, HDL_STATUS, HDL_CFG] at e; omega
  · exact not_traceOffset (by simp only [RegDef.addr, Blk.base, HDL_CFG]; omega) e

/-- RELOCK at the ports trains port `p` if that is enabled and not UP. -/
theorem Dev.ports_relock {d : Dev} {p : Nat} (hp : p < 60) (hen : d.bit HDL_CFG HDL_CFG_ENABLE p = true) (hst : d.portState p ≠ portUp) :
    (d.each (List.range 60) Dev.portRelock).portState p = portTraining := by
  have cfg : ∀ (e : Dev) (q : Nat), (e.portRelock q).bit HDL_CFG HDL_CFG_ENABLE p = e.bit HDL_CFG HDL_CFG_ENABLE p := fun e q => by
    unfold Dev.bit
    rw [(e.portRelock_kept q).1.fld (HDL_CFG_not_portOffset p q)]
  have other : ∀ (e : Dev) (q : Nat), p ≠ q → (e.portRelock q).portState p = e.portState p := fun e q h =>
    (e.portRelock_kept q).1.fld (not_portOffset h) _
  have own : ∀ e : Dev, e.bit HDL_CFG HDL_CFG_ENABLE p = true → e.portState p ≠ portUp → (e.portRelock p).portState p = portTraining := fun e hen hst => by
    rcases e.portRelock_cases p with ⟨h, hon⟩ | ⟨h, -⟩ <;> rw [h]
    · exact (hon hen).resolve_left hst
    · exact (e.trainPort_spec p 0).2
  refine (Dev.each_reaches (I := fun e => e.bit HDL_CFG HDL_CFG_ENABLE p = true ∧ e.portState p ≠ portUp)
    (J := fun e => e.bit HDL_CFG HDL_CFG_ENABLE p = true ∧ e.portState p = portTraining) (fun e q h => ⟨(cfg e q).trans h.1, ?_⟩)
    (fun e q h => ⟨(cfg e q).trans h.1, ?_⟩) (fun e h => ⟨(cfg e p).trans h.1, own e h.1 h.2⟩) (List.mem_range.mpr hp) ⟨hen, hst⟩).2
  · by_cases hq : p = q
    · subst hq
      rw [own e h.1 h.2]
      decide
    · rw [other e q hq]
      exact h.2
  · by_cases hq : p = q
    · subst hq
      exact own e h.1 (by rw [h.2]; decide)
    · exact (other e q hq).trans h.2

/-- RELOCK's work on loops and exchange, before the ports. -/
def Dev.loopsRelock (d : Dev) : Dev :=
  { d with clk := { d.clk with relock := List.range 41, coast := [] }, tb := { d.tb with good := 0, reqT1 := none } }

theorem Dev.relock_eq {d : Dev} (hx : d.clk.xin0 = true) (hs : d.clk.settled = true) :
    d.relock = (if d.pwrMode = 2 then d.loopsRelock else d.loopsRelock.each (List.range 60) Dev.portRelock).emit .ok := by
  have hmode : d.loopsRelock.pwrMode = d.pwrMode := rfl
  rw [← hmode]
  exact if_neg (by simp [hx, hs])

theorem Dev.relock_refused {d : Dev} (h : d.clk.xin0 = false ∨ d.clk.settled = false) : d.relock = d.emit .err := by
  unfold Dev.relock
  rcases h with h | h <;> simp [h]

/-- R333: every loop relocks, and enabled ports train but in DEEP. -/
theorem Dev.relock_spec {d : Dev} (hx : d.clk.xin0 = true) (hs : d.clk.settled = true) :
    let e := d.relock
    e.clk.coast = [] ∧ e.clk.relock = List.range 41 ∧ (∀ p, p < 60 → d.pwrMode ≠ 2 → d.waitsToTrain p → e.portState p = portTraining) ∧
    e.mem = d.mem ∧ e.out.getLast? = some .ok := by
  have hports : ∀ p, p < 60 → d.waitsToTrain p → (d.loopsRelock.each (List.range 60) Dev.portRelock).portState p = portTraining :=
    fun p hp hw => Dev.ports_relock hp hw.1 hw.2.1
  obtain ⟨hkept, hmem⟩ : Dev.ClockKept (fun o => ∃ p, portOffset p o) d.loopsRelock (d.loopsRelock.each (List.range 60) Dev.portRelock) ∧
      (d.loopsRelock.each (List.range 60) Dev.portRelock).mem = d.mem :=
    Dev.each_keeps (I := fun e => Dev.ClockKept (fun o => ∃ p, portOffset p o) d.loopsRelock e ∧ e.mem = d.mem)
      (fun e p h => ⟨h.1.trans ((e.portRelock_kept p).1.mono fun _ ho => ⟨p, ho⟩), (e.portRelock_kept p).2.trans h.2⟩) _ ⟨.refl _ _, rfl⟩
  have hout : ∀ e : Dev, (e.emit .ok).out.getLast? = some .ok := fun e => List.getLast?_concat
  rw [Dev.relock_eq hx hs]
  by_cases hdeep : d.pwrMode = 2
  · rw [if_pos hdeep]
    exact ⟨rfl, rfl, fun _ _ h => absurd hdeep h, rfl, hout _⟩
  · rw [if_neg hdeep]
    generalize d.loopsRelock.each (List.range 60) Dev.portRelock = e at hports hkept hmem ⊢
    exact ⟨congrArg Clk.coast hkept.clk, congrArg Clk.relock hkept.clk, fun p hp _ hw => hports p hp hw, hmem, hout e⟩

/-! ### XO_SETTLE -/

theorem freeIn_range (x : Nat) {lo hi : Nat} (h : lo ≤ hi) : lo ≤ freeIn x lo hi ∧ freeIn x lo hi ≤ hi := by
  have := Nat.mod_lt x (show 0 < hi - lo + 1 by omega)
  unfold freeIn
  omega

theorem Dev.regView_CLK_MEAS (d : Dev) : d.regView CLK_MEAS 0 0 = if d.clk.xin1 then d.reg CLK_MEAS else d.reg CLK_MEAS % 2 ^ 32 := rfl

/-- The fields of CLK_MEAS as measured, and what a read shows with and without XIN1's copy (R320, R336). -/
theorem Dev.measured_fields {d : Dev} {fosc sosc : Nat} (hf : fosc < 2 ^ 19) (hs : sosc < 2 ^ 16) (hreg : d.reg CLK_MEAS = fosc + sosc * 2 ^ 32) :
    d.fld CLK_MEAS CLK_MEAS_FOSC_KHZ = fosc ∧ d.fld CLK_MEAS CLK_MEAS_SOSC_HZ = sosc ∧
    d.regView CLK_MEAS 0 0 = fosc + (if d.clk.xin1 then sosc * 2 ^ 32 else 0) := by
  unfold Dev.fld
  rw [Dev.regView_CLK_MEAS, hreg]
  simp only [CLK_MEAS_FOSC_KHZ, CLK_MEAS_SOSC_HZ, bitsOf, Nat.shiftRight_eq_div_pow]
  exact ⟨by omega, by omega, by split <;> omega⟩

/-- The device once XO_SETTLE has elapsed, with CLK_MEAS as measured. -/
def Dev.xoSettled (d : Dev) (meas : Nat) : Dev :=
  let d := (d.setReg CLK_MEAS meas).fresh
  { d with clk := { d.clk with settled := true, relock := List.range 40 }, tb := { d.tb with on := true } }

theorem Dev.xoSettle_eq {d : Dev} (hb : d.boot.booting = true) (hs : d.clk.settled = false) (hx : d.clk.xin0 = true) :
    d.xoSettle = d.xoSettled (freeIn (Config.freeNat d.free 0) 380000 420000 + freeIn (Config.freeNat d.free 1) 28800 35200 * 2 ^ 32) := by
  unfold Dev.xoSettle Dev.xoSettled
  rw [if_pos (by simp [hb, hs, hx])]

theorem Dev.xoSettled_frame (d : Dev) (meas : Nat) :
    let e := d.xoSettled meas
    e = { d with
      regs := e.regs, clk := { d.clk with settled := true, relock := List.range 40 }, tb := { d.tb with on := true }, free := e.free } ∧
    regsAgree (fun o => o = CLK_MEAS.addr 0 0) d e ∧ e.reg CLK_MEAS = meas % 2 ^ 64 ∧ e.clk.xin1 = d.clk.xin1 :=
  ⟨rfl, fun _ ho => Dev.find_setReg_ne ho, Dev.reg_setReg (by decide), rfl⟩

/-- R320, R321, R336: XIN0 is accepted, the time base and all loops start, FOSC and SOSC are measured. -/
theorem Dev.xoSettle_spec {d : Dev} (hb : d.boot.booting = true) (hs : d.clk.settled = false) (hx : d.clk.xin0 = true) :
    let e := d.xoSettle
    e = { d with
      regs := e.regs, clk := { d.clk with settled := true, relock := List.range 40 }, tb := { d.tb with on := true }, free := e.free } ∧
    regsAgree (fun o => o = CLK_MEAS.addr 0 0) d e ∧ 380000 ≤ e.fld CLK_MEAS CLK_MEAS_FOSC_KHZ ∧ e.fld CLK_MEAS CLK_MEAS_FOSC_KHZ ≤ 420000 ∧
    28800 ≤ e.fld CLK_MEAS CLK_MEAS_SOSC_HZ ∧ e.fld CLK_MEAS CLK_MEAS_SOSC_HZ ≤ 35200 ∧
    e.regView CLK_MEAS 0 0 = e.fld CLK_MEAS CLK_MEAS_FOSC_KHZ + (if d.clk.xin1 then e.fld CLK_MEAS CLK_MEAS_SOSC_HZ * 2 ^ 32 else 0) := by
  rw [Dev.xoSettle_eq hb hs hx]
  obtain ⟨hf, hf'⟩ := freeIn_range (Config.freeNat d.free 0) (lo := 380000) (hi := 420000) (by decide)
  obtain ⟨hz, hz'⟩ := freeIn_range (Config.freeNat d.free 1) (lo := 28800) (hi := 35200) (by decide)
  generalize freeIn (Config.freeNat d.free 0) 380000 420000 = fosc at hf hf' ⊢
  generalize freeIn (Config.freeNat d.free 1) 28800 35200 = sosc at hz hz' ⊢
  obtain ⟨hframe, hregs, hreg, hxin1⟩ := d.xoSettled_frame (fosc + sosc * 2 ^ 32)
  generalize d.xoSettled (fosc + sosc * 2 ^ 32) = e at *
  obtain ⟨hfosc, hsosc, hview⟩ := Dev.measured_fields (by omega) (by omega) (hreg.trans (Nat.mod_eq_of_lt (by omega)))
  refine ⟨hframe, hregs, ?_⟩
  rw [hfosc, hsosc, hview, hxin1]
  exact ⟨hf, hf', hz, hz', rfl⟩

/-! ### PCIE_REFCLK -/

/-- The device without the link's reference clock. -/
def Dev.linkLost (d : Dev) : Dev := { d with clk := { d.clk with pcieRef := false }, pcie := { d.pcie with link := false } }

/-- What PCIE_LOSS does. -/
def Dev.pcieLost (d : Dev) : Dev := if d.live then d.linkLost.setFld CLK_STATUS CLK_STATUS_PCIE_LOSS 1 else d.linkLost

/-- R323: the link goes, PCIE_LOSS is set while the device runs, and LOSS stays as it is. -/
theorem Dev.pcieLost_spec (d : Dev) :
    let e := d.pcieLost
    e = { d with regs := e.regs, clk := { d.clk with pcieRef := false }, pcie := { d.pcie with link := false } } ∧
    regsAgree (fun o => o = CLK_STATUS.addr 0 0) d e ∧ (d.live = true → e.fld CLK_STATUS CLK_STATUS_PCIE_LOSS = 1) ∧
    e.fld CLK_STATUS CLK_STATUS_LOSS = d.fld CLK_STATUS CLK_STATUS_LOSS := by
  unfold Dev.pcieLost
  by_cases hl : d.live = true
  · rw [if_pos hl]
    refine ⟨rfl, fun o ho => Dev.find_setReg_ne ho, fun _ => ?_, ?_⟩
    · exact Dev.fld_setFld (f := CLK_STATUS_PCIE_LOSS) (x := 1) (by decide) (by decide)
    · exact Dev.fld_setFld_ne (d := d.linkLost) (f := CLK_STATUS_PCIE_LOSS) (x := 1) (by decide) (by decide) (by decide)
  · rw [if_neg hl]
    exact ⟨rfl, fun _ _ => rfl, fun h => absurd h hl, rfl⟩

theorem execPcieLoss_next (s : State) : exec .pcieLoss s = .next { s with dev := Dev.pcieLost { s.dev with out := [] } } := rfl

/-! ### The statement -/

/-- Settles O34: each event by the lemma that says what it does, on the device as the command finds it. -/
theorem clockSources : Obligations.ClockSources := by
  intro s
  refine ⟨fun hl hb hs hx => ?_, fun hl hx hs => ?_, ?_, fun who hw hx hs => ?_, fun who hw h => ?_, ?_, ?_⟩
  · exact ⟨_, runLive_ok rfl hl _, ⟨rfl, rfl⟩, Dev.xoSettle_spec (d := { s.dev with out := [] }) hb hs hx⟩
  · obtain ⟨hclk, htime, hloss, hlock, hports, hsleep, hfault⟩ := Dev.clkLoss_spec (d := { s.dev with out := [] }) hx hs
    refine ⟨_, runLive_ok rfl hl _, ⟨rfl, rfl⟩, ?_⟩
    show (Dev.clkLoss { s.dev with out := [] }).clk.xin0 = false ∧ _
    generalize Dev.clkLoss { s.dev with out := [] } = e at *
    refine ⟨by rw [hclk], hloss, by rw [hclk], by rw [hclk], hports, hsleep, hlock, htime, fun hr hsh hf => ?_⟩
    obtain ⟨-, hstop, hcause⟩ := hfault hr hsh hf
    exact ⟨hstop, hcause⟩
  · exact ⟨_, rfl, ⟨rfl, rfl⟩, rfl⟩
  · exact ⟨_, runWho_ok rfl hw _, ⟨rfl, rfl⟩, Dev.relock_spec (d := { s.dev with out := [] }) hx hs⟩
  · exact ⟨_, runWho_ok rfl hw _, ⟨rfl, rfl⟩, Dev.relock_refused (d := { s.dev with out := [] }) h⟩
  · exact ⟨_, execPcieLoss_next s, ⟨rfl, rfl⟩, Dev.pcieLost_spec { s.dev with out := [] }⟩
  · exact ⟨_, rfl, ⟨rfl, rfl⟩, rfl⟩

end Sys2Proof.Machine
end
